-- ==== Sys2Proof/Word.lean ====
section
/-! DEFINITION. Sys2Proof/Word.lean: the word types of CORE. Registers and command words are 32 bits wide (spec R12, R60);
a buffer cell on the bus is one byte (spec R41, R45). -/

namespace Sys2Proof

/-- A register, or a command word (R12, R60). -/
abbrev Word := BitVec 32

/-- One buffer cell as the bus sees it (R45). -/
abbrev Byte := BitVec 8

end Sys2Proof
end

