-- ==== Sys2Proof/Syntax.lean ====
section
/-! DEFINITION. Sys2Proof/Syntax.lean: the command set of CORE, one constructor per row of spec/opcode_table.json
(spec R64). `DESC` is an index into a ROM table and stays a `Nat` (its bound is a check of WellFormed.lean); each flag of
R62 that the opcode defines is a `Bool`. Every other operand is in the registers `A0` to `A3` and the configuration
registers (R61), not in the command word. -/

namespace Sys2Proof

/-- The 29 commands of R64, in the table's order. `d` is the `DESC` field; the flags carry the names of R62. -/
inductive Instr where
  | nop
  | cenc (d : Nat) (p : Bool)
  | vdec (d : Nat) (p : Bool)
  | crcs (d : Nat)
  | crcc (d : Nat)
  | punc (d : Nat) (m : Bool)
  | dpun (d : Nat) (m : Bool)
  | ilv (var m : Bool)
  | dilv (var m : Bool)
  | perm (d : Nat) (inv m : Bool)
  | bmap (hl hu m : Bool)
  | bunm (fo m : Bool)
  | bmapt (odd h m : Bool)
  | bunmt (odd fo m : Bool)
  | unpk (msbf : Bool)
  | pack (msbf : Bool)
  | h2s
  | s2h
  | xcchEnc
  | xcchDec
  | rachEnc
  | rachDec
  | schEnc
  | schDec
  | pdtchEnc
  | pdtchDec (psk8 : Bool)
  | tchEnc (cmr : Bool)
  | tchDec (cmr : Bool)
  | srst
deriving DecidableEq, Repr

end Sys2Proof
end

