-- ==== Sys2Proof/WellFormed.lean ====
section
/-! DEFINITION. Sys2Proof/WellFormed.lean: when an instruction is one that a command word can carry. The only field of a
constructor that could be out of range is `DESC`, an 8-bit index (spec R60, R61). The well-formedness of the descriptor
ROM, which is a hypothesis on a parameter and not on an instruction, is in Machine/RomWellFormed.lean. -/

namespace Sys2Proof

/-- `DESC` fits its field, bits [15:8] of the command word (R60). -/
def descFits (d : Nat) : Bool := d < 256

/-- The checks on one instruction: the descriptor index fits its field. Flags are single bits and always fit (R61). -/
def Instr.wf : Instr → Bool
  | .nop => true
  | .cenc d _ => descFits d
  | .vdec d _ => descFits d
  | .crcs d => descFits d
  | .crcc d => descFits d
  | .punc d _ => descFits d
  | .dpun d _ => descFits d
  | .ilv _ _ => true
  | .dilv _ _ => true
  | .perm d _ _ => descFits d
  | .bmap _ _ _ => true
  | .bunm _ _ => true
  | .bmapt _ _ _ => true
  | .bunmt _ _ _ => true
  | .unpk _ => true
  | .pack _ => true
  | .h2s => true
  | .s2h => true
  | .xcchEnc => true
  | .xcchDec => true
  | .rachEnc => true
  | .rachDec => true
  | .schEnc => true
  | .schDec => true
  | .pdtchEnc => true
  | .pdtchDec _ => true
  | .tchEnc _ => true
  | .tchDec _ => true
  | .srst => true

end Sys2Proof
end

