-- ==== Sys2Proof/Decode.lean ====
section
/-! DEFINITION. Sys2Proof/Decode.lean: the command word (spec R60), its decoding (R63), the table of masks and match values
(R64, opcode_table.json), and the encoder. Decoding is total: every one of the 2^32 words is an instruction or is rejected
by the name of the first test of R63 it fails (R65); the machine turns each rejection into the outcome `E_ILLCMD`. -/

namespace Sys2Proof

/-- Why a word is no command: the four tests of R63, in its order. -/
inductive DecodeError where
  /-- (1) `w[31:24]` is not 0. -/
  | zField
  /-- (2) `w[7:0]` is not an opcode of R64. -/
  | unknownOpcode
  /-- (3) the opcode uses no descriptor and `w[15:8]` is not 0. -/
  | descNotZero
  /-- (4) a bit of `w[23:16]` that the opcode does not define is 1. -/
  | undefinedFlag
deriving DecidableEq, Repr

/-! ### The fields of a command word (R60) -/

/-- `OPC`, bits [7:0]. -/
def opcField (w : Word) : Nat := (w.extractLsb' 0 8).toNat

/-- `DESC`, bits [15:8]. -/
def descField (w : Word) : Nat := (w.extractLsb' 8 8).toNat

/-- `FLG`, bits [23:16]. -/
def flgField (w : Word) : Byte := w.extractLsb' 16 8

/-- `Z`, bits [31:24]. -/
def zField (w : Word) : Byte := w.extractLsb' 24 8

/-! ### What each opcode uses (R62, R64) -/

/-- The opcodes that index a ROM table by `DESC` (column "desc" of R64). -/
def usesDesc (opc : Nat) : Bool := [0x01, 0x02, 0x03, 0x04, 0x05, 0x06, 0x09].contains opc

/-- The flag bits the opcode defines, as a mask over `FLG` (R62, column "flags" of R64). -/
def definedFlags (opc : Nat) : Byte :=
  match opc with
  | 0x01 => 0x01#8
  | 0x02 => 0x01#8
  | 0x05 => 0x10#8
  | 0x06 => 0x10#8
  | 0x07 => 0x11#8
  | 0x08 => 0x11#8
  | 0x09 => 0x11#8
  | 0x0A => 0x13#8
  | 0x0B => 0x11#8
  | 0x0C => 0x13#8
  | 0x0D => 0x13#8
  | 0x0E => 0x01#8
  | 0x0F => 0x01#8
  | 0x27 => 0x01#8
  | 0x28 => 0x01#8
  | 0x29 => 0x01#8
  | _ => 0x00#8

/-- The instruction with opcode `opc`, descriptor index `d` and flags `f` (R62, R64). -/
def instrOf (opc d : Nat) (f : Byte) : Option Instr :=
  match opc with
  | 0x00 => some .nop
  | 0x01 => some (.cenc d (f.getLsbD 0))
  | 0x02 => some (.vdec d (f.getLsbD 0))
  | 0x03 => some (.crcs d)
  | 0x04 => some (.crcc d)
  | 0x05 => some (.punc d (f.getLsbD 4))
  | 0x06 => some (.dpun d (f.getLsbD 4))
  | 0x07 => some (.ilv (f.getLsbD 0) (f.getLsbD 4))
  | 0x08 => some (.dilv (f.getLsbD 0) (f.getLsbD 4))
  | 0x09 => some (.perm d (f.getLsbD 0) (f.getLsbD 4))
  | 0x0A => some (.bmap (f.getLsbD 0) (f.getLsbD 1) (f.getLsbD 4))
  | 0x0B => some (.bunm (f.getLsbD 0) (f.getLsbD 4))
  | 0x0C => some (.bmapt (f.getLsbD 0) (f.getLsbD 1) (f.getLsbD 4))
  | 0x0D => some (.bunmt (f.getLsbD 0) (f.getLsbD 1) (f.getLsbD 4))
  | 0x0E => some (.unpk (f.getLsbD 0))
  | 0x0F => some (.pack (f.getLsbD 0))
  | 0x10 => some .h2s
  | 0x11 => some .s2h
  | 0x20 => some .xcchEnc
  | 0x21 => some .xcchDec
  | 0x22 => some .rachEnc
  | 0x23 => some .rachDec
  | 0x24 => some .schEnc
  | 0x25 => some .schDec
  | 0x26 => some .pdtchEnc
  | 0x27 => some (.pdtchDec (f.getLsbD 0))
  | 0x28 => some (.tchEnc (f.getLsbD 0))
  | 0x29 => some (.tchDec (f.getLsbD 0))
  | 0x3F => some .srst
  | _ => none

/-- The decode procedure of R63, steps (1) to (4). -/
def decode (w : Word) : Except DecodeError Instr :=
  if zField w ≠ 0#8 then .error .zField
  else
    match instrOf (opcField w) (descField w) (flgField w) with
    | none => .error .unknownOpcode
    | some i =>
      if !usesDesc (opcField w) && descField w != 0 then .error .descNotZero
      else if flgField w &&& ~~~(definedFlags (opcField w)) ≠ 0#8 then .error .undefinedFlag
      else .ok i

/-- The instruction a word decodes to, or nothing where the word is illegal. -/
def decode? (w : Word) : Option Instr :=
  match decode w with
  | .ok i => some i
  | .error _ => none

/-! ### The encoder (R60, R62, R64) -/

/-- The opcode of an instruction (R64). -/
def Instr.opcode : Instr → Nat
  | .nop => 0x00
  | .cenc _ _ => 0x01
  | .vdec _ _ => 0x02
  | .crcs _ => 0x03
  | .crcc _ => 0x04
  | .punc _ _ => 0x05
  | .dpun _ _ => 0x06
  | .ilv _ _ => 0x07
  | .dilv _ _ => 0x08
  | .perm _ _ _ => 0x09
  | .bmap _ _ _ => 0x0A
  | .bunm _ _ => 0x0B
  | .bmapt _ _ _ => 0x0C
  | .bunmt _ _ _ => 0x0D
  | .unpk _ => 0x0E
  | .pack _ => 0x0F
  | .h2s => 0x10
  | .s2h => 0x11
  | .xcchEnc => 0x20
  | .xcchDec => 0x21
  | .rachEnc => 0x22
  | .rachDec => 0x23
  | .schEnc => 0x24
  | .schDec => 0x25
  | .pdtchEnc => 0x26
  | .pdtchDec _ => 0x27
  | .tchEnc _ => 0x28
  | .tchDec _ => 0x29
  | .srst => 0x3F

/-- The descriptor index of an instruction; 0 for an opcode that uses none (R60). -/
def Instr.desc : Instr → Nat
  | .cenc d _ => d
  | .vdec d _ => d
  | .crcs d => d
  | .crcc d => d
  | .punc d _ => d
  | .dpun d _ => d
  | .perm d _ _ => d
  | .nop | .ilv _ _ | .dilv _ _ | .bmap _ _ _ | .bunm _ _ | .bmapt _ _ _ | .bunmt _ _ _ | .unpk _ | .pack _ => 0
  | .h2s | .s2h | .xcchEnc | .xcchDec | .rachEnc | .rachDec | .schEnc | .schDec => 0
  | .pdtchEnc | .pdtchDec _ | .tchEnc _ | .tchDec _ | .srst => 0

/-- The `FLG` field as a number, from its bits 0, 1 and 4 (R62; no other flag bit is defined). -/
def flgOf (b0 b1 b4 : Bool) : Nat := b0.toNat + 2 * b1.toNat + 16 * b4.toNat

/-- The flags of an instruction (R62). -/
def Instr.flags : Instr → Nat
  | .cenc _ p => flgOf p false false
  | .vdec _ p => flgOf p false false
  | .punc _ m => flgOf false false m
  | .dpun _ m => flgOf false false m
  | .ilv var m => flgOf var false m
  | .dilv var m => flgOf var false m
  | .perm _ inv m => flgOf inv false m
  | .bmap hl hu m => flgOf hl hu m
  | .bunm fo m => flgOf fo false m
  | .bmapt odd h m => flgOf odd h m
  | .bunmt odd fo m => flgOf odd fo m
  | .unpk msbf => flgOf msbf false false
  | .pack msbf => flgOf msbf false false
  | .pdtchDec psk8 => flgOf psk8 false false
  | .tchEnc cmr => flgOf cmr false false
  | .tchDec cmr => flgOf cmr false false
  | .nop | .crcs _ | .crcc _ | .h2s | .s2h | .xcchEnc | .xcchDec | .rachEnc | .rachDec | .schEnc | .schDec => 0
  | .pdtchEnc | .srst => 0

/-- The command word of an instruction: `OPC | (DESC << 8) | (FLG << 16)`, `Z` = 0 (R60, R67). -/
def encode (i : Instr) : Word := BitVec.ofNat 32 (i.opcode + 256 * i.desc + 65536 * i.flags)

/-! ### The table of R64: one mask and one match value per mnemonic -/

/-- A row of the opcode table. -/
structure OpRow where
  mnemonic : String
  mask : Word
  value : Word
deriving DecidableEq, Repr

/-- The rows of R64 as the table prints them. -/
def opcodeTable : List OpRow :=
  [⟨"NOP", 0xFFFFFFFF#32, 0x00000000#32⟩, ⟨"CENC", 0xFFFE00FF#32, 0x00000001#32⟩,
   ⟨"VDEC", 0xFFFE00FF#32, 0x00000002#32⟩, ⟨"CRCS", 0xFFFF00FF#32, 0x00000003#32⟩,
   ⟨"CRCC", 0xFFFF00FF#32, 0x00000004#32⟩, ⟨"PUNC", 0xFFEF00FF#32, 0x00000005#32⟩,
   ⟨"DPUN", 0xFFEF00FF#32, 0x00000006#32⟩, ⟨"ILV", 0xFFEEFFFF#32, 0x00000007#32⟩,
   ⟨"DILV", 0xFFEEFFFF#32, 0x00000008#32⟩, ⟨"PERM", 0xFFEE00FF#32, 0x00000009#32⟩,
   ⟨"BMAP", 0xFFECFFFF#32, 0x0000000A#32⟩, ⟨"BUNM", 0xFFEEFFFF#32, 0x0000000B#32⟩,
   ⟨"BMAPT", 0xFFECFFFF#32, 0x0000000C#32⟩, ⟨"BUNMT", 0xFFECFFFF#32, 0x0000000D#32⟩,
   ⟨"UNPK", 0xFFFEFFFF#32, 0x0000000E#32⟩, ⟨"PACK", 0xFFFEFFFF#32, 0x0000000F#32⟩,
   ⟨"H2S", 0xFFFFFFFF#32, 0x00000010#32⟩, ⟨"S2H", 0xFFFFFFFF#32, 0x00000011#32⟩,
   ⟨"XCCH_ENC", 0xFFFFFFFF#32, 0x00000020#32⟩, ⟨"XCCH_DEC", 0xFFFFFFFF#32, 0x00000021#32⟩,
   ⟨"RACH_ENC", 0xFFFFFFFF#32, 0x00000022#32⟩, ⟨"RACH_DEC", 0xFFFFFFFF#32, 0x00000023#32⟩,
   ⟨"SCH_ENC", 0xFFFFFFFF#32, 0x00000024#32⟩, ⟨"SCH_DEC", 0xFFFFFFFF#32, 0x00000025#32⟩,
   ⟨"PDTCH_ENC", 0xFFFFFFFF#32, 0x00000026#32⟩, ⟨"PDTCH_DEC", 0xFFFEFFFF#32, 0x00000027#32⟩,
   ⟨"TCH_ENC", 0xFFFEFFFF#32, 0x00000028#32⟩, ⟨"TCH_DEC", 0xFFFEFFFF#32, 0x00000029#32⟩,
   ⟨"SRST", 0xFFFFFFFF#32, 0x0000003F#32⟩]

/-- The one test of R63: `(w & mask) == match`. -/
def OpRow.accepts (r : OpRow) (w : Word) : Bool := w &&& r.mask == r.value

/-- The instruction the decoder reads from a table word: the command word is the data of one 32-bit `CMD` write (R51, R66),
so there are no bytes to lay out and the bits above `nbits` are 0. -/
def decodeTableWord (nbits w : Nat) : Option Instr := decode? (BitVec.ofNat 32 (w % 2 ^ nbits))

end Sys2Proof
end

