-- ==== Sys2Proof/Config.lean ====
section
/-! DEFINITION. Sys2Proof/Config.lean: what an implementation of CORE fixes (the descriptor ROM, spec R7, R23 to R29, R176,
R196, R197) and the free values. The record types follow the spec's field lists, name for name. `Rom` holds the OPEN part
only: the entries that R27 and R197 (`TCG[0]`, `TCG[1]`, `TCG[3]`) fix, and the fields that R177 and R205 fix in every present
scheme record, are definitions of Machine/RomTable.lean. -/

namespace Sys2Proof

/-- `TERM` of a convolutional descriptor (R23): a zero-flush tail, or tail-biting. -/
inductive Termination where
  | flush
  | tailbite
deriving DecidableEq, Repr, Inhabited

/-- `TERM_OUT[s]`, `TERM_STATE[s]` of a descriptor with `HAS_TERM` = 1 (R23). -/
structure TermTable where
  out : List Nat
  next : List Nat
deriving DecidableEq, Repr, Inhabited

/-- A convolutional code descriptor `ROM.CONV[d]` (R23). `nextOut[s]` and `nextState[s]` are the pairs for input bit 0 and
input bit 1. `termTab` is present exactly when `HAS_TERM` = 1, `punc` exactly when `HAS_PUNC` = 1; `punc` is the stored
table with its sentinel entry 0xFFFF (R115). -/
structure ConvDesc where
  n : Nat
  k : Nat
  len : Nat
  term : Termination
  nextOut : List (Nat × Nat)
  nextState : List (Nat × Nat)
  termTab : Option TermTable
  punc : Option (List Nat)
deriving DecidableEq, Repr, Inhabited

/-- A CRC descriptor `ROM.CRC[p]` (R25): `BITS`, `POLY`, `INIT`, `REM`. -/
structure CrcDesc where
  bits : Nat
  poly : Nat
  init : Nat
  rem : Nat
deriving DecidableEq, Repr, Inhabited

/-- A permutation descriptor `ROM.PERM[t]` (R26): `NIN`, `NOUT`, `MAP`. -/
structure PermDesc where
  nin : Nat
  nout : Nat
  map : List Nat
deriving DecidableEq, Repr, Inhabited

/-- A pattern-set descriptor `ROM.PAT[q]` (R26): `NP` patterns of `W` bits. -/
structure PatDesc where
  np : Nat
  w : Nat
  bits : List (List Bool)
deriving DecidableEq, Repr, Inhabited

/-- `USFMODE` of a PDTCH scheme record (R176). -/
inductive UsfMode where
  | none
  | inband
  | separate
deriving DecidableEq, Repr, Inhabited

/-- `KIND` of a PDTCH scheme record (R176). -/
inductive PdsKind where
  | xcch
  | gen
deriving DecidableEq, Repr, Inhabited

/-- A present sub-block record `SUB[i]` of a PDTCH scheme (R176). -/
structure SubBlock where
  ni : Nat
  gather : List Nat
  crc : Nat
  protLo : Nat
  protN : Nat
  coded : Bool
  conv : Nat
  p : Bool
  place : Nat
deriving DecidableEq, Repr, Inhabited

/-- A PDTCH scheme record `ROM.PDS[s]` (R176). `sub0` is the header, `sub1` the first or only data block, `sub2` the
second data block; `none` is a sub-block whose `PRESENT` is 0. -/
structure PdsRec where
  octets : Nat
  psk8 : Bool
  kind : PdsKind
  sfpos : List Nat
  sfval : List Bool
  usfmode : UsfMode
  usfbits : List Nat
  usfpat : Nat
  usfplace : Nat
  sub0 : Option SubBlock
  sub1 : Option SubBlock
  sub2 : Option SubBlock
deriving DecidableEq, Repr, Inhabited

/-- `INNER` of a TCH scheme record (R196), when `INNER.PRESENT` = 1. -/
structure InnerCrc where
  crc : Nat
  sel : List Nat
deriving DecidableEq, Repr, Inhabited

/-- A TCH scheme record `ROM.TCS[s]` (R196). `NDX` is the length of `expand`; `idpat` is present for the AMR schemes. -/
structure TcsRec where
  octets : Nat
  nd : Nat
  inner : Option InnerCrc
  expand : List Nat
  order : Nat
  n1 : Nat
  nprot : Nat
  crc : Nat
  conv : Nat
  p : Bool
  idpat : Option Nat
deriving DecidableEq, Repr, Inhabited

/-- The fields of a geometry record with `KIND = TABLE` (R197). -/
structure TableGeom where
  splace : Nat
  sflags : List Nat
  fplace : Nat
  fflags : List Nat
deriving DecidableEq, Repr, Inhabited

/-- A geometry record `ROM.TCG[m]` (R197). -/
inductive Geom where
  | diag8
  | table (t : TableGeom)
deriving DecidableEq, Repr, Inhabited

/-- The OPEN fields of a GPRS scheme record, `PDS[1]` to `PDS[3]` (CS2, CS3, CS4): all that R177 does not fix. -/
structure GprsOpen where
  usfbits : List Nat
  usfpat : Nat
  gather : List Nat
  protLo : Nat
  protN : Nat
  place : Nat
deriving DecidableEq, Repr, Inhabited

/-- What the second data block of MCS7 to MCS9 has of its own: R177 gives it `CRC`, `CONV`, `P`, `NI`, `PROT_LO` and `PROT_N` of
the first. -/
structure SecondBlock where
  gather : List Nat
  coded : Bool
  place : Nat
deriving DecidableEq, Repr, Inhabited

/-- The OPEN fields of an EDGE scheme record without a second data block, `PDS[4]` to `PDS[9]` (MCS1 to MCS6): all that R177 does
not fix. `header` is `SUB[0]`, `data` is `SUB[1]`; that `header.coded` is OPEN too is the model's choice (assumption log 30). -/
structure EdgeOpen where
  sfpos : List Nat
  sfval : List Bool
  usfmode : UsfMode
  usfbits : List Nat
  usfpat : Nat
  usfplace : Nat
  header : SubBlock
  data : SubBlock
deriving DecidableEq, Repr, Inhabited

/-- The OPEN fields of `PDS[10]` to `PDS[12]` (MCS7 to MCS9), which have a second data block (R177). -/
structure EdgePairOpen extends EdgeOpen where
  second : SecondBlock
deriving DecidableEq, Repr, Inhabited

/-- The OPEN fields of the EFR record `TCS[1]` (R205). -/
structure EfrOpen where
  sel : List Nat
  expand : List Nat
  order : Nat
deriving DecidableEq, Repr, Inhabited

/-- The fields that R205 leaves OPEN in every HR and AMR record. -/
structure SpeechOpen where
  inner : Option InnerCrc
  expand : List Nat
  order : Nat
  n1 : Nat
  nprot : Nat
  conv : Nat
  p : Bool
deriving DecidableEq, Repr, Inhabited

/-- The OPEN fields of the HR record `TCS[2]` (R205). `crc` is one of them: R205 lists no class-1 CRC for HR, while 90_conflicts.md C4
says in passing that it has 3 bits; that the model leaves it free is its choice (assumption log 28). -/
structure HrOpen extends SpeechOpen where
  nd : Nat
  crc : Nat
deriving DecidableEq, Repr, Inhabited

/-- The OPEN fields of an AMR-FR record, `TCS[3]` to `TCS[10]` (R205). -/
structure AmrFrOpen extends SpeechOpen where
  idpat : Nat
deriving DecidableEq, Repr, Inhabited

/-- The OPEN fields of an AMR-HR record, `TCS[11]` to `TCS[16]` (R205). `crc` is one of them: R205 names `CRC6` for AMR-FR, while R109
and R27 give `CRC6` to AMR at large; that the model leaves it free is its choice (assumption log 29). -/
structure AmrHrOpen extends SpeechOpen where
  crc : Nat
  idpat : Nat
deriving DecidableEq, Repr, Inhabited

/-- The OPEN part of the descriptor ROM (R5, R7, D30) and nothing else: the slots of `CONV` from 6 on, of `CRC` from 8 on, all of
`PERM` and `PAT`, and of the scheme and geometry records the fields that R177, R197 and R205 do not fix. `none` is an absent
slot. `gprs` is `PDS[1]` to `PDS[3]`, `edge` `PDS[4]` to `PDS[9]`, `edgePair` `PDS[10]` to `PDS[12]`; `fr` is `ORDER` of
`TCS[0]`, `efr` is `TCS[1]`, `hr` `TCS[2]`, `amrFr` `TCS[3]` to `TCS[10]`, `amrHr` `TCS[11]` to `TCS[16]`; `tcgHr` and
`tcgAhr` are `TCG[2]` and `TCG[4]`. -/
structure Rom where
  conv : List (Option ConvDesc)
  crc : List (Option CrcDesc)
  perm : List (Option PermDesc)
  pat : List (Option PatDesc)
  gprs : List (Option GprsOpen)
  edge : List (Option EdgeOpen)
  edgePair : List (Option EdgePairOpen)
  fr : Option Nat
  efr : Option EfrOpen
  hr : Option HrOpen
  amrFr : List (Option AmrFrOpen)
  amrHr : List (Option AmrHrOpen)
  tcgHr : TableGeom
  tcgAhr : TableGeom
deriving DecidableEq, Repr, Inhabited

/-- The OPEN part of the ROM of the implementation at hand: an uninterpreted constant (R5, R7, D30; assumption log 2).
Only `State.reset` names it: everywhere else the ROM is the one the state carries. -/
opaque Config.openRom : Rom

/-- The contents of a buffer cell that nothing has written since power-on reset (R237, U1 to U3; assumption log 4): any
value, stable until written. The arguments are the number of the CORE instance, how many power-on resets have gone
before, the number of the buffer and the cell's index. -/
opaque Config.powerOnCell (inst epoch buffer cell : Nat) : Byte

end Sys2Proof
end

