-- ==== Sys2Proof/Machine/Layout.lean ====
section
/-! DEFINITION. Sys2Proof/Machine/Layout.lean: the fixed numbers of CORE: parameters (spec R7), the register map (R12), the
address map of an instance window (R41) and the ROM role indices (R28). -/

namespace Sys2Proof.Machine

/-! ### Fixed parameters (R7) -/

/-- `OB_SIZE`: octets in the octet buffer. -/
def obSize : Nat := 256

/-- `HB_SIZE`: cells in the hard-bit buffer. -/
def hbSize : Nat := 4096

/-- `SB_SIZE`: cells in the soft-bit buffer. -/
def sbSize : Nat := 4096

/-- `VMAX`: the largest bit-vector length any single operand may have. -/
def vmax : Nat := 2048

/-- `INST_STRIDE`: byte distance between the windows of two instances. -/
def instStride : Nat := 0x4000

/-- `ID_VALUE`: what register `ID` always reads (R13). -/
def idValue : Word := 0x05030007#32

/-- `INF`: the "unreachable" path metric of the Viterbi decoder. -/
def inf : Nat := 0x00FFFFFF

/-- The sentinel that ends a puncturing table, −1 in a 16-bit cell (R115). -/
def sentinel : Nat := 0xFFFF

/-! ### Register offsets (R12) -/

def offId : Nat := 0x00
def offCmd : Nat := 0x04
def offStatus : Nat := 0x08
def offA0 : Nat := 0x0C
def offA1 : Nat := 0x10
def offA2 : Nat := 0x14
def offA3 : Nat := 0x18
def offNerr : Nat := 0x1C
def offNbits : Nat := 0x20
def offRlen : Nat := 0x24
def offDetid : Nat := 0x28
def offSteal : Nat := 0x2C
def offSubst : Nat := 0x30
def offBsic : Nat := 0x34
def offChmode : Nat := 0x38
def offAmrcfg : Nat := 0x3C
def offPdcfg : Nat := 0x40

/-! ### Implemented bits and reset value of the configuration registers (R12, R18, R236) -/

/-- `BSIC` implements bits [5:0]. -/
def bsicMask : Word := 0x0000003F#32

/-- `CHMODE` implements bits [2:0]. -/
def chmodeMask : Word := 0x00000007#32

/-- `PDCFG` implements bits [12:0] and [23:16]. -/
def pdcfgMask : Word := 0x00FF1FFF#32

/-- The reset value of `PDCFG`: every scheme and every USF value enabled. -/
def pdcfgReset : Word := 0x00FF1FFF#32

/-! ### Role indices (R28) -/

def xcchConv : Nat := 0
def rachConv : Nat := 1
def schConv : Nat := 2
def fireCrc : Nat := 0
def rachCrc : Nat := 6
def schCrc : Nat := 3

/-! ### Burst sizes -/

/-- Positions of a normal burst's coded payload (R134). -/
def burstWidth : Nat := 116

/-- Positions of an EDGE 8-PSK burst (R176). -/
def pskWidth : Nat := 348

/-- Cells of the burst area of every TCH command: eight bursts of 116 (R197). -/
def tchArea : Nat := 928

end Sys2Proof.Machine
end

