-- ==== Sys2Proof/Machine/State.lean ====
section
/-! DEFINITION. Sys2Proof/Machine/State.lean: the state of CORE as plain data (spec R7, R8, R12 to R19, R30, R40), the names
of outcomes and stages (R30, R215), and the state after reset (R33, R236, R237). -/

namespace Sys2Proof.Machine

/-- The stages of the sequencer (R30). Stages 14 and 15 do not exist. -/
inductive Stage where
  | s0 | s1 | s2 | s3 | s4 | s5 | s6 | s7 | s8 | s9 | s10 | s11 | s12 | s13
deriving DecidableEq, Repr

/-- The eight outcome codes of a command (R215). -/
inductive Code where
  /-- success -/
  | ok
  /-- a CRC check failed -/
  | eCrc
  /-- no scheme for the length or mode -/
  | eUnsup
  /-- encode input mismatch -/
  | eEncin
  /-- warning: a blind-detected id is outside the configured set -/
  | wOor
  /-- the word is no command -/
  | eIllcmd
  /-- the descriptor is absent or out of range -/
  | eDesc
  /-- an operand does not lie inside its buffer -/
  | eRange
deriving DecidableEq, Repr

/-- The three buffers of an instance (R19). -/
inductive Buf where
  | ob
  | hb
  | sb
deriving DecidableEq, Repr

/-- The cells of a buffer that have been written since power-on reset, as (index, byte) pairs with strictly rising indices.
An unlisted cell has no value here; what reading it gives is `CoreInst.cell` of Machine/Ops.lean (R237, R240). -/
abbrev Memory := List Host.Cell

/-- One CORE instance (R8, R227): its registers (R12), buffers (R19) and sequencer (R30). Register `ID` is hard-wired (R13)
and is given by the read operation. `index` and `epoch` are the model's own: the instance's number, and how many power-on
resets have gone before; they only tell the free values of unwritten cells apart (R237). -/
structure CoreInst where
  index : Nat
  epoch : Nat
  cmd : Word
  status : Word
  a0 : Word
  a1 : Word
  a2 : Word
  a3 : Word
  nerr : Word
  nbits : Word
  rlen : Word
  detid : Word
  steal : Word
  subst : Word
  bsic : Word
  chmode : Word
  amrcfg : Word
  pdcfg : Word
  stage : Stage
  idle : Bool
  ob : Memory
  hb : Memory
  sb : Memory
deriving DecidableEq, Repr

/-- The width `n` of a host access, in bytes: 1, 2 or 4 (R40). -/
inductive Width where
  | byte
  | half
  | word
deriving DecidableEq, Repr

/-- What the outside world can do to CORE (R6, R40, R235): a bus read, a bus write, or the power-on reset input. Addresses are
byte addresses on the host's bus (R41). -/
inductive BusEvent where
  | read (addr : Nat) (w : Width)
  | write (addr : Nat) (w : Width) (v : Word)
  | powerOn
deriving DecidableEq, Repr

/-- The port's answer to a transaction (R44, R47): a write completed, a read's data, or a bus error. -/
inductive Response where
  | done
  | data (v : Word)
  | busError
deriving DecidableEq, Repr

/-- What an implementation fixes (R7): the OPEN part of the ROM (R29: shared by all instances, never changed) and the bus
address of instance 0 (R41). They stand in the state because a statement about every state is then a statement about every
ROM; no step changes them (assumption log 1). -/
structure Params where
  rom : Rom
  base : Nat
deriving DecidableEq, Repr

/-- The whole block: its parameters, its `NINST` instances (R8), and the host's side of the port (the model's own fields):
`pending` the transactions the host has issued and the port has not yet taken, oldest first (R40, R49), `active` the instance
whose port took the last command, `resp` the answer to the last transaction, `epoch` the number of power-on resets so far (R238). -/
structure State where
  params : Params
  insts : List CoreInst
  active : Nat
  epoch : Nat
  pending : List BusEvent
  resp : Option Response
deriving DecidableEq, Repr

/-- Reasons the machine stops with a fault. There is none: "There is no fatal condition and no halted or stuck state" (R216),
every command ends (R245), and a bus error is an answer of the port that leaves the block running (R44). -/
inductive Fault where
deriving DecidableEq, Repr

/-- Reasons an instruction has no meaning. -/
inductive Refusal where
  /-- Raised by an arm of `exec` for an instruction that has no meaning yet; safe, since the machine stops. No arm answers
  it: every row of the opcode table is modelled. -/
  | notModelled (mnemonic : String)
deriving DecidableEq, Repr

/-- One instance right after power-on reset (R33, R236, R237): `PDCFG` enables everything, every other register is 0, the
sequencer is idle, no buffer cell is written. `stage` "has no meaning" while idle (R30): `s0` here (assumption log 5). -/
def coreReset (index epoch : Nat) : CoreInst :=
  { index := index, epoch := epoch, cmd := 0#32, status := 0#32, a0 := 0#32, a1 := 0#32, a2 := 0#32, a3 := 0#32,
    nerr := 0#32, nbits := 0#32, rlen := 0#32, detid := 0#32, steal := 0#32, subst := 0#32, bsic := 0#32, chmode := 0#32,
    amrcfg := 0#32, pdcfg := pdcfgReset, stage := .s0, idle := true, ob := [], hb := [], sb := [] }

/-- CORE right after power-on reset: the default number of instances, one (R7), each as `coreReset` says; the OPEN part of
the ROM is the implementation's (R5); nothing pending at the port. -/
def State.reset : State :=
  { params := { rom := Config.openRom, base := 0 }, insts := [coreReset 0 0], active := 0, epoch := 0, pending := [],
    resp := none }

end Sys2Proof.Machine
end

