-- ==== Sys2Proof/Machine/Flags.lean ====
section
/-! DEFINITION. Sys2Proof/Machine/Flags.lean: the fields of the result and configuration registers: the `STATUS` image with
its flags (spec R14, R22, R217), `DETID`, `STEAL`, `SUBST` (R17), and the fields of `BSIC`, `AMRCFG` and `PDCFG` that
commands read (R18). -/

namespace Sys2Proof.Machine

/-! ### Numbers of stages and outcome codes -/

/-- The number of a stage, as `STATUS.FSTAGE` reports it (R14, R30). -/
def stageNum : Stage → Nat
  | .s0 => 0
  | .s1 => 1
  | .s2 => 2
  | .s3 => 3
  | .s4 => 4
  | .s5 => 5
  | .s6 => 6
  | .s7 => 7
  | .s8 => 8
  | .s9 => 9
  | .s10 => 10
  | .s11 => 11
  | .s12 => 12
  | .s13 => 13

/-- The number of an outcome code, as `STATUS.CODE` reports it (R215). -/
def codeNum : Code → Nat
  | .ok => 0x00
  | .eCrc => 0x01
  | .eUnsup => 0x02
  | .eEncin => 0x03
  | .wOor => 0x04
  | .eIllcmd => 0x10
  | .eDesc => 0x11
  | .eRange => 0x12

/-! ### Bit fields of a register -/

/-- Bits `[lo+len-1 : lo]` of a register, as an unsigned number (R9). -/
def getField (w : Word) (lo len : Nat) : Nat := w.toNat / 2 ^ lo % 2 ^ len

/-- A register with the field `[lo+len-1 : lo]` replaced by `v`. -/
def setField (w : Word) (lo len v : Nat) : Word :=
  (w &&& ~~~(BitVec.ofNat 32 ((2 ^ len - 1) * 2 ^ lo))) ||| BitVec.ofNat 32 (v % 2 ^ len * 2 ^ lo)

/-- A number whose bit `i` is element `i` of the list. -/
def bitsNum : List Bool → Nat
  | [] => 0
  | b :: bs => b.toNat + 2 * bitsNum bs

/-! ### `STATUS` (R14, R217) -/

/-- The status flags a command may set on its way, before it ends (R22). -/
structure CmdFlags where
  oor : Bool := false
  facch : Bool := false
deriving DecidableEq, Repr

/-- `CRCF`: 1 exactly when the command ends `E_CRC` (R217). -/
def crcFlag (code : Code) : Bool := code == .eCrc

/-- The register image written when a command ends: `CODE`, `DONE`, `CRCF`, `OOR`, `FACCH`, `FSTAGE`, `OPC` (R217). -/
def statusImage (opc : Nat) (code : Code) (fl : CmdFlags) (st : Stage) : Word :=
  BitVec.ofNat 32 (codeNum code + 0x100 + 0x200 * (crcFlag code).toNat + 0x400 * fl.oor.toNat + 0x800 * fl.facch.toNat
    + 0x1000 * stageNum st + 0x10000 * opc)

/-! ### `DETID`, `STEAL`, `SUBST` (R17) -/

/-- `DETID.ID0 <- id; DETID.ID0V <- 1`. -/
def detidId (w : Word) (id : Nat) : Word := setField (setField w 0 8 id) 8 1 1

/-- `DETID.SCH <- s; DETID.SCHV <- 1`. -/
def detidScheme (w : Word) (s : Nat) : Word := setField (setField w 16 8 s) 24 1 1

/-- `STEAL` of `XCCH_DEC` and `PDTCH_DEC`: the hard decisions of the stealing flags, flag `n` in bit `n`. -/
def stealHard (flags : List Bool) : Word := BitVec.ofNat 32 (bitsNum flags)

/-- `STEAL` of `TCH_DEC`: hard decisions in the low half, `tc_16` of the stealing sum in bits [31:16] (R17, R199). Bit `B` is the
decision of `F[B]` (R199), which is the flag of burst `B` (R17) in every geometry of a well-formed ROM (assumption log 31). -/
def stealTch (flags : List Bool) (sum : Int) : Word :=
  setField (setField 0#32 0 16 (bitsNum flags)) 16 16 (BitVec.ofInt 16 sum).toNat

/-- `SUBST.CHK[i] <- 1; SUBST.PASS[i] <- ok`. -/
def substCheck (w : Word) (i : Nat) (ok : Bool) : Word := setField (setField w i 1 1) (8 + i) 1 ok.toNat

/-! ### Configuration fields (R18) -/

/-- The codec mode of slot `i` of `AMRCFG`, or nothing when the slot is not valid. -/
def amrSlot (cfg : Word) (i : Nat) : Option Nat :=
  if cfg.getLsbD (4 * i + 3) then some (getField cfg (4 * i) 3) else none

/-- Bit `s` of `PDCFG.SCHEMES`. -/
def schemeEnabled (cfg : Word) (s : Nat) : Bool := getField cfg 0 13 |>.testBit s

/-- Bit `u` of `PDCFG.USFSET`. -/
def usfValid (cfg : Word) (u : Nat) : Bool := getField cfg 16 8 |>.testBit u

/-- `CHMODE` [2:0]. -/
def chmodeOf (w : Word) : Nat := getField w 0 3

/-- Bit `5 - i` of `BSIC`, the bit that meets parity bit `i` (R162). -/
def bsicBit (w : Word) (i : Nat) : Bool := w.getLsbD (5 - i)

end Sys2Proof.Machine
end

