-- ==== Sys2Proof/Machine/Ops.lean ====
section
/-! DEFINITION. Sys2Proof/Machine/Ops.lean: the named operations over buffers and registers, and ENDING A COMMAND as the one
shared operation that takes the place of an exception entry on this hardware (spec R217, R220: an outcome is a value in a
register, nothing is saved and there is no return). -/

namespace Sys2Proof.Machine

/-! ### A buffer as a sparse memory -/

/-- The value written at index `a`, or nothing where nothing has been written since power-on. -/
def Memory.read? (m : Memory) (a : Nat) : Option Byte :=
  match m with
  | [] => none
  | (b, v) :: t => if b = a then some v else Memory.read? t a

/-- Write one cell, keeping the indices strictly rising. -/
def Memory.write (m : Memory) (a : Nat) (v : Byte) : Memory :=
  match m with
  | [] => [(a, v)]
  | (b, w) :: t => if a < b then (a, v) :: (b, w) :: t else if a = b then (a, v) :: t else (b, w) :: Memory.write t a v

/-- The canonical form: indices strictly rising. An unlisted cell has no value, so no entry can repeat what it reads as. -/
abbrev Memory.wf (m : Memory) : Prop := m.Pairwise fun x y => x.1 < y.1

/-- Write cells one after the other. -/
def Memory.writeAll (m : Memory) (ws : List Host.Cell) : Memory := ws.foldl (fun m w => Memory.write m w.1 w.2) m

/-! ### Buffers of an instance (R19, R41, R45) -/

/-- The size of a buffer in cells (R7). -/
def bufSize : Buf → Nat
  | .ob => obSize
  | .hb => hbSize
  | .sb => sbSize

/-- A number for each buffer, to tell the free values of unwritten cells apart. -/
def bufNum : Buf → Nat
  | .ob => 0
  | .hb => 1
  | .sb => 2

/-- What a cell can hold: a hard-bit cell keeps bit 0 of the byte, the others keep the byte (R45). -/
def cellForm (b : Buf) (v : Byte) : Byte :=
  match b with
  | .hb => v &&& 1#8
  | .ob | .sb => v

/-- The cells of a buffer. -/
def CoreInst.mem (c : CoreInst) : Buf → Memory
  | .ob => c.ob
  | .hb => c.hb
  | .sb => c.sb

/-- The instance with the cells of one buffer replaced. -/
def CoreInst.setMem (c : CoreInst) (b : Buf) (m : Memory) : CoreInst :=
  match b with
  | .ob => { c with ob := m }
  | .hb => { c with hb := m }
  | .sb => { c with sb := m }

/-- `OB[k]`, `HB[k]` or `SB[k]` as the byte the bus sees. A cell nothing has written since power-on holds a free value of its
type, stable until written (R237, R240, U1, U3; assumption log 4). -/
def CoreInst.cell (c : CoreInst) (b : Buf) (k : Nat) : Byte :=
  cellForm b ((Memory.read? (c.mem b) k).getD (Config.powerOnCell c.index c.epoch (bufNum b) k))

/-- Write the listed cells of one buffer (the work of stage `S13`, R48). -/
def CoreInst.store (c : CoreInst) (b : Buf) (ws : List Host.Cell) : CoreInst :=
  c.setMem b (Memory.writeAll (c.mem b) (ws.map fun w => (w.1, cellForm b w.2)))

/-! ### Result registers and the end of a command -/

/-- Stage `S0` of every command clears the result registers (R16, R17). -/
def CoreInst.clearResults (c : CoreInst) : CoreInst :=
  { c with nerr := 0#32, nbits := 0#32, rlen := 0#32, detid := 0#32, steal := 0#32, subst := 0#32 }

/-- The result length (R16). -/
def CoreInst.setRlen (c : CoreInst) (n : Nat) : CoreInst := { c with rlen := BitVec.ofNat 32 n }

/-- The error statistics, written when the Viterbi stage has completed (R16, R100). -/
def CoreInst.setStats (c : CoreInst) (ne nb : Nat) : CoreInst :=
  { c with nerr := BitVec.ofNat 32 ne, nbits := BitVec.ofNat 32 nb }

/-- A command ends: `STATUS` is written and the sequencer is idle in the stage it reached (R31, R217). Every outcome of
every command is this operation; no cell and no other register changes. -/
def CoreInst.endCommand (c : CoreInst) (opc : Nat) (code : Code) (fl : CmdFlags) (st : Stage) : CoreInst :=
  { c with status := statusImage opc code fl st, stage := st, idle := true }

/-- `raise E_X` where no flag has been set: the command ends with a failure code, `RLEN` still 0 (R217). -/
def CoreInst.raise (c : CoreInst) (opc : Nat) (code : Code) (st : Stage) : CoreInst := c.endCommand opc code {} st

/-- Completion `OK` in stage `S13` with a result length (R215, R217). -/
def CoreInst.complete (c : CoreInst) (opc : Nat) (n : Nat) : CoreInst := (c.setRlen n).endCommand opc .ok {} .s13

/-- An illegal command word: the result registers are cleared in `S0` and the command ends `E_ILLCMD`; `OPC` is still bits
[7:0] of the word (R63, R65, R217). -/
def CoreInst.illegal (c : CoreInst) (w : Word) : CoreInst :=
  c.clearResults.raise (getField w 0 8) .eIllcmd .s0

/-- Every register of an instance at its reset value, its buffers untouched (R33, R151, R236). -/
def CoreInst.resetRegs (c : CoreInst) : CoreInst :=
  { coreReset c.index c.epoch with ob := c.ob, hb := c.hb, sb := c.sb }

/-! ### The executing instance -/

/-- The instance that executes: the one whose port took the command (R41, R47). -/
def State.cur? (s : State) : Option CoreInst := s.insts[s.active]?

/-- A command acts on the executing instance and on nothing else (R8, R21, R227). -/
def State.onActive (s : State) (f : CoreInst → CoreInst) : State := { s with insts := s.insts.modify s.active f }

/-- Power-on reset: every instance at once; its registers at their reset values and no buffer cell's value known
(R235, R236, R237, R238). -/
def State.powerOn (s : State) : State :=
  { s with insts := s.insts.mapIdx (fun i _ => coreReset i (s.epoch + 1)), epoch := s.epoch + 1, resp := none }

end Sys2Proof.Machine
end

