-- ==== Sys2Proof/Machine/Bus.lean ====
section
/-! DEFINITION. Sys2Proof/Machine/Bus.lean: the host port (spec R40 to R47): the address map, register and cell accesses, and how a
transaction is answered. This is where a command word reaches the sequencer: "Commands are not fetched from memory: the
command word is the data of the CMD write" (R51). -/

namespace Sys2Proof.Machine

/-! ### The address map (R41) -/

/-- What an offset inside an instance window selects. -/
inductive Target where
  | reg (off : Nat)
  | cell (b : Buf) (k : Nat)
  | unmapped
deriving DecidableEq, Repr

/-- The table of R41. -/
def windowTarget (o : Nat) : Target :=
  if o < 0x0100 then .reg o
  else if o < 0x0200 then .cell .ob (o - 0x0100)
  else if o < 0x1000 then .unmapped
  else if o < 0x2000 then .cell .hb (o - 0x1000)
  else if o < 0x3000 then .cell .sb (o - 0x2000)
  else .unmapped

/-- The instance window a bus address lies in, and the offset inside it; nothing for an address outside all of them. -/
def locate (s : State) (addr : Nat) : Option (Nat × Nat) :=
  if addr < s.params.base then none
  else
    let o := addr - s.params.base
    if o / instStride < s.insts.length then some (o / instStride, o % instStride) else none

/-- The bus address of offset `o` in the window of instance `i` (R41). -/
def State.addrOf (s : State) (i o : Nat) : Nat := s.params.base + i * instStride + o

/-! ### Registers (R12, R13, R18) -/

/-- A register read: `ID` always reads `ID_VALUE`; a reserved offset reads 0. -/
def regRead (c : CoreInst) (off : Nat) : Word :=
  if off = offId then idValue
  else if off = offCmd then c.cmd
  else if off = offStatus then c.status
  else if off = offA0 then c.a0
  else if off = offA1 then c.a1
  else if off = offA2 then c.a2
  else if off = offA3 then c.a3
  else if off = offNerr then c.nerr
  else if off = offNbits then c.nbits
  else if off = offRlen then c.rlen
  else if off = offDetid then c.detid
  else if off = offSteal then c.steal
  else if off = offSubst then c.subst
  else if off = offBsic then c.bsic
  else if off = offChmode then c.chmode
  else if off = offAmrcfg then c.amrcfg
  else if off = offPdcfg then c.pdcfg
  else 0#32

/-- A register write other than to `CMD`: unimplemented bits are masked off; RO registers and reserved offsets ignore it. -/
def regWrite (c : CoreInst) (off : Nat) (v : Word) : CoreInst :=
  if off = offA0 then { c with a0 := v }
  else if off = offA1 then { c with a1 := v }
  else if off = offA2 then { c with a2 := v }
  else if off = offA3 then { c with a3 := v }
  else if off = offBsic then { c with bsic := v &&& bsicMask }
  else if off = offChmode then { c with chmode := v &&& chmodeMask }
  else if off = offAmrcfg then { c with amrcfg := v }
  else if off = offPdcfg then { c with pdcfg := v &&& pdcfgMask }
  else c

/-! ### Transactions (R44 to R47) -/

/-- The port's answer to a read: whole aligned words in register space, single bytes in the buffers, else a bus error. -/
def busRead (s : State) (addr : Nat) (w : Width) : Response :=
  match locate s addr with
  | none => .busError
  | some (i, o) =>
    match s.insts[i]?, windowTarget o, w with
    | some c, .reg off, .word => if off % 4 = 0 then .data (regRead c off) else .busError
    | some c, .cell b k, .byte => .data ((c.cell b k).setWidth 32)
    | _, _, _ => .busError

/-- What taking a transaction comes to: it is answered, or it started the command `w`. -/
inductive Taken where
  | answered (s : State)
  | command (w : Word) (s : State)
deriving DecidableEq, Repr

/-- The state with an answer on the port. -/
def State.answer (s : State) (r : Response) : State := { s with resp := some r }

/-- The write of a command word: `CMD` stores it, and the instance whose port took it executes (R13, R47). -/
def State.acceptCommand (s : State) (i : Nat) (w : Word) : State :=
  { s with insts := s.insts.modify i (fun c => { c with cmd := w }), active := i, resp := some .done }

/-- A bus write (R44, R45, R46). -/
def busWrite (s : State) (addr : Nat) (w : Width) (v : Word) : Taken :=
  match locate s addr with
  | none => .answered (s.answer .busError)
  | some (i, o) =>
    match windowTarget o, w with
    | .reg off, .word =>
      if off % 4 ≠ 0 then .answered (s.answer .busError)
      else if off = offCmd then .command v (s.acceptCommand i v)
      else .answered ({ s with insts := s.insts.modify i fun c => regWrite c off v }.answer .done)
    | .cell b k, .byte =>
      .answered ({ s with insts := s.insts.modify i fun c => c.store b [(k, v.setWidth 8)] }.answer .done)
    | _, _ => .answered (s.answer .busError)

/-- One event from the outside world (R40, R235). -/
def takeEvent (s : State) : BusEvent → Taken
  | .read addr w => .answered (s.answer (busRead s addr w))
  | .write addr w v => busWrite s addr w v
  | .powerOn => .answered s.powerOn

/-- A word that decodes to no command: `E_ILLCMD` on the executing instance (R63, R65). -/
def illegalCommand (w : Word) (s : State) : State := s.onActive fun c => c.illegal w

/-- The transaction that issues the command word `w` to the instance that executed last (R47). -/
def State.commandEvent (s : State) (w : Word) : BusEvent := .write (s.addrOf s.active offCmd) .word w

end Sys2Proof.Machine
end

