-- ==== Sys2Proof/Machine/Operands.lean ====
section
/-! DEFINITION. Sys2Proof/Machine/Operands.lean: the operand forms of CORE: the range check (spec R48, R221), vectors of cells
loaded and stored, hard and soft bits (R9, R19), octets and bits (R43, R146, R147), and minimum-distance search (R10). -/

namespace Sys2Proof.Machine

/-! ### Range check -/

/-- The check on one buffer operand: base plus length within the buffer, in unbounded integers (R221). -/
def inRange (a : Word) (len : Nat) (b : Buf) : Bool := a.toNat + len ≤ bufSize b

/-! ### Cells, hard bits, soft values -/

/-- `hard(x)`: 1 for a negative value (R9). -/
def hardOf (x : Int) : Bool := x < 0

/-- `soft(b)`: −127 for 1, +127 for 0 (R9). -/
def softOf (b : Bool) : Int := if b then -127 else 127

/-- `tc_8(x)` (R9). -/
def tc8 (x : Int) : Byte := BitVec.ofInt 8 x

/-- `sext_8(b)` (R9). -/
def sext8 (v : Byte) : Int := v.toInt

/-- The bit a hard-bit cell holds. -/
def bitOf (v : Byte) : Bool := v.getLsbD 0

/-- The byte of a hard-bit cell. -/
def bitByte (b : Bool) : Byte := if b then 1#8 else 0#8

/-- The buffer that `M` selects for both operands (R62). -/
def bufOf (m : Bool) : Buf := if m then .sb else .hb

/-- A flag value as a cell of the buffer that `M` selects: 0 or 1, or ±127 (R130, R135). -/
def flagCell (m b : Bool) : Byte := if m then tc8 (softOf b) else bitByte b

/-! ### Vectors -/

/-- The cells `a … a+len-1` of a buffer, read before anything is written (R48). -/
def CoreInst.load (c : CoreInst) (b : Buf) (a len : Nat) : List Byte := (List.range len).map fun k => c.cell b (a + k)

/-- `HB[a .. a+len-1]` as bits. -/
def CoreInst.loadBits (c : CoreInst) (a len : Nat) : List Bool := (c.load .hb a len).map bitOf

/-- `SB[a .. a+len-1]` as signed values. -/
def CoreInst.loadSoft (c : CoreInst) (a len : Nat) : List Int := (c.load .sb a len).map sext8

/-- The cells of a vector laid from `a` on. -/
def vecCells (a : Nat) (vs : List Byte) : List Host.Cell := vs.zipIdx.map fun p => (a + p.2, p.1)

/-- Store a vector at `a`. -/
def CoreInst.storeVec (c : CoreInst) (b : Buf) (a : Nat) (vs : List Byte) : CoreInst := c.store b (vecCells a vs)

/-- Store hard bits at `a`. -/
def CoreInst.storeBits (c : CoreInst) (a : Nat) (u : List Bool) : CoreInst := c.storeVec .hb a (u.map bitByte)

/-- A vector of length `n` with default `e`, assigned at the listed positions in order. -/
def scatter {α : Type} (n : Nat) (e : α) (ws : List (Nat × α)) : List α :=
  ws.foldl (fun l w => l.set w.1 w.2) (List.replicate n e)

/-- Elements `v[map 0], v[map 1], …`; `e` stands for an index outside `v`. -/
def gather {α : Type} (v : List α) (e : α) (idx : List Nat) : List α := idx.map fun i => v.getD i e

/-! ### Octets and bits -/

/-- The octets that `n` bits take. -/
def octetsFor (n : Nat) : Nat := (n + 7) / 8

/-- The bit position of bit `k` inside its octet (R43). -/
def bitPos (msbf : Bool) (k : Nat) : Nat := if msbf then 7 - k % 8 else k % 8

/-- Octets to `n` bits (R146). -/
def unpackBits (msbf : Bool) (o : List Byte) (n : Nat) : List Bool :=
  (List.range n).map fun k => (o.getD (k / 8) 0#8).getLsbD (bitPos msbf k)

/-- Octet `q` of a bit vector; positions that no bit reaches are 0 (R147). -/
def packOctet (msbf : Bool) (u : List Bool) (q : Nat) : Byte :=
  (List.range 8).foldl (fun o i => o ||| (if u.getD (8 * q + i) false then 1#8 <<< bitPos msbf i else 0#8)) 0#8

/-- Bits to octets (R147). -/
def packBits (msbf : Bool) (u : List Bool) : List Byte := (List.range (octetsFor u.length)).map (packOctet msbf u)

/-! ### Minimum-distance search (R10) -/

/-- The search loop: a later candidate replaces the best only when strictly smaller. -/
def argminFrom (best bestAt at_ : Nat) : List Nat → Nat
  | [] => bestAt
  | d :: ds => if d < best then argminFrom d at_ (at_ + 1) ds else argminFrom best bestAt (at_ + 1) ds

/-- The smallest index of a minimal element; 0 for the empty list. -/
def argmin : List Nat → Nat
  | [] => 0
  | d :: ds => argminFrom d 0 1 ds

/-- Hamming distance of a pattern and hard bits. -/
def hamming (p v : List Bool) : Nat := (List.zipWith (fun a b => (a != b).toNat) p v).sum

/-- Sum of absolute differences of a pattern's ideal soft values and soft values. -/
def absDist (p : List Bool) (x : List Int) : Nat := (List.zipWith (fun a b => (softOf a - b).natAbs) p x).sum

/-- `mindist_hard(P, v)`. -/
def mindistHard (pat : PatDesc) (v : List Bool) : Nat := argmin (pat.bits.map fun p => hamming p v)

/-- `mindist_soft(P, x)`. -/
def mindistSoft (pat : PatDesc) (x : List Int) : Nat := argmin (pat.bits.map fun p => absDist p x)

end Sys2Proof.Machine
end

