-- ==== Sys2Proof/Machine/RomTable.lean ====
section
/-! DEFINITION. Sys2Proof/Machine/RomTable.lean: the descriptor ROM as the engines see it: the entries that the spec fixes
(spec R27; `TCG[0]`, `TCG[1]`, `TCG[3]` of R197), the fields that R177 and R205 fix in every present scheme record, the OPEN
parts of the `Rom` parameter behind them, and the derived quantities of R24, R176 and R196. -/

namespace Sys2Proof.Machine

/-! ### The given convolutional descriptors (R27) -/

/-- `NEXT_STATE[s][b] = ((s << 1) | b) & 15`, the shift register of the six given codes. -/
def k5NextState : List (Nat × Nat) := (List.range 16).map fun s => (2 * s % 16, (2 * s + 1) % 16)

/-- `NEXT_OUT[s]` of the six given codes, as R27 prints it (G0 = 1 + D^3 + D^4, G1 = 1 + D + D^3 + D^4). -/
def k5NextOut : List (Nat × Nat) :=
  [(0, 3), (1, 2), (0, 3), (1, 2), (3, 0), (2, 1), (3, 0), (2, 1), (3, 0), (2, 1), (3, 0), (2, 1), (0, 3), (1, 2), (0, 3), (1, 2)]

/-- A given descriptor: `N` = 2, `K` = 5, `TERM = FLUSH`, `HAS_TERM` = 0 (R27). -/
def k5Desc (len : Nat) (punc : Option (List Nat)) : ConvDesc :=
  { n := 2, k := 5, len := len, term := .flush, nextOut := k5NextOut, nextState := k5NextState, termTab := none, punc := punc }

/-- The table of `CS2`: `3 + 4j` for `j` = 3 … 146 without the twelve exceptions, then the sentinel (R27, R115). -/
def cs2Punc : List Nat :=
  ((List.range' 3 144).filter fun j => !([9, 21, 33, 45, 57, 69, 81, 93, 105, 117, 129, 141].contains j)).map (fun j => 3 + 4 * j)
    ++ [sentinel]

/-- The table of `CS3`: `3 + 6j` and `5 + 6j` for `j` = 2 … 111, ascending, then the sentinel (R27, R115). -/
def cs3Punc : List Nat := (List.range' 2 110).flatMap (fun j => [3 + 6 * j, 5 + 6 * j]) ++ [sentinel]

/-- The given convolutional descriptors by index: `XCCH`, `RACH`, `SCH`, `CS2`, `CS3`, `TCH_FR` (R27). -/
def givenConv : List ConvDesc :=
  [k5Desc 224 none, k5Desc 14 none, k5Desc 35 none, k5Desc 290 (some cs2Punc), k5Desc 334 (some cs3Punc), k5Desc 185 none]

/-! ### The given CRC descriptors (R27) -/

/-- `FIRE40`, `CRC16`, `CRC12`, `CRC10`, `CRC8H`, `CRC8E`, `CRC6`, `CRC3` (R27). -/
def givenCrc : List CrcDesc :=
  [⟨40, 0x0004820009, 0, 0xFFFFFFFFFF⟩, ⟨16, 0x1021, 0, 0xFFFF⟩, ⟨12, 0xD31, 0, 0xFFF⟩, ⟨10, 0x175, 0, 0x3FF⟩,
   ⟨8, 0x49, 0, 0xFF⟩, ⟨8, 0x1D, 0, 0x00⟩, ⟨6, 0x2F, 0, 0x3F⟩, ⟨3, 0x3, 0, 0x7⟩]

/-! ### PDTCH scheme records: the fields that R177 fixes, around the OPEN ones -/

/-- The stealing-flag cells of the four GPRS schemes: `116B + 57` and `116B + 58` (R176 (b), R177). -/
def gprsSfpos : List Nat := [57, 58, 173, 174, 289, 290, 405, 406]

/-- The stealing-flag patterns of CS1 to CS4 (R177). -/
def gprsSfval : List (List Bool) :=
  [List.replicate 8 true, [true, true, false, false, true, false, false, false],
   [false, false, true, false, false, false, false, true], [false, false, false, true, false, true, true, false]]

/-- `OCTETS` of the thirteen slots (R177). -/
def pdsOctets : List Nat := [23, 34, 40, 54, 27, 33, 42, 49, 60, 78, 118, 142, 154]

/-- `PDS[0]`, CS1: 23 octets, the xCCH transform, no USF of its own, all flags 1; R177 fixes every field it uses, so the slot is
present in every ROM (assumption log 26). -/
def givenPds0 : PdsRec :=
  { octets := 23, psk8 := false, kind := .xcch, sfpos := gprsSfpos, sfval := gprsSfval.getD 0 [], usfmode := .none,
    usfbits := [], usfpat := 0, usfplace := 0, sub0 := none, sub1 := none, sub2 := none }

/-- `SUB[1]` of CS2 (`s` = 1), CS3 (2) and CS4 (3): `NI`, `CRC`, `CODED`, `CONV`, `P` as R177 gives them. -/
def gprsBlock (s : Nat) (g : GprsOpen) : SubBlock :=
  { ni := [0, 271, 315, 431].getD s 0, gather := g.gather, crc := 1, protLo := g.protLo, protN := g.protN, coded := s != 3,
    conv := [0, 3, 4, 0].getD s 0, p := s != 3, place := g.place }

/-- The record of CS2, CS3 or CS4 (R177; assumption log 26). -/
def gprsRecord (s : Nat) (g : GprsOpen) : PdsRec :=
  { octets := pdsOctets.getD s 0, psk8 := false, kind := .gen, sfpos := gprsSfpos, sfval := gprsSfval.getD s [],
    usfmode := .inband, usfbits := g.usfbits, usfpat := g.usfpat, usfplace := 0, sub0 := none, sub1 := some (gprsBlock s g),
    sub2 := none }

/-- `SUB[2]` of MCS7 to MCS9, equally coded as `SUB[1]` (R177). -/
def secondBlock (b : SubBlock) (x : SecondBlock) : SubBlock :=
  { b with gather := x.gather, coded := x.coded, place := x.place }

/-- The record of an EDGE scheme: header and first data block always, a second data block where it has one; `PSK8` from MCS5 on
(R177; assumption log 26). -/
def edgeRecord (s : Nat) (e : EdgeOpen) (second : Option SecondBlock) : PdsRec :=
  { octets := pdsOctets.getD s 0, psk8 := decide (8 ≤ s), kind := .gen, sfpos := e.sfpos, sfval := e.sfval, usfmode := e.usfmode,
    usfbits := e.usfbits, usfpat := e.usfpat, usfplace := e.usfplace, sub0 := some e.header, sub1 := some e.data,
    sub2 := second.map (secondBlock e.data) }

/-! ### TCH scheme records: the fields that R205 fixes, around the OPEN ones -/

/-- FR: all but `ORDER` (R205). -/
def frRecord (order : Nat) : TcsRec :=
  { octets := 33, nd := 260, inner := none, expand := List.range 260, order := order, n1 := 182, nprot := 50, crc := 7, conv := 5,
    p := false, idpat := none }

/-- EFR: the inner CRC is `CRC8E`, the class-1 coding that of FR (R205). -/
def efrRecord (e : EfrOpen) : TcsRec :=
  { octets := 31, nd := 244, inner := some ⟨5, e.sel⟩, expand := e.expand, order := e.order, n1 := 182, nprot := 50, crc := 7,
    conv := 5, p := false, idpat := none }

/-- A record around the fields that are OPEN in every HR and AMR record. -/
def speechRecord (octets nd crc : Nat) (idpat : Option Nat) (o : SpeechOpen) : TcsRec :=
  { octets := octets, nd := nd, inner := o.inner, expand := o.expand, order := o.order, n1 := o.n1, nprot := o.nprot, crc := crc,
    conv := o.conv, p := o.p, idpat := idpat }

/-- `OCTETS` of AMR codec modes 0 … 7 (R205). -/
def amrOctets : List Nat := [12, 13, 15, 17, 19, 20, 26, 31]

/-- `ND` of AMR codec modes 0 … 7 (R205). -/
def amrNd : List Nat := [95, 103, 118, 134, 148, 159, 204, 244]

/-- HR (R205), its class-1 CRC left to the ROM (assumption log 28). -/
def hrRecord (h : HrOpen) : TcsRec := speechRecord 14 h.nd h.crc none h.toSpeechOpen

/-- AMR-FR codec mode `a`: the class-1 CRC is `CRC6` (R205). -/
def amrFrRecord (a : Nat) (o : AmrFrOpen) : TcsRec :=
  speechRecord (amrOctets.getD a 0) (amrNd.getD a 0) 6 (some o.idpat) o.toSpeechOpen

/-- AMR-HR codec mode `a` (R205), its class-1 CRC left to the ROM (assumption log 29). -/
def amrHrRecord (a : Nat) (o : AmrHrOpen) : TcsRec :=
  speechRecord (amrOctets.getD a 0) (amrNd.getD a 0) o.crc (some o.idpat) o.toSpeechOpen

/-! ### The tables by index: given entries first, then the OPEN ones -/

/-- `ROM.CONV[d]`, or nothing for an absent slot or an index out of range (R23). -/
def romConv (rom : Rom) (d : Nat) : Option ConvDesc :=
  if d < 6 then givenConv[d]? else (rom.conv[d - 6]?).join

/-- `ROM.CRC[p]` (R25). -/
def romCrc (rom : Rom) (p : Nat) : Option CrcDesc :=
  if p < 8 then givenCrc[p]? else (rom.crc[p - 8]?).join

/-- `ROM.PERM[t]` (R26). -/
def romPerm (rom : Rom) (t : Nat) : Option PermDesc := (rom.perm[t]?).join

/-- `ROM.PAT[q]` (R26). -/
def romPat (rom : Rom) (q : Nat) : Option PatDesc := (rom.pat[q]?).join

/-- `ROM.PDS[s]`, `s` = 0 … 12 (R176, R177). -/
def romPds (rom : Rom) (s : Nat) : Option PdsRec :=
  if s = 0 then some givenPds0
  else if s ≤ 3 then (rom.gprs[s - 1]?).join.map (gprsRecord s)
  else if s ≤ 9 then (rom.edge[s - 4]?).join.map fun e => edgeRecord s e none
  else if s ≤ 12 then (rom.edgePair[s - 10]?).join.map fun e => edgeRecord s e.toEdgeOpen (some e.second)
  else none

/-- `ROM.TCS[s]`, `s` = 0 … 18 (R196, R205); AMR-HR has codec modes 0 … 5 only, so slots 17 and 18 are always absent. -/
def romTcs (rom : Rom) (s : Nat) : Option TcsRec :=
  if s = 0 then rom.fr.map frRecord
  else if s = 1 then rom.efr.map efrRecord
  else if s = 2 then rom.hr.map hrRecord
  else if s ≤ 10 then (rom.amrFr[s - 3]?).join.map (amrFrRecord (s - 3))
  else if s ≤ 16 then (rom.amrHr[s - 11]?).join.map (amrHrRecord (s - 11))
  else none

/-- `ROM.TCG[m]`, `m` = 0 … 4: never absent (R197). The reserved values of `CHMODE` are refused before it is read. -/
def romTcg (rom : Rom) (m : Nat) : Geom :=
  if m = 2 then .table rom.tcgHr else if m = 4 then .table rom.tcgAhr else .diag8

/-! ### A descriptor that a record names

A well-formed ROM has no dangling index (R176 (j), R196), so the value taken for one is never reached under the hypothesis
of Machine/RomWellFormed.lean (assumption log 3). -/

/-- The convolutional descriptor a record names. -/
def convRef (rom : Rom) (d : Nat) : ConvDesc := (romConv rom d).getD default

/-- The CRC descriptor a record names. -/
def crcRef (rom : Rom) (p : Nat) : CrcDesc := (romCrc rom p).getD default

/-- The permutation a record names. -/
def permRef (rom : Rom) (t : Nat) : PermDesc := (romPerm rom t).getD default

/-- The pattern set a record names. -/
def patRef (rom : Rom) (q : Nat) : PatDesc := (romPat rom q).getD default

/-! ### The roles of the fixed-length channel commands (R28): given entries, the same in every ROM -/

/-- The convolutional descriptor of a role. -/
def roleConv (d : Nat) : ConvDesc := givenConv.getD d default

/-- The CRC descriptor of a role. -/
def roleCrc (p : Nat) : CrcDesc := givenCrc.getD p default

/-! ### Derived quantities of a convolutional descriptor (R23, R24) -/

/-- `NS = 2^(K-1)`, the number of trellis states (R23). -/
def numStates (c : ConvDesc) : Nat := 2 ^ (c.k - 1)

/-- `T(c)`: the number of termination steps (R24). -/
def termSteps (c : ConvDesc) : Nat :=
  match c.term with
  | .flush => c.k - 1
  | .tailbite => 0

/-- `nfull(c)`: the length of the full coded sequence (R24). -/
def nfull (c : ConvDesc) : Nat := c.n * (c.len + termSteps c)

/-- The puncturing table the engines walk: a descriptor with `HAS_PUNC` = 0 has the sentinel alone (R115). -/
def puncTable (c : ConvDesc) : List Nat := c.punc.getD [sentinel]

/-- `npunc(c)`: the entries before the sentinel (R24, R115). -/
def npunc (c : ConvDesc) : Nat := ((puncTable c).takeWhile (· != sentinel)).length

/-- `nmatched(c) = nfull(c) - npunc(c)` (R24). -/
def nmatched (c : ConvDesc) : Nat := nfull c - npunc c

/-- Whether inline puncturing applies: the `P` flag is 1 and the descriptor has a table (R80, R83, R90). -/
def usesPunc (c : ConvDesc) (p : Bool) : Bool := p && c.punc.isSome

/-- The number of coded bits exchanged: `nmatched` under inline puncturing, else `nfull` (R80, R83, R90). -/
def codedLen (c : ConvDesc) (p : Bool) : Nat := if usesPunc c p then nmatched c else nfull c

end Sys2Proof.Machine
end

