-- ==== Sys2Proof/Machine/Crc.lean ====
section
/-! DEFINITION. Sys2Proof/Machine/Crc.lean: the CRC engine (spec R105, R108) and commands `CRCS` (R106) and `CRCC` (R107). -/

namespace Sys2Proof.Machine

/-- One data bit enters the `W`-bit register at the top (R105). -/
def crcStep (q : CrcDesc) (crc : Nat) (b : Bool) : Nat :=
  let x := crc ^^^ (b.toNat <<< (q.bits - 1))
  if x.testBit (q.bits - 1) then ((x <<< 1) ^^^ q.poly) % 2 ^ q.bits else (x <<< 1) % 2 ^ q.bits

/-- `crc_compute(q, d)` (R105). -/
def crcCompute (q : CrcDesc) (d : List Bool) : Nat := d.foldl (crcStep q) q.init ^^^ q.rem

/-- `crc_bits(q, d)`: the parity bits, most significant first (R108). -/
def crcBits (q : CrcDesc) (d : List Bool) : List Bool :=
  (List.range q.bits).map fun i => (crcCompute q d).testBit (q.bits - 1 - i)

/-- `crc_check(q, d, par)` (R108). -/
def crcCheck (q : CrcDesc) (d par : List Bool) : Bool := crcBits q d == par

/-- The range test that `CRCS` and `CRCC` share (R106, R107). -/
def crcInRange (q : CrcDesc) (c : CoreInst) : Bool :=
  decide (c.a2.toNat ≤ vmax) && inRange c.a0 c.a2.toNat .hb && inRange c.a1 q.bits .hb

/-- The work of `CRCS` on the executing instance (R106). -/
def crcsCmd (rom : Rom) (p : Nat) (c : CoreInst) : CoreInst :=
  let c := c.clearResults
  match romCrc rom p with
  | none => c.raise 0x03 .eDesc .s0
  | some q =>
    if !crcInRange q c then c.raise 0x03 .eRange .s0
    else
      let d := c.loadBits c.a0.toNat c.a2.toNat
      (c.storeBits c.a1.toNat (crcBits q d)).complete 0x03 q.bits

/-- The work of `CRCC` on the executing instance; it ends in `S12` and writes no cell (R107). -/
def crccCmd (rom : Rom) (p : Nat) (c : CoreInst) : CoreInst :=
  let c := c.clearResults
  match romCrc rom p with
  | none => c.raise 0x04 .eDesc .s0
  | some q =>
    if !crcInRange q c then c.raise 0x04 .eRange .s0
    else
      let ok := crcCheck q (c.loadBits c.a0.toNat c.a2.toNat) (c.loadBits c.a1.toNat q.bits)
      let c := { c with subst := substCheck c.subst 1 ok }
      c.endCommand 0x04 (if ok then .ok else .eCrc) {} .s12

/-- `CRCS` (R106). -/
def execCrcs (p : Nat) (s : State) : Host.Outcome State Fault Refusal := .next (s.onActive (crcsCmd s.params.rom p))

/-- `CRCC` (R107). -/
def execCrcc (p : Nat) (s : State) : Host.Outcome State Fault Refusal := .next (s.onActive (crccCmd s.params.rom p))

end Sys2Proof.Machine
end

