-- ==== Sys2Proof/Machine/Interleave.lean ====
section
/-! DEFINITION. Sys2Proof/Machine/Interleave.lean: the interleaver and the burst mapper (spec R125, R134, R135) and commands `ILV`
(R126), `DILV` (R127), `PERM` (R128), `BMAP` (R130), `BUNM` (R131), `BMAPT` (R132), `BUNMT` (R133). Cells are moved as
bytes: a hard bit or a soft value is moved unchanged (R137 (c)). -/

namespace Sys2Proof.Machine

/-! ### Index functions -/

/-- Which of the 114 i-bit positions of its burst coded bit `k` takes (R125). -/
def ilvPos (k : Nat) : Nat := 2 * (49 * k % 57) + k % 8 / 4

/-- The number of bursts a variant spreads over (R126). -/
def burstCount (var : Bool) : Nat := if var then 8 else 4

/-- The cell of coded bit `k` in the interleaved area of `nb` rows of 114 (R125, R126). -/
def ilvCell (nb k : Nat) : Nat := k % nb * 114 + ilvPos k

/-- The interleaved cells of the 456 coded bits, in order of `k`. -/
def ilvCells (nb : Nat) : List Nat := (List.range 456).map (ilvCell nb)

/-- `pos(j)`: the burst position of i-bit `j` (R134). -/
def burstPos (j : Nat) : Nat := if j ≤ 56 then j else j + 2

/-- Position of stealing flag `HL` in a burst (R134). -/
def posHL : Nat := 57

/-- Position of stealing flag `HU` in a burst (R134). -/
def posHU : Nat := 58

/-- The i-bit positions that `ODD` selects (R132, R133). -/
def halfPositions (odd : Bool) : List Nat := (List.range 114).filter fun j => j % 2 == odd.toNat

/-! ### `ILV`, `DILV`, `PERM` -/

/-- The work of `ILV` on the executing instance (R126). -/
def ilvCmd (var m : Bool) (c : CoreInst) : CoreInst :=
  let c := c.clearResults
  let nb := burstCount var
  if !(inRange c.a0 456 (bufOf m) && inRange c.a1 (nb * 114) (bufOf m)) then c.raise 0x07 .eRange .s0
  else
    let cB := c.load (bufOf m) c.a0.toNat 456
    let ws := List.zip ((ilvCells nb).map (c.a1.toNat + ·)) cB
    (c.store (bufOf m) ws).complete 0x07 456

/-- The work of `DILV` on the executing instance (R127). -/
def dilvCmd (var m : Bool) (c : CoreInst) : CoreInst :=
  let c := c.clearResults
  let nb := burstCount var
  if !(inRange c.a0 (nb * 114) (bufOf m) && inRange c.a1 456 (bufOf m)) then c.raise 0x08 .eRange .s0
  else
    let iB := c.load (bufOf m) c.a0.toNat (nb * 114)
    (c.storeVec (bufOf m) c.a1.toNat (gather iB 0#8 (ilvCells nb))).complete 0x08 456

/-- The work of `PERM` on the executing instance (R128). -/
def permCmd (rom : Rom) (t : Nat) (inv m : Bool) (c : CoreInst) : CoreInst :=
  let c := c.clearResults
  match romPerm rom t with
  | none => c.raise 0x09 .eDesc .s0
  | some r =>
    let srcLen := if inv then r.nout else r.nin
    let dstLen := if inv then r.nin else r.nout
    if !(inRange c.a0 srcLen (bufOf m) && inRange c.a1 dstLen (bufOf m)) then c.raise 0x09 .eRange .s0
    else
      let v := c.load (bufOf m) c.a0.toNat srcLen
      let ws := if inv then vecCells c.a1.toNat (gather v 0#8 r.map) else List.zip (r.map.map (c.a1.toNat + ·)) v
      (c.store (bufOf m) ws).complete 0x09 r.nin

/-! ### The burst mapper -/

/-- A burst from 114 i-bit cells and the two flag cells: `e[pos(j)] = i[j]`, `e[57] = HL`, `e[58] = HU` (R130, R134). -/
def mapBurst {α : Type} (i : List α) (hl hu : α) : List α := i.take 57 ++ [hl, hu] ++ i.drop 57

/-- The 114 i-bit cells of a burst: `i[j] = e[pos(j)]` (R131, R134). -/
def unmapBurst {α : Type} (e : List α) : List α := e.take 57 ++ e.drop 59

/-- The work of `BMAP` on the executing instance (R130). -/
def bmapCmd (hl hu m : Bool) (c : CoreInst) : CoreInst :=
  let c := c.clearResults
  if !(inRange c.a0 114 (bufOf m) && inRange c.a1 burstWidth (bufOf m)) then c.raise 0x0A .eRange .s0
  else
    let i := c.load (bufOf m) c.a0.toNat 114
    (c.storeVec (bufOf m) c.a1.toNat (mapBurst i (flagCell m hl) (flagCell m hu))).complete 0x0A burstWidth

/-- `STEAL` of `BUNM` and `BUNMT`: the cell found at `HL` in bits [7:0], at `HU` in bits [15:8] (R17). The byte of a hard cell
is 0 or 1 and that of a soft cell is its `tc_8`, so the cell's byte is the field in either case. -/
def stealRaw (hl hu : Byte) : Word := setField (setField 0#32 0 8 hl.toNat) 8 8 hu.toNat

/-- The work of `BUNM` on the executing instance; with `FO` the destination is neither checked nor written (R131). -/
def bunmCmd (fo m : Bool) (c : CoreInst) : CoreInst :=
  let c := c.clearResults
  if !(inRange c.a0 burstWidth (bufOf m) && (fo || inRange c.a1 114 (bufOf m))) then c.raise 0x0B .eRange .s0
  else
    let e := c.load (bufOf m) c.a0.toNat burstWidth
    let c := { c with steal := stealRaw (e.getD posHL 0#8) (e.getD posHU 0#8) }
    if fo then c.complete 0x0B 0 else (c.storeVec (bufOf m) c.a1.toNat (unmapBurst e)).complete 0x0B 114

/-- The work of `BMAPT` on the executing instance: one half of the i-bit positions and that half's flag (R132). -/
def bmaptCmd (odd h m : Bool) (c : CoreInst) : CoreInst :=
  let c := c.clearResults
  if !(inRange c.a0 114 (bufOf m) && inRange c.a1 burstWidth (bufOf m)) then c.raise 0x0C .eRange .s0
  else
    let i := c.load (bufOf m) c.a0.toNat 114
    let a := c.a1.toNat
    let payload := (halfPositions odd).map fun j => (a + burstPos j, i.getD j 0#8)
    let flag := (a + (if odd then posHL else posHU), flagCell m h)
    (c.store (bufOf m) (payload ++ [flag])).complete 0x0C 58

/-- The work of `BUNMT` on the executing instance (R133). -/
def bunmtCmd (odd fo m : Bool) (c : CoreInst) : CoreInst :=
  let c := c.clearResults
  if !(inRange c.a0 burstWidth (bufOf m) && (fo || inRange c.a1 114 (bufOf m))) then c.raise 0x0D .eRange .s0
  else
    let e := c.load (bufOf m) c.a0.toNat burstWidth
    let c := { c with steal := if odd then stealRaw (e.getD posHL 0#8) 0#8 else stealRaw 0#8 (e.getD posHU 0#8) }
    if fo then c.complete 0x0D 0
    else
      let ws := (halfPositions odd).map fun j => (c.a1.toNat + j, e.getD (burstPos j) 0#8)
      (c.store (bufOf m) ws).complete 0x0D 57

/-! ### The meanings -/

/-- `ILV` (R126). -/
def execIlv (var m : Bool) (s : State) : Host.Outcome State Fault Refusal := .next (s.onActive (ilvCmd var m))

/-- `DILV` (R127). -/
def execDilv (var m : Bool) (s : State) : Host.Outcome State Fault Refusal := .next (s.onActive (dilvCmd var m))

/-- `PERM` (R128). -/
def execPerm (d : Nat) (inv m : Bool) (s : State) : Host.Outcome State Fault Refusal :=
  .next (s.onActive (permCmd s.params.rom d inv m))

/-- `BMAP` (R130). -/
def execBmap (hl hu m : Bool) (s : State) : Host.Outcome State Fault Refusal := .next (s.onActive (bmapCmd hl hu m))

/-- `BUNM` (R131). -/
def execBunm (fo m : Bool) (s : State) : Host.Outcome State Fault Refusal := .next (s.onActive (bunmCmd fo m))

/-- `BMAPT` (R132). -/
def execBmapt (odd h m : Bool) (s : State) : Host.Outcome State Fault Refusal := .next (s.onActive (bmaptCmd odd h m))

/-- `BUNMT` (R133). -/
def execBunmt (odd fo m : Bool) (s : State) : Host.Outcome State Fault Refusal := .next (s.onActive (bunmtCmd odd fo m))

end Sys2Proof.Machine
end

