-- ==== Sys2Proof/Machine/Puncture.lean ====
section
/-! DEFINITION. Sys2Proof/Machine/Puncture.lean: the puncture and rate-match engine (spec R115, R118, R119) and commands `PUNC`
(R116) and `DPUN` (R117). -/

namespace Sys2Proof.Machine

/-- `puncture` from element number `i` on: one pointer walks the table forward (R115, R118). -/
def punctureFrom {α : Type} (i : Nat) (tab : List Nat) : List α → List α
  | [] => []
  | x :: xs =>
    if tab.head? = some i then punctureFrom (i + 1) tab.tail xs else x :: punctureFrom (i + 1) tab xs

/-- `puncture(v, tab)` (R118). -/
def puncture {α : Type} (tab : List Nat) (v : List α) : List α := punctureFrom 0 tab v

/-- `depuncture` from index `idx` on, `n` elements to go; `e` is the erasure placeholder (R119). -/
def depunctureFrom {α : Type} (e : α) (idx : Nat) (tab : List Nat) (m : List α) : Nat → List α
  | 0 => []
  | n + 1 =>
    if tab.head? = some idx then e :: depunctureFrom e (idx + 1) tab.tail m n
    else m.headD e :: depunctureFrom e (idx + 1) tab m.tail n

/-- `depuncture(m, tab, n)` (R119). -/
def depuncture {α : Type} (e : α) (tab : List Nat) (m : List α) (n : Nat) : List α := depunctureFrom e 0 tab m n

/-- The erasure placeholder as a cell: soft value 0, or hard bit 0; both are the byte 0 (R119). -/
def erasureCell : Byte := 0#8

/-- The work of `PUNC` on the executing instance (R116). -/
def puncCmd (rom : Rom) (d : Nat) (m : Bool) (c : CoreInst) : CoreInst :=
  let c := c.clearResults
  match romConv rom d with
  | none => c.raise 0x05 .eDesc .s0
  | some cd =>
    if !(inRange c.a0 (nfull cd) (bufOf m) && inRange c.a1 (nmatched cd) (bufOf m)) then c.raise 0x05 .eRange .s0
    else if c.a2.toNat ≠ nfull cd then c.raise 0x05 .eEncin .s0
    else
      let v := c.load (bufOf m) c.a0.toNat (nfull cd)
      (c.storeVec (bufOf m) c.a1.toNat (puncture (puncTable cd) v)).complete 0x05 (nmatched cd)

/-- The work of `DPUN` on the executing instance (R117). -/
def dpunCmd (rom : Rom) (d : Nat) (m : Bool) (c : CoreInst) : CoreInst :=
  let c := c.clearResults
  match romConv rom d with
  | none => c.raise 0x06 .eDesc .s0
  | some cd =>
    if !(inRange c.a0 (nmatched cd) (bufOf m) && inRange c.a1 (nfull cd) (bufOf m)) then c.raise 0x06 .eRange .s0
    else if c.a2.toNat ≠ nmatched cd then c.raise 0x06 .eEncin .s0
    else
      let v := c.load (bufOf m) c.a0.toNat (nmatched cd)
      (c.storeVec (bufOf m) c.a1.toNat (depuncture erasureCell (puncTable cd) v (nfull cd))).complete 0x06 (nfull cd)

/-- `PUNC` (R116). -/
def execPunc (d : Nat) (m : Bool) (s : State) : Host.Outcome State Fault Refusal :=
  .next (s.onActive (puncCmd s.params.rom d m))

/-- `DPUN` (R117). -/
def execDpun (d : Nat) (m : Bool) (s : State) : Host.Outcome State Fault Refusal :=
  .next (s.onActive (dpunCmd s.params.rom d m))

end Sys2Proof.Machine
end

