-- ==== Sys2Proof/Machine/ConvEncoder.lean ====
section
/-! DEFINITION. Sys2Proof/Machine/ConvEncoder.lean: the convolutional encoder (spec R81 to R83) and command `CENC` (R80). -/

namespace Sys2Proof.Machine

/-- `step(c, s, b)`: output symbol and next state (R81). -/
def trellisStep (c : ConvDesc) (s : Nat) (b : Bool) : Nat × Nat :=
  let out := c.nextOut.getD s (0, 0)
  let nxt := c.nextState.getD s (0, 0)
  if b then (out.2, nxt.2) else (out.1, nxt.1)

/-- `term_step(c, s)`: the termination table where there is one, else the step with input 0 (R81). -/
def termStep (c : ConvDesc) (s : Nat) : Nat × Nat :=
  match c.termTab with
  | some t => (t.out.getD s 0, t.next.getD s 0)
  | none => trellisStep c s false

/-- `bits(y)`: the `N` coded bits of a symbol, most significant first (R23, R81). -/
def symbolBits (n y : Nat) : List Bool := (List.range n).map fun j => y.testBit (n - 1 - j)

/-- The state the encoder starts in: 0, or for a tail-biting code the last `K-1` information bits, the earliest in the most
significant place (R82). -/
def startState (c : ConvDesc) (u : List Bool) : Nat :=
  match c.term with
  | .flush => 0
  | .tailbite => (u.drop (c.len - (c.k - 1))).foldl (fun s b => 2 * s + b.toNat) 0

/-- The information steps from state `s`: the coded bits and the state reached (R82). -/
def encInfo (c : ConvDesc) (s : Nat) : List Bool → List Bool × Nat
  | [] => ([], s)
  | b :: u =>
    let r := encInfo c (trellisStep c s b).2 u
    (symbolBits c.n (trellisStep c s b).1 ++ r.1, r.2)

/-- `t` termination steps from state `s`: the coded bits and the state reached (R82). -/
def encTerm (c : ConvDesc) (s : Nat) : Nat → List Bool × Nat
  | 0 => ([], s)
  | t + 1 =>
    let r := encTerm c (termStep c s).2 t
    (symbolBits c.n (termStep c s).1 ++ r.1, r.2)

/-- `conv_full(c, u)`: the full coded sequence (R82). -/
def convFull (c : ConvDesc) (u : List Bool) : List Bool :=
  let i := encInfo c (startState c u) u
  i.1 ++ (encTerm c i.2 (termSteps c)).1

/-- `conv_enc(c, u, p)`: punctured when `p` is 1 and the descriptor has a table (R83). -/
def convEnc (c : ConvDesc) (u : List Bool) (p : Bool) : List Bool :=
  if usesPunc c p then puncture (puncTable c) (convFull c u) else convFull c u

/-- The work of `CENC` on the executing instance (R80). -/
def cencCmd (rom : Rom) (d : Nat) (p : Bool) (c : CoreInst) : CoreInst :=
  let c := c.clearResults
  match romConv rom d with
  | none => c.raise 0x01 .eDesc .s0
  | some cd =>
    if !(inRange c.a0 cd.len .hb && inRange c.a1 (codedLen cd p) .hb) then c.raise 0x01 .eRange .s0
    else if c.a2.toNat ≠ cd.len then c.raise 0x01 .eEncin .s0
    else
      let u := c.loadBits c.a0.toNat cd.len
      (c.storeBits c.a1.toNat (convEnc cd u p)).complete 0x01 (codedLen cd p)

/-- `CENC` (R80). -/
def execCenc (d : Nat) (p : Bool) (s : State) : Host.Outcome State Fault Refusal :=
  .next (s.onActive (cencCmd s.params.rom d p))

end Sys2Proof.Machine
end

