-- ==== Sys2Proof/Machine/Viterbi.lean ====
section
/-! DEFINITION. Sys2Proof/Machine/Viterbi.lean: the Viterbi decoder, flushed and tail-biting (spec R91 to R98), the error
statistics (R99) and command `VDEC` (R90). Path metrics are unbounded naturals, which R92 shows to give the same results
as 32-bit ones. -/

namespace Sys2Proof.Machine

/-! ### Metrics -/

/-- The branch-metric term of one received value under one hypothesised bit (R91). -/
def bmTerm (hyp : Bool) (x : Int) : Nat := if x = 0 then 0 else (x - softOf hyp).natAbs ^ 2 >>> 9

/-- `bm(y, xs)` (R91). -/
def branchMetric (n y : Nat) (xs : List Int) : Nat := (List.zipWith bmTerm (symbolBits n y) xs).sum

/-- The metrics before the first step (R93). -/
def initMetrics (c : ConvDesc) : List Nat :=
  match c.term with
  | .flush => 0 :: List.replicate (numStates c - 1) inf
  | .tailbite => List.replicate (numStates c) 0

/-! ### Add-compare-select -/

/-- A row of add-compare-select: the new metrics and the predecessors. -/
structure AcsRow where
  nx : List Nat
  h : List Nat
deriving DecidableEq, Repr

/-- No candidate met yet: every metric `INF`, every predecessor 0 (R94). -/
def acsStart (c : ConvDesc) : AcsRow := ⟨List.replicate (numStates c) inf, List.replicate (numStates c) 0⟩

/-- One candidate: from state `s` into state `t` with metric `cand`; it survives only when strictly smaller (R94). -/
def acsCandidate (row : AcsRow) (s t cand : Nat) : AcsRow :=
  if cand < row.nx.getD t inf then ⟨row.nx.set t cand, row.h.set t s⟩ else row

/-- The candidate of the branch `(y, t)` out of state `s`. -/
def acsBranch (c : ConvDesc) (pm : List Nat) (xs : List Int) (row : AcsRow) (s : Nat) (yt : Nat × Nat) : AcsRow :=
  acsCandidate row s yt.2 (pm.getD s inf + branchMetric c.n yt.1 xs)

/-- `acs(c, pm, xs)`: one information step; states ascending, input 0 before 1 (R94). -/
def acs (c : ConvDesc) (pm : List Nat) (xs : List Int) : AcsRow :=
  (List.range (numStates c)).foldl
    (fun row s => acsBranch c pm xs (acsBranch c pm xs row s (trellisStep c s false)) s (trellisStep c s true)) (acsStart c)

/-- `acs_term(c, pm, xs)`: one termination step (R95). -/
def acsTerm (c : ConvDesc) (pm : List Nat) (xs : List Int) : AcsRow :=
  (List.range (numStates c)).foldl (fun row s => acsBranch c pm xs row s (termStep c s)) (acsStart c)

/-! ### The recursion over steps -/

/-- Where a run of steps stands: the metrics, the survivor rows (latest first) and the input not yet consumed. -/
structure VitState where
  pm : List Nat
  rows : List (List Nat)
  rest : List Int
deriving DecidableEq, Repr

/-- One step consumes `N` soft values (R97). -/
def vitStep (c : ConvDesc) (f : ConvDesc → List Nat → List Int → AcsRow) (v : VitState) : VitState :=
  let r := f c v.pm (v.rest.take c.n)
  ⟨r.nx, r.h :: v.rows, v.rest.drop c.n⟩

/-- `k` steps. -/
def vitRun (c : ConvDesc) (f : ConvDesc → List Nat → List Int → AcsRow) : Nat → VitState → VitState
  | 0, v => v
  | k + 1, v => vitRun c f k (vitStep c f v)

/-- The smallest metric; 0 for no state at all. -/
def minMetric (pm : List Nat) : Nat := pm.getD (argmin pm) 0

/-- Pass 1 of a tail-biting decode: the metrics after it, reduced by the smallest; `INF` stays `INF` (R96, R97). -/
def tailbitePass (c : ConvDesc) (x : List Int) : List Nat :=
  let pm := (vitRun c acs c.len ⟨initMetrics c, [], x⟩).pm
  pm.map fun m => if m = inf then inf else m - minMetric pm

/-- The metrics that the pass with survivors starts from (R97). -/
def vitStart (c : ConvDesc) (x : List Int) : List Nat :=
  match c.term with
  | .flush => initMetrics c
  | .tailbite => tailbitePass c x

/-- The termination rows are skipped (R98). -/
def traceTerm (cur : Nat) : List (List Nat) → Nat
  | [] => cur
  | h :: rows => traceTerm (h.getD cur 0) rows

/-- The information rows, latest first, give the decoded bits: 0 where the branch of input 0 leads to the state traced from,
else 1 (R98). `acc` is the bits of the later steps. -/
def traceInfo (c : ConvDesc) (cur : Nat) (acc : List Bool) : List (List Nat) → List Bool
  | [] => acc
  | h :: rows =>
    let prev := h.getD cur 0
    traceInfo c prev ((decide ((trellisStep c prev false).2 ≠ cur)) :: acc) rows

/-- `vit(c, x)`: the decoded bits and the final metric (R97). -/
def vit (c : ConvDesc) (x : List Int) : List Bool × Nat :=
  let info := vitRun c acs c.len ⟨vitStart c x, [], x⟩
  let fin := vitRun c acsTerm (termSteps c) ⟨info.pm, [], info.rest⟩
  let last := match c.term with
    | .flush => 0
    | .tailbite => argmin fin.pm
  (traceInfo c (traceTerm last fin.rows) [] info.rows, fin.pm.getD last inf)

/-! ### Error statistics -/

/-- Whether a received value disagrees with the re-encoded bit; 0 agrees with neither (R99). -/
def disagrees (b : Bool) (x : Int) : Bool := !((b && decide (x < 0)) || (!b && decide (0 < x)))

/-- `errstat(c, u, y, p)` (R99). -/
def errstat (c : ConvDesc) (u : List Bool) (y : List Int) (p : Bool) : Nat × Nat :=
  ((List.zipWith disagrees (convEnc c u p) y).count true, y.length)

/-- The soft sequence the decoder works on: depunctured when inline puncturing applies (R90). -/
def vitInput (c : ConvDesc) (y : List Int) (p : Bool) : List Int :=
  if usesPunc c p then depuncture 0 (puncTable c) y (nfull c) else y

/-- Viterbi decode of a received sequence with its statistics: decoded bits, errors, compared bits (R90, R97, R99). -/
def decodeStats (c : ConvDesc) (y : List Int) (p : Bool) : List Bool × Nat × Nat :=
  let u := (vit c (vitInput c y p)).1
  (u, errstat c u y p)

/-- The work of `VDEC` on the executing instance (R90). -/
def vdecCmd (rom : Rom) (d : Nat) (p : Bool) (c : CoreInst) : CoreInst :=
  let c := c.clearResults
  match romConv rom d with
  | none => c.raise 0x02 .eDesc .s0
  | some cd =>
    if !(inRange c.a0 (codedLen cd p) .sb && inRange c.a1 cd.len .hb) then c.raise 0x02 .eRange .s0
    else if c.a2.toNat ≠ codedLen cd p then c.raise 0x02 .eEncin .s0
    else
      let r := decodeStats cd (c.loadSoft c.a0.toNat (codedLen cd p)) p
      ((c.setStats r.2.1 r.2.2).storeBits c.a1.toNat r.1).complete 0x02 cd.len

/-- `VDEC` (R90). -/
def execVdec (d : Nat) (p : Bool) (s : State) : Host.Outcome State Fault Refusal :=
  .next (s.onActive (vdecCmd s.params.rom d p))

end Sys2Proof.Machine
end

