-- ==== Sys2Proof/Machine/FixedChannels.lean ====
section
/-! DEFINITION. Sys2Proof/Machine/FixedChannels.lean: the fixed-length channel commands (spec R155): the xCCH transform (R158),
`XCCH_ENC` (R156), `XCCH_DEC` (R157), `RACH_ENC` (R160), `RACH_DEC` (R161), `SCH_ENC` (R163), `SCH_DEC` (R164). -/

namespace Sys2Proof.Machine

/-! ### The xCCH transform (R158) -/

/-- The 456 coded bits of a 23-octet block: Fire parity, then the rate-1/2 code (R158; FACCH uses it as it is, R198). -/
def xcchCoded (o : List Byte) : List Bool :=
  let u := unpackBits false o 184
  convEnc (roleConv xcchConv) (u ++ crcBits (roleCrc fireCrc) u) false

/-- `xcch_encode(o)`: four rows of 114 interleaved bits (R158). -/
def xcchEncode (o : List Byte) : List Bool := scatter 456 false (List.zip (ilvCells 4) (xcchCoded o))

/-- What a decode of 456 soft coded values finds (R158, R200). -/
structure XcchResult where
  ok : Bool
  octets : List Byte
  ne : Nat
  nb : Nat
deriving DecidableEq, Repr

/-- Viterbi decode, statistics and Fire check of 456 coded values in coded-bit order (R158; FACCH, R200). -/
def xcchDecodeCoded (cB : List Int) : XcchResult :=
  let r := decodeStats (roleConv xcchConv) cB false
  { ok := crcCheck (roleCrc fireCrc) (r.1.take 184) (r.1.drop 184), octets := packBits false (r.1.take 184), ne := r.2.1,
    nb := r.2.2 }

/-- `xcch_decode(iB)`: deinterleave, then decode (R158). -/
def xcchDecode (iB : List Int) : XcchResult := xcchDecodeCoded (gather iB 0 (ilvCells 4))

/-! ### Four bursts of 116 cells -/

/-- Burst `b` of an area of bursts of width `w`. -/
def burstAt {α : Type} (area : List α) (w b : Nat) : List α := (area.drop (w * b)).take w

/-- Four bursts from four rows of 114 i-bits, each with the two flags given (R156). -/
def mapFour {α : Type} (iB : List α) (hl hu : α) : List α :=
  (List.range 4).flatMap fun b => mapBurst (burstAt iB 114 b) hl hu

/-- The four rows of i-bits of four bursts (R157). -/
def unmapFour {α : Type} (area : List α) : List α :=
  (List.range 4).flatMap fun b => unmapBurst (burstAt area burstWidth b)

/-- The eight stealing flags of four bursts as hard decisions: bit `2B` from `e_B[57]`, bit `2B+1` from `e_B[58]` (R17). -/
def fourBurstFlags (area : List Int) : List Bool := (gather area 0 gprsSfpos).map hardOf

/-! ### xCCH -/

/-- The work of `XCCH_ENC`: both stealing flags of all four bursts are 1 (R156). -/
def xcchEncCmd (c : CoreInst) : CoreInst :=
  let c := c.clearResults
  if !(inRange c.a0 23 .ob && inRange c.a1 464 .hb) then c.raise 0x20 .eRange .s0
  else
    let iB := xcchEncode (c.load .ob c.a0.toNat 23)
    (c.storeBits c.a1.toNat (mapFour iB true true)).complete 0x20 464

/-- The work of `XCCH_DEC` (R157). -/
def xcchDecCmd (c : CoreInst) : CoreInst :=
  let c := c.clearResults
  if !(inRange c.a0 464 .sb && inRange c.a1 23 .ob) then c.raise 0x21 .eRange .s0
  else
    let area := c.loadSoft c.a0.toNat 464
    let r := xcchDecode (unmapFour area)
    let c := { c.setStats r.ne r.nb with steal := stealHard (fourBurstFlags area), subst := substCheck c.subst 1 r.ok }
    if r.ok then (c.storeVec .ob c.a1.toNat r.octets).complete 0x21 23 else c.raise 0x21 .eCrc .s12

/-! ### RACH -/

/-- The exclusive-or of the BSIC onto six parity bits, bit 5 on the first (R162); applied twice it restores them. -/
def bsicXor (bsic : Word) (par : List Bool) : List Bool := par.mapIdx fun i b => b != bsicBit bsic i

/-- The work of `RACH_ENC` (R160). -/
def rachEncCmd (c : CoreInst) : CoreInst :=
  let c := c.clearResults
  if !(inRange c.a0 1 .ob && inRange c.a1 36 .hb) then c.raise 0x22 .eRange .s0
  else
    let u := unpackBits false (c.load .ob c.a0.toNat 1) 8
    let d := u ++ bsicXor c.bsic (crcBits (roleCrc rachCrc) u)
    (c.storeBits c.a1.toNat (convEnc (roleConv rachConv) d false)).complete 0x22 36

/-- The work of `RACH_DEC`: the statistics compare against the re-encoding of the decoded bits with the BSIC still folded in
(R161). -/
def rachDecCmd (c : CoreInst) : CoreInst :=
  let c := c.clearResults
  if !(inRange c.a0 36 .sb && inRange c.a1 1 .ob) then c.raise 0x23 .eRange .s0
  else
    let r := decodeStats (roleConv rachConv) (c.loadSoft c.a0.toNat 36) false
    let ok := crcCheck (roleCrc rachCrc) (r.1.take 8) (bsicXor c.bsic (r.1.drop 8))
    let c := { c.setStats r.2.1 r.2.2 with subst := substCheck c.subst 1 ok }
    if ok then (c.storeVec .ob c.a1.toNat (packBits false (r.1.take 8))).complete 0x23 1 else c.raise 0x23 .eCrc .s12

/-! ### SCH -/

/-- The work of `SCH_ENC` (R163). -/
def schEncCmd (c : CoreInst) : CoreInst :=
  let c := c.clearResults
  if !(inRange c.a0 4 .ob && inRange c.a1 78 .hb) then c.raise 0x24 .eRange .s0
  else
    let u := unpackBits false (c.load .ob c.a0.toNat 4) 25
    let d := u ++ crcBits (roleCrc schCrc) u
    (c.storeBits c.a1.toNat (convEnc (roleConv schConv) d false)).complete 0x24 78

/-- The work of `SCH_DEC`: the fourth octet is written with its upper seven bits 0 (R164). -/
def schDecCmd (c : CoreInst) : CoreInst :=
  let c := c.clearResults
  if !(inRange c.a0 78 .sb && inRange c.a1 4 .ob) then c.raise 0x25 .eRange .s0
  else
    let r := decodeStats (roleConv schConv) (c.loadSoft c.a0.toNat 78) false
    let ok := crcCheck (roleCrc schCrc) (r.1.take 25) (r.1.drop 25)
    let c := { c.setStats r.2.1 r.2.2 with subst := substCheck c.subst 1 ok }
    if ok then (c.storeVec .ob c.a1.toNat (packBits false (r.1.take 25))).complete 0x25 4 else c.raise 0x25 .eCrc .s12

/-! ### The meanings -/

/-- `XCCH_ENC` (R156). -/
def execXcchEnc (s : State) : Host.Outcome State Fault Refusal := .next (s.onActive xcchEncCmd)

/-- `XCCH_DEC` (R157). -/
def execXcchDec (s : State) : Host.Outcome State Fault Refusal := .next (s.onActive xcchDecCmd)

/-- `RACH_ENC` (R160). -/
def execRachEnc (s : State) : Host.Outcome State Fault Refusal := .next (s.onActive rachEncCmd)

/-- `RACH_DEC` (R161). -/
def execRachDec (s : State) : Host.Outcome State Fault Refusal := .next (s.onActive rachDecCmd)

/-- `SCH_ENC` (R163). -/
def execSchEnc (s : State) : Host.Outcome State Fault Refusal := .next (s.onActive schEncCmd)

/-- `SCH_DEC` (R164). -/
def execSchDec (s : State) : Host.Outcome State Fault Refusal := .next (s.onActive schDecCmd)

end Sys2Proof.Machine
end

