-- ==== Sys2Proof/Machine/Pdtch.lean ====
section
/-! DEFINITION. Sys2Proof/Machine/Pdtch.lean: the PDTCH commands over scheme records (spec R176): USF helpers (R178), sub-block
transforms (R179), scheme detection (R184), `PDTCH_ENC` (R180) and `PDTCH_DEC` (R183). -/

namespace Sys2Proof.Machine

/-! ### Derived quantities of a scheme record (R176) -/

/-- `W`: the burst width. -/
def pdsWidth (psk8 : Bool) : Nat := if psk8 then pskWidth else burstWidth

/-- `UW`: the width of the precode patterns. -/
def usfWidth (rom : Rom) (r : PdsRec) : Nat := (patRef rom r.usfpat).w

/-- The USF precode pattern of a value. -/
def usfPattern (rom : Rom) (r : PdsRec) (usf : Nat) : List Bool := (patRef rom r.usfpat).bits.getD usf []

/-- Whether sub-block `i` carries the precoded USF in its encoder input (R176, `INBAND`). -/
def carriesUsf (r : PdsRec) (i : Nat) : Bool := i == 1 && r.usfmode == .inband

/-- `NE`: the length of the encoder input of sub-block `i` (R176). -/
def subNe (rom : Rom) (r : PdsRec) (i : Nat) (b : SubBlock) : Nat :=
  b.ni + (crcRef rom b.crc).bits + (if carriesUsf r i then usfWidth rom r - 3 else 0)

/-- `NM`: the number of cells sub-block `i` occupies (R176). -/
def subNm (rom : Rom) (r : PdsRec) (i : Nat) (b : SubBlock) : Nat :=
  if b.coded then codedLen (convRef rom b.conv) b.p else subNe rom r i b

/-- The present sub-blocks with their numbers, ascending: header, first data block, second data block (R176). -/
def subBlocks (r : PdsRec) : List (Nat × SubBlock) :=
  [(0, r.sub0), (1, r.sub1), (2, r.sub2)].filterMap fun x => x.2.map fun b => (x.1, b)

/-- The cells of the area that sub-block `b` occupies, in order of its matched bits (R176 `PLACE`). -/
def placeCells (rom : Rom) (b : SubBlock) : List Nat := (permRef rom b.place).map

/-- The cells of the area that the separate USF bits occupy (R176 `USFPLACE`). -/
def usfCells (rom : Rom) (r : PdsRec) : List Nat := (permRef rom r.usfplace).map

/-! ### USF (R178) -/

/-- `usf_of(L, r)`. -/
def usfOf (l : List Bool) (r : PdsRec) : Nat := bitsNum (gather l false (r.usfbits.take 3))

/-- `usf_bits(v)`. -/
def usfBits (v : Nat) : List Bool := [v.testBit 0, v.testBit 1, v.testBit 2]

/-- `usf_detect(r, h)`. -/
def usfDetect (rom : Rom) (r : PdsRec) (h : List Bool) : Nat := mindistHard (patRef rom r.usfpat) h

/-! ### Sub-block transforms (R179) -/

/-- The bits a sub-block's CRC covers (R176 `PROT_LO`, `PROT_N`). -/
def protBits (b : SubBlock) (v : List Bool) : List Bool := (v.drop b.protLo).take b.protN

/-- `sub_encode(r, i, L, usf)`. -/
def subEncode (rom : Rom) (r : PdsRec) (i : Nat) (b : SubBlock) (l : List Bool) (usf : Nat) : List Bool :=
  let v := gather l false b.gather
  let w := v ++ crcBits (crcRef rom b.crc) (protBits b v)
  let w := if carriesUsf r i then usfPattern rom r usf ++ w.drop 3 else w
  if b.coded then convEnc (convRef rom b.conv) w b.p else w

/-- `sub_decode(r, i, m)`: decoded encoder input, errors, compared bits; an uncoded sub-block is in neither count. -/
def subDecode (rom : Rom) (b : SubBlock) (m : List Int) : List Bool × Nat × Nat :=
  if b.coded then decodeStats (convRef rom b.conv) m b.p else (m.map hardOf, 0, 0)

/-- `sub_check(r, i, w, usf)`: whether the CRC passes, and the information bits. -/
def subCheck (rom : Rom) (r : PdsRec) (i : Nat) (b : SubBlock) (w : List Bool) (usf : Nat) : Bool × List Bool :=
  let w := if carriesUsf r i then usfBits usf ++ w.drop (usfWidth rom r) else w
  let v := w.take b.ni
  let par := (w.drop b.ni).take (crcRef rom b.crc).bits
  (crcCheck (crcRef rom b.crc) (protBits b v) par, v)

/-! ### Encode -/

/-- The scheme that a length selects: the slot with these `OCTETS`, if present (R180 `S1`). -/
def schemeOfLength (rom : Rom) (len : Nat) : Option (Nat × PdsRec) :=
  (List.range 13).findSome? fun s => (romPds rom s).bind fun r => if r.octets = len then some (s, r) else none

/-- The assignments that build the burst area of a `GEN` scheme, in the order of R180: sub-blocks, then the separate USF. -/
def genAssignments (rom : Rom) (r : PdsRec) (l : List Bool) : List (Nat × Bool) :=
  let usf := if r.usfmode = .none then 0 else usfOf l r
  (subBlocks r).flatMap (fun x => List.zip (placeCells rom x.2) (subEncode rom r x.1 x.2 l usf))
    ++ (if r.usfmode = .separate then List.zip (usfCells rom r) (usfPattern rom r usf) else [])

/-- The burst area of `PDTCH_ENC`: zeros, the body, then the stealing flags (R180 `S4` to `S8`). -/
def pdtchArea (rom : Rom) (r : PdsRec) (o : List Byte) : List Bool :=
  let n := 4 * pdsWidth r.psk8
  let body := match r.kind with
    | .xcch => (mapFour (xcchEncode o) false false).zipIdx.map fun p => (p.2, p.1)
    | .gen => genAssignments rom r (unpackBits false o (8 * o.length))
  scatter n false (body ++ List.zip r.sfpos r.sfval)

/-- The work of `PDTCH_ENC` (R180). -/
def pdtchEncCmd (rom : Rom) (c : CoreInst) : CoreInst :=
  let c := c.clearResults
  let len := c.a2.toNat
  if !inRange c.a0 len .ob then c.raise 0x26 .eRange .s0
  else
    match schemeOfLength rom len with
    | none => c.raise 0x26 .eUnsup .s1
    | some (s, r) =>
      if !schemeEnabled c.pdcfg s then c.raise 0x26 .eUnsup .s1
      else if !inRange c.a1 (4 * pdsWidth r.psk8) .hb then c.raise 0x26 .eRange .s1
      else
        let c := { c with detid := detidScheme c.detid s }
        (c.storeBits c.a1.toNat (pdtchArea rom r (c.load .ob c.a0.toNat len))).complete 0x26 (4 * pdsWidth r.psk8)

/-! ### Decode -/

/-- The cells `e_B[57]`, `e_B[58]` of four bursts of width `W`, in the order of `STEAL` (R17). -/
def burstFlagCells (psk8 : Bool) : List Nat := (List.range 8).map fun n => pdsWidth psk8 * (n / 2) + posHL + n % 2

/-- `LMAX`: the octets `PDTCH_DEC` reserves in `OB` (R183). -/
def lmax (psk8 : Bool) : Nat := if psk8 then 154 else 54

/-- The candidate set: present, of the flagged modulation, enabled; ascending (R183 `S1`). -/
def candidates (rom : Rom) (psk8 : Bool) (pdcfg : Word) : List (Nat × PdsRec) :=
  (List.range 13).filterMap fun s => (romPds rom s).bind fun r =>
    if r.psk8 = psk8 ∧ schemeEnabled pdcfg s then some (s, r) else none

/-- `dist[s]`: how far the stealing-flag cells are from a candidate's pattern (R183 `S3`). -/
def flagDist (r : PdsRec) (area : List Int) : Nat := absDist r.sfval (gather area 0 r.sfpos)

/-- The member of the candidate set with minimal distance, the lowest index on a tie (R183 `S3`, R184). -/
def detectScheme (cs : List (Nat × PdsRec)) (area : List Int) : Option (Nat × PdsRec) :=
  cs[argmin (cs.map fun x => flagDist x.2 area)]?

/-- One sub-block after stage `S11`: its number, record, decoded encoder input and statistics. -/
structure SubDecoded where
  num : Nat
  blk : SubBlock
  w : List Bool
  ne : Nat
  nb : Nat
deriving DecidableEq, Repr

/-- Every present sub-block decoded, whether or not an earlier one is good (R183 `S9` to `S11`). -/
def decodeSubs (rom : Rom) (r : PdsRec) (area : List Int) : List SubDecoded :=
  (subBlocks r).map fun x =>
    let d := subDecode rom x.2 (gather area 0 (placeCells rom x.2))
    ⟨x.1, x.2, d.1, d.2.1, d.2.2⟩

/-- The USF that the decoder finds, if the scheme has one: in the area (`SEPARATE`, `S3`) or in sub-block 1 (`INBAND`,
`S11`) (R183; a scheme whose body is the xCCH transform has no sub-block to look in). -/
def findUsf (rom : Rom) (r : PdsRec) (area : List Int) (subs : List SubDecoded) : Option Nat :=
  match r.usfmode with
  | .none => none
  | .separate => some (usfDetect rom r ((gather area 0 (usfCells rom r)).map hardOf))
  | .inband => (subs.find? fun d => d.num == 1).map fun d => usfDetect rom r (d.w.take (usfWidth rom r))

/-- The assignments that rebuild the logical block, in the order of R183 `S13`. -/
def blockAssignments (r : PdsRec) (checked : List (SubDecoded × Bool × List Bool)) (usf : Nat) : List (Nat × Bool) :=
  checked.flatMap (fun x => List.zip x.1.blk.gather x.2.2)
    ++ (if r.usfmode = .separate then List.zip r.usfbits (usfBits usf) else [])

/-- The end of `PDTCH_DEC`: the block written and `OK`, or `W_OOR` when the USF is not in the valid set (R183 `S13`). -/
def pdtchStore (c : CoreInst) (oor : Bool) (o : List Byte) (octets : Nat) : CoreInst :=
  ((c.storeVec .ob c.a1.toNat o).setRlen octets).endCommand 0x27 (if oor then .wOor else .ok) { oor := oor } .s13

/-- `PDTCH_DEC` of a scheme whose body is the xCCH transform, from stage `S9` on (R183). -/
def pdtchDecXcch (r : PdsRec) (area : List Int) (oor : Bool) (c : CoreInst) : CoreInst :=
  let x := xcchDecode (unmapFour area)
  let c := { c.setStats x.ne x.nb with subst := substCheck c.subst 1 x.ok }
  if x.ok then pdtchStore c oor x.octets r.octets else c.endCommand 0x27 .eCrc { oor := oor } .s12

/-- `PDTCH_DEC` of a `GEN` scheme, from stage `S12` on: every present sub-block is checked, the block is written only when
all passed (R183). -/
def pdtchDecGen (rom : Rom) (r : PdsRec) (subs : List SubDecoded) (usf : Nat) (oor : Bool) (c : CoreInst) : CoreInst :=
  let checked := subs.map fun d => (d, subCheck rom r d.num d.blk d.w usf)
  let c := { c.setStats (subs.map fun d => d.ne).sum (subs.map fun d => d.nb).sum with
    subst := checked.foldl (fun w x => substCheck w x.1.num x.2.1) c.subst }
  if checked.all fun x => x.2.1 then
    let l := scatter (8 * r.octets) false (blockAssignments r checked usf)
    pdtchStore c oor (packBits false l) r.octets
  else c.endCommand 0x27 .eCrc { oor := oor } .s12

/-- `DETID.ID0` and the validity test of a detected USF (R178, R183): an out-of-range value is still used and reported. -/
def noteUsf (c : CoreInst) : Option Nat → CoreInst
  | none => c
  | some usf => { c with detid := detidId c.detid usf }

/-- Whether a detected USF lies outside `PDCFG.USFSET` (R178). -/
def usfOutOfRange (c : CoreInst) (usf : Option Nat) : Bool := usf.any fun u => !usfValid c.pdcfg u

/-- The work of `PDTCH_DEC` (R183, R17). Bit `n` of `STEAL` is `hard(area[SFPOS[n]])` (R183 `S3`), and `SFPOS` of every present scheme
lists `e_B[57]` and `e_B[58]` of the four bursts: for CS1 to CS4 by R177 (`romPds_gprs_sfpos`), for EDGE by well-formedness (`romWf`,
assumption log 24). So bit `2B` is `hard(e_B[57])` and bit `2B + 1` is `hard(e_B[58])`, as R17 says (`pdtchDec_steal`). -/
def pdtchDecCmd (rom : Rom) (psk8 : Bool) (c : CoreInst) : CoreInst :=
  let c := c.clearResults
  if !(inRange c.a0 (4 * pdsWidth psk8) .sb && inRange c.a1 (lmax psk8) .ob) then c.raise 0x27 .eRange .s0
  else
    let area := c.loadSoft c.a0.toNat (4 * pdsWidth psk8)
    match detectScheme (candidates rom psk8 c.pdcfg) area with
    | none => c.raise 0x27 .eUnsup .s1
    | some (s, r) =>
      let subs := match r.kind with
        | .xcch => []
        | .gen => decodeSubs rom r area
      let usf := findUsf rom r area subs
      let c := noteUsf { c with detid := detidScheme c.detid s, steal := stealHard ((gather area 0 r.sfpos).map hardOf) } usf
      let oor := usfOutOfRange c usf
      match r.kind with
      | .xcch => pdtchDecXcch r area oor c
      | .gen => pdtchDecGen rom r subs (usf.getD 0) oor c

/-! ### The meanings -/

/-- `PDTCH_ENC` (R180). -/
def execPdtchEnc (s : State) : Host.Outcome State Fault Refusal := .next (s.onActive (pdtchEncCmd s.params.rom))

/-- `PDTCH_DEC` (R183). -/
def execPdtchDec (psk8 : Bool) (s : State) : Host.Outcome State Fault Refusal :=
  .next (s.onActive (pdtchDecCmd s.params.rom psk8))

end Sys2Proof.Machine
end

