-- ==== Sys2Proof/Machine/Tch.lean ====
section
/-! DEFINITION. Sys2Proof/Machine/Tch.lean: the TCH commands over scheme and geometry records (spec R196, R197): the speech
transforms (R201), AMR in-band ids (R202), the stealing test (R199), `TCH_ENC` (R198) and `TCH_DEC` (R200). -/

namespace Sys2Proof.Machine

/-! ### Derived quantities of a scheme record (R196) -/

/-- `IW`: the width of the in-band codewords; 0 where there is none. -/
def idWidth (rom : Rom) (t : TcsRec) : Nat := (t.idpat.map fun q => (patRef rom q).w).getD 0

/-- The in-band codeword of an id; empty where there is none. -/
def idPattern (rom : Rom) (t : TcsRec) (id : Nat) : List Bool :=
  (t.idpat.map fun q => (patRef rom q).bits.getD id []).getD []

/-- `NP` of the codeword set. -/
def idCount (rom : Rom) (t : TcsRec) : Nat := (t.idpat.map fun q => (patRef rom q).np).getD 0

/-- `NM`: the coded bits of class 1. -/
def speechNm (rom : Rom) (t : TcsRec) : Nat := codedLen (convRef rom t.conv) t.p

/-- `N2 = NDX - N1`. -/
def speechN2 (t : TcsRec) : Nat := t.expand.length - t.n1

/-- `NC = IW + NM + N2`. -/
def speechNc (rom : Rom) (t : TcsRec) : Nat := idWidth rom t + speechNm rom t + speechN2 t

/-! ### Geometry (R197) -/

/-- `cell(k)` of the diagonal geometry: `116*(k mod 8) + pos(j(k))`. -/
def diagCell (k : Nat) : Nat := burstWidth * (k % 8) + burstPos (ilvPos k)

/-- The cells of the 456 coded bits of a diagonal block. -/
def diagCells : List Nat := (List.range 456).map diagCell

/-- The eight flag cells of a diagonal block: `HU` of bursts 0 … 3, `HL` of bursts 4 … 7. -/
def diagFlags : List Nat := (List.range 8).map fun b => burstWidth * b + (if b < 4 then posHU else posHL)

/-- The cells of the speech coded bits. -/
def speechCells (rom : Rom) : Geom → List Nat
  | .diag8 => diagCells
  | .table t => (permRef rom t.splace).map

/-- The flag cells of a speech block. -/
def speechFlags : Geom → List Nat
  | .diag8 => diagFlags
  | .table t => t.sflags

/-- The cells of the 456 FACCH coded bits. -/
def facchCells (rom : Rom) : Geom → List Nat
  | .diag8 => diagCells
  | .table t => (permRef rom t.fplace).map

/-- The flag cells of a FACCH block. -/
def facchFlags : Geom → List Nat
  | .diag8 => diagFlags
  | .table t => t.fflags

/-- Whether place `B` of a flag list holds a flag of burst `B`: the order in which R17 reports the flags of `TCH_DEC`. -/
def flagsByBurst (flags : List Nat) : Bool := flags.zipIdx.all fun x => x.1 / burstWidth == x.2

/-! ### Speech transforms (R201) -/

/-- The inner parity bits of a frame; empty without an inner CRC. -/
def innerParity (rom : Rom) (t : TcsRec) (d : List Bool) : List Bool :=
  match t.inner with
  | none => []
  | some i => crcBits (crcRef rom i.crc) (gather d false i.sel)

/-- The expanded vector `dx`: speech bits, then inner parity bits, as `EXPAND` picks them. -/
def expandBits (rom : Rom) (t : TcsRec) (d : List Bool) : List Bool := gather (d ++ innerParity rom t d) false t.expand

/-- `speech_encode(t, o, id)`. -/
def speechEncode (rom : Rom) (t : TcsRec) (o : List Byte) (id : Nat) : List Bool :=
  let d := unpackBits false o t.nd
  let z := scatter t.expand.length false (List.zip (permRef rom t.order).map (expandBits rom t d))
  let c1 := z.take t.n1
  let c2 := z.drop t.n1
  let w := c1.take t.nprot ++ crcBits (crcRef rom t.crc) (c1.take t.nprot) ++ c1.drop t.nprot
  idPattern rom t id ++ convEnc (convRef rom t.conv) w t.p ++ c2

/-- The element of `dx` at the first place where `EXPAND` holds `e`; later repetitions are ignored. -/
def firstCopy (t : TcsRec) (dx : List Bool) (e : Nat) : Bool := dx.getD (t.expand.idxOf e) false

/-- What a speech decode finds (R201): class-1 check, inner check (true without an inner CRC), octets, statistics. -/
structure SpeechResult where
  ok1 : Bool
  ok2 : Bool
  octets : List Byte
  ne : Nat
  nb : Nat
deriving DecidableEq, Repr

/-- The inner CRC check of a decoded frame. -/
def innerCheck (rom : Rom) (t : TcsRec) (d dx : List Bool) : Bool :=
  match t.inner with
  | none => true
  | some i =>
    let ip := (List.range (crcRef rom i.crc).bits).map fun k => firstCopy t dx (t.nd + k)
    crcCheck (crcRef rom i.crc) (gather d false i.sel) ip

/-- `speech_decode(t, y)`. -/
def speechDecode (rom : Rom) (t : TcsRec) (y : List Int) : SpeechResult :=
  let iw := idWidth rom t
  let nm := speechNm rom t
  let q := crcRef rom t.crc
  let r := decodeStats (convRef rom t.conv) ((y.drop iw).take nm) t.p
  let c2 := ((y.drop (iw + nm)).take (speechN2 t)).map hardOf
  let w := r.1
  let c1 := w.take t.nprot ++ (w.drop (t.nprot + q.bits)).take (t.n1 - t.nprot)
  let z := c1 ++ c2
  let dx := (List.range t.expand.length).map fun n => z.getD ((permRef rom t.order).map.getD n 0) false
  let d := (List.range t.nd).map (firstCopy t dx)
  let l := d ++ List.replicate (8 * t.octets - t.nd) false
  { ok1 := crcCheck q (w.take t.nprot) ((w.drop t.nprot).take q.bits), ok2 := innerCheck rom t d dx,
    octets := packBits false l, ne := r.2.1, nb := r.2.2 }

/-! ### AMR in-band ids (R202) -/

/-- The slots of `ROM.TCS` of an AMR channel mode: 3 … 10 for AMR-FR, 11 … 18 for AMR-HR (R196). -/
def amrRange (m : Nat) : List Nat := if m = 3 then List.range' 3 8 else List.range' 11 8

/-- The slot of an AMR codec mode under a channel mode (R198, R200). -/
def amrSchemeSlot (m mode : Nat) : Nat := if m = 3 then 3 + mode else 11 + mode

/-- `id_detect(t, x)`. -/
def idDetect (rom : Rom) (t : TcsRec) (x : List Int) : Nat :=
  mindistSoft ((t.idpat.map fun q => patRef rom q).getD default) x

/-- Whether a slot of `AMRCFG` is not valid (R202). -/
def slotInvalid (cfg : Word) (i : Nat) : Bool := (amrSlot cfg i).isNone

/-! ### Encode -/

/-- The speech scheme that the channel mode and the length select, if present with that length (R198 `S1`). -/
def speechScheme (rom : Rom) (m len : Nat) : Option (Nat × TcsRec) :=
  let slots := if m ≤ 2 then [m] else amrRange m
  slots.findSome? fun s => (romTcs rom s).bind fun t => if t.octets = len then some (s, t) else none

/-- `R.A3[2:0]`: `FT`, or `FT_IN` (R198, R200). -/
def ftOf (a3 : Word) : Nat := getField a3 0 3

/-- `R.A3[6:4]`: the codec mode request (R198). -/
def cmrOf (a3 : Word) : Nat := getField a3 4 3

/-- The AMR tests of `TCH_ENC` (R198 `S1`): the in-band id to send, or nothing where they raise `E_ENCIN`. -/
def amrEncodeId (rom : Rom) (t : TcsRec) (m s : Nat) (cmr : Bool) (c : CoreInst) : Option Nat :=
  let ft := ftOf c.a3
  let cm := cmrOf c.a3
  if (amrSlot c.amrcfg ft).map (amrSchemeSlot m) ≠ some s then none
  else if cmr ∧ slotInvalid c.amrcfg cm then none
  else
    let id := if cmr then cm else ft
    if id < idCount rom t then some id else none

/-- Stages `S7`, `S8`, `S13` of `TCH_ENC`: the block's own cells and flags, nothing else of the area (R198). -/
def tchStore (c : CoreInst) (cells flags : List Nat) (cB : List Bool) (facch : Bool) : CoreInst :=
  let at_ := fun k => c.a1.toNat + k
  let ws := List.zip (cells.map at_) (cB.map bitByte) ++ flags.map fun f => (at_ f, bitByte facch)
  ((c.store .hb ws).setRlen ws.length).endCommand 0x28 .ok { facch := facch } .s13

/-- The work of `TCH_ENC` (R198). -/
def tchEncCmd (rom : Rom) (cmr : Bool) (c : CoreInst) : CoreInst :=
  let c := c.clearResults
  let len := c.a2.toNat
  let m := chmodeOf c.chmode
  let g := romTcg rom m
  if !(inRange c.a0 len .ob && inRange c.a1 tchArea .hb) then c.raise 0x28 .eRange .s0
  else if m > 4 then c.raise 0x28 .eUnsup .s1
  else if len = 23 then tchStore c (facchCells rom g) (facchFlags g) (xcchCoded (c.load .ob c.a0.toNat 23)) true
  else
    match speechScheme rom m len with
    | none => c.raise 0x28 .eUnsup .s1
    | some (s, t) =>
      let c := { c with detid := detidScheme c.detid s }
      if m ≤ 2 then tchStore c (speechCells rom g) (speechFlags g) (speechEncode rom t (c.load .ob c.a0.toNat len) 0) false
      else
        match amrEncodeId rom t m s cmr c with
        | none => c.raise 0x28 .eEncin .s1
        | some id =>
          let c := { c with detid := detidId c.detid id }
          tchStore c (speechCells rom g) (speechFlags g) (speechEncode rom t (c.load .ob c.a0.toNat len) id) false

/-! ### Decode -/

/-- `steal`: the sum over the FACCH flag cells of the negated soft value (R199). -/
def stealSum (g : Geom) (area : List Int) : Int := ((gather area 0 (facchFlags g)).map fun x => -x).sum

/-- The end of `TCH_DEC` after the CRC checks: the block written and `OK` or `W_OOR`, or `E_CRC` (R200 `S12`, `S13`). -/
def tchFinish (c : CoreInst) (ok : Bool) (fl : CmdFlags) (o : List Byte) (octets : Nat) : CoreInst :=
  if ok then ((c.storeVec .ob c.a1.toNat o).setRlen octets).endCommand 0x29 (if fl.oor then .wOor else .ok) fl .s13
  else c.endCommand 0x29 .eCrc fl .s12

/-- The FACCH path of `TCH_DEC` (R200). -/
def tchDecFacch (rom : Rom) (g : Geom) (area : List Int) (c : CoreInst) : CoreInst :=
  let x := xcchDecodeCoded (gather area 0 (facchCells rom g))
  let c := { c.setStats x.ne x.nb with subst := substCheck c.subst 1 x.ok }
  tchFinish c x.ok { facch := true } x.octets 23

/-- The speech path of `TCH_DEC` once the scheme slot is known (R200 `S3` end to `S13`); `oor` tells whether a detected
request id is out of range. -/
def tchDecSpeech (rom : Rom) (g : Geom) (s : Nat) (area : List Int) (oor : Bool) (c : CoreInst) : CoreInst :=
  match romTcs rom s with
  | none => c.endCommand 0x29 .eUnsup { oor := oor } .s3
  | some t =>
    let r := speechDecode rom t (gather area 0 (speechCells rom g))
    let sub := substCheck c.subst 1 r.ok1
    let c := { c.setStats r.ne r.nb with
      detid := detidScheme c.detid s, subst := if t.inner.isSome then substCheck sub 2 r.ok2 else sub }
    tchFinish c (r.ok1 && r.ok2) { oor := oor } r.octets t.octets

/-- The AMR part of stage `S3`: detect the in-band id, validate it, and find the slot that selects the codec mode; an
invalid one ends the command `W_OOR` with nothing decoded (R200, R202, R203). -/
def tchDecAmr (rom : Rom) (g : Geom) (m : Nat) (cmr : Bool) (area : List Int) (c : CoreInst) : CoreInst :=
  match (amrRange m).findSome? (romTcs rom) with
  | none => c.raise 0x29 .eUnsup .s3
  | some t0 =>
    let id := idDetect rom t0 (gather area 0 ((speechCells rom g).take (idWidth rom t0)))
    let c := { c with detid := detidId c.detid id }
    let fid := if cmr then ftOf c.a3 else id
    match amrSlot c.amrcfg fid with
    | none => c.endCommand 0x29 .wOor { oor := true } .s3
    | some mode => tchDecSpeech rom g (amrSchemeSlot m mode) area (slotInvalid c.amrcfg id) c

/-- The work of `TCH_DEC` (R200). Bit `B` of `STEAL` is `hard(area[F[B]])` (R199), and `F[B]` is the flag of burst `B`: in `DIAG8` by
R197, in a `TABLE` geometry by well-formedness (`romWf`, assumption log 31). So it is bit `B` for burst `B`, as R17 says
(`tchDec_steal`). -/
def tchDecCmd (rom : Rom) (cmr : Bool) (c : CoreInst) : CoreInst :=
  let c := c.clearResults
  let m := chmodeOf c.chmode
  let g := romTcg rom m
  if !(inRange c.a0 tchArea .sb && inRange c.a1 33 .ob) then c.raise 0x29 .eRange .s0
  else if m > 4 then c.raise 0x29 .eUnsup .s1
  else
    let area := c.loadSoft c.a0.toNat tchArea
    let sum := stealSum g area
    let c := { c with steal := stealTch ((gather area 0 (facchFlags g)).map hardOf) sum }
    if sum > 0 then tchDecFacch rom g area c
    else if m ≤ 2 then tchDecSpeech rom g m area false c
    else tchDecAmr rom g m cmr area c

/-! ### The meanings -/

/-- `TCH_ENC` (R198). -/
def execTchEnc (cmr : Bool) (s : State) : Host.Outcome State Fault Refusal :=
  .next (s.onActive (tchEncCmd s.params.rom cmr))

/-- `TCH_DEC` (R200). -/
def execTchDec (cmr : Bool) (s : State) : Host.Outcome State Fault Refusal :=
  .next (s.onActive (tchDecCmd s.params.rom cmr))

end Sys2Proof.Machine
end

