-- ==== Sys2Proof/Machine/Utility.lean ====
section
/-! DEFINITION. Sys2Proof/Machine/Utility.lean: commands `NOP` (spec R145), `UNPK` (R146), `PACK` (R147), `H2S` (R149), `S2H` (R150)
and `SRST` (R151). -/

namespace Sys2Proof.Machine

/-- The work of `NOP`: it ends `OK` in `S0` (R145). -/
def nopCmd (c : CoreInst) : CoreInst := c.clearResults.endCommand 0x00 .ok {} .s0

/-- The work of `UNPK` on the executing instance (R146). -/
def unpkCmd (msbf : Bool) (c : CoreInst) : CoreInst :=
  let c := c.clearResults
  let n := c.a2.toNat
  if !(decide (n ≤ vmax) && inRange c.a0 (octetsFor n) .ob && inRange c.a1 n .hb) then c.raise 0x0E .eRange .s0
  else (c.storeBits c.a1.toNat (unpackBits msbf (c.load .ob c.a0.toNat (octetsFor n)) n)).complete 0x0E n

/-- The work of `PACK` on the executing instance (R147). -/
def packCmd (msbf : Bool) (c : CoreInst) : CoreInst :=
  let c := c.clearResults
  let n := c.a2.toNat
  if !(decide (n ≤ vmax) && inRange c.a0 n .hb && inRange c.a1 (octetsFor n) .ob) then c.raise 0x0F .eRange .s0
  else (c.storeVec .ob c.a1.toNat (packBits msbf (c.loadBits c.a0.toNat n))).complete 0x0F (octetsFor n)

/-- The work of `H2S` on the executing instance (R149). -/
def h2sCmd (c : CoreInst) : CoreInst :=
  let c := c.clearResults
  let n := c.a2.toNat
  if !(decide (n ≤ vmax) && inRange c.a0 n .hb && inRange c.a1 n .sb) then c.raise 0x10 .eRange .s0
  else (c.storeVec .sb c.a1.toNat ((c.loadBits c.a0.toNat n).map fun b => tc8 (softOf b))).complete 0x10 n

/-- The work of `S2H` on the executing instance (R150). -/
def s2hCmd (c : CoreInst) : CoreInst :=
  let c := c.clearResults
  let n := c.a2.toNat
  if !(decide (n ≤ vmax) && inRange c.a0 n .sb && inRange c.a1 n .hb) then c.raise 0x11 .eRange .s0
  else (c.storeBits c.a1.toNat ((c.loadSoft c.a0.toNat n).map hardOf)).complete 0x11 n

/-- The work of `SRST`: every register at its reset value, no completion status, the buffers as they were (R151). -/
def srstCmd (c : CoreInst) : CoreInst := c.resetRegs

/-- `NOP` (R145). -/
def execNop (s : State) : Host.Outcome State Fault Refusal := .next (s.onActive nopCmd)

/-- `UNPK` (R146). -/
def execUnpk (msbf : Bool) (s : State) : Host.Outcome State Fault Refusal := .next (s.onActive (unpkCmd msbf))

/-- `PACK` (R147). -/
def execPack (msbf : Bool) (s : State) : Host.Outcome State Fault Refusal := .next (s.onActive (packCmd msbf))

/-- `H2S` (R149). -/
def execH2s (s : State) : Host.Outcome State Fault Refusal := .next (s.onActive h2sCmd)

/-- `S2H` (R150). -/
def execS2h (s : State) : Host.Outcome State Fault Refusal := .next (s.onActive s2hCmd)

/-- `SRST` (R151). -/
def execSrst (s : State) : Host.Outcome State Fault Refusal := .next (s.onActive srstCmd)

end Sys2Proof.Machine
end

