-- ==== Sys2Proof/Machine/Dispatch.lean ====
section
/-! DEFINITION. Sys2Proof/Machine/Dispatch.lean: one arm per command (spec R64). -/

namespace Sys2Proof.Machine

/-- The meaning of a command on the machine (R64). -/
def exec (i : Instr) (s : State) : Host.Outcome State Fault Refusal :=
  match i with
  | .nop => Sys2Proof.Machine.execNop s
  | .cenc d p => Sys2Proof.Machine.execCenc d p s
  | .vdec d p => Sys2Proof.Machine.execVdec d p s
  | .crcs d => Sys2Proof.Machine.execCrcs d s
  | .crcc d => Sys2Proof.Machine.execCrcc d s
  | .punc d m => Sys2Proof.Machine.execPunc d m s
  | .dpun d m => Sys2Proof.Machine.execDpun d m s
  | .ilv var m => Sys2Proof.Machine.execIlv var m s
  | .dilv var m => Sys2Proof.Machine.execDilv var m s
  | .perm d inv m => Sys2Proof.Machine.execPerm d inv m s
  | .bmap hl hu m => Sys2Proof.Machine.execBmap hl hu m s
  | .bunm fo m => Sys2Proof.Machine.execBunm fo m s
  | .bmapt odd h m => Sys2Proof.Machine.execBmapt odd h m s
  | .bunmt odd fo m => Sys2Proof.Machine.execBunmt odd fo m s
  | .unpk msbf => Sys2Proof.Machine.execUnpk msbf s
  | .pack msbf => Sys2Proof.Machine.execPack msbf s
  | .h2s => Sys2Proof.Machine.execH2s s
  | .s2h => Sys2Proof.Machine.execS2h s
  | .xcchEnc => Sys2Proof.Machine.execXcchEnc s
  | .xcchDec => Sys2Proof.Machine.execXcchDec s
  | .rachEnc => Sys2Proof.Machine.execRachEnc s
  | .rachDec => Sys2Proof.Machine.execRachDec s
  | .schEnc => Sys2Proof.Machine.execSchEnc s
  | .schDec => Sys2Proof.Machine.execSchDec s
  | .pdtchEnc => Sys2Proof.Machine.execPdtchEnc s
  | .pdtchDec psk8 => Sys2Proof.Machine.execPdtchDec psk8 s
  | .tchEnc cmr => Sys2Proof.Machine.execTchEnc cmr s
  | .tchDec cmr => Sys2Proof.Machine.execTchDec cmr s
  | .srst => Sys2Proof.Machine.execSrst s

end Sys2Proof.Machine
end

