-- ==== Sys2Proof/Machine/Step.lean ====
section
/-! DEFINITION. Sys2Proof/Machine/Step.lean: one step of CORE: the port takes the oldest pending event; a `CMD` write runs its
command from `S0` to its end before the next event is taken (spec R40, R47, R49). -/

namespace Sys2Proof.Machine

/-- One step. With nothing pending the block is idle and nothing changes (R46, R152, R224). -/
def step (s : State) : Host.Outcome State Fault Refusal :=
  match s.pending with
  | [] => .next s
  | ev :: rest =>
    match takeEvent { s with pending := rest } ev with
    | .answered s' => .next s'
    | .command w s' =>
      match decode w with
      | .ok i => exec i s'
      | .error _ => .next (illegalCommand w s')

/-- The state in which the very next step runs the instruction word `w`: the host's `CMD` write of it stands first in the
queue at the port (R51; assumption log 6). -/
def State.withFetchWord (s : State) (nbits w : Nat) : State :=
  { s with pending := s.commandEvent (BitVec.ofNat 32 (w % 2 ^ nbits)) :: s.pending }

end Sys2Proof.Machine
end

