-- ==== Sys2Proof/Machine/RomWellFormed.lean ====
section
/-! DEFINITION. Sys2Proof/Machine/RomWellFormed.lean: the well-formedness rules of the descriptor ROM (spec R24 to R26, R176, R196,
R197, R17) and the fields that R177 and R205 fix. The sequencer checks none of them (R24, R223): they are hypotheses on the ROM
parameter, and nothing is specified for a ROM that breaks one (U6). -/

namespace Sys2Proof.Machine

/-! ### Convolutional descriptors (R23, R24) -/

/-- The state after `t` termination steps. -/
def termReach (c : ConvDesc) (s : Nat) : Nat → Nat
  | 0 => s
  | t + 1 => termReach c (termStep c s).2 t

/-- Both tables have a row for every state, with symbols of `N` bits and states below `NS` (R23). -/
def trellisWf (c : ConvDesc) : Bool :=
  c.nextOut.length == numStates c && c.nextState.length == numStates c
    && c.nextOut.all (fun p => p.1 < 2 ^ c.n && p.2 < 2 ^ c.n)
    && c.nextState.all (fun p => p.1 < numStates c && p.2 < numStates c)

/-- The termination table, where there is one, has a row for every state (R23). -/
def termTabWf (c : ConvDesc) : Bool :=
  c.termTab.all fun t => t.out.length == numStates c && t.next.length == numStates c
    && t.out.all (· < 2 ^ c.n) && t.next.all (· < numStates c)

/-- R24 (c): entries strictly ascending, each below `nfull`, ended by the sentinel. -/
def puncWf (c : ConvDesc) : Bool :=
  c.punc.all fun tab => tab.getLast? == some sentinel && decide (tab.dropLast.Pairwise (· < ·)) && tab.dropLast.all (· < nfull c)

/-- R24 (e): `K-1` termination steps lead from every state to state 0. -/
def flushesToZero (c : ConvDesc) : Bool := (List.range (numStates c)).all fun s => termReach c s (c.k - 1) == 0

/-- R24 (b): the two branches out of a state lead to different states. -/
def branchesDiffer (c : ConvDesc) : Bool := c.nextState.all fun p => p.1 != p.2

/-- The conditions on a convolutional descriptor (R23, R24 (a) to (e)). -/
def convWf (c : ConvDesc) : Bool :=
  decide (2 ≤ c.n ∧ c.n ≤ 5) && (c.k == 5 || c.k == 7) && decide (1 ≤ c.len) && decide (nfull c ≤ vmax)
    && trellisWf c && termTabWf c && branchesDiffer c && puncWf c
    && (match c.term with
      | .flush => flushesToZero c
      | .tailbite => decide (c.k - 1 ≤ c.len))

/-! ### CRC, permutation and pattern-set descriptors (R25, R26) -/

/-- The conditions on a CRC descriptor (R25). -/
def crcWf (q : CrcDesc) : Bool :=
  decide (1 ≤ q.bits ∧ q.bits ≤ 40) && decide (q.poly < 2 ^ q.bits ∧ q.init < 2 ^ q.bits ∧ q.rem < 2 ^ q.bits) && q.poly.testBit 0

/-- The conditions on a permutation descriptor (R26). -/
def permWf (r : PermDesc) : Bool :=
  decide (1 ≤ r.nin ∧ r.nin ≤ r.nout ∧ r.nout ≤ vmax) && r.map.length == r.nin && r.map.all (· < r.nout) && decide r.map.Nodup

/-- The conditions on a pattern set (R26). -/
def patWf (p : PatDesc) : Bool :=
  decide (1 ≤ p.np ∧ p.np ≤ 8) && decide (1 ≤ p.w ∧ p.w ≤ 64) && p.bits.length == p.np && p.bits.all (·.length == p.w)
    && decide p.bits.Nodup

/-! ### PDTCH scheme records (R176, R177) -/

/-- R176 (c), (d), (i), (j) for one present sub-block. -/
def subWf (rom : Rom) (r : PdsRec) (i : Nat) (b : SubBlock) : Bool :=
  b.gather.length == b.ni && b.gather.all (· < 8 * r.octets) && decide b.gather.Nodup
    && (romCrc rom b.crc).isSome && decide (b.protLo + b.protN ≤ b.ni)
    && (romPerm rom b.place).any (fun p => p.nin == subNm rom r i b && p.nout == 4 * pdsWidth r.psk8)
    && (!b.coded || (romConv rom b.conv).any (fun c => c.len == subNe rom r i b && (!b.p || c.punc.isSome)))

/-- R176 (j) and the field list, for the USF. -/
def usfWf (rom : Rom) (r : PdsRec) : Bool :=
  match r.usfmode with
  | .none => true
  | .inband =>
    r.usfbits.length == 3 && (romPat rom r.usfpat).any (fun p => p.np == 8 && decide (3 ≤ p.w))
      && r.sub1.any (fun b => b.gather.take 3 == r.usfbits && b.protLo == 0)
  | .separate =>
    r.usfbits.length == 3 && r.usfbits.all (· < 8 * r.octets)
      && (romPat rom r.usfpat).any (fun p =>
        p.np == 8 && (romPerm rom r.usfplace).any fun t => t.nin == p.w && t.nout == 4 * pdsWidth r.psk8)

/-- R176 (e): no cell of the area is reached twice. -/
def cellsDisjoint (rom : Rom) (r : PdsRec) : Bool :=
  decide ((subBlocks r).flatMap (fun x => placeCells rom x.2)
    ++ (if r.usfmode = .separate then usfCells rom r else []) ++ r.sfpos).Nodup

/-- R176 (f): no bit of the block is taken twice. That the three `USFBITS` of a `SEPARATE` scheme differ from each other as well is
the model's reading: the rule asks only that they be apart from the `GATHER` lists (assumption log 25). -/
def gatherDisjoint (r : PdsRec) : Bool :=
  decide ((subBlocks r).flatMap (fun x => x.2.gather) ++ (if r.usfmode = .separate then r.usfbits else [])).Nodup

/-- The conditions on a PDTCH scheme record (R176). -/
def pdsWf (rom : Rom) (r : PdsRec) : Bool :=
  r.sfpos.length == 8 && r.sfval.length == 8 && r.sfpos.all (· < 4 * pdsWidth r.psk8) && decide r.sfpos.Nodup
    && (match r.kind with
      | .xcch => !r.psk8 && r.octets == 23 && r.sfpos == gprsSfpos && r.usfmode != .inband
      | .gen => r.sub1.isSome && (subBlocks r).all (fun x => subWf rom r x.1 x.2) && usfWf rom r
          && cellsDisjoint rom r && gatherDisjoint r)

/-- The header of an EDGE scheme: tail-biting code, 8-bit CRC (R177). That `CODED` of a header may be 0 is the model's choice: the
rule fixes `TERM` of its code and `BITS` of its CRC, and not that it is coded (assumption log 30). -/
def headerKnown (rom : Rom) (b : SubBlock) : Bool :=
  (romConv rom b.conv).any (fun c => c.term == .tailbite) && (romCrc rom b.crc).any (fun q => q.bits == 8)

/-- What R177 says of the descriptors that a present record names: the header's, and `UW` of CS2, CS3, CS4. The fields it fixes
in the record itself stand in `romPds`. -/
def pdsKnown (rom : Rom) (s : Nat) (r : PdsRec) : Bool :=
  r.sub0.all (headerKnown rom) && (s == 0 || decide (4 ≤ s) || usfWidth rom r == (if s = 3 then 12 else 6))

/-! ### TCH scheme and geometry records (R196, R197, R202, R205) -/

/-- The channel mode a scheme slot belongs to (R196, R198). -/
def modeOfSlot (s : Nat) : Nat := if s ≤ 2 then s else if s ≤ 10 then 3 else 4

/-- The inner CRC of a record (R196). -/
def innerWf (rom : Rom) (t : TcsRec) : Bool :=
  t.inner.all fun i => (romCrc rom i.crc).isSome && i.sel.all (· < t.nd)

/-- `EXPAND` uses every speech bit and every inner parity bit, and nothing else (R196). -/
def expandWf (rom : Rom) (t : TcsRec) : Bool :=
  let n := t.nd + (t.inner.map fun i => (crcRef rom i.crc).bits).getD 0
  t.expand.all (· < n) && (List.range n).all fun e => t.expand.contains e

/-- The conditions on a TCH scheme record in slot `s` (R196). -/
def tcsWf (rom : Rom) (s : Nat) (t : TcsRec) : Bool :=
  t.octets != 23 && decide (t.nd ≤ 8 * t.octets) && innerWf rom t && expandWf rom t
    && (romPerm rom t.order).any (fun r => r.nin == t.expand.length && r.nout == t.expand.length)
    && decide (t.nprot ≤ t.n1 ∧ t.n1 ≤ t.expand.length)
    && (romCrc rom t.crc).isSome
    && (romConv rom t.conv).any (fun c => c.len == t.n1 + (crcRef rom t.crc).bits && (!t.p || c.punc.isSome))
    && (if s ≤ 2 then t.idpat.isNone
        else (t.idpat.bind (romPat rom)).any fun p => p.w == 4 || p.w == 8)
    && speechNc rom t == (speechCells rom (romTcg rom (modeOfSlot s))).length

/-- The present records of an AMR range. -/
def amrRecords (rom : Rom) (m : Nat) : List TcsRec := (amrRange m).filterMap (romTcs rom)

/-- Within an AMR range the lengths are distinct (R196) and all records name one codeword set (R202). -/
def amrRangeWf (rom : Rom) (m : Nat) : Bool :=
  decide ((amrRecords rom m).map (·.octets)).Nodup
    && (amrRecords rom m).all fun t => (amrRecords rom m).all fun u => t.idpat == u.idpat

/-- A placement into the 928-cell area whose cells are apart from the flag cells (R197). That the list of flag cells names no cell
twice is the model's choice: the rule asks only that flag cells and coded-bit cells be apart (assumption log 27). -/
def placementWf (rom : Rom) (place : Nat) (flags : List Nat) : Bool :=
  (romPerm rom place).any fun r => r.nout == tchArea && flags.all (fun f => f < tchArea && !r.map.contains f) && decide flags.Nodup

/-- The conditions on a `TABLE` geometry record (R197); at most eight FACCH flags, so that the stealing sum stays within ±1024
(R199). -/
def tableWf (rom : Rom) (g : TableGeom) : Bool :=
  placementWf rom g.splace g.sflags && placementWf rom g.fplace g.fflags
    && (romPerm rom g.fplace).any (fun r => r.nin == 456) && decide (g.fflags.length ≤ 8)

/-- What R205 says of the OPEN parts of a present record: `NSEL` and `NDX` of EFR, `IW` of the AMR codeword sets. The fields it
fixes in the record itself stand in `romTcs`. That the
class-1 CRC of HR and of AMR-HR may have any width is the model's choice (assumption log 28, 29). -/
def tcsKnown (rom : Rom) (s : Nat) (t : TcsRec) : Bool :=
  if s = 1 then t.expand.length == 260 && t.inner.any (fun i => i.sel.length == 65)
  else if s ≤ 2 then true
  else idWidth rom t == (if s ≤ 10 then 8 else 4)

/-! ### The whole ROM -/

/-- The conditions on the tables and records of the ROM, each taken by itself: descriptors (R24 to R26), at most 256 slots to a table
(R23, R25, R26), scheme records (R176, R177, R196, R202, R205) and geometry records (R197). -/
def romTablesWf (rom : Rom) : Bool :=
  decide (rom.conv.length ≤ 250 ∧ rom.crc.length ≤ 248 ∧ rom.perm.length ≤ 256 ∧ rom.pat.length ≤ 256)
    && rom.conv.all (·.all convWf) && rom.crc.all (·.all crcWf) && rom.perm.all (·.all permWf) && rom.pat.all (·.all patWf)
    && (List.range 13).all (fun s => (romPds rom s).all fun r => pdsWf rom r && pdsKnown rom s r)
    && (List.range 19).all (fun s => (romTcs rom s).all fun t => tcsWf rom s t && tcsKnown rom s t)
    && amrRangeWf rom 3 && amrRangeWf rom 4 && tableWf rom rom.tcgHr && tableWf rom rom.tcgAhr

/-- Where the stealing flags stand in a well-formed ROM (DEDUCED, assumption log 24, 31). `STEAL` of `PDTCH_DEC` holds `e_B[57]` and
`e_B[58]` by R17 and `area[SFPOS[2B]]` and `area[SFPOS[2B+1]]` by R183, in the same bits: so `SFPOS` lists those cells. `STEAL` of
`TCH_DEC` holds the flag of burst `B` by R17 and `F[B]` by R199, in the same bit: so `FFLAGS` goes burst by burst. -/
def romFlagWf (rom : Rom) : Bool :=
  (List.range 13).all (fun s => (romPds rom s).all fun r => r.sfpos == burstFlagCells r.psk8)
    && flagsByBurst rom.tcgHr.fflags && flagsByBurst rom.tcgAhr.fflags

/-- A well-formed ROM: every condition the spec puts on it. The statements ask for `romTablesWf` alone, which is weaker. -/
def romWf (rom : Rom) : Bool := romTablesWf rom && romFlagWf rom

end Sys2Proof.Machine
end

