-- ==== Sys2Proof/Safety.lean ====
section
/-! DEFINITION. Sys2Proof/Safety.lean: the words the statements use: what a command may leave behind (its result registers and the
cells it stores, everything else unchanged), which outcome codes each command can end with (spec R222), and the invariant of
a sound state. -/

namespace Sys2Proof.Machine

/-! ### What a command leaves behind -/

/-- The read-only registers that a command writes: `STATUS` (R14) and the result registers of R16 and R17. -/
structure Results where
  status : Word := 0#32
  nerr : Word := 0#32
  nbits : Word := 0#32
  rlen : Word := 0#32
  detid : Word := 0#32
  steal : Word := 0#32
  subst : Word := 0#32
deriving DecidableEq, Repr

/-- The result registers of an instance. -/
def CoreInst.results (c : CoreInst) : Results :=
  { status := c.status, nerr := c.nerr, nbits := c.nbits, rlen := c.rlen, detid := c.detid, steal := c.steal, subst := c.subst }

/-- The instance after a command that left the results `r`: result registers and sequencer changed, nothing else. `st` is the
content of the stage register, which has no meaning while idle (R30; assumption log 5). -/
def CoreInst.ended (c : CoreInst) (r : Results) (st : Stage) : CoreInst :=
  { c with status := r.status, nerr := r.nerr, nbits := r.nbits, rlen := r.rlen, detid := r.detid, steal := r.steal,
           subst := r.subst, stage := st, idle := true }

/-- The block with the executing instance replaced: other instances, parameters and the port are as before. -/
def State.putActive (s : State) (c : CoreInst) : State := { s with insts := s.insts.set s.active c }

/-- The command ends with the results `r`, and nothing else in the block changes: no cell, no register the host writes. -/
def Ends (i : Instr) (s : State) (c : CoreInst) (r : Results) : Prop :=
  ∃ st, exec i s = .next (s.putActive (c.ended r st))

/-- `c'` holds `v` at index `k` of buffer `b` for every stored pair `(k, v)`, and what `c` holds at every other index. -/
def StoresExactly (c c' : CoreInst) (b : Buf) (stored : Nat → Byte → Prop) : Prop :=
  (∀ k v, stored k v → c'.cell b k = v) ∧ (∀ k, (∀ v, ¬stored k v) → c'.cell b k = c.cell b k)

/-- The command ends with the results `r` and stores exactly the given cells of buffer `b`; nothing else in the block changes. -/
def EndsStoring (i : Instr) (s : State) (c : CoreInst) (r : Results) (b : Buf) (stored : Nat → Byte → Prop) : Prop :=
  ∃ m st, exec i s = .next (s.putActive ((c.setMem b m).ended r st)) ∧ StoresExactly c (c.setMem b m) b stored

/-- The pairs that storing the vector `vs` from index `a` on stores (R48). -/
def Vec (a : Nat) (vs : List Byte) (k : Nat) (v : Byte) : Prop := ∃ j, vs[j]? = some v ∧ k = a + j

/-- The operand of `len` cells at offset `a` lies inside buffer `b` (R48, R221). -/
abbrev Fits (a : Word) (len : Nat) (b : Buf) : Prop := a.toNat + len ≤ bufSize b

/-- The byte a stealing flag is in the buffer that `M` selects: 0 or 1, or −127 for 1 and +127 for 0 (R130, R135). -/
def flagByte (m b : Bool) : Byte :=
  match m, b with
  | false, false => 0x00#8
  | false, true => 0x01#8
  | true, false => 0x7F#8
  | true, true => 0x81#8

/-! ### Outcomes -/

/-- The codes a command can end with (the table of R222; `E_ILLCMD` never reaches a decoded command). `SRST` leaves no
outcome (R151). -/
def allowedCodes : Instr → List Code
  | .nop => [.ok]
  | .cenc _ _ => [.ok, .eDesc, .eRange, .eEncin]
  | .vdec _ _ => [.ok, .eDesc, .eRange, .eEncin]
  | .crcs _ => [.ok, .eDesc, .eRange]
  | .crcc _ => [.ok, .eDesc, .eRange, .eCrc]
  | .punc _ _ => [.ok, .eDesc, .eRange, .eEncin]
  | .dpun _ _ => [.ok, .eDesc, .eRange, .eEncin]
  | .ilv _ _ => [.ok, .eRange]
  | .dilv _ _ => [.ok, .eRange]
  | .perm _ _ _ => [.ok, .eDesc, .eRange]
  | .bmap _ _ _ => [.ok, .eRange]
  | .bunm _ _ => [.ok, .eRange]
  | .bmapt _ _ _ => [.ok, .eRange]
  | .bunmt _ _ _ => [.ok, .eRange]
  | .unpk _ => [.ok, .eRange]
  | .pack _ => [.ok, .eRange]
  | .h2s => [.ok, .eRange]
  | .s2h => [.ok, .eRange]
  | .xcchEnc => [.ok, .eRange]
  | .xcchDec => [.ok, .eRange, .eCrc]
  | .rachEnc => [.ok, .eRange]
  | .rachDec => [.ok, .eRange, .eCrc]
  | .schEnc => [.ok, .eRange]
  | .schDec => [.ok, .eRange, .eCrc]
  | .pdtchEnc => [.ok, .eRange, .eUnsup]
  | .pdtchDec _ => [.ok, .eRange, .eUnsup, .eCrc, .wOor]
  | .tchEnc _ => [.ok, .eRange, .eEncin, .eUnsup]
  | .tchDec _ => [.ok, .eRange, .eUnsup, .eCrc, .wOor]
  | .srst => []

/-- `STATUS.CODE`. -/
def statusCode (w : Word) : Nat := getField w 0 8

/-- `STATUS.FSTAGE`. -/
def statusStage (w : Word) : Nat := getField w 12 4

/-- `STATUS.OPC`. -/
def statusOpc (w : Word) : Nat := getField w 16 8

/-! ### The invariant -/

/-- A `STATUS` that the sequencer can have written: 0 after reset, or one of the eight codes with `DONE` set, `CRCF` exactly
for `E_CRC`, `OOR` with every `W_OOR`, a stage that exists and the top byte 0 (R14, R215, R217, R236). -/
def statusLegal (w : Word) : Bool :=
  w == 0#32 ||
    (w.getLsbD 8 && [0x00, 0x01, 0x02, 0x03, 0x04, 0x10, 0x11, 0x12].contains (statusCode w)
      && w.getLsbD 9 == (statusCode w == 0x01) && (w.getLsbD 10 || statusCode w != 0x04)
      && decide (statusStage w ≤ 13) && getField w 24 8 == 0)

/-- The reserved bits of the result registers are 0 and no sub-block has passed that was not checked (R17). -/
def resultsLegal (c : CoreInst) : Bool :=
  c.detid &&& 0xFE00FE00#32 == 0#32 && c.subst &&& 0xFFFFF8F8#32 == 0#32
    && (c.subst >>> 8) &&& ~~~c.subst &&& 0x00000007#32 == 0#32

/-- A sound instance: its buffers are in canonical form, hard-bit cells hold 0 or 1, unimplemented configuration bits are 0
(R18), the sequencer is idle (R47), and the result registers have their form. -/
structure CoreInst.Sound (c : CoreInst) : Prop where
  memWf : ∀ b, Memory.wf (c.mem b)
  hardBits : ∀ x ∈ c.hb, x.2 = 0#8 ∨ x.2 = 1#8
  bsicBits : c.bsic &&& ~~~bsicMask = 0#32
  chmodeBits : c.chmode &&& ~~~chmodeMask = 0#32
  pdcfgBits : c.pdcfg &&& ~~~pdcfgMask = 0#32
  idle : c.idle = true
  status : statusLegal c.status = true
  results : resultsLegal c = true

/-- A sound state: every instance is sound and the executing instance exists. -/
structure State.Sound (s : State) : Prop where
  insts : ∀ c ∈ s.insts, c.Sound
  active : s.active < s.insts.length

/-- No buffer of an instance holds a cell outside its size (R19, R48). -/
def CoreInst.InBounds (c : CoreInst) : Prop := ∀ b, ∀ x ∈ c.mem b, x.1 < bufSize b

/-- No buffer of any instance holds a cell outside its size. -/
def State.InBounds (s : State) : Prop := ∀ c ∈ s.insts, c.InBounds

/-! ### What a command's result may depend on (R21) -/

/-- Two instances that agree on all a command reads: operand and configuration registers, and every cell. -/
structure SameInputs (c d : CoreInst) : Prop where
  a0 : c.a0 = d.a0
  a1 : c.a1 = d.a1
  a2 : c.a2 = d.a2
  a3 : c.a3 = d.a3
  bsic : c.bsic = d.bsic
  chmode : c.chmode = d.chmode
  amrcfg : c.amrcfg = d.amrcfg
  pdcfg : c.pdcfg = d.pdcfg
  cells : ∀ b k, c.cell b k = d.cell b k

/-- Two instances that agree on all a command produces: the read-only registers and every cell. -/
def SameOutputs (c d : CoreInst) : Prop := c.results = d.results ∧ ∀ b k, c.cell b k = d.cell b k

/-! ### Host accesses (R44) -/

/-- The accesses that R44 calls legal, by what the offset selects. -/
def legalAccess (s : State) (addr : Nat) (w : Width) : Bool :=
  match locate s addr with
  | none => false
  | some (_, o) =>
    match windowTarget o, w with
    | .reg off, .word => off % 4 == 0
    | .cell _ _, .byte => true
    | _, _ => false

end Sys2Proof.Machine
end

