-- ==== Sys2Proof/Certificates/Slice0/Obligations.lean ====
section
/-! DEFINITION. Sys2Proof/Certificates/Slice0/Obligations.lean: the statements about the model of CORE, each a definition of a
proposition. `Ends` and `EndsStoring` of Safety.lean carry the frame: all other registers, all other cells, all other
instances, the ROM and the port are as before. The content of the stage register after a command is left open in every
statement (R30: "While idle, `stage` has no meaning"). -/

section
open Sys2Proof Sys2Proof.Machine

/-! ### Encoding and decoding -/

/-- Decoding and encoding are inverse: every well-formed instruction decodes from its own word, and a word that decodes is the
word of the instruction it decodes to, which is well formed: no bit of a command word is ignored (R60 to R64, R66, R67). -/
def Obligations.DecodeEncodeInverse : Prop :=
  (∀ i : Instr, i.wf = true → decode (encode i) = .ok i)
  ∧ ∀ (w : Word) (i : Instr), decode w = .ok i → encode i = w ∧ i.wf = true

/-- Every word matches exactly one row of the table of R64 and decodes, or matches none, is one of the four kinds of illegal
word that R65 lists, and written to `CMD` ends `E_ILLCMD` in `S0` with no other effect (R65; `CMD` holds the word and the
result registers are cleared, as R63 and R217 say of every raise in `S0`). -/
def Obligations.EveryWordDecodesOrIsIllegal : Prop :=
  ∀ w : Word,
    ((∃ r i, opcodeTable.filter (·.accepts w) = [r] ∧ decode w = .ok i)
      ∧ ¬(zField w ≠ 0#8 ∨ opcField w ∉ opcodeTable.map (fun r => opcField r.value)
        ∨ (usesDesc (opcField w) = false ∧ descField w ≠ 0) ∨ flgField w &&& ~~~(definedFlags (opcField w)) ≠ 0#8))
    ∨ (opcodeTable.filter (·.accepts w) = []
      ∧ (zField w ≠ 0#8 ∨ opcField w ∉ opcodeTable.map (fun r => opcField r.value)
        ∨ (usesDesc (opcField w) = false ∧ descField w ≠ 0) ∨ flgField w &&& ~~~(definedFlags (opcField w)) ≠ 0#8)
      ∧ ∀ (s : State) (addr i : Nat) (c : CoreInst) (rest : List BusEvent), s.pending = .write addr .word w :: rest →
          locate s addr = some (i, 0x04) → s.insts[i]? = some c →
          ∃ st, step s = .next { s with
            pending := rest, active := i, resp := some .done,
            insts := s.insts.set i
              ({ c with cmd := w }.ended { status := BitVec.ofNat 32 (0x110 + 0x10000 * opcField w) } st) })

/-- Words written out from the encodings of R60, R62 and R64 decode to the commands they stand for. -/
def Obligations.SampleWordsDecode : Prop :=
  decode 0x00000000#32 = .ok .nop ∧ decode 0x00010301#32 = .ok (.cenc 3 true) ∧ decode 0x00000602#32 = .ok (.vdec 6 false)
    ∧ decode 0x0000FF03#32 = .ok (.crcs 255) ∧ decode 0x00100306#32 = .ok (.dpun 3 true)
    ∧ decode 0x00110209#32 = .ok (.perm 2 true true) ∧ decode 0x0003000A#32 = .ok (.bmap true true false)
    ∧ decode 0x0013000D#32 = .ok (.bunmt true true true) ∧ decode 0x0001000E#32 = .ok (.unpk true)
    ∧ decode 0x00000021#32 = .ok .xcchDec ∧ decode 0x00010027#32 = .ok (.pdtchDec true)
    ∧ decode 0x00010029#32 = .ok (.tchDec true) ∧ decode 0x0000003F#32 = .ok .srst
    ∧ decode 0x00020301#32 = .error .undefinedFlag ∧ decode 0x00000107#32 = .error .descNotZero
    ∧ decode 0x00000012#32 = .error .unknownOpcode ∧ decode 0x01000000#32 = .error .zField

/-! ### The port and the step

The queue of pending transactions and the response are the model's own fields (assumption log 6, 17), and a transaction's data
stands in a 32-bit word (log 21). -/

/-- A `CMD` write of a word that decodes runs that instruction on the instance whose window was written, after `CMD` has
stored the word; the write completes (R13, R47, R51). That the write stands first in a queue is the model's choice (log 6). -/
def Obligations.StepRunsDecodedInstruction : Prop :=
  ∀ (s : State) (addr k : Nat) (w : Word) (i : Instr) (rest : List BusEvent),
    s.pending = .write addr .word w :: rest → locate s addr = some (k, 0x04) → decode w = .ok i →
    step s = exec i { s with
      pending := rest, active := k, resp := some .done, insts := s.insts.modify k fun c => { c with cmd := w } }

/-- Every step of every state answers a next state: no command, no bus access and no reset stops the block (R216, R245); that a
step without a transaction answers the same state is the model's choice (log 11). -/
def Obligations.EveryStepAnswers : Prop := ∀ s : State, ∃ t, step s = .next t

/-- Any access that R44 does not call legal is answered with a bus error and changes nothing (R44). That an address in no
instance window is such an access is the model's inference (log 10), and so is the test of the offset for alignment (log 7). -/
def Obligations.IllegalAccessRefused : Prop :=
  ∀ (s : State) (addr : Nat) (w : Width) (rest : List BusEvent), legalAccess s addr w = false →
    (s.pending = .read addr w :: rest → step s = .next { s with pending := rest, resp := some .busError })
    ∧ ∀ v, s.pending = .write addr w v :: rest → step s = .next { s with pending := rest, resp := some .busError }

/-- The cell formats of R45: what a byte write of each buffer stores, what a byte read returns, and that one access moves one
cell. That a byte read is zero-extended to the 32-bit response is the model's choice (log 21). -/
def Obligations.CellFormatsOnTheBus : Prop :=
  ∀ (s : State) (addr i o k : Nat) (b : Buf) (c : CoreInst) (rest : List BusEvent),
    locate s addr = some (i, o) → windowTarget o = .cell b k → s.insts[i]? = some c →
    (∀ v : Word, s.pending = .write addr .byte v :: rest →
      ∃ m, step s = .next { s with pending := rest, resp := some .done, insts := s.insts.set i (c.setMem b m) }
        ∧ (c.setMem b m).cell b k = (if b = .hb then v.setWidth 8 &&& 1#8 else v.setWidth 8)
        ∧ ∀ j, j ≠ k → (c.setMem b m).cell b j = c.cell b j)
    ∧ (s.pending = .read addr .byte :: rest →
      step s = .next { s with pending := rest, resp := some (.data ((c.cell b k).setWidth 32)) })
    ∧ (b = .hb → c.cell b k = 0x00#8 ∨ c.cell b k = 0x01#8)

/-- Reads have no side effect and repeat; a register write other than to `CMD` changes that register alone; writes to
read-only registers and reserved offsets are accepted and ignored (R46, R12, R18). -/
def Obligations.AccessSideEffects : Prop :=
  (∀ (s t : State) (addr : Nat) (w : Width) (rest : List BusEvent), s.pending = .read addr w :: .read addr w :: rest →
    step s = .next t →
    t = { s with pending := .read addr w :: rest, resp := t.resp } ∧ step t = .next { s with pending := rest, resp := t.resp })
  ∧ ∀ (s : State) (addr i off : Nat) (v : Word) (c : CoreInst) (rest : List BusEvent),
    s.pending = .write addr .word v :: rest → locate s addr = some (i, off) → off < 0x100 → off % 4 = 0 → off ≠ 0x04 →
    s.insts[i]? = some c →
    step s = .next { s with
      pending := rest, resp := some .done,
      insts := s.insts.set i
        (if off = 0x0C then { c with a0 := v } else if off = 0x10 then { c with a1 := v }
         else if off = 0x14 then { c with a2 := v } else if off = 0x18 then { c with a3 := v }
         else if off = 0x34 then { c with bsic := v &&& 0x3F#32 } else if off = 0x38 then { c with chmode := v &&& 0x7#32 }
         else if off = 0x3C then { c with amrcfg := v } else if off = 0x40 then { c with pdcfg := v &&& 0x00FF1FFF#32 }
         else c) }

/-- What a word read of each register offset returns: the register map of R12 with `ID` hard-wired (R13) and reserved offsets
reading 0. -/
def Obligations.RegisterReads : Prop :=
  ∀ (s : State) (addr i off : Nat) (c : CoreInst) (rest : List BusEvent),
    s.pending = .read addr .word :: rest → locate s addr = some (i, off) → off < 0x100 → off % 4 = 0 → s.insts[i]? = some c →
    ∃ v, step s = .next { s with pending := rest, resp := some (.data v) }
      ∧ v = ([0x05030007#32, c.cmd, c.status, c.a0, c.a1, c.a2, c.a3, c.nerr, c.nbits, c.rlen, c.detid, c.steal, c.subst,
              c.bsic, c.chmode, c.amrcfg, c.pdcfg].getD (off / 4) 0#32)

/-! ### Reset -/

/-- After either reset source every register of the affected instance holds the value of R236 and the sequencer is idle: the
power-on input resets every instance, `SRST` the executing one, and the machine starts in such a state. That the reset input
is an event between two transactions and keeps the number of instances is the model's inference (log 12, 22). -/
def Obligations.ResetValues : Prop :=
  let atReset : CoreInst → Prop := fun c =>
    (∀ off, off < 0x100 → off % 4 = 0 →
      regRead c off = if off = 0x00 then 0x05030007#32 else if off = 0x40 then 0x00FF1FFF#32 else 0#32) ∧ c.idle = true
  (∀ c ∈ State.reset.insts, atReset c)
  ∧ (∀ (s : State) (rest : List BusEvent), s.pending = .powerOn :: rest →
      ∃ t, step s = .next t ∧ t.insts.length = s.insts.length ∧ ∀ c ∈ t.insts, atReset c)
  ∧ ∀ (s t : State), exec .srst s = .next t → ∀ c, t.cur? = some c → atReset c

/-- `SRST` puts every register of the executing instance at its reset value and changes no buffer and no other instance; an
`SRST` word with a nonzero `DESC`, `FLG` or `Z` field resets nothing and ends `E_ILLCMD` (R151). -/
def Obligations.SrstRule : Prop :=
  (∀ (s : State) (c : CoreInst), s.cur? = some c →
    ∃ st, exec .srst s = .next (s.putActive
      { c with cmd := 0#32, status := 0#32, a0 := 0#32, a1 := 0#32, a2 := 0#32, a3 := 0#32, nerr := 0#32, nbits := 0#32,
               rlen := 0#32, detid := 0#32, steal := 0#32, subst := 0#32, bsic := 0#32, chmode := 0#32, amrcfg := 0#32,
               pdcfg := 0x00FF1FFF#32, stage := st, idle := true }))
  ∧ ∀ w : Word, opcField w = 0x3F → w ≠ 0x0000003F#32 → decode? w = none
    ∧ ∀ (s : State) (c : CoreInst), s.cur? = some c →
      ∃ st, illegalCommand w s = s.putActive (c.ended { status := 0x003F0110#32 } st)

/-! ### Rules about every command -/

/-- No step changes the descriptor ROM or any other parameter (R29), and a bus transaction, with the command it may start,
touches no instance other than the one whose window it addresses (R8, R227). -/
def Obligations.StepStaysInItsInstance : Prop :=
  (∀ s t : State, step s = .next t → t.params = s.params)
  ∧ ∀ (s t : State) (ev : BusEvent) (rest : List BusEvent) (addr i o j : Nat), s.pending = ev :: rest →
    (∃ w, ev = .read addr w) ∨ (∃ w v, ev = .write addr w v) → locate s addr = some (i, o) → j ≠ i → step s = .next t →
    t.insts[j]? = s.insts[j]?

/-- No command but `SRST` changes an operand or configuration register or `CMD`, and none changes a buffer it has no
destination in: `OB` is written by `PACK` and the channel decoders only, `SB` by `H2S` and the commands whose `M` flag is 1, `HB`
by none of these and not by `NOP` and `CRCC`; `BUNM` and `BUNMT` with `FO` write no cell (R12, R15, R41). -/
def Obligations.CommandsKeepHostRegisters : Prop :=
  ∀ (i : Instr) (s t : State) (c d : CoreInst), i ≠ .srst → s.cur? = some c → exec i s = .next t → t.cur? = some d →
    d.cmd = c.cmd ∧ d.a0 = c.a0 ∧ d.a1 = c.a1 ∧ d.a2 = c.a2 ∧ d.a3 = c.a3 ∧ d.bsic = c.bsic ∧ d.chmode = c.chmode
      ∧ d.amrcfg = c.amrcfg ∧ d.pdcfg = c.pdcfg
      ∧ (i.opcode ∉ [0x0F, 0x21, 0x23, 0x25, 0x27, 0x29] → ∀ k, d.cell .ob k = c.cell .ob k)
      ∧ (i.opcode ≠ 0x10 → i.flags / 16 = 0 → ∀ k, d.cell .sb k = c.cell .sb k)
      ∧ (i.opcode ∈ [0x00, 0x04, 0x0F, 0x10, 0x21, 0x23, 0x25, 0x27, 0x29] ∨ i.flags / 16 = 1 → ∀ k, d.cell .hb k = c.cell .hb k)
      ∧ ((∃ m, i = .bunm true m) ∨ (∃ odd m, i = .bunmt odd true m) → ∀ b k, d.cell b k = c.cell b k)

/-- Every command but `SRST` ends with a `STATUS` whose `OPC` is its opcode, `DONE` is 1, and whose code is one the table of R222
allows it; `CRCF` is 1 exactly for `E_CRC` (R215, R217, R222). -/
def Obligations.OutcomeCodes : Prop :=
  ∀ (i : Instr) (s t : State) (d : CoreInst), i ≠ .srst → (∃ c, s.cur? = some c) → exec i s = .next t → t.cur? = some d →
    statusOpc d.status = i.opcode ∧ d.status.getLsbD 8 = true ∧ getField d.status 24 8 = 0
      ∧ (∃ k ∈ allowedCodes i, statusCode d.status = codeNum k) ∧ d.status.getLsbD 9 = decide (statusCode d.status = 0x01)

/-- A command that ends with a failure code writes no buffer cell and leaves `RLEN` at 0; one that ends early with `W_OOR`
(`FSTAGE` below 13) likewise (R48 (b), R217, R219). -/
def Obligations.FailureWritesNothing : Prop :=
  ∀ (i : Instr) (s t : State) (c d : CoreInst), i ≠ .srst → s.cur? = some c → exec i s = .next t → t.cur? = some d →
    (statusCode d.status ≠ 0x00 ∧ statusCode d.status ≠ 0x04) ∨ (statusCode d.status = 0x04 ∧ statusStage d.status ≠ 13) →
    d.rlen = 0#32 ∧ ∀ b k, d.cell b k = c.cell b k

/-- The result of a command is a function of the command, the operand and configuration registers, the cells and the ROM: two
instances that agree on these end with the same read-only registers and the same cells, whatever came before (R21). -/
def Obligations.ResultIsFunctionOfInputs : Prop :=
  ∀ (i : Instr) (s s' t t' : State) (c c' d d' : CoreInst), s.params.rom = s'.params.rom → s.cur? = some c → s'.cur? = some c' →
    SameInputs c c' → exec i s = .next t → exec i s' = .next t' → t.cur? = some d → t'.cur? = some d' → SameOutputs d d'

/-- The invariant: every step keeps a sound state sound. -/
def Obligations.StepKeepsSound : Prop := ∀ s t : State, s.Sound → step s = .next t → t.Sound

/-- The state after reset satisfies both invariants: it is sound, and no cell lies outside its buffer. -/
def Obligations.ResetIsSound : Prop := State.reset.Sound ∧ State.reset.InBounds

/-- With a ROM of well-formed tables (`romTablesWf`, R24 to R26, R176, R196, R197) no step puts a cell outside a buffer's size (R19,
R48, R221). -/
def Obligations.StepKeepsInBounds : Prop :=
  ∀ s t : State, romTablesWf s.params.rom = true → s.InBounds → step s = .next t → t.InBounds

/-! ### Utility commands -/

/-- `NOP` (R145). -/
def Obligations.NopRule : Prop :=
  ∀ (s : State) (c : CoreInst), s.cur? = some c → Ends .nop s c { status := 0x00000100#32 }

/-- `UNPK` (R146): bit `k` of the destination is bit `k mod 8` of octet `k div 8`, or bit `7 - k mod 8` with `MSBF`. -/
def Obligations.UnpkRule : Prop :=
  ∀ (msbf : Bool) (s : State) (c : CoreInst) (n : Nat), s.cur? = some c → n = c.a2.toNat →
    (¬(n ≤ vmax ∧ Fits c.a0 ((n + 7) / 8) .ob ∧ Fits c.a1 n .hb) → Ends (.unpk msbf) s c { status := 0x000E0112#32 })
    ∧ (n ≤ vmax → Fits c.a0 ((n + 7) / 8) .ob → Fits c.a1 n .hb →
      EndsStoring (.unpk msbf) s c { status := 0x000ED100#32, rlen := c.a2 } .hb fun k v =>
        ∃ j < n, k = c.a1.toNat + j
          ∧ v = bitByte ((c.cell .ob (c.a0.toNat + j / 8)).getLsbD (if msbf then 7 - j % 8 else j % 8)))

/-- `PACK` (R147): bit `i` (or `7 - i` with `MSBF`) of destination octet `q` is source bit `8q + i`, 0 where there is none. -/
def Obligations.PackRule : Prop :=
  ∀ (msbf : Bool) (s : State) (c : CoreInst) (n : Nat), s.cur? = some c → n = c.a2.toNat →
    (¬(n ≤ vmax ∧ Fits c.a0 n .hb ∧ Fits c.a1 ((n + 7) / 8) .ob) → Ends (.pack msbf) s c { status := 0x000F0112#32 })
    ∧ (n ≤ vmax → Fits c.a0 n .hb → Fits c.a1 ((n + 7) / 8) .ob →
      EndsStoring (.pack msbf) s c { status := 0x000FD100#32, rlen := BitVec.ofNat 32 ((n + 7) / 8) } .ob fun k v =>
        ∃ q < (n + 7) / 8, k = c.a1.toNat + q
          ∧ ∀ i < 8, v.getLsbD (if msbf then 7 - i else i)
              = (decide (8 * q + i < n) && (c.cell .hb (c.a0.toNat + (8 * q + i))).getLsbD 0))

/-- `H2S` (R149): +127 for 0 and −127 for 1. -/
def Obligations.H2sRule : Prop :=
  ∀ (s : State) (c : CoreInst) (n : Nat), s.cur? = some c → n = c.a2.toNat →
    (¬(n ≤ vmax ∧ Fits c.a0 n .hb ∧ Fits c.a1 n .sb) → Ends .h2s s c { status := 0x00100112#32 })
    ∧ (n ≤ vmax → Fits c.a0 n .hb → Fits c.a1 n .sb →
      EndsStoring .h2s s c { status := 0x0010D100#32, rlen := c.a2 } .sb fun k v =>
        ∃ j < n, k = c.a1.toNat + j ∧ v = if c.cell .hb (c.a0.toNat + j) = 1#8 then 0x81#8 else 0x7F#8)

/-- `S2H` (R150): 1 for a negative value, else 0. -/
def Obligations.S2hRule : Prop :=
  ∀ (s : State) (c : CoreInst) (n : Nat), s.cur? = some c → n = c.a2.toNat →
    (¬(n ≤ vmax ∧ Fits c.a0 n .sb ∧ Fits c.a1 n .hb) → Ends .s2h s c { status := 0x00110112#32 })
    ∧ (n ≤ vmax → Fits c.a0 n .sb → Fits c.a1 n .hb →
      EndsStoring .s2h s c { status := 0x0011D100#32, rlen := c.a2 } .hb fun k v =>
        ∃ j < n, k = c.a1.toNat + j ∧ v = if (c.cell .sb (c.a0.toNat + j)).toInt < 0 then 1#8 else 0#8)

/-! ### The convolutional engines -/

/-- `CENC` (R80). -/
def Obligations.CencRule : Prop :=
  ∀ (d : Nat) (p : Bool) (s : State) (c : CoreInst), s.cur? = some c →
    (romConv s.params.rom d = none → Ends (.cenc d p) s c { status := 0x00010111#32 })
    ∧ ∀ (cd : ConvDesc) (nout : Nat), romConv s.params.rom d = some cd →
      nout = (if p = true ∧ cd.punc.isSome = true then nmatched cd else nfull cd) →
      (¬(Fits c.a0 cd.len .hb ∧ Fits c.a1 nout .hb) → Ends (.cenc d p) s c { status := 0x00010112#32 })
      ∧ (Fits c.a0 cd.len .hb → Fits c.a1 nout .hb → c.a2.toNat ≠ cd.len →
          Ends (.cenc d p) s c { status := 0x00010103#32 })
      ∧ (Fits c.a0 cd.len .hb → Fits c.a1 nout .hb → c.a2.toNat = cd.len → convWf cd = true →
          EndsStoring (.cenc d p) s c { status := 0x0001D100#32, rlen := BitVec.ofNat 32 nout } .hb fun k v =>
            ∃ j < nout, k = c.a1.toNat + j
              ∧ v = bitByte ((let f := convFull cd (c.loadBits c.a0.toNat cd.len)
                  if p = true ∧ cd.punc.isSome = true then puncture (puncTable cd) f else f).getD j false))

/-- `VDEC` (R90). -/
def Obligations.VdecRule : Prop :=
  ∀ (d : Nat) (p : Bool) (s : State) (c : CoreInst), s.cur? = some c →
    (romConv s.params.rom d = none → Ends (.vdec d p) s c { status := 0x00020111#32 })
    ∧ ∀ (cd : ConvDesc) (nin : Nat), romConv s.params.rom d = some cd →
      nin = (if p = true ∧ cd.punc.isSome = true then nmatched cd else nfull cd) →
      (¬(Fits c.a0 nin .sb ∧ Fits c.a1 cd.len .hb) → Ends (.vdec d p) s c { status := 0x00020112#32 })
      ∧ (Fits c.a0 nin .sb → Fits c.a1 cd.len .hb → c.a2.toNat ≠ nin → Ends (.vdec d p) s c { status := 0x00020103#32 })
      ∧ (Fits c.a0 nin .sb → Fits c.a1 cd.len .hb → c.a2.toNat = nin →
          let y := c.loadSoft c.a0.toNat nin
          let x := if p = true ∧ cd.punc.isSome = true then depuncture 0 (puncTable cd) y (nfull cd) else y
          let u := (vit cd x).1
          EndsStoring (.vdec d p) s c
            { status := 0x0002D100#32, rlen := BitVec.ofNat 32 cd.len, nerr := BitVec.ofNat 32 (errstat cd u y p).1,
              nbits := BitVec.ofNat 32 nin } .hb
            fun k v => ∃ j < cd.len, k = c.a1.toNat + j ∧ v = bitByte (u.getD j false))

/-- The six given codes are the code of the generators G0 = 1 + D^3 + D^4 and G1 = 1 + D + D^3 + D^4, followed by four zero
tail bits (R27, R82). -/
def Obligations.GivenCodesHaveTheirGenerators : Prop :=
  ∀ (d : Nat) (cd : ConvDesc) (u : List Bool), givenConv[d]? = some cd → u.length = cd.len → ∀ j < cd.len + 4,
    let x : Nat → Bool := fun i => decide (i ≤ j) && u.getD (j - i) false
    (convFull cd u).getD (2 * j) false = ((x 0 ^^ x 3) ^^ x 4)
      ∧ (convFull cd u).getD (2 * j + 1) false = (((x 0 ^^ x 1) ^^ x 3) ^^ x 4)

/-- Length and termination of the encoder for every well-formed descriptor (R83, R84 (b) to (d)): the full and the punctured
sequence have the stated lengths; a flush descriptor ends in state 0; a tail-biting shift-register descriptor ends in the state
it started in. -/
def Obligations.EncoderLengthAndTermination : Prop :=
  ∀ (cd : ConvDesc) (u : List Bool) (p : Bool), convWf cd = true → u.length = cd.len →
    (convFull cd u).length = nfull cd
      ∧ (convEnc cd u p).length = (if p = true ∧ cd.punc.isSome = true then nmatched cd else nfull cd)
      ∧ (cd.term = .flush → (encTerm cd (encInfo cd (startState cd u) u).2 (termSteps cd)).2 = 0)
      ∧ (cd.term = .tailbite →
          (∀ s < numStates cd, ∀ b, (trellisStep cd s b).2 = (2 * s + b.toNat) % numStates cd) →
          (encInfo cd (startState cd u) u).2 = startState cd u)

/-- Noise-free identity: decoding the ideal soft values of a code word of a well-formed flush descriptor, in which the two
branches out of every state carry different symbols, gives back the information bits at metric 0, and no error is counted
(R101 (c); true of the six given descriptors). -/
def Obligations.ViterbiInvertsEncoder : Prop :=
  ∀ (cd : ConvDesc) (u : List Bool), convWf cd = true → cd.term = .flush → (∀ p ∈ cd.nextOut, p.1 ≠ p.2) → u.length = cd.len →
    vit cd ((convFull cd u).map softOf) = (u, 0) ∧ errstat cd u ((convFull cd u).map softOf) false = (0, nfull cd)

/-- An all-erasure input decodes to zeros with every compared bit an error, under every given descriptor (R101 (d), R99). -/
def Obligations.ErasuresDecodeToZeros : Prop :=
  ∀ (d : Nat) (cd : ConvDesc), givenConv[d]? = some cd →
    vit cd (List.replicate (nfull cd) 0) = (List.replicate cd.len false, 0)
      ∧ errstat cd (List.replicate cd.len false) (List.replicate (nfull cd) 0) false = (nfull cd, nfull cd)

/-! ### CRC -/

/-- `CRCS` (R106). -/
def Obligations.CrcsRule : Prop :=
  ∀ (p : Nat) (s : State) (c : CoreInst), s.cur? = some c →
    (romCrc s.params.rom p = none → Ends (.crcs p) s c { status := 0x00030111#32 })
    ∧ ∀ (q : CrcDesc) (n : Nat), romCrc s.params.rom p = some q → n = c.a2.toNat →
      (¬(n ≤ vmax ∧ Fits c.a0 n .hb ∧ Fits c.a1 q.bits .hb) → Ends (.crcs p) s c { status := 0x00030112#32 })
      ∧ (n ≤ vmax → Fits c.a0 n .hb → Fits c.a1 q.bits .hb →
          EndsStoring (.crcs p) s c { status := 0x0003D100#32, rlen := BitVec.ofNat 32 q.bits } .hb fun k v =>
            ∃ j < q.bits, k = c.a1.toNat + j ∧ v = bitByte ((crcBits q (c.loadBits c.a0.toNat n)).getD j false))

/-- `CRCC` (R107). -/
def Obligations.CrccRule : Prop :=
  ∀ (p : Nat) (s : State) (c : CoreInst), s.cur? = some c →
    (romCrc s.params.rom p = none → Ends (.crcc p) s c { status := 0x00040111#32 })
    ∧ ∀ (q : CrcDesc) (n : Nat), romCrc s.params.rom p = some q → n = c.a2.toNat →
      (¬(n ≤ vmax ∧ Fits c.a0 n .hb ∧ Fits c.a1 q.bits .hb) → Ends (.crcc p) s c { status := 0x00040112#32 })
      ∧ (n ≤ vmax → Fits c.a0 n .hb → Fits c.a1 q.bits .hb →
          (crcBits q (c.loadBits c.a0.toNat n) = c.loadBits c.a1.toNat q.bits →
            Ends (.crcc p) s c { status := 0x0004C100#32, subst := 0x00000202#32 })
          ∧ (crcBits q (c.loadBits c.a0.toNat n) ≠ c.loadBits c.a1.toNat q.bits →
            Ends (.crcc p) s c { status := 0x0004C301#32, subst := 0x00000002#32 }))

/-- The parity of a block passes its check, and flipping exactly one bit of the block or of its parity makes the check fail,
for every well-formed CRC descriptor (R110). -/
def Obligations.CrcSingleBitSensitivity : Prop :=
  ∀ (q : CrcDesc) (d : List Bool), crcWf q = true →
    crcCheck q d (crcBits q d) = true
      ∧ (∀ k < d.length, crcCheck q (d.set k (!d.getD k false)) (crcBits q d) = false)
      ∧ ∀ k < q.bits, crcCheck q d ((crcBits q d).set k (!(crcBits q d).getD k false)) = false

/-! ### Puncturing -/

/-- `PUNC` (R116). -/
def Obligations.PuncRule : Prop :=
  ∀ (d : Nat) (m : Bool) (s : State) (c : CoreInst), s.cur? = some c →
    (romConv s.params.rom d = none → Ends (.punc d m) s c { status := 0x00050111#32 })
    ∧ ∀ (cd : ConvDesc) (b : Buf), romConv s.params.rom d = some cd → b = (if m then .sb else .hb) →
      (¬(Fits c.a0 (nfull cd) b ∧ Fits c.a1 (nmatched cd) b) → Ends (.punc d m) s c { status := 0x00050112#32 })
      ∧ (Fits c.a0 (nfull cd) b → Fits c.a1 (nmatched cd) b → c.a2.toNat ≠ nfull cd →
          Ends (.punc d m) s c { status := 0x00050103#32 })
      ∧ (Fits c.a0 (nfull cd) b → Fits c.a1 (nmatched cd) b → c.a2.toNat = nfull cd → convWf cd = true →
          EndsStoring (.punc d m) s c { status := 0x0005D100#32, rlen := BitVec.ofNat 32 (nmatched cd) } b fun k v =>
            ∃ j < nmatched cd, k = c.a1.toNat + j
              ∧ v = (puncture (puncTable cd) (c.load b c.a0.toNat (nfull cd))).getD j 0#8)

/-- `DPUN` (R117). -/
def Obligations.DpunRule : Prop :=
  ∀ (d : Nat) (m : Bool) (s : State) (c : CoreInst), s.cur? = some c →
    (romConv s.params.rom d = none → Ends (.dpun d m) s c { status := 0x00060111#32 })
    ∧ ∀ (cd : ConvDesc) (b : Buf), romConv s.params.rom d = some cd → b = (if m then .sb else .hb) →
      (¬(Fits c.a0 (nmatched cd) b ∧ Fits c.a1 (nfull cd) b) → Ends (.dpun d m) s c { status := 0x00060112#32 })
      ∧ (Fits c.a0 (nmatched cd) b → Fits c.a1 (nfull cd) b → c.a2.toNat ≠ nmatched cd →
          Ends (.dpun d m) s c { status := 0x00060103#32 })
      ∧ (Fits c.a0 (nmatched cd) b → Fits c.a1 (nfull cd) b → c.a2.toNat = nmatched cd →
          EndsStoring (.dpun d m) s c { status := 0x0006D100#32, rlen := BitVec.ofNat 32 (nfull cd) } b fun k v =>
            ∃ j < nfull cd, k = c.a1.toNat + j
              ∧ v = (depuncture 0#8 (puncTable cd) (c.load b c.a0.toNat (nmatched cd)) (nfull cd)).getD j 0#8)

/-- The puncturing inverse of R120, for hard bits and soft values alike, over every well-formed table `tab` (entries, then the
sentinel) of a sequence of `n` elements. -/
def Obligations.PuncturingInverse : Prop :=
  ∀ (α : Type) (e : α) (tab : List Nat) (n : Nat), tab.Pairwise (· < ·) → (∀ i ∈ tab, i < n) → n ≤ vmax →
    (∀ v : List α, v.length = n →
      (puncture (tab ++ [sentinel]) v).length = n - tab.length
      ∧ ∀ i < n, (depuncture e (tab ++ [sentinel]) (puncture (tab ++ [sentinel]) v) n)[i]?
          = if i ∈ tab then some e else v[i]?)
    ∧ ∀ m : List α, m.length = n - tab.length → puncture (tab ++ [sentinel]) (depuncture e (tab ++ [sentinel]) m n) = m

/-! ### Interleaving -/

/-- `ILV` (R126) with the index function of R125. -/
def Obligations.IlvRule : Prop :=
  ∀ (var m : Bool) (s : State) (c : CoreInst) (b : Buf) (nb : Nat), s.cur? = some c → b = (if m then .sb else .hb) →
    nb = (if var then 8 else 4) →
    (¬(Fits c.a0 456 b ∧ Fits c.a1 (nb * 114) b) → Ends (.ilv var m) s c { status := 0x00070112#32 })
    ∧ (Fits c.a0 456 b → Fits c.a1 (nb * 114) b →
      EndsStoring (.ilv var m) s c { status := 0x0007D100#32, rlen := 456#32 } b fun k v =>
        ∃ j < 456, k = c.a1.toNat + ((j % nb) * 114 + (2 * ((49 * j) % 57) + (j % 8) / 4)) ∧ v = c.cell b (c.a0.toNat + j))

/-- `DILV` (R127): the stored cells, and that after `ILV` with the same `VAR` and `M` it returns the original 456 cells. -/
def Obligations.DilvRule : Prop :=
  (∀ (var m : Bool) (s : State) (c : CoreInst) (b : Buf) (nb : Nat), s.cur? = some c → b = (if m then .sb else .hb) →
    nb = (if var then 8 else 4) →
    (¬(Fits c.a0 (nb * 114) b ∧ Fits c.a1 456 b) → Ends (.dilv var m) s c { status := 0x00080112#32 })
    ∧ (Fits c.a0 (nb * 114) b → Fits c.a1 456 b →
      EndsStoring (.dilv var m) s c { status := 0x0008D100#32, rlen := 456#32 } b fun k v =>
        ∃ j < 456, k = c.a1.toNat + j
          ∧ v = c.cell b (c.a0.toNat + ((j % nb) * 114 + (2 * ((49 * j) % 57) + (j % 8) / 4)))))
  ∧ ∀ (var m : Bool) (s t u : State) (c d : CoreInst) (b : Buf) (a1 : Word), s.cur? = some c → b = (if m then .sb else .hb) →
    Fits c.a0 456 b → Fits c.a1 (if var then 8 * 114 else 4 * 114) b → Fits a1 456 b → exec (.ilv var m) s = .next t →
    exec (.dilv var m) (t.onActive fun e => { e with a0 := e.a1, a1 := a1 }) = .next u → u.cur? = some d →
    ∀ k < 456, d.cell b (a1.toNat + k) = c.cell b (c.a0.toNat + k)

/-- `PERM` (R128), forward and inverse, over a well-formed descriptor. -/
def Obligations.PermRule : Prop :=
  ∀ (t : Nat) (inv m : Bool) (s : State) (c : CoreInst) (b : Buf), s.cur? = some c → b = (if m then .sb else .hb) →
    (romPerm s.params.rom t = none → Ends (.perm t inv m) s c { status := 0x00090111#32 })
    ∧ ∀ r : PermDesc, romPerm s.params.rom t = some r →
      (¬(Fits c.a0 (if inv then r.nout else r.nin) b ∧ Fits c.a1 (if inv then r.nin else r.nout) b) →
          Ends (.perm t inv m) s c { status := 0x00090112#32 })
      ∧ (Fits c.a0 (if inv then r.nout else r.nin) b → Fits c.a1 (if inv then r.nin else r.nout) b → permWf r = true →
          EndsStoring (.perm t inv m) s c { status := 0x0009D100#32, rlen := BitVec.ofNat 32 r.nin } b fun k v =>
            ∃ j x, j < r.nin ∧ r.map[j]? = some x
              ∧ if inv then k = c.a1.toNat + j ∧ v = c.cell b (c.a0.toNat + x)
                else k = c.a1.toNat + x ∧ v = c.cell b (c.a0.toNat + j))

/-! ### Burst mapping -/

/-- `BMAP` (R130): i-bit `j` at `pos(j)` of R134, the two flags at 57 and 58. -/
def Obligations.BmapRule : Prop :=
  ∀ (hl hu m : Bool) (s : State) (c : CoreInst) (b : Buf), s.cur? = some c → b = (if m then .sb else .hb) →
    (¬(Fits c.a0 114 b ∧ Fits c.a1 116 b) → Ends (.bmap hl hu m) s c { status := 0x000A0112#32 })
    ∧ (Fits c.a0 114 b → Fits c.a1 116 b →
      EndsStoring (.bmap hl hu m) s c { status := 0x000AD100#32, rlen := 116#32 } b fun k v =>
        (∃ j < 114, k = c.a1.toNat + (if j < 57 then j else j + 2) ∧ v = c.cell b (c.a0.toNat + j))
          ∨ (k = c.a1.toNat + 57 ∧ v = flagByte m hl) ∨ (k = c.a1.toNat + 58 ∧ v = flagByte m hu))

/-- `BUNM` (R131): the 114 i-bits unless `FO`, and the two flag cells in `STEAL`. -/
def Obligations.BunmRule : Prop :=
  ∀ (fo m : Bool) (s : State) (c : CoreInst) (b : Buf) (steal : Word), s.cur? = some c → b = (if m then .sb else .hb) →
    steal = (c.cell b (c.a0.toNat + 57)).setWidth 32 + (c.cell b (c.a0.toNat + 58)).setWidth 32 * 0x100#32 →
    (¬(Fits c.a0 116 b ∧ (fo = false → Fits c.a1 114 b)) → Ends (.bunm fo m) s c { status := 0x000B0112#32 })
    ∧ (Fits c.a0 116 b → fo = true → Ends (.bunm fo m) s c { status := 0x000BD100#32, steal := steal })
    ∧ (Fits c.a0 116 b → fo = false → Fits c.a1 114 b →
      EndsStoring (.bunm fo m) s c { status := 0x000BD100#32, rlen := 114#32, steal := steal } b fun k v =>
        ∃ j < 114, k = c.a1.toNat + j ∧ v = c.cell b (c.a0.toNat + (if j < 57 then j else j + 2)))

/-- `BMAPT` (R132): the 57 i-bit positions of one parity and that half's flag, 58 cells; the other 58 cells of the burst keep
their values. -/
def Obligations.BmaptRule : Prop :=
  ∀ (odd h m : Bool) (s : State) (c : CoreInst) (b : Buf), s.cur? = some c → b = (if m then .sb else .hb) →
    (¬(Fits c.a0 114 b ∧ Fits c.a1 116 b) → Ends (.bmapt odd h m) s c { status := 0x000C0112#32 })
    ∧ (Fits c.a0 114 b → Fits c.a1 116 b →
      EndsStoring (.bmapt odd h m) s c { status := 0x000CD100#32, rlen := 58#32 } b fun k v =>
        (∃ j < 114, j % 2 = odd.toNat ∧ k = c.a1.toNat + (if j < 57 then j else j + 2) ∧ v = c.cell b (c.a0.toNat + j))
          ∨ (k = c.a1.toNat + (if odd then 57 else 58) ∧ v = flagByte m h))

/-- `BUNMT` (R133): the 57 i-bits of one parity unless `FO`, and that half's flag cell in its field of `STEAL`. -/
def Obligations.BunmtRule : Prop :=
  ∀ (odd fo m : Bool) (s : State) (c : CoreInst) (b : Buf) (steal : Word), s.cur? = some c → b = (if m then .sb else .hb) →
    steal = (if odd then (c.cell b (c.a0.toNat + 57)).setWidth 32 else (c.cell b (c.a0.toNat + 58)).setWidth 32 * 0x100#32) →
    (¬(Fits c.a0 116 b ∧ (fo = false → Fits c.a1 114 b)) → Ends (.bunmt odd fo m) s c { status := 0x000D0112#32 })
    ∧ (Fits c.a0 116 b → fo = true → Ends (.bunmt odd fo m) s c { status := 0x000DD100#32, steal := steal })
    ∧ (Fits c.a0 116 b → fo = false → Fits c.a1 114 b →
      EndsStoring (.bunmt odd fo m) s c { status := 0x000DD100#32, rlen := 57#32, steal := steal } b fun k v =>
        ∃ j < 114, j % 2 = odd.toNat ∧ k = c.a1.toNat + j ∧ v = c.cell b (c.a0.toNat + (if j < 57 then j else j + 2)))

/-! ### The fixed-length channels -/

/-- The transform of R158: cell `(k mod 4) * 114 + j(k)` of the encoded rows is coded bit `k` of the Fire-protected block, and
decoding is Viterbi, statistics and Fire check over the same cells; FACCH uses the coded bits without the rows. -/
def Obligations.XcchTransform : Prop :=
  (∀ o : List Byte, o.length = 23 →
    let u := (List.range 184).map fun k => (o.getD (k / 8) 0#8).getLsbD (k % 8)
    let cB := convFull (k5Desc 224 none) (u ++ crcBits ⟨40, 0x0004820009, 0, 0xFFFFFFFFFF⟩ u)
    cB.length = 456 ∧ xcchCoded o = cB ∧ (xcchEncode o).length = 456
      ∧ ∀ k < 456, (xcchEncode o).getD ((k % 4) * 114 + (2 * ((49 * k) % 57) + (k % 8) / 4)) false = cB.getD k false)
  ∧ ∀ iB : List Int, iB.length = 456 →
    let cB := (List.range 456).map fun k => iB.getD ((k % 4) * 114 + (2 * ((49 * k) % 57) + (k % 8) / 4)) 0
    let d := (vit (k5Desc 224 none) cB).1
    xcchDecode iB = xcchDecodeCoded cB ∧ xcchDecode iB =
      { ok := crcCheck ⟨40, 0x0004820009, 0, 0xFFFFFFFFFF⟩ (d.take 184) (d.drop 184)
        octets := packBits false (d.take 184)
        ne := (errstat (k5Desc 224 none) d cB false).1
        nb := 456 }

/-- `XCCH_ENC` (R156): four bursts, i-bit `j` of burst `B` at `116B + pos(j)`, both flags of every burst 1. -/
def Obligations.XcchEncRule : Prop :=
  ∀ (s : State) (c : CoreInst), s.cur? = some c →
    (¬(Fits c.a0 23 .ob ∧ Fits c.a1 464 .hb) → Ends .xcchEnc s c { status := 0x00200112#32 })
    ∧ (Fits c.a0 23 .ob → Fits c.a1 464 .hb →
      EndsStoring .xcchEnc s c { status := 0x0020D100#32, rlen := 464#32 } .hb fun k v =>
        ∃ B < 4,
          (∃ j < 114, k = c.a1.toNat + (B * 116 + (if j < 57 then j else j + 2))
            ∧ v = bitByte ((xcchEncode (c.load .ob c.a0.toNat 23)).getD (B * 114 + j) false))
          ∨ ((k = c.a1.toNat + (B * 116 + 57) ∨ k = c.a1.toNat + (B * 116 + 58)) ∧ v = 1#8))

/-- `XCCH_DEC` (R157): the statistics and stealing flags are reported in either case, the block is written only when the Fire
check passes. -/
def Obligations.XcchDecRule : Prop :=
  ∀ (s : State) (c : CoreInst), s.cur? = some c →
    (¬(Fits c.a0 464 .sb ∧ Fits c.a1 23 .ob) → Ends .xcchDec s c { status := 0x00210112#32 })
    ∧ (Fits c.a0 464 .sb → Fits c.a1 23 .ob →
      let e : Nat → Int := fun q => (c.cell .sb (c.a0.toNat + q)).toInt
      let r := xcchDecode ((List.range 456).map fun q => e (q / 114 * 116 + (if q % 114 < 57 then q % 114 else q % 114 + 2)))
      let flags := BitVec.ofNat 32 (bitsNum ((List.range 8).map fun n => decide (e (n / 2 * 116 + 57 + n % 2) < 0)))
      (r.ok = true →
        EndsStoring .xcchDec s c
          { status := 0x0021D100#32, rlen := 23#32, nerr := BitVec.ofNat 32 r.ne, nbits := 456#32, steal := flags,
            subst := 0x00000202#32 } .ob (fun k v => ∃ q < 23, k = c.a1.toNat + q ∧ v = r.octets.getD q 0#8))
      ∧ (r.ok = false →
        Ends .xcchDec s c
          { status := 0x0021C301#32, nerr := BitVec.ofNat 32 r.ne, nbits := 456#32, steal := flags, subst := 0x00000002#32 }))

/-- `RACH_ENC` (R160, R162): 8 bits, the 6 parity bits with the BSIC folded in, then the rate-1/2 code. -/
def Obligations.RachEncRule : Prop :=
  ∀ (s : State) (c : CoreInst), s.cur? = some c →
    (¬(Fits c.a0 1 .ob ∧ Fits c.a1 36 .hb) → Ends .rachEnc s c { status := 0x00220112#32 })
    ∧ (Fits c.a0 1 .ob → Fits c.a1 36 .hb →
      let u := (List.range 8).map fun k => (c.cell .ob c.a0.toNat).getLsbD k
      let par := crcBits ⟨6, 0x2F, 0, 0x3F⟩ u
      let d := u ++ (List.range 6).map fun i => par.getD i false ^^ c.bsic.getLsbD (5 - i)
      EndsStoring .rachEnc s c { status := 0x0022D100#32, rlen := 36#32 } .hb fun k v =>
        ∃ j < 36, k = c.a1.toNat + j ∧ v = bitByte ((convFull (k5Desc 14 none) d).getD j false))

/-- `RACH_DEC` (R161, R162). -/
def Obligations.RachDecRule : Prop :=
  ∀ (s : State) (c : CoreInst), s.cur? = some c →
    (¬(Fits c.a0 36 .sb ∧ Fits c.a1 1 .ob) → Ends .rachDec s c { status := 0x00230112#32 })
    ∧ (Fits c.a0 36 .sb → Fits c.a1 1 .ob →
      let y := (List.range 36).map fun k => (c.cell .sb (c.a0.toNat + k)).toInt
      let d := (vit (k5Desc 14 none) y).1
      let par := (List.range 6).map fun i => d.getD (8 + i) false ^^ c.bsic.getLsbD (5 - i)
      let ne := BitVec.ofNat 32 (errstat (k5Desc 14 none) d y false).1
      (crcBits ⟨6, 0x2F, 0, 0x3F⟩ (d.take 8) = par →
        EndsStoring .rachDec s c
          { status := 0x0023D100#32, rlen := 1#32, nerr := ne, nbits := 36#32, subst := 0x00000202#32 } .ob fun k v =>
            k = c.a1.toNat ∧ ∀ i < 8, v.getLsbD i = d.getD i false)
      ∧ (crcBits ⟨6, 0x2F, 0, 0x3F⟩ (d.take 8) ≠ par →
        Ends .rachDec s c { status := 0x0023C301#32, nerr := ne, nbits := 36#32, subst := 0x00000002#32 }))

/-- `SCH_ENC` (R163): 25 bits, 10 parity bits, then the rate-1/2 code; the upper seven bits of the fourth octet are ignored. -/
def Obligations.SchEncRule : Prop :=
  ∀ (s : State) (c : CoreInst), s.cur? = some c →
    (¬(Fits c.a0 4 .ob ∧ Fits c.a1 78 .hb) → Ends .schEnc s c { status := 0x00240112#32 })
    ∧ (Fits c.a0 4 .ob → Fits c.a1 78 .hb →
      let u := (List.range 25).map fun k => (c.cell .ob (c.a0.toNat + k / 8)).getLsbD (k % 8)
      EndsStoring .schEnc s c { status := 0x0024D100#32, rlen := 78#32 } .hb fun k v =>
        ∃ j < 78, k = c.a1.toNat + j
          ∧ v = bitByte ((convFull (k5Desc 35 none) (u ++ crcBits ⟨10, 0x175, 0, 0x3FF⟩ u)).getD j false))

/-- `SCH_DEC` (R164): the fourth octet is written with its upper seven bits 0. -/
def Obligations.SchDecRule : Prop :=
  ∀ (s : State) (c : CoreInst), s.cur? = some c →
    (¬(Fits c.a0 78 .sb ∧ Fits c.a1 4 .ob) → Ends .schDec s c { status := 0x00250112#32 })
    ∧ (Fits c.a0 78 .sb → Fits c.a1 4 .ob →
      let y := (List.range 78).map fun k => (c.cell .sb (c.a0.toNat + k)).toInt
      let d := (vit (k5Desc 35 none) y).1
      let ne := BitVec.ofNat 32 (errstat (k5Desc 35 none) d y false).1
      (crcBits ⟨10, 0x175, 0, 0x3FF⟩ (d.take 25) = (d.drop 25).take 10 →
        EndsStoring .schDec s c
          { status := 0x0025D100#32, rlen := 4#32, nerr := ne, nbits := 78#32, subst := 0x00000202#32 } .ob fun k v =>
            ∃ q < 4, k = c.a1.toNat + q ∧ ∀ i < 8, v.getLsbD i = (decide (8 * q + i < 25) && d.getD (8 * q + i) false))
      ∧ (crcBits ⟨10, 0x175, 0, 0x3FF⟩ (d.take 25) ≠ (d.drop 25).take 10 →
        Ends .schDec s c { status := 0x0025C301#32, nerr := ne, nbits := 78#32, subst := 0x00000002#32 }))

/-- The round trips of R165 (a), for xCCH, RACH under every BSIC, and SCH: encode, `H2S`, decode gives back the block with code
`OK` and no error; and the ideal soft values of an xCCH block decode to it. -/
def Obligations.FixedChannelRoundTrips : Prop :=
  (∀ o : List Byte, o.length = 23 →
    xcchDecode ((xcchEncode o).map softOf) = { ok := true, octets := o, ne := 0, nb := 456 })
  ∧ (∀ (s t u v : State) (c d : CoreInst) (a0 a1 : Word), s.cur? = some c → exec .xcchEnc s = .next t → Fits c.a0 23 .ob →
      Fits c.a1 464 .hb → Fits a0 464 .sb → Fits a1 23 .ob →
      exec .h2s (t.onActive fun e => { e with a0 := e.a1, a1 := a0, a2 := 464#32 }) = .next u →
      exec .xcchDec (u.onActive fun e => { e with a0 := a0, a1 := a1 }) = .next v → v.cur? = some d →
      d.status = 0x0021D100#32 ∧ d.nerr = 0#32 ∧ ∀ k < 23, d.cell .ob (a1.toNat + k) = c.cell .ob (c.a0.toNat + k))
  ∧ (∀ (s t u v : State) (c d : CoreInst) (a0 a1 : Word), s.cur? = some c → exec .rachEnc s = .next t → Fits c.a0 1 .ob →
      Fits c.a1 36 .hb → Fits a0 36 .sb → Fits a1 1 .ob →
      exec .h2s (t.onActive fun e => { e with a0 := e.a1, a1 := a0, a2 := 36#32 }) = .next u →
      exec .rachDec (u.onActive fun e => { e with a0 := a0, a1 := a1 }) = .next v → v.cur? = some d →
      d.status = 0x0023D100#32 ∧ d.nerr = 0#32 ∧ d.cell .ob a1.toNat = c.cell .ob c.a0.toNat)
  ∧ ∀ (s t u v : State) (c d : CoreInst) (a0 a1 : Word), s.cur? = some c → exec .schEnc s = .next t → Fits c.a0 4 .ob →
      Fits c.a1 78 .hb → Fits a0 78 .sb → Fits a1 4 .ob →
      exec .h2s (t.onActive fun e => { e with a0 := e.a1, a1 := a0, a2 := 78#32 }) = .next u →
      exec .schDec (u.onActive fun e => { e with a0 := a0, a1 := a1 }) = .next v → v.cur? = some d →
      d.status = 0x0025D100#32 ∧ d.nerr = 0#32
        ∧ ∀ k < 25, (d.cell .ob (a1.toNat + k / 8)).getLsbD (k % 8) = (c.cell .ob (c.a0.toNat + k / 8)).getLsbD (k % 8)

/-! ### PDTCH

A statement with the hypothesis `romTablesWf` speaks of EDGE headers coded or not, which is the model's choice (log 30). -/

/-- `PDTCH_ENC` (R180): its outcomes in order, and the area it stores. A length other than the thirteen of R177 ends `E_UNSUP`,
whatever the ROM. -/
def Obligations.PdtchEncRule : Prop :=
  ∀ (s : State) (c : CoreInst) (len : Nat), s.cur? = some c → len = c.a2.toNat →
    (¬Fits c.a0 len .ob → Ends .pdtchEnc s c { status := 0x00260112#32 })
    ∧ (Fits c.a0 len .ob → (∀ n r, romPds s.params.rom n = some r → r.octets = len → c.pdcfg.getLsbD n = false) →
        Ends .pdtchEnc s c { status := 0x00261102#32 })
    ∧ (Fits c.a0 len .ob → len ∉ [23, 34, 40, 54, 27, 33, 42, 49, 60, 78, 118, 142, 154] →
        Ends .pdtchEnc s c { status := 0x00261102#32 })
    ∧ ∀ (n W : Nat) (r : PdsRec), romTablesWf s.params.rom = true → romPds s.params.rom n = some r → r.octets = len →
        c.pdcfg.getLsbD n = true → W = (if r.psk8 then 348 else 116) → Fits c.a0 len .ob →
        (¬Fits c.a1 (4 * W) .hb → Ends .pdtchEnc s c { status := 0x00261112#32 })
        ∧ (Fits c.a1 (4 * W) .hb →
          EndsStoring .pdtchEnc s c
            { status := 0x0026D100#32, rlen := BitVec.ofNat 32 (4 * W), detid := BitVec.ofNat 32 (0x01000000 + 0x10000 * n) } .hb
            fun k v => ∃ q < 4 * W, k = c.a1.toNat + q
              ∧ v = bitByte ((pdtchArea s.params.rom r (c.load .ob c.a0.toNat len)).getD q false))

/-- The burst area of a present scheme, cell by cell (R180, stages `S4` to `S8`): the stealing flags of the scheme's pattern; the
xCCH rows, or every sub-block as `sub_encode` of R179 codes it, at its places, and the precoded USF of R178; 0 everywhere else. -/
def Obligations.PdtchAreaLayout : Prop :=
  ∀ (rom : Rom) (n W : Nat) (r : PdsRec) (o : List Byte), romTablesWf rom = true → romPds rom n = some r → o.length = r.octets →
    W = (if r.psk8 then 348 else 116) →
    let area := pdtchArea rom r o
    let sub : Nat → Option SubBlock := fun i => [r.sub0, r.sub1, r.sub2].getD i none
    let l : Nat → Bool := fun k => (o.getD (k / 8) 0#8).getLsbD (k % 8)
    let u : Nat → Nat := fun k => (l (r.usfbits.getD k 0)).toNat
    let usf := if r.usfmode = .none then 0 else u 0 + 2 * u 1 + 4 * u 2
    let precode := (patRef rom r.usfpat).bits.getD usf []
    let coded : Nat → SubBlock → List Bool := fun i b =>
      let c := convRef rom b.conv
      let v := b.gather.map l
      let w := v ++ crcBits (crcRef rom b.crc) ((v.drop b.protLo).take b.protN)
      let w := if i = 1 ∧ r.usfmode = .inband then precode ++ w.drop 3 else w
      if b.coded = false then w
      else if b.p = true ∧ c.punc.isSome = true then puncture (puncTable c) (convFull c w) else convFull c w
    area.length = 4 * W
      ∧ (∀ i < 8, ∀ x, r.sfpos[i]? = some x → area.getD x false = r.sfval.getD i false)
      ∧ (r.kind = .xcch → ∀ B < 4, ∀ j < 114,
          area.getD (116 * B + (if j < 57 then j else j + 2)) false = (xcchEncode o).getD (114 * B + j) false)
      ∧ (r.kind = .gen →
          (∀ i b, sub i = some b → ∀ k y, (permRef rom b.place).map[k]? = some y →
            area.getD y false = (coded i b).getD k false)
          ∧ (r.usfmode = .separate → ∀ k y, (permRef rom r.usfplace).map[k]? = some y →
              area.getD y false = precode.getD k false)
          ∧ ∀ y, y ∉ r.sfpos → (∀ i b, sub i = some b → y ∉ (permRef rom b.place).map) →
              (r.usfmode = .separate → y ∉ (permRef rom r.usfplace).map) → area.getD y false = false)

/-- The three minimum-distance searches. Scheme detection (R183 `S3`, R184): of the present schemes of the flagged modulation that
the host enabled, the one whose stealing-flag pattern is nearest, the lowest index on a tie; none exactly when there is no such
scheme. USF detection (R178) and AMR id detection (R202), with R10: the lowest index of a pattern that differs from the hard
bits in the fewest places, or whose ideal soft values have the smallest sum of absolute differences from the soft values
(`absDist`, which the second clause spells out). -/
def Obligations.SchemeDetection : Prop :=
  (∀ (rom : Rom) (psk8 : Bool) (cfg : Word) (area : List Int),
    let cand : Nat → PdsRec → Prop := fun n r => romPds rom n = some r ∧ r.psk8 = psk8 ∧ cfg.getLsbD n = true
    let dist : PdsRec → Nat := fun r => absDist r.sfval (gather area 0 r.sfpos)
    (∀ n r, detectScheme (candidates rom psk8 cfg) area = some (n, r) ↔
      cand n r ∧ ∀ m x, cand m x → dist r ≤ dist x ∧ (m < n → dist r < dist x))
    ∧ (detectScheme (candidates rom psk8 cfg) area = none ↔ ∀ n r, ¬cand n r))
  ∧ (∀ (p : List Bool) (x : List Int), p.length = x.length →
      absDist p x = ((List.range p.length).map fun k => ((if p.getD k false then -127 else 127) - x.getD k 0).natAbs).sum)
  ∧ (∀ (rom : Rom) (r : PdsRec) (p : PatDesc) (h : List Bool), romPat rom r.usfpat = some p → patWf p = true → h.length = p.w →
      let dist : Nat → Nat := fun i => ((List.range p.w).map fun k => ((p.bits.getD i []).getD k false != h.getD k false).toNat).sum
      let usf := usfDetect rom r h
      usf < p.np ∧ ∀ j < p.np, dist usf ≤ dist j ∧ (j < usf → dist usf < dist j))
  ∧ ∀ (rom : Rom) (t : TcsRec) (q : Nat) (p : PatDesc) (x : List Int), t.idpat = some q → romPat rom q = some p → patWf p = true →
      x.length = p.w →
      let dist : Nat → Nat := fun i => absDist (p.bits.getD i []) x
      let id := idDetect rom t x
      id < p.np ∧ ∀ j < p.np, dist id ≤ dist j ∧ (j < id → dist id < dist j)

/-- `PDTCH_DEC` (R183, R185): its outcomes in order. `oor` is whether a detected USF lies outside `PDCFG.USFSET`; an out-of-range
USF is still reported and used, and turns `OK` into `W_OOR` (R178, R219). The second clause says what the sub-block transforms
are: `sub_decode` and `sub_check` of R179, where the USF is looked for, and the logical block bit by bit (R183 `S13`). `STEAL`
holds the decisions of the cells of `SFPOS` (R183 `S3`), which are the `e_B[57]`, `e_B[58]` of R17 for CS1 to CS4 in every ROM and for
every scheme in a well-formed one (`romWf`, DEDUCED, log 24). That a separate USF has three different bit positions is the
model's choice (log 25, a part of `romTablesWf`). -/
def Obligations.PdtchDecRule : Prop :=
  (∀ (psk8 : Bool) (s : State) (c : CoreInst) (W lm : Nat), s.cur? = some c → W = (if psk8 then 348 else 116) →
    lm = (if psk8 then 154 else 54) →
    (¬(Fits c.a0 (4 * W) .sb ∧ Fits c.a1 lm .ob) → Ends (.pdtchDec psk8) s c { status := 0x00270112#32 })
    ∧ (Fits c.a0 (4 * W) .sb → Fits c.a1 lm .ob →
      let rom := s.params.rom
      let area := c.loadSoft c.a0.toNat (4 * W)
      (detectScheme (candidates rom psk8 c.pdcfg) area = none → Ends (.pdtchDec psk8) s c { status := 0x00271102#32 })
      ∧ ∀ n r, detectScheme (candidates rom psk8 c.pdcfg) area = some (n, r) →
        let flags := (List.range 8).map fun k => W * (k / 2) + 57 + k % 2
        let steal := BitVec.ofNat 32 (bitsNum (r.sfpos.map fun x => decide (area.getD x 0 < 0)))
        let subs := if r.kind = .gen then decodeSubs rom r area else []
        let usf := findUsf rom r area subs
        let oor := usf.any fun u => !c.pdcfg.getLsbD (16 + u)
        let detid := BitVec.ofNat 32 (0x01000000 + 0x10000 * n + (usf.map fun u => 0x100 + u).getD 0)
        let okStatus := if oor then 0x0027D504#32 else 0x0027D100#32
        let failStatus := if oor then 0x0027C701#32 else 0x0027C301#32
        romTablesWf rom = true →
        (n < 4 ∨ romWf rom = true → r.sfpos = flags)
        ∧ (r.kind = .xcch →
          let x := xcchDecode (unmapFour area)
          (x.ok = true →
            EndsStoring (.pdtchDec psk8) s c
              { status := okStatus, rlen := 23#32, nerr := BitVec.ofNat 32 x.ne, nbits := 456#32, detid := detid, steal := steal,
                subst := 0x00000202#32 } .ob fun k v => ∃ q < 23, k = c.a1.toNat + q ∧ v = x.octets.getD q 0#8)
          ∧ (x.ok = false →
            Ends (.pdtchDec psk8) s c
              { status := failStatus, nerr := BitVec.ofNat 32 x.ne, nbits := 456#32, detid := detid, steal := steal,
                subst := 0x00000002#32 }))
        ∧ (r.kind = .gen →
          let checked := subs.map fun d => (d, subCheck rom r d.num d.blk d.w (usf.getD 0))
          let chk := (checked.map fun x => 2 ^ x.1.num).sum
          let pass := ((checked.filter fun x => x.2.1).map fun x => 2 ^ x.1.num).sum
          let base : Results :=
            { nerr := BitVec.ofNat 32 (subs.map fun d => d.ne).sum, nbits := BitVec.ofNat 32 (subs.map fun d => d.nb).sum,
              detid := detid, steal := steal, subst := BitVec.ofNat 32 (chk + 0x100 * pass) }
          let l := scatter (8 * r.octets) false (blockAssignments r checked (usf.getD 0))
          ((∀ x ∈ checked, x.2.1 = true) →
            EndsStoring (.pdtchDec psk8) s c { base with status := okStatus, rlen := BitVec.ofNat 32 r.octets } .ob fun k v =>
              ∃ q < r.octets, k = c.a1.toNat + q ∧ v = (packBits false l).getD q 0#8)
          ∧ ((∃ x ∈ checked, x.2.1 = false) → Ends (.pdtchDec psk8) s c { base with status := failStatus }))))
  ∧ ∀ (rom : Rom) (n : Nat) (r : PdsRec) (area : List Int), romTablesWf rom = true → romPds rom n = some r → r.kind = .gen →
      let sub : Nat → Option SubBlock := fun i => [r.sub0, r.sub1, r.sub2].getD i none
      let decoded : Nat → SubBlock → SubDecoded := fun i b =>
        let c := convRef rom b.conv
        let m := (permRef rom b.place).map.map fun y => area.getD y 0
        let w := (vit c (if b.p = true ∧ c.punc.isSome = true then depuncture 0 (puncTable c) m (nfull c) else m)).1
        if b.coded = true then ⟨i, b, w, (errstat c w m b.p).1, m.length⟩ else ⟨i, b, m.map fun x => decide (x < 0), 0, 0⟩
      let subs := decodeSubs rom r area
      subs = [0, 1, 2].filterMap (fun i => (sub i).map (decoded i))
      ∧ (r.usfmode = .none → findUsf rom r area subs = none)
      ∧ (r.usfmode = .separate → findUsf rom r area subs
          = some (usfDetect rom r ((permRef rom r.usfplace).map.map fun y => decide (area.getD y 0 < 0))))
      ∧ (r.usfmode = .inband → ∃ b, r.sub1 = some b ∧ findUsf rom r area subs
          = some (usfDetect rom r ((decoded 1 b).w.take (patRef rom r.usfpat).w)))
      ∧ ∀ usf : Nat,
        let bit : Nat → Bool := fun k => usf / 2 ^ k % 2 = 1
        let check : SubDecoded → Bool × List Bool := fun d =>
          let w := if d.num = 1 ∧ r.usfmode = .inband then [bit 0, bit 1, bit 2] ++ d.w.drop (patRef rom r.usfpat).w else d.w
          let v := w.take d.blk.ni
          let q := crcRef rom d.blk.crc
          (decide (crcBits q ((v.drop d.blk.protLo).take d.blk.protN) = (w.drop d.blk.ni).take q.bits), v)
        let o := packBits false
          (scatter (8 * r.octets) false (blockAssignments r (subs.map fun d => (d, subCheck rom r d.num d.blk d.w usf)) usf))
        let l : Nat → Bool := fun k => (o.getD (k / 8) 0#8).getLsbD (k % 8)
        (∀ d ∈ subs, subCheck rom r d.num d.blk d.w usf = check d)
        ∧ o.length = r.octets
        ∧ (∀ d ∈ subs, ∀ k y, d.blk.gather[k]? = some y → l y = (check d).2.getD k false)
        ∧ (r.usfmode = .separate → ∀ k y, r.usfbits[k]? = some y → l y = bit k)
        ∧ ∀ y, (∀ d ∈ subs, y ∉ d.blk.gather) → (r.usfmode = .separate → y ∉ r.usfbits) → l y = false

/-! ### TCH

A statement with the hypothesis `romTablesWf` speaks of geometry records whose flag lists name no cell twice, which is the model's choice
(log 27), and of HR and AMR-HR records with a class-1 CRC of any width, the model's choice as well (log 28, 29). Bit `B` of
`STEAL` is the decision of `F[B]` (R199), which lies in burst `B` (R17) in the modes 0, 1 and 3 in every ROM and in every mode
in a well-formed one (`romWf`, DEDUCED, log 31). -/

/-- `TCH_ENC` (R198) with a 23-octet block, in every channel mode: the xCCH-coded block at the cells of the FACCH geometry, its
flags 1, nothing else of the area written; a reserved mode or a length no present record has ends `E_UNSUP`. -/
def Obligations.TchEncFacch : Prop :=
  ∀ (cmr : Bool) (s : State) (c : CoreInst) (m len : Nat), s.cur? = some c → m = getField c.chmode 0 3 → len = c.a2.toNat →
    (¬(Fits c.a0 len .ob ∧ Fits c.a1 928 .hb) → Ends (.tchEnc cmr) s c { status := 0x00280112#32 })
    ∧ (Fits c.a0 len .ob → Fits c.a1 928 .hb →
      (4 < m → Ends (.tchEnc cmr) s c { status := 0x00281102#32 })
      ∧ (m ≤ 4 → len ≠ 23 → (∀ n t, (if m ≤ 2 then n = m else n ∈ amrRange m) → romTcs s.params.rom n = some t → t.octets ≠ len) →
          Ends (.tchEnc cmr) s c { status := 0x00281102#32 })
      ∧ (m ≤ 4 → len = 23 → romTablesWf s.params.rom = true →
        let cells := facchCells s.params.rom (romTcg s.params.rom m)
        let flags := facchFlags (romTcg s.params.rom m)
        EndsStoring (.tchEnc cmr) s c { status := 0x0028D900#32, rlen := BitVec.ofNat 32 (456 + flags.length) } .hb fun k v =>
          (∃ j x, cells[j]? = some x ∧ k = c.a1.toNat + x
            ∧ v = bitByte ((xcchCoded (c.load .ob c.a0.toNat 23)).getD j false))
          ∨ (∃ f ∈ flags, k = c.a1.toNat + f ∧ v = 1#8)))

/-- `TCH_ENC` (R198) of a speech frame: the scheme that mode and length select, the AMR tests in their order, and the cells
stored with the block's flags 0. The second clause says what the coded bits are: `speech_encode` of R201. -/
def Obligations.TchEncSpeech : Prop :=
  (∀ (cmr : Bool) (s : State) (c : CoreInst) (m len n : Nat) (t : TcsRec), s.cur? = some c → m = getField c.chmode 0 3 →
    len = c.a2.toNat → Fits c.a0 len .ob → Fits c.a1 928 .hb → romTablesWf s.params.rom = true → m ≤ 4 →
    (if m ≤ 2 then n = m else n ∈ amrRange m) → romTcs s.params.rom n = some t → t.octets = len →
    let rom := s.params.rom
    let cells := speechCells rom (romTcg rom m)
    let flags := speechFlags (romTcg rom m)
    let stores : Nat → Nat → Byte → Prop := fun id k v =>
      (∃ j x, cells[j]? = some x ∧ k = c.a1.toNat + x
        ∧ v = bitByte ((speechEncode rom t (c.load .ob c.a0.toNat len) id).getD j false))
      ∨ (∃ f ∈ flags, k = c.a1.toNat + f ∧ v = 0#8)
    let rlen := BitVec.ofNat 32 (cells.length + flags.length)
    let ft := getField c.a3 0 3
    let cm := getField c.a3 4 3
    let id := if cmr then cm else ft
    let valid : Nat → Prop := fun i => c.amrcfg.getLsbD (4 * i + 3) = true
    let sch := 0x01000000 + 0x10000 * n
    (m ≤ 2 →
      EndsStoring (.tchEnc cmr) s c { status := 0x0028D100#32, rlen := rlen, detid := BitVec.ofNat 32 sch } .hb (stores 0))
    ∧ (3 ≤ m →
      (valid ft ∧ (if m = 3 then 3 else 11) + getField c.amrcfg (4 * ft) 3 = n ∧ (cmr = true → valid cm) ∧ id < idCount rom t →
        EndsStoring (.tchEnc cmr) s c
          { status := 0x0028D100#32, rlen := rlen, detid := BitVec.ofNat 32 (sch + 0x100 + id) } .hb (stores id))
      ∧ (¬(valid ft ∧ (if m = 3 then 3 else 11) + getField c.amrcfg (4 * ft) 3 = n ∧ (cmr = true → valid cm)
            ∧ id < idCount rom t) →
        Ends (.tchEnc cmr) s c { status := 0x00281103#32, detid := BitVec.ofNat 32 sch })))
  ∧ ∀ (rom : Rom) (n : Nat) (t : TcsRec) (o : List Byte) (id : Nat), romTablesWf rom = true → romTcs rom n = some t →
      let c := convRef rom t.conv
      let bit : Nat → Bool := fun e => (o.getD (e / 8) 0#8).getLsbD (e % 8)
      let ip := (t.inner.map fun i => crcBits (crcRef rom i.crc) (i.sel.map bit)).getD []
      let dx : Nat → Bool := fun n =>
        let e := t.expand.getD n 0
        if e < t.nd then bit e else ip.getD (e - t.nd) false
      ∃ z : List Bool, z.length = t.expand.length
        ∧ (∀ n x, (permRef rom t.order).map[n]? = some x → z.getD x false = dx n)
        ∧ speechEncode rom t o id =
            (t.idpat.map fun q => (patRef rom q).bits.getD id []).getD []
            ++ (let c1 := z.take t.n1
                let f := convFull c (c1.take t.nprot ++ crcBits (crcRef rom t.crc) (c1.take t.nprot) ++ c1.drop t.nprot)
                if t.p = true ∧ c.punc.isSome = true then puncture (puncTable c) f else f)
            ++ z.drop t.n1

/-- The diagonal geometry of R197: coded bit `k` at `116 (k mod 8) + pos(j(k))`, the flags at 58 of bursts 0 to 3 and 57 of bursts
4 to 7, in modes 0, 1 and 3, for speech and FACCH alike; 456 different cells, none of them a flag cell. -/
def Obligations.DiagonalGeometry : Prop :=
  ∀ (rom : Rom) (m : Nat), m = 0 ∨ m = 1 ∨ m = 3 →
    let j : Nat → Nat := fun k => 2 * ((49 * k) % 57) + (k % 8) / 4
    let cells := (List.range 456).map fun k => 116 * (k % 8) + (if j k < 57 then j k else j k + 2)
    let flags := [58, 174, 290, 406, 521, 637, 753, 869]
    speechCells rom (romTcg rom m) = cells ∧ facchCells rom (romTcg rom m) = cells ∧ speechFlags (romTcg rom m) = flags
      ∧ facchFlags (romTcg rom m) = flags ∧ (cells ++ flags).Nodup ∧ ∀ x ∈ cells ++ flags, x < 928

/-- `TCH_DEC` (R199, R200) up to the choice of path, and the FACCH path: a positive sum of the negated flag cells decodes the
block as xCCH whatever the mode and the speech tables. Flag `B` of the geometry, whose decision is bit `B` of `STEAL`, lies in burst
`B` (R17) in the modes 0, 1 and 3 and, in every mode, in a well-formed ROM (log 31). -/
def Obligations.TchDecFacch : Prop :=
  ∀ (cmr : Bool) (s : State) (c : CoreInst) (m : Nat), s.cur? = some c → m = getField c.chmode 0 3 →
    (¬(Fits c.a0 928 .sb ∧ Fits c.a1 33 .ob) → Ends (.tchDec cmr) s c { status := 0x00290112#32 })
    ∧ (Fits c.a0 928 .sb → Fits c.a1 33 .ob →
      (4 < m → Ends (.tchDec cmr) s c { status := 0x00291102#32 })
      ∧ (m ≤ 4 → romTablesWf s.params.rom = true →
        let g := romTcg s.params.rom m
        let area := c.loadSoft c.a0.toNat 928
        let sum := ((gather area 0 (facchFlags g)).map fun x => -x).sum
        let steal := BitVec.ofNat 32 (bitsNum ((gather area 0 (facchFlags g)).map hardOf)) + BitVec.ofInt 32 sum <<< 16
        let x := xcchDecodeCoded (gather area 0 (facchCells s.params.rom g))
        ((m = 0 ∨ m = 1 ∨ m = 3) ∨ romWf s.params.rom = true → ∀ (b f : Nat), (facchFlags g)[b]? = some f →
          f / 116 = b ∧ steal.getLsbD b = decide (area.getD f 0 < 0))
        ∧ (0 < sum →
        (x.ok = true →
          EndsStoring (.tchDec cmr) s c
            { status := 0x0029D900#32, rlen := 23#32, nerr := BitVec.ofNat 32 x.ne, nbits := 456#32, steal := steal,
              subst := 0x00000202#32 } .ob fun k v => ∃ q < 23, k = c.a1.toNat + q ∧ v = x.octets.getD q 0#8)
        ∧ (x.ok = false →
          Ends (.tchDec cmr) s c
            { status := 0x0029CB01#32, nerr := BitVec.ofNat 32 x.ne, nbits := 456#32, steal := steal,
              subst := 0x00000002#32 }))))

/-- `TCH_DEC` (R200, R202, R203) on the speech path: in an AMR mode the in-band id is detected, and an invalid selecting id ends
the command `W_OOR` in `S3`; then the scheme record decodes the block, an absent record ends `E_UNSUP` in `S3`, a failed check
`E_CRC`, and an out-of-range request id `W_OOR` on completion. The second clause says what is decoded: `speech_decode` of
R201. -/
def Obligations.TchDecSpeech : Prop :=
  (∀ (cmr : Bool) (s : State) (c : CoreInst) (m : Nat), s.cur? = some c → m = getField c.chmode 0 3 → m ≤ 4 →
    Fits c.a0 928 .sb → Fits c.a1 33 .ob → romTablesWf s.params.rom = true →
    let rom := s.params.rom
    let g := romTcg rom m
    let area := c.loadSoft c.a0.toNat 928
    let sum := ((gather area 0 (facchFlags g)).map fun x => -x).sum
    let steal := BitVec.ofNat 32 (bitsNum ((gather area 0 (facchFlags g)).map hardOf)) + BitVec.ofInt 32 sum <<< 16
    let valid : Nat → Prop := fun i => c.amrcfg.getLsbD (4 * i + 3) = true
    let decodes : Nat → Bool → Nat → Prop := fun n oor ids =>
      (romTcs rom n = none →
        Ends (.tchDec cmr) s c
          { status := if oor then 0x00293502#32 else 0x00293102#32, steal := steal, detid := BitVec.ofNat 32 ids })
      ∧ ∀ t, romTcs rom n = some t →
        let r := speechDecode rom t (gather area 0 (speechCells rom g))
        let pass := 0x200 * r.ok1.toNat + (if t.inner.isSome then 0x400 * r.ok2.toNat + 4 else 0)
        let base : Results :=
          { nerr := BitVec.ofNat 32 r.ne, nbits := BitVec.ofNat 32 (speechNm rom t), steal := steal,
            detid := BitVec.ofNat 32 (0x01000000 + 0x10000 * n + ids), subst := BitVec.ofNat 32 (2 + pass) }
        (r.ok1 = true ∧ r.ok2 = true →
          EndsStoring (.tchDec cmr) s c
            { base with status := if oor then 0x0029D504#32 else 0x0029D100#32, rlen := BitVec.ofNat 32 t.octets } .ob
            fun k v => ∃ q < t.octets, k = c.a1.toNat + q ∧ v = r.octets.getD q 0#8)
        ∧ (¬(r.ok1 = true ∧ r.ok2 = true) →
          Ends (.tchDec cmr) s c { base with status := if oor then 0x0029C701#32 else 0x0029C301#32 })
    sum ≤ 0 →
    (m ≤ 2 → decodes m false 0)
    ∧ (3 ≤ m → (∀ n ∈ amrRange m, romTcs rom n = none) → Ends (.tchDec cmr) s c { status := 0x00293102#32, steal := steal })
    ∧ (3 ≤ m → ∀ n0 t0, n0 ∈ amrRange m → romTcs rom n0 = some t0 → (∀ n ∈ amrRange m, n < n0 → romTcs rom n = none) →
      let id := idDetect rom t0 (gather area 0 ((speechCells rom g).take (idWidth rom t0)))
      let fid := if cmr then getField c.a3 0 3 else id
      (¬valid fid →
        Ends (.tchDec cmr) s c { status := 0x00293504#32, steal := steal, detid := BitVec.ofNat 32 (0x100 + id) })
      ∧ (valid fid →
        (valid id → decodes ((if m = 3 then 3 else 11) + getField c.amrcfg (4 * fid) 3) false (0x100 + id))
        ∧ (¬valid id → decodes ((if m = 3 then 3 else 11) + getField c.amrcfg (4 * fid) 3) true (0x100 + id)))))
  ∧ ∀ (rom : Rom) (n : Nat) (t : TcsRec) (y : List Int), romTablesWf rom = true → romTcs rom n = some t →
      let c := convRef rom t.conv
      let q := crcRef rom t.crc
      let iw := (t.idpat.map fun p => (patRef rom p).w).getD 0
      let nm := if t.p = true ∧ c.punc.isSome = true then nmatched c else nfull c
      let m := (y.drop iw).take nm
      let w := (vit c (if t.p = true ∧ c.punc.isSome = true then depuncture 0 (puncTable c) m (nfull c) else m)).1
      let z := w.take t.nprot ++ (w.drop (t.nprot + q.bits)).take (t.n1 - t.nprot)
        ++ ((y.drop (iw + nm)).take (t.expand.length - t.n1)).map fun x => decide (x < 0)
      let d : Nat → Bool := fun e => z.getD ((permRef rom t.order).map.getD (t.expand.idxOf e) 0) false
      let r := speechDecode rom t y
      (r.ok1 = true ↔ crcBits q (w.take t.nprot) = (w.drop t.nprot).take q.bits)
      ∧ (r.ok2 = true ↔ ∀ i, t.inner = some i → crcBits (crcRef rom i.crc) (i.sel.map d)
          = (List.range (crcRef rom i.crc).bits).map fun k => d (t.nd + k))
      ∧ (r.ne, r.nb) = errstat c w m t.p
      ∧ r.octets.length = t.octets
      ∧ ∀ k < 8 * t.octets, (r.octets.getD (k / 8) 0#8).getLsbD (k % 8) = (decide (k < t.nd) && d k)

end
end

