-- ==== Sys2Proof/Laws/State.lean ====
section
/-! SUPPORT. Sys2Proof/Laws/State.lean: what each update of a state does to each field, one lemma a field, true by `rfl`, so that no
later proof unfolds a record update. -/

namespace Sys2Proof.Machine

/-! ### `CoreInst.clearResults` -/

@[simp] theorem CoreInst.clearResults_index (c : CoreInst) : c.clearResults.index = c.index := rfl
@[simp] theorem CoreInst.clearResults_epoch (c : CoreInst) : c.clearResults.epoch = c.epoch := rfl
@[simp] theorem CoreInst.clearResults_cmd (c : CoreInst) : c.clearResults.cmd = c.cmd := rfl
@[simp] theorem CoreInst.clearResults_status (c : CoreInst) : c.clearResults.status = c.status := rfl
@[simp] theorem CoreInst.clearResults_a0 (c : CoreInst) : c.clearResults.a0 = c.a0 := rfl
@[simp] theorem CoreInst.clearResults_a1 (c : CoreInst) : c.clearResults.a1 = c.a1 := rfl
@[simp] theorem CoreInst.clearResults_a2 (c : CoreInst) : c.clearResults.a2 = c.a2 := rfl
@[simp] theorem CoreInst.clearResults_a3 (c : CoreInst) : c.clearResults.a3 = c.a3 := rfl
@[simp] theorem CoreInst.clearResults_nerr (c : CoreInst) : c.clearResults.nerr = 0#32 := rfl
@[simp] theorem CoreInst.clearResults_nbits (c : CoreInst) : c.clearResults.nbits = 0#32 := rfl
@[simp] theorem CoreInst.clearResults_rlen (c : CoreInst) : c.clearResults.rlen = 0#32 := rfl
@[simp] theorem CoreInst.clearResults_detid (c : CoreInst) : c.clearResults.detid = 0#32 := rfl
@[simp] theorem CoreInst.clearResults_steal (c : CoreInst) : c.clearResults.steal = 0#32 := rfl
@[simp] theorem CoreInst.clearResults_subst (c : CoreInst) : c.clearResults.subst = 0#32 := rfl
@[simp] theorem CoreInst.clearResults_bsic (c : CoreInst) : c.clearResults.bsic = c.bsic := rfl
@[simp] theorem CoreInst.clearResults_chmode (c : CoreInst) : c.clearResults.chmode = c.chmode := rfl
@[simp] theorem CoreInst.clearResults_amrcfg (c : CoreInst) : c.clearResults.amrcfg = c.amrcfg := rfl
@[simp] theorem CoreInst.clearResults_pdcfg (c : CoreInst) : c.clearResults.pdcfg = c.pdcfg := rfl
@[simp] theorem CoreInst.clearResults_stage (c : CoreInst) : c.clearResults.stage = c.stage := rfl
@[simp] theorem CoreInst.clearResults_idle (c : CoreInst) : c.clearResults.idle = c.idle := rfl
@[simp] theorem CoreInst.clearResults_ob (c : CoreInst) : c.clearResults.ob = c.ob := rfl
@[simp] theorem CoreInst.clearResults_hb (c : CoreInst) : c.clearResults.hb = c.hb := rfl
@[simp] theorem CoreInst.clearResults_sb (c : CoreInst) : c.clearResults.sb = c.sb := rfl

/-! ### `CoreInst.setRlen` and `CoreInst.setStats` -/

@[simp] theorem CoreInst.setRlen_index (c : CoreInst) (n : Nat) : (c.setRlen n).index = c.index := rfl
@[simp] theorem CoreInst.setRlen_epoch (c : CoreInst) (n : Nat) : (c.setRlen n).epoch = c.epoch := rfl
@[simp] theorem CoreInst.setRlen_cmd (c : CoreInst) (n : Nat) : (c.setRlen n).cmd = c.cmd := rfl
@[simp] theorem CoreInst.setRlen_status (c : CoreInst) (n : Nat) : (c.setRlen n).status = c.status := rfl
@[simp] theorem CoreInst.setRlen_a0 (c : CoreInst) (n : Nat) : (c.setRlen n).a0 = c.a0 := rfl
@[simp] theorem CoreInst.setRlen_a1 (c : CoreInst) (n : Nat) : (c.setRlen n).a1 = c.a1 := rfl
@[simp] theorem CoreInst.setRlen_a2 (c : CoreInst) (n : Nat) : (c.setRlen n).a2 = c.a2 := rfl
@[simp] theorem CoreInst.setRlen_a3 (c : CoreInst) (n : Nat) : (c.setRlen n).a3 = c.a3 := rfl
@[simp] theorem CoreInst.setRlen_nerr (c : CoreInst) (n : Nat) : (c.setRlen n).nerr = c.nerr := rfl
@[simp] theorem CoreInst.setRlen_nbits (c : CoreInst) (n : Nat) : (c.setRlen n).nbits = c.nbits := rfl
@[simp] theorem CoreInst.setRlen_rlen (c : CoreInst) (n : Nat) : (c.setRlen n).rlen = BitVec.ofNat 32 n := rfl
@[simp] theorem CoreInst.setRlen_detid (c : CoreInst) (n : Nat) : (c.setRlen n).detid = c.detid := rfl
@[simp] theorem CoreInst.setRlen_steal (c : CoreInst) (n : Nat) : (c.setRlen n).steal = c.steal := rfl
@[simp] theorem CoreInst.setRlen_subst (c : CoreInst) (n : Nat) : (c.setRlen n).subst = c.subst := rfl
@[simp] theorem CoreInst.setRlen_bsic (c : CoreInst) (n : Nat) : (c.setRlen n).bsic = c.bsic := rfl
@[simp] theorem CoreInst.setRlen_chmode (c : CoreInst) (n : Nat) : (c.setRlen n).chmode = c.chmode := rfl
@[simp] theorem CoreInst.setRlen_amrcfg (c : CoreInst) (n : Nat) : (c.setRlen n).amrcfg = c.amrcfg := rfl
@[simp] theorem CoreInst.setRlen_pdcfg (c : CoreInst) (n : Nat) : (c.setRlen n).pdcfg = c.pdcfg := rfl
@[simp] theorem CoreInst.setRlen_stage (c : CoreInst) (n : Nat) : (c.setRlen n).stage = c.stage := rfl
@[simp] theorem CoreInst.setRlen_idle (c : CoreInst) (n : Nat) : (c.setRlen n).idle = c.idle := rfl
@[simp] theorem CoreInst.setRlen_ob (c : CoreInst) (n : Nat) : (c.setRlen n).ob = c.ob := rfl
@[simp] theorem CoreInst.setRlen_hb (c : CoreInst) (n : Nat) : (c.setRlen n).hb = c.hb := rfl
@[simp] theorem CoreInst.setRlen_sb (c : CoreInst) (n : Nat) : (c.setRlen n).sb = c.sb := rfl
@[simp] theorem CoreInst.setStats_index (c : CoreInst) (a b : Nat) : (c.setStats a b).index = c.index := rfl
@[simp] theorem CoreInst.setStats_epoch (c : CoreInst) (a b : Nat) : (c.setStats a b).epoch = c.epoch := rfl
@[simp] theorem CoreInst.setStats_cmd (c : CoreInst) (a b : Nat) : (c.setStats a b).cmd = c.cmd := rfl
@[simp] theorem CoreInst.setStats_status (c : CoreInst) (a b : Nat) : (c.setStats a b).status = c.status := rfl
@[simp] theorem CoreInst.setStats_a0 (c : CoreInst) (a b : Nat) : (c.setStats a b).a0 = c.a0 := rfl
@[simp] theorem CoreInst.setStats_a1 (c : CoreInst) (a b : Nat) : (c.setStats a b).a1 = c.a1 := rfl
@[simp] theorem CoreInst.setStats_a2 (c : CoreInst) (a b : Nat) : (c.setStats a b).a2 = c.a2 := rfl
@[simp] theorem CoreInst.setStats_a3 (c : CoreInst) (a b : Nat) : (c.setStats a b).a3 = c.a3 := rfl
@[simp] theorem CoreInst.setStats_nerr (c : CoreInst) (a b : Nat) : (c.setStats a b).nerr = BitVec.ofNat 32 a := rfl
@[simp] theorem CoreInst.setStats_nbits (c : CoreInst) (a b : Nat) : (c.setStats a b).nbits = BitVec.ofNat 32 b := rfl
@[simp] theorem CoreInst.setStats_rlen (c : CoreInst) (a b : Nat) : (c.setStats a b).rlen = c.rlen := rfl
@[simp] theorem CoreInst.setStats_detid (c : CoreInst) (a b : Nat) : (c.setStats a b).detid = c.detid := rfl
@[simp] theorem CoreInst.setStats_steal (c : CoreInst) (a b : Nat) : (c.setStats a b).steal = c.steal := rfl
@[simp] theorem CoreInst.setStats_subst (c : CoreInst) (a b : Nat) : (c.setStats a b).subst = c.subst := rfl
@[simp] theorem CoreInst.setStats_bsic (c : CoreInst) (a b : Nat) : (c.setStats a b).bsic = c.bsic := rfl
@[simp] theorem CoreInst.setStats_chmode (c : CoreInst) (a b : Nat) : (c.setStats a b).chmode = c.chmode := rfl
@[simp] theorem CoreInst.setStats_amrcfg (c : CoreInst) (a b : Nat) : (c.setStats a b).amrcfg = c.amrcfg := rfl
@[simp] theorem CoreInst.setStats_pdcfg (c : CoreInst) (a b : Nat) : (c.setStats a b).pdcfg = c.pdcfg := rfl
@[simp] theorem CoreInst.setStats_stage (c : CoreInst) (a b : Nat) : (c.setStats a b).stage = c.stage := rfl
@[simp] theorem CoreInst.setStats_idle (c : CoreInst) (a b : Nat) : (c.setStats a b).idle = c.idle := rfl
@[simp] theorem CoreInst.setStats_ob (c : CoreInst) (a b : Nat) : (c.setStats a b).ob = c.ob := rfl
@[simp] theorem CoreInst.setStats_hb (c : CoreInst) (a b : Nat) : (c.setStats a b).hb = c.hb := rfl
@[simp] theorem CoreInst.setStats_sb (c : CoreInst) (a b : Nat) : (c.setStats a b).sb = c.sb := rfl

/-! ### `CoreInst.endCommand` -/

@[simp] theorem CoreInst.endCommand_index (c : CoreInst) (op : Nat) (k : Code) (fl : CmdFlags) (st : Stage) : (c.endCommand op k fl st).index = c.index := rfl
@[simp] theorem CoreInst.endCommand_epoch (c : CoreInst) (op : Nat) (k : Code) (fl : CmdFlags) (st : Stage) : (c.endCommand op k fl st).epoch = c.epoch := rfl
@[simp] theorem CoreInst.endCommand_cmd (c : CoreInst) (op : Nat) (k : Code) (fl : CmdFlags) (st : Stage) : (c.endCommand op k fl st).cmd = c.cmd := rfl
@[simp] theorem CoreInst.endCommand_status (c : CoreInst) (op : Nat) (k : Code) (fl : CmdFlags) (st : Stage) : (c.endCommand op k fl st).status = statusImage op k fl st := rfl
@[simp] theorem CoreInst.endCommand_a0 (c : CoreInst) (op : Nat) (k : Code) (fl : CmdFlags) (st : Stage) : (c.endCommand op k fl st).a0 = c.a0 := rfl
@[simp] theorem CoreInst.endCommand_a1 (c : CoreInst) (op : Nat) (k : Code) (fl : CmdFlags) (st : Stage) : (c.endCommand op k fl st).a1 = c.a1 := rfl
@[simp] theorem CoreInst.endCommand_a2 (c : CoreInst) (op : Nat) (k : Code) (fl : CmdFlags) (st : Stage) : (c.endCommand op k fl st).a2 = c.a2 := rfl
@[simp] theorem CoreInst.endCommand_a3 (c : CoreInst) (op : Nat) (k : Code) (fl : CmdFlags) (st : Stage) : (c.endCommand op k fl st).a3 = c.a3 := rfl
@[simp] theorem CoreInst.endCommand_nerr (c : CoreInst) (op : Nat) (k : Code) (fl : CmdFlags) (st : Stage) : (c.endCommand op k fl st).nerr = c.nerr := rfl
@[simp] theorem CoreInst.endCommand_nbits (c : CoreInst) (op : Nat) (k : Code) (fl : CmdFlags) (st : Stage) : (c.endCommand op k fl st).nbits = c.nbits := rfl
@[simp] theorem CoreInst.endCommand_rlen (c : CoreInst) (op : Nat) (k : Code) (fl : CmdFlags) (st : Stage) : (c.endCommand op k fl st).rlen = c.rlen := rfl
@[simp] theorem CoreInst.endCommand_detid (c : CoreInst) (op : Nat) (k : Code) (fl : CmdFlags) (st : Stage) : (c.endCommand op k fl st).detid = c.detid := rfl
@[simp] theorem CoreInst.endCommand_steal (c : CoreInst) (op : Nat) (k : Code) (fl : CmdFlags) (st : Stage) : (c.endCommand op k fl st).steal = c.steal := rfl
@[simp] theorem CoreInst.endCommand_subst (c : CoreInst) (op : Nat) (k : Code) (fl : CmdFlags) (st : Stage) : (c.endCommand op k fl st).subst = c.subst := rfl
@[simp] theorem CoreInst.endCommand_bsic (c : CoreInst) (op : Nat) (k : Code) (fl : CmdFlags) (st : Stage) : (c.endCommand op k fl st).bsic = c.bsic := rfl
@[simp] theorem CoreInst.endCommand_chmode (c : CoreInst) (op : Nat) (k : Code) (fl : CmdFlags) (st : Stage) : (c.endCommand op k fl st).chmode = c.chmode := rfl
@[simp] theorem CoreInst.endCommand_amrcfg (c : CoreInst) (op : Nat) (k : Code) (fl : CmdFlags) (st : Stage) : (c.endCommand op k fl st).amrcfg = c.amrcfg := rfl
@[simp] theorem CoreInst.endCommand_pdcfg (c : CoreInst) (op : Nat) (k : Code) (fl : CmdFlags) (st : Stage) : (c.endCommand op k fl st).pdcfg = c.pdcfg := rfl
@[simp] theorem CoreInst.endCommand_stage (c : CoreInst) (op : Nat) (k : Code) (fl : CmdFlags) (st : Stage) : (c.endCommand op k fl st).stage = st := rfl
@[simp] theorem CoreInst.endCommand_idle (c : CoreInst) (op : Nat) (k : Code) (fl : CmdFlags) (st : Stage) : (c.endCommand op k fl st).idle = true := rfl
@[simp] theorem CoreInst.endCommand_ob (c : CoreInst) (op : Nat) (k : Code) (fl : CmdFlags) (st : Stage) : (c.endCommand op k fl st).ob = c.ob := rfl
@[simp] theorem CoreInst.endCommand_hb (c : CoreInst) (op : Nat) (k : Code) (fl : CmdFlags) (st : Stage) : (c.endCommand op k fl st).hb = c.hb := rfl
@[simp] theorem CoreInst.endCommand_sb (c : CoreInst) (op : Nat) (k : Code) (fl : CmdFlags) (st : Stage) : (c.endCommand op k fl st).sb = c.sb := rfl

/-! ### `CoreInst.ended` -/

@[simp] theorem CoreInst.ended_index (c : CoreInst) (r : Results) (st : Stage) : (c.ended r st).index = c.index := rfl
@[simp] theorem CoreInst.ended_epoch (c : CoreInst) (r : Results) (st : Stage) : (c.ended r st).epoch = c.epoch := rfl
@[simp] theorem CoreInst.ended_cmd (c : CoreInst) (r : Results) (st : Stage) : (c.ended r st).cmd = c.cmd := rfl
@[simp] theorem CoreInst.ended_status (c : CoreInst) (r : Results) (st : Stage) : (c.ended r st).status = r.status := rfl
@[simp] theorem CoreInst.ended_a0 (c : CoreInst) (r : Results) (st : Stage) : (c.ended r st).a0 = c.a0 := rfl
@[simp] theorem CoreInst.ended_a1 (c : CoreInst) (r : Results) (st : Stage) : (c.ended r st).a1 = c.a1 := rfl
@[simp] theorem CoreInst.ended_a2 (c : CoreInst) (r : Results) (st : Stage) : (c.ended r st).a2 = c.a2 := rfl
@[simp] theorem CoreInst.ended_a3 (c : CoreInst) (r : Results) (st : Stage) : (c.ended r st).a3 = c.a3 := rfl
@[simp] theorem CoreInst.ended_nerr (c : CoreInst) (r : Results) (st : Stage) : (c.ended r st).nerr = r.nerr := rfl
@[simp] theorem CoreInst.ended_nbits (c : CoreInst) (r : Results) (st : Stage) : (c.ended r st).nbits = r.nbits := rfl
@[simp] theorem CoreInst.ended_rlen (c : CoreInst) (r : Results) (st : Stage) : (c.ended r st).rlen = r.rlen := rfl
@[simp] theorem CoreInst.ended_detid (c : CoreInst) (r : Results) (st : Stage) : (c.ended r st).detid = r.detid := rfl
@[simp] theorem CoreInst.ended_steal (c : CoreInst) (r : Results) (st : Stage) : (c.ended r st).steal = r.steal := rfl
@[simp] theorem CoreInst.ended_subst (c : CoreInst) (r : Results) (st : Stage) : (c.ended r st).subst = r.subst := rfl
@[simp] theorem CoreInst.ended_bsic (c : CoreInst) (r : Results) (st : Stage) : (c.ended r st).bsic = c.bsic := rfl
@[simp] theorem CoreInst.ended_chmode (c : CoreInst) (r : Results) (st : Stage) : (c.ended r st).chmode = c.chmode := rfl
@[simp] theorem CoreInst.ended_amrcfg (c : CoreInst) (r : Results) (st : Stage) : (c.ended r st).amrcfg = c.amrcfg := rfl
@[simp] theorem CoreInst.ended_pdcfg (c : CoreInst) (r : Results) (st : Stage) : (c.ended r st).pdcfg = c.pdcfg := rfl
@[simp] theorem CoreInst.ended_stage (c : CoreInst) (r : Results) (st : Stage) : (c.ended r st).stage = st := rfl
@[simp] theorem CoreInst.ended_idle (c : CoreInst) (r : Results) (st : Stage) : (c.ended r st).idle = true := rfl
@[simp] theorem CoreInst.ended_ob (c : CoreInst) (r : Results) (st : Stage) : (c.ended r st).ob = c.ob := rfl
@[simp] theorem CoreInst.ended_hb (c : CoreInst) (r : Results) (st : Stage) : (c.ended r st).hb = c.hb := rfl
@[simp] theorem CoreInst.ended_sb (c : CoreInst) (r : Results) (st : Stage) : (c.ended r st).sb = c.sb := rfl

/-! ### `CoreInst.resetRegs` -/

@[simp] theorem CoreInst.resetRegs_index (c : CoreInst) : c.resetRegs.index = c.index := rfl
@[simp] theorem CoreInst.resetRegs_epoch (c : CoreInst) : c.resetRegs.epoch = c.epoch := rfl
@[simp] theorem CoreInst.resetRegs_cmd (c : CoreInst) : c.resetRegs.cmd = 0#32 := rfl
@[simp] theorem CoreInst.resetRegs_status (c : CoreInst) : c.resetRegs.status = 0#32 := rfl
@[simp] theorem CoreInst.resetRegs_a0 (c : CoreInst) : c.resetRegs.a0 = 0#32 := rfl
@[simp] theorem CoreInst.resetRegs_a1 (c : CoreInst) : c.resetRegs.a1 = 0#32 := rfl
@[simp] theorem CoreInst.resetRegs_a2 (c : CoreInst) : c.resetRegs.a2 = 0#32 := rfl
@[simp] theorem CoreInst.resetRegs_a3 (c : CoreInst) : c.resetRegs.a3 = 0#32 := rfl
@[simp] theorem CoreInst.resetRegs_nerr (c : CoreInst) : c.resetRegs.nerr = 0#32 := rfl
@[simp] theorem CoreInst.resetRegs_nbits (c : CoreInst) : c.resetRegs.nbits = 0#32 := rfl
@[simp] theorem CoreInst.resetRegs_rlen (c : CoreInst) : c.resetRegs.rlen = 0#32 := rfl
@[simp] theorem CoreInst.resetRegs_detid (c : CoreInst) : c.resetRegs.detid = 0#32 := rfl
@[simp] theorem CoreInst.resetRegs_steal (c : CoreInst) : c.resetRegs.steal = 0#32 := rfl
@[simp] theorem CoreInst.resetRegs_subst (c : CoreInst) : c.resetRegs.subst = 0#32 := rfl
@[simp] theorem CoreInst.resetRegs_bsic (c : CoreInst) : c.resetRegs.bsic = 0#32 := rfl
@[simp] theorem CoreInst.resetRegs_chmode (c : CoreInst) : c.resetRegs.chmode = 0#32 := rfl
@[simp] theorem CoreInst.resetRegs_amrcfg (c : CoreInst) : c.resetRegs.amrcfg = 0#32 := rfl
@[simp] theorem CoreInst.resetRegs_pdcfg (c : CoreInst) : c.resetRegs.pdcfg = pdcfgReset := rfl
@[simp] theorem CoreInst.resetRegs_stage (c : CoreInst) : c.resetRegs.stage = .s0 := rfl
@[simp] theorem CoreInst.resetRegs_idle (c : CoreInst) : c.resetRegs.idle = true := rfl
@[simp] theorem CoreInst.resetRegs_ob (c : CoreInst) : c.resetRegs.ob = c.ob := rfl
@[simp] theorem CoreInst.resetRegs_hb (c : CoreInst) : c.resetRegs.hb = c.hb := rfl
@[simp] theorem CoreInst.resetRegs_sb (c : CoreInst) : c.resetRegs.sb = c.sb := rfl

/-! ### `CoreInst.setMem` and `CoreInst.store`: the registers -/

@[simp] theorem CoreInst.setMem_index (c : CoreInst) (b : Buf) (m : Memory) : (c.setMem b m).index = c.index := by cases b <;> rfl
@[simp] theorem CoreInst.setMem_epoch (c : CoreInst) (b : Buf) (m : Memory) : (c.setMem b m).epoch = c.epoch := by cases b <;> rfl
@[simp] theorem CoreInst.setMem_cmd (c : CoreInst) (b : Buf) (m : Memory) : (c.setMem b m).cmd = c.cmd := by cases b <;> rfl
@[simp] theorem CoreInst.setMem_status (c : CoreInst) (b : Buf) (m : Memory) : (c.setMem b m).status = c.status := by cases b <;> rfl
@[simp] theorem CoreInst.setMem_a0 (c : CoreInst) (b : Buf) (m : Memory) : (c.setMem b m).a0 = c.a0 := by cases b <;> rfl
@[simp] theorem CoreInst.setMem_a1 (c : CoreInst) (b : Buf) (m : Memory) : (c.setMem b m).a1 = c.a1 := by cases b <;> rfl
@[simp] theorem CoreInst.setMem_a2 (c : CoreInst) (b : Buf) (m : Memory) : (c.setMem b m).a2 = c.a2 := by cases b <;> rfl
@[simp] theorem CoreInst.setMem_a3 (c : CoreInst) (b : Buf) (m : Memory) : (c.setMem b m).a3 = c.a3 := by cases b <;> rfl
@[simp] theorem CoreInst.setMem_nerr (c : CoreInst) (b : Buf) (m : Memory) : (c.setMem b m).nerr = c.nerr := by cases b <;> rfl
@[simp] theorem CoreInst.setMem_nbits (c : CoreInst) (b : Buf) (m : Memory) : (c.setMem b m).nbits = c.nbits := by cases b <;> rfl
@[simp] theorem CoreInst.setMem_rlen (c : CoreInst) (b : Buf) (m : Memory) : (c.setMem b m).rlen = c.rlen := by cases b <;> rfl
@[simp] theorem CoreInst.setMem_detid (c : CoreInst) (b : Buf) (m : Memory) : (c.setMem b m).detid = c.detid := by cases b <;> rfl
@[simp] theorem CoreInst.setMem_steal (c : CoreInst) (b : Buf) (m : Memory) : (c.setMem b m).steal = c.steal := by cases b <;> rfl
@[simp] theorem CoreInst.setMem_subst (c : CoreInst) (b : Buf) (m : Memory) : (c.setMem b m).subst = c.subst := by cases b <;> rfl
@[simp] theorem CoreInst.setMem_bsic (c : CoreInst) (b : Buf) (m : Memory) : (c.setMem b m).bsic = c.bsic := by cases b <;> rfl
@[simp] theorem CoreInst.setMem_chmode (c : CoreInst) (b : Buf) (m : Memory) : (c.setMem b m).chmode = c.chmode := by cases b <;> rfl
@[simp] theorem CoreInst.setMem_amrcfg (c : CoreInst) (b : Buf) (m : Memory) : (c.setMem b m).amrcfg = c.amrcfg := by cases b <;> rfl
@[simp] theorem CoreInst.setMem_pdcfg (c : CoreInst) (b : Buf) (m : Memory) : (c.setMem b m).pdcfg = c.pdcfg := by cases b <;> rfl
@[simp] theorem CoreInst.setMem_stage (c : CoreInst) (b : Buf) (m : Memory) : (c.setMem b m).stage = c.stage := by cases b <;> rfl
@[simp] theorem CoreInst.setMem_idle (c : CoreInst) (b : Buf) (m : Memory) : (c.setMem b m).idle = c.idle := by cases b <;> rfl
@[simp] theorem CoreInst.store_index (c : CoreInst) (b : Buf) (ws : List Host.Cell) : (c.store b ws).index = c.index := CoreInst.setMem_index c b _
@[simp] theorem CoreInst.store_epoch (c : CoreInst) (b : Buf) (ws : List Host.Cell) : (c.store b ws).epoch = c.epoch := CoreInst.setMem_epoch c b _
@[simp] theorem CoreInst.store_cmd (c : CoreInst) (b : Buf) (ws : List Host.Cell) : (c.store b ws).cmd = c.cmd := CoreInst.setMem_cmd c b _
@[simp] theorem CoreInst.store_status (c : CoreInst) (b : Buf) (ws : List Host.Cell) : (c.store b ws).status = c.status := CoreInst.setMem_status c b _
@[simp] theorem CoreInst.store_a0 (c : CoreInst) (b : Buf) (ws : List Host.Cell) : (c.store b ws).a0 = c.a0 := CoreInst.setMem_a0 c b _
@[simp] theorem CoreInst.store_a1 (c : CoreInst) (b : Buf) (ws : List Host.Cell) : (c.store b ws).a1 = c.a1 := CoreInst.setMem_a1 c b _
@[simp] theorem CoreInst.store_a2 (c : CoreInst) (b : Buf) (ws : List Host.Cell) : (c.store b ws).a2 = c.a2 := CoreInst.setMem_a2 c b _
@[simp] theorem CoreInst.store_a3 (c : CoreInst) (b : Buf) (ws : List Host.Cell) : (c.store b ws).a3 = c.a3 := CoreInst.setMem_a3 c b _
@[simp] theorem CoreInst.store_nerr (c : CoreInst) (b : Buf) (ws : List Host.Cell) : (c.store b ws).nerr = c.nerr := CoreInst.setMem_nerr c b _
@[simp] theorem CoreInst.store_nbits (c : CoreInst) (b : Buf) (ws : List Host.Cell) : (c.store b ws).nbits = c.nbits := CoreInst.setMem_nbits c b _
@[simp] theorem CoreInst.store_rlen (c : CoreInst) (b : Buf) (ws : List Host.Cell) : (c.store b ws).rlen = c.rlen := CoreInst.setMem_rlen c b _
@[simp] theorem CoreInst.store_detid (c : CoreInst) (b : Buf) (ws : List Host.Cell) : (c.store b ws).detid = c.detid := CoreInst.setMem_detid c b _
@[simp] theorem CoreInst.store_steal (c : CoreInst) (b : Buf) (ws : List Host.Cell) : (c.store b ws).steal = c.steal := CoreInst.setMem_steal c b _
@[simp] theorem CoreInst.store_subst (c : CoreInst) (b : Buf) (ws : List Host.Cell) : (c.store b ws).subst = c.subst := CoreInst.setMem_subst c b _
@[simp] theorem CoreInst.store_bsic (c : CoreInst) (b : Buf) (ws : List Host.Cell) : (c.store b ws).bsic = c.bsic := CoreInst.setMem_bsic c b _
@[simp] theorem CoreInst.store_chmode (c : CoreInst) (b : Buf) (ws : List Host.Cell) : (c.store b ws).chmode = c.chmode := CoreInst.setMem_chmode c b _
@[simp] theorem CoreInst.store_amrcfg (c : CoreInst) (b : Buf) (ws : List Host.Cell) : (c.store b ws).amrcfg = c.amrcfg := CoreInst.setMem_amrcfg c b _
@[simp] theorem CoreInst.store_pdcfg (c : CoreInst) (b : Buf) (ws : List Host.Cell) : (c.store b ws).pdcfg = c.pdcfg := CoreInst.setMem_pdcfg c b _
@[simp] theorem CoreInst.store_stage (c : CoreInst) (b : Buf) (ws : List Host.Cell) : (c.store b ws).stage = c.stage := CoreInst.setMem_stage c b _
@[simp] theorem CoreInst.store_idle (c : CoreInst) (b : Buf) (ws : List Host.Cell) : (c.store b ws).idle = c.idle := CoreInst.setMem_idle c b _

/-! ### The block -/

@[simp] theorem State.onActive_params (s : State) (f : CoreInst → CoreInst) : (s.onActive f).params = s.params := rfl
@[simp] theorem State.onActive_insts (s : State) (f : CoreInst → CoreInst) : (s.onActive f).insts = s.insts.modify s.active f := rfl
@[simp] theorem State.onActive_active (s : State) (f : CoreInst → CoreInst) : (s.onActive f).active = s.active := rfl
@[simp] theorem State.onActive_epoch (s : State) (f : CoreInst → CoreInst) : (s.onActive f).epoch = s.epoch := rfl
@[simp] theorem State.onActive_pending (s : State) (f : CoreInst → CoreInst) : (s.onActive f).pending = s.pending := rfl
@[simp] theorem State.onActive_resp (s : State) (f : CoreInst → CoreInst) : (s.onActive f).resp = s.resp := rfl
@[simp] theorem State.putActive_params (s : State) (c : CoreInst) : (s.putActive c).params = s.params := rfl
@[simp] theorem State.putActive_insts (s : State) (c : CoreInst) : (s.putActive c).insts = s.insts.set s.active c := rfl
@[simp] theorem State.putActive_active (s : State) (c : CoreInst) : (s.putActive c).active = s.active := rfl
@[simp] theorem State.putActive_epoch (s : State) (c : CoreInst) : (s.putActive c).epoch = s.epoch := rfl
@[simp] theorem State.putActive_pending (s : State) (c : CoreInst) : (s.putActive c).pending = s.pending := rfl
@[simp] theorem State.putActive_resp (s : State) (c : CoreInst) : (s.putActive c).resp = s.resp := rfl
@[simp] theorem State.answer_params (s : State) (r : Response) : (s.answer r).params = s.params := rfl
@[simp] theorem State.answer_insts (s : State) (r : Response) : (s.answer r).insts = s.insts := rfl
@[simp] theorem State.answer_active (s : State) (r : Response) : (s.answer r).active = s.active := rfl
@[simp] theorem State.answer_epoch (s : State) (r : Response) : (s.answer r).epoch = s.epoch := rfl
@[simp] theorem State.answer_pending (s : State) (r : Response) : (s.answer r).pending = s.pending := rfl
@[simp] theorem State.answer_resp (s : State) (r : Response) : (s.answer r).resp = some r := rfl
@[simp] theorem State.acceptCommand_params (s : State) (i : Nat) (w : Word) : (s.acceptCommand i w).params = s.params := rfl
@[simp] theorem State.acceptCommand_insts (s : State) (i : Nat) (w : Word) : (s.acceptCommand i w).insts = s.insts.modify i fun c => { c with cmd := w } := rfl
@[simp] theorem State.acceptCommand_active (s : State) (i : Nat) (w : Word) : (s.acceptCommand i w).active = i := rfl
@[simp] theorem State.acceptCommand_epoch (s : State) (i : Nat) (w : Word) : (s.acceptCommand i w).epoch = s.epoch := rfl
@[simp] theorem State.acceptCommand_pending (s : State) (i : Nat) (w : Word) : (s.acceptCommand i w).pending = s.pending := rfl
@[simp] theorem State.acceptCommand_resp (s : State) (i : Nat) (w : Word) : (s.acceptCommand i w).resp = some .done := rfl
@[simp] theorem State.powerOn_params (s : State) : (s.powerOn).params = s.params := rfl
@[simp] theorem State.powerOn_insts (s : State) : (s.powerOn).insts = s.insts.mapIdx fun i _ => coreReset i (s.epoch + 1) := rfl
@[simp] theorem State.powerOn_active (s : State) : (s.powerOn).active = s.active := rfl
@[simp] theorem State.powerOn_epoch (s : State) : (s.powerOn).epoch = s.epoch + 1 := rfl
@[simp] theorem State.powerOn_pending (s : State) : (s.powerOn).pending = s.pending := rfl
@[simp] theorem State.powerOn_resp (s : State) : (s.powerOn).resp = none := rfl

end Sys2Proof.Machine
end

