-- ==== Sys2Proof/Laws/Memory.lean ====
section
/-! SUPPORT. Sys2Proof/Laws/Memory.lean: the laws of a buffer's sparse memory: read after write, the canonical form kept by every
operation, and what the cells of an instance are after a store. -/

namespace Sys2Proof.Machine

/-! ### One write -/

theorem Memory.read?_write_self (m : Memory) (a : Nat) (v : Byte) : (m.write a v).read? a = some v := by
  induction m with
  | nil => simp [Memory.write, Memory.read?]
  | cons p t ih =>
    obtain ⟨b, w⟩ := p
    unfold Memory.write
    split
    · simp [Memory.read?]
    · split
      · simp [Memory.read?]
      · simp only [Memory.read?]
        rw [if_neg (by omega), ih]

theorem Memory.read?_write_ne (m : Memory) {a k : Nat} (v : Byte) (h : k ≠ a) : (m.write a v).read? k = m.read? k := by
  induction m with
  | nil => simp [Memory.write, Memory.read?, h.symm]
  | cons p t ih =>
    obtain ⟨b, w⟩ := p
    unfold Memory.write
    split
    · simp [Memory.read?, h.symm]
    · split
      · rename_i hab
        subst hab
        simp [Memory.read?, h.symm]
      · simp [Memory.read?, ih]

theorem Memory.mem_write {m : Memory} {a : Nat} {v : Byte} {x : Host.Cell} (h : x ∈ m.write a v) : x = (a, v) ∨ x ∈ m := by
  induction m with
  | nil => simpa [Memory.write] using h
  | cons p t ih =>
    obtain ⟨b, w⟩ := p
    unfold Memory.write at h
    split at h
    · simpa using h
    · split at h
      · rcases List.mem_cons.mp h with h | h
        · exact .inl h
        · exact .inr (List.mem_cons_of_mem _ h)
      · rcases List.mem_cons.mp h with h | h
        · exact .inr (h ▸ List.mem_cons_self)
        · exact (ih h).imp_right (List.mem_cons_of_mem _)

theorem Memory.write_wf {m : Memory} (h : m.wf) (a : Nat) (v : Byte) : (m.write a v).wf := by
  induction m with
  | nil => simp [Memory.write, Memory.wf]
  | cons p t ih =>
    obtain ⟨b, w⟩ := p
    have h' := List.pairwise_cons.mp h
    unfold Memory.write
    split
    · rename_i hab
      refine List.pairwise_cons.mpr ⟨fun x hx => ?_, h⟩
      rcases List.mem_cons.mp hx with hx | hx
      · simpa [hx] using hab
      · exact Nat.lt_trans hab (h'.1 x hx)
    · split
      · rename_i hab
        subst hab
        exact List.pairwise_cons.mpr h'
      · refine List.pairwise_cons.mpr ⟨fun x hx => ?_, ih h'.2⟩
        rcases Memory.mem_write hx with hx | hx
        · simp only [hx]
          omega
        · exact h'.1 x hx

/-! ### Many writes -/

/-- An instance after power-on reset has its buffers in canonical form. -/
theorem coreReset_mem_wf (i e : Nat) (b : Buf) : ((coreReset i e).mem b).wf := by cases b <;> exact List.Pairwise.nil

/-- The memory of the state after reset is in canonical form. -/
theorem State.reset_mem_wf {c : CoreInst} (h : c ∈ State.reset.insts) (b : Buf) : (c.mem b).wf :=
  List.mem_singleton.mp h ▸ coreReset_mem_wf 0 0 b

@[simp] theorem Memory.writeAll_nil (m : Memory) : m.writeAll [] = m := rfl

@[simp] theorem Memory.writeAll_cons (m : Memory) (w : Host.Cell) (ws : List Host.Cell) :
    m.writeAll (w :: ws) = (m.write w.1 w.2).writeAll ws := rfl

theorem Memory.writeAll_wf {m : Memory} (h : m.wf) (ws : List Host.Cell) : (m.writeAll ws).wf := by
  induction ws generalizing m with
  | nil => exact h
  | cons w ws ih => exact ih (Memory.write_wf h w.1 w.2)

theorem Memory.mem_writeAll {m : Memory} {ws : List Host.Cell} {x : Host.Cell} (h : x ∈ m.writeAll ws) : x ∈ ws ∨ x ∈ m := by
  induction ws generalizing m with
  | nil => exact .inr h
  | cons w ws ih =>
    rcases ih h with h | h
    · exact .inl (List.mem_cons_of_mem _ h)
    · rcases Memory.mem_write h with h | h
      · exact .inl (h ▸ List.mem_cons_self)
      · exact .inr h

theorem Memory.read?_writeAll_of_notMem (m : Memory) {ws : List Host.Cell} {k : Nat} (h : ∀ x ∈ ws, x.1 ≠ k) :
    (m.writeAll ws).read? k = m.read? k := by
  induction ws generalizing m with
  | nil => rfl
  | cons w ws ih =>
    rw [Memory.writeAll_cons, ih _ fun x hx => h x (List.mem_cons_of_mem _ hx),
      Memory.read?_write_ne _ _ (h w List.mem_cons_self).symm]

theorem Memory.read?_writeAll_of_mem (m : Memory) {ws : List Host.Cell} (hn : (ws.map (·.1)).Nodup) {x : Host.Cell} (hx : x ∈ ws) :
    (m.writeAll ws).read? x.1 = some x.2 := by
  induction ws generalizing m with
  | nil => cases hx
  | cons w ws ih =>
    obtain ⟨hw, hn'⟩ := List.nodup_cons.mp (by simpa using hn : (w.1 :: ws.map (·.1)).Nodup)
    rw [Memory.writeAll_cons]
    rcases List.mem_cons.mp hx with rfl | hx
    · rw [Memory.read?_writeAll_of_notMem _ fun y hy e => hw (List.mem_map.mpr ⟨y, hy, e⟩), Memory.read?_write_self]
    · exact ih _ hn' hx

/-! ### The buffers of an instance -/

@[simp] theorem CoreInst.mem_setMem_self (c : CoreInst) (b : Buf) (m : Memory) : (c.setMem b m).mem b = m := by cases b <;> rfl

theorem CoreInst.mem_setMem_ne (c : CoreInst) {b b' : Buf} (m : Memory) (h : b' ≠ b) : (c.setMem b m).mem b' = c.mem b' := by
  cases b <;> cases b' <;> first | rfl | exact absurd rfl h

@[simp] theorem cellForm_cellForm (b : Buf) (v : Byte) : cellForm b (cellForm b v) = cellForm b v := by
  cases b <;> simp [cellForm, BitVec.and_assoc]

@[simp] theorem CoreInst.cellForm_cell (c : CoreInst) (b : Buf) (k : Nat) : cellForm b (c.cell b k) = c.cell b k :=
  cellForm_cellForm b _

/-- A cell depends on the buffer's memory and the two numbers that name the free values, and on nothing else. -/
theorem CoreInst.cell_congr {c d : CoreInst} {b : Buf} (hm : c.mem b = d.mem b) (hi : c.index = d.index) (he : c.epoch = d.epoch)
    (k : Nat) : c.cell b k = d.cell b k := by
  simp only [CoreInst.cell, hm, hi, he]

@[simp] theorem CoreInst.mem_clearResults (c : CoreInst) (b : Buf) : c.clearResults.mem b = c.mem b := by cases b <;> rfl

@[simp] theorem CoreInst.mem_setRlen (c : CoreInst) (n : Nat) (b : Buf) : (c.setRlen n).mem b = c.mem b := by cases b <;> rfl

@[simp] theorem CoreInst.mem_setStats (c : CoreInst) (x y : Nat) (b : Buf) : (c.setStats x y).mem b = c.mem b := by
  cases b <;> rfl

@[simp] theorem CoreInst.mem_endCommand (c : CoreInst) (op : Nat) (k : Code) (fl : CmdFlags) (st : Stage) (b : Buf) :
    (c.endCommand op k fl st).mem b = c.mem b := by cases b <;> rfl

@[simp] theorem CoreInst.mem_ended (c : CoreInst) (r : Results) (st : Stage) (b : Buf) : (c.ended r st).mem b = c.mem b := by
  cases b <;> rfl

@[simp] theorem CoreInst.mem_resetRegs (c : CoreInst) (b : Buf) : c.resetRegs.mem b = c.mem b := by cases b <;> rfl

@[simp] theorem CoreInst.cell_clearResults (c : CoreInst) (b : Buf) (k : Nat) : c.clearResults.cell b k = c.cell b k :=
  CoreInst.cell_congr (c.mem_clearResults b) rfl rfl k

@[simp] theorem CoreInst.cell_setRlen (c : CoreInst) (n : Nat) (b : Buf) (k : Nat) : (c.setRlen n).cell b k = c.cell b k :=
  CoreInst.cell_congr (c.mem_setRlen n b) rfl rfl k

@[simp] theorem CoreInst.cell_setStats (c : CoreInst) (x y : Nat) (b : Buf) (k : Nat) : (c.setStats x y).cell b k = c.cell b k :=
  CoreInst.cell_congr (c.mem_setStats x y b) rfl rfl k

@[simp] theorem CoreInst.cell_endCommand (c : CoreInst) (op : Nat) (kd : Code) (fl : CmdFlags) (st : Stage) (b : Buf) (k : Nat) :
    (c.endCommand op kd fl st).cell b k = c.cell b k := CoreInst.cell_congr (c.mem_endCommand op kd fl st b) rfl rfl k

@[simp] theorem CoreInst.cell_ended (c : CoreInst) (r : Results) (st : Stage) (b : Buf) (k : Nat) :
    (c.ended r st).cell b k = c.cell b k := CoreInst.cell_congr (c.mem_ended r st b) rfl rfl k

@[simp] theorem CoreInst.cell_resetRegs (c : CoreInst) (b : Buf) (k : Nat) : c.resetRegs.cell b k = c.cell b k :=
  CoreInst.cell_congr (c.mem_resetRegs b) rfl rfl k

theorem CoreInst.cell_setMem_ne (c : CoreInst) {b b' : Buf} (m : Memory) (h : b' ≠ b) (k : Nat) :
    (c.setMem b m).cell b' k = c.cell b' k :=
  CoreInst.cell_congr (c.mem_setMem_ne m h) (by simp) (by simp) k

/-! ### Storing cells (R48) -/

theorem CoreInst.cell_store_of_mem (c : CoreInst) {b : Buf} {ws : List Host.Cell} (hn : (ws.map (·.1)).Nodup) {x : Host.Cell}
    (hx : x ∈ ws) : (c.store b ws).cell b x.1 = cellForm b x.2 := by
  have h := Memory.read?_writeAll_of_mem (c.mem b) (ws := ws.map fun w => (w.1, cellForm b w.2))
    (by simpa [Function.comp_def] using hn) (x := (x.1, cellForm b x.2)) (List.mem_map.mpr ⟨x, hx, rfl⟩)
  simp only [CoreInst.store, CoreInst.cell, CoreInst.mem_setMem_self, CoreInst.setMem_index, CoreInst.setMem_epoch]
  rw [h, Option.getD_some, cellForm_cellForm]

theorem CoreInst.cell_store_of_notMem (c : CoreInst) {b : Buf} {ws : List Host.Cell} {k : Nat} (h : ∀ x ∈ ws, x.1 ≠ k) :
    (c.store b ws).cell b k = c.cell b k := by
  have h' := Memory.read?_writeAll_of_notMem (c.mem b) (ws := ws.map fun w => (w.1, cellForm b w.2)) (k := k)
    (fun x hx => by
      obtain ⟨y, hy, rfl⟩ := List.mem_map.mp hx
      exact h y hy)
  simp only [CoreInst.store, CoreInst.cell, CoreInst.mem_setMem_self, CoreInst.setMem_index, CoreInst.setMem_epoch]
  rw [h']

theorem CoreInst.cell_store_ne (c : CoreInst) {b b' : Buf} (ws : List Host.Cell) (h : b' ≠ b) (k : Nat) :
    (c.store b ws).cell b' k = c.cell b' k := c.cell_setMem_ne _ h k

/-- Storing a list of cells with different indices stores exactly the pairs of the list, each in the cell's form. -/
theorem storesExactly_store (c : CoreInst) {b : Buf} {ws : List Host.Cell} (hn : (ws.map (·.1)).Nodup) :
    StoresExactly c (c.store b ws) b fun k v => ∃ x ∈ ws, k = x.1 ∧ v = cellForm b x.2 := by
  refine ⟨?_, fun k h => c.cell_store_of_notMem fun x hx e => h _ ⟨x, hx, e.symm, rfl⟩⟩
  rintro k v ⟨x, hx, rfl, rfl⟩
  exact c.cell_store_of_mem hn hx

theorem StoresExactly.congr {c c' : CoreInst} {b : Buf} {p q : Nat → Byte → Prop} (h : StoresExactly c c' b p)
    (hpq : ∀ k v, p k v ↔ q k v) : StoresExactly c c' b q :=
  ⟨fun k v hq => h.1 k v ((hpq k v).mpr hq), fun k hq => h.2 k fun v hp => hq v ((hpq k v).mp hp)⟩

/-! ### Vectors -/

theorem mem_vecCells {a : Nat} {vs : List Byte} {x : Host.Cell} : x ∈ vecCells a vs ↔ ∃ j, vs[j]? = some x.2 ∧ x.1 = a + j := by
  obtain ⟨k, v⟩ := x
  simp only [vecCells, List.mem_map, Prod.mk.injEq, Prod.exists]
  constructor
  · rintro ⟨w, j, h, rfl, rfl⟩
    exact ⟨j, by simpa [List.mem_zipIdx_iff_getElem?] using h, rfl⟩
  · rintro ⟨j, h, rfl⟩
    exact ⟨v, j, by simpa [List.mem_zipIdx_iff_getElem?] using h, rfl, rfl⟩

theorem vecCells_nodup (a : Nat) (vs : List Byte) : ((vecCells a vs).map (·.1)).Nodup := by
  have h : (vecCells a vs).map (·.1) = (List.range' 0 vs.length).map (a + ·) := by
    simp only [vecCells, List.map_map, Function.comp_def]
    rw [← List.zipIdx_map_snd 0 vs, List.map_map]
    rfl
  rw [h]
  exact (List.nodup_range' (s := 0) (n := vs.length)).map fun x y h => Nat.add_left_cancel h

/-- Storing a vector of values in their cells' form stores exactly that vector. -/
theorem storesExactly_storeVec (c : CoreInst) {b : Buf} (a : Nat) {vs : List Byte} (hv : ∀ v ∈ vs, cellForm b v = v) :
    StoresExactly c (c.storeVec b a vs) b (Vec a vs) := by
  refine (storesExactly_store c (vecCells_nodup a vs)).congr fun k v => ?_
  constructor
  · rintro ⟨x, hx, rfl, rfl⟩
    obtain ⟨j, hj, he⟩ := mem_vecCells.mp hx
    exact ⟨j, by rw [hv _ (List.mem_of_getElem? hj)]; exact hj, he⟩
  · rintro ⟨j, hj, rfl⟩
    exact ⟨(a + j, v), mem_vecCells.mpr ⟨j, hj, rfl⟩, rfl, (hv _ (List.mem_of_getElem? hj)).symm⟩

@[simp] theorem cellForm_bitByte (b : Buf) (x : Bool) : cellForm b (bitByte x) = bitByte x := by
  cases b <;> cases x <;> decide

theorem storesExactly_storeBits (c : CoreInst) (a : Nat) (u : List Bool) :
    StoresExactly c (c.storeBits a u) .hb (Vec a (u.map bitByte)) :=
  storesExactly_storeVec c a fun v hv => by
    obtain ⟨x, -, rfl⟩ := List.mem_map.mp hv
    exact cellForm_bitByte .hb x

theorem CoreInst.load_form {c : CoreInst} {b : Buf} {a len : Nat} {v : Byte} (h : v ∈ c.load b a len) : cellForm b v = v := by
  obtain ⟨k, -, rfl⟩ := List.mem_map.mp h
  exact c.cellForm_cell b _

@[simp] theorem CoreInst.load_length (c : CoreInst) (b : Buf) (a len : Nat) : (c.load b a len).length = len := by
  simp [CoreInst.load]

theorem CoreInst.load_getElem? (c : CoreInst) (b : Buf) (a : Nat) {len j : Nat} (h : j < len) :
    (c.load b a len)[j]? = some (c.cell b (a + j)) := by
  simp [CoreInst.load, h]

/-- Loading depends on the loaded cells alone. -/
theorem CoreInst.load_congr {c d : CoreInst} {b : Buf} (h : ∀ k, c.cell b k = d.cell b k) (a len : Nat) :
    c.load b a len = d.load b a len := by
  simp only [CoreInst.load, h]

@[simp] theorem CoreInst.load_clearResults (c : CoreInst) (b : Buf) (a len : Nat) : c.clearResults.load b a len = c.load b a len :=
  CoreInst.load_congr (c.cell_clearResults b) a len

@[simp] theorem CoreInst.loadBits_clearResults (c : CoreInst) (a len : Nat) : c.clearResults.loadBits a len = c.loadBits a len := by
  simp [CoreInst.loadBits]

@[simp] theorem CoreInst.loadSoft_clearResults (c : CoreInst) (a len : Nat) : c.clearResults.loadSoft a len = c.loadSoft a len := by
  simp [CoreInst.loadSoft]

end Sys2Proof.Machine
end

