-- ==== Sys2Proof/Laws/Command.lean ====
section
/-! SUPPORT. Sys2Proof/Laws/Command.lean: what a command comes to: `exec` runs a function on the executing instance, and how the ends
of a command (`raise`, `complete`) read in the words of Safety.lean. -/

namespace Sys2Proof.Machine

/-! ### `exec` acts on the executing instance -/

theorem State.onActive_eq_putActive {s : State} {c : CoreInst} (h : s.cur? = some c) (f : CoreInst → CoreInst) :
    s.onActive f = s.putActive (f c) := by
  have h' : s.insts[s.active]? = some c := h
  simp only [State.onActive, State.putActive]
  congr 1
  apply List.ext_getElem?
  intro k
  rw [List.getElem?_modify, List.getElem?_set]
  by_cases hk : s.active = k
  · subst hk
    obtain ⟨hl, hc⟩ := List.getElem?_eq_some_iff.mp h'
    simp [hl, hc]
  · simp [hk]

theorem State.onActive_of_none {s : State} (h : s.cur? = none) (f : CoreInst → CoreInst) : s.onActive f = s := by
  have h' : s.insts.length ≤ s.active := List.getElem?_eq_none_iff.mp h
  have h'' : s.insts.modify s.active f = s.insts := by
    apply List.ext_getElem?
    intro k
    rw [List.getElem?_modify]
    by_cases hk : s.active = k
    · subst hk
      simp [List.getElem?_eq_none_iff.mpr h']
    · simp [hk]
  simp only [State.onActive, h'']

theorem State.cur?_onActive {s : State} {c : CoreInst} (h : s.cur? = some c) (f : CoreInst → CoreInst) :
    (s.onActive f).cur? = some (f c) := by
  have h' : s.insts[s.active]? = some c := h
  simp [State.cur?, h']

theorem State.cur?_putActive {s : State} {c : CoreInst} (h : s.cur? = some c) (d : CoreInst) : (s.putActive d).cur? = some d := by
  have h' : s.insts[s.active]? = some c := h
  simp [State.cur?, (List.getElem?_eq_some_iff.mp h').1]

/-- The work of an instruction on the executing instance, with the ROM of the block. -/
def work (rom : Rom) : Instr → CoreInst → CoreInst
  | .nop => nopCmd
  | .cenc d p => cencCmd rom d p
  | .vdec d p => vdecCmd rom d p
  | .crcs d => crcsCmd rom d
  | .crcc d => crccCmd rom d
  | .punc d m => puncCmd rom d m
  | .dpun d m => dpunCmd rom d m
  | .ilv var m => ilvCmd var m
  | .dilv var m => dilvCmd var m
  | .perm d inv m => permCmd rom d inv m
  | .bmap hl hu m => bmapCmd hl hu m
  | .bunm fo m => bunmCmd fo m
  | .bmapt odd h m => bmaptCmd odd h m
  | .bunmt odd fo m => bunmtCmd odd fo m
  | .unpk msbf => unpkCmd msbf
  | .pack msbf => packCmd msbf
  | .h2s => h2sCmd
  | .s2h => s2hCmd
  | .xcchEnc => xcchEncCmd
  | .xcchDec => xcchDecCmd
  | .rachEnc => rachEncCmd
  | .rachDec => rachDecCmd
  | .schEnc => schEncCmd
  | .schDec => schDecCmd
  | .pdtchEnc => pdtchEncCmd rom
  | .pdtchDec psk8 => pdtchDecCmd rom psk8
  | .tchEnc cmr => tchEncCmd rom cmr
  | .tchDec cmr => tchDecCmd rom cmr
  | .srst => srstCmd

/-- Every instruction is some work on the executing instance: no instruction stops the machine. -/
theorem exec_eq_work (i : Instr) (s : State) : exec i s = .next (s.onActive (work s.params.rom i)) := by cases i <;> rfl

/-! ### How a command ends -/

theorem Ends.of_work {i : Instr} {s : State} {c : CoreInst} {r : Results} (h : s.cur? = some c) {st : Stage}
    (hw : work s.params.rom i c = c.ended r st) : Ends i s c r :=
  ⟨st, by rw [exec_eq_work, State.onActive_eq_putActive h, hw]⟩

theorem EndsStoring.of_work {i : Instr} {s : State} {c : CoreInst} {r : Results} {b : Buf} {stored : Nat → Byte → Prop}
    (h : s.cur? = some c) {st : Stage} {ws : List Host.Cell} (hw : work s.params.rom i c = (c.store b ws).ended r st)
    (hs : StoresExactly c (c.store b ws) b stored) : EndsStoring i s c r b stored :=
  ⟨_, st, by rw [exec_eq_work, State.onActive_eq_putActive h, hw]; rfl, hs⟩

theorem CoreInst.raise_clearResults (c : CoreInst) (op : Nat) (k : Code) (st : Stage) :
    c.clearResults.raise op k st = c.ended { status := statusImage op k {} st } st := rfl

theorem CoreInst.complete_store_clearResults (c : CoreInst) (b : Buf) (ws : List Host.Cell) (op n : Nat) :
    (c.clearResults.store b ws).complete op n
      = (c.store b ws).ended { status := statusImage op .ok {} .s13, rlen := BitVec.ofNat 32 n } .s13 := by
  cases b <;> rfl

theorem CoreInst.ended_store (c : CoreInst) (b : Buf) (ws : List Host.Cell) (r : Results) (st : Stage) :
    (c.store b ws).ended r st = (c.ended r st).store b ws := by cases b <;> rfl

theorem not_inRange {a : Word} {len : Nat} {b : Buf} : inRange a len b = false ↔ ¬Fits a len b := by
  simp [inRange, Fits]

theorem inRange_of_fits {a : Word} {len : Nat} {b : Buf} (h : Fits a len b) : inRange a len b = true := by
  simpa [inRange, Fits] using h

theorem inRange_iff {a : Word} {len : Nat} {b : Buf} : inRange a len b = true ↔ Fits a len b := by
  simp [inRange, Fits]

/-- A test written for its failing branch, read by its passing branch. -/
theorem ite_not_swap {α : Type} {t : Bool} {P : Prop} [Decidable P] [Decidable (t = true)] (h : t = true ↔ ¬P) (x y : α) :
    (if t = true then x else y) = if P then y else x := by
  by_cases hp : P
  · rw [if_pos hp, if_neg fun ht => h.mp ht hp]
  · rw [if_neg hp, if_pos (h.mpr hp)]

theorem bad1 {a : Word} {l : Nat} {b : Buf} : (!inRange a l b) = true ↔ ¬Fits a l b := by
  simp only [inRange, Fits, Bool.not_eq_true', ← Bool.not_eq_true, decide_eq_true_eq]

/-- The range test of a command with two operands. -/
theorem bad2 {a a' : Word} {l l' : Nat} {b b' : Buf} :
    (!(inRange a l b && inRange a' l' b')) = true ↔ ¬(Fits a l b ∧ Fits a' l' b') := by
  simp only [inRange, Fits, Bool.not_eq_true', ← Bool.not_eq_true, Bool.and_eq_true, decide_eq_true_eq]

/-- The range test of a command with two operands and a length bounded by `VMAX`. -/
theorem bad3 {n : Nat} {a a' : Word} {l l' : Nat} {b b' : Buf} {_ : Decidable (n ≤ vmax)} :
    (!(decide (n ≤ vmax) && inRange a l b && inRange a' l' b')) = true ↔ ¬(n ≤ vmax ∧ Fits a l b ∧ Fits a' l' b') := by
  simp only [inRange, Fits, Bool.not_eq_true', ← Bool.not_eq_true, Bool.and_eq_true, decide_eq_true_eq, and_assoc]

/-- The range test of a command whose second operand is switched off by a flag. -/
theorem badFo {fo : Bool} {a a' : Word} {l l' : Nat} {b b' : Buf} :
    (!(inRange a l b && (fo || inRange a' l' b'))) = true ↔ ¬(Fits a l b ∧ (fo = false → Fits a' l' b')) := by
  cases fo
  · simpa using bad2
  · simpa using bad1

/-- The vector of `f 0 … f (n-1)` at `a`. -/
theorem vec_map_range {a n : Nat} {f : Nat → Byte} {k : Nat} {v : Byte} :
    Vec a ((List.range n).map f) k v ↔ ∃ j < n, k = a + j ∧ v = f j := by
  constructor
  · rintro ⟨j, hj, rfl⟩
    obtain ⟨hl, rfl⟩ := List.getElem?_eq_some_iff.mp hj
    exact ⟨j, by simpa using hl, rfl, by simp⟩
  · rintro ⟨j, hj, rfl, rfl⟩
    exact ⟨j, by simp [hj], rfl⟩

/-- The vector `l` of `n` values at `a`. -/
theorem vec_getD {a n : Nat} {l : List Byte} (hl : l.length = n) {k : Nat} {v d : Byte} :
    Vec a l k v ↔ ∃ j < n, k = a + j ∧ v = l.getD j d := by
  subst hl
  constructor
  · rintro ⟨j, hj, rfl⟩
    obtain ⟨hlt, rfl⟩ := List.getElem?_eq_some_iff.mp hj
    exact ⟨j, hlt, rfl, by simp [hlt]⟩
  · rintro ⟨j, hj, rfl, rfl⟩
    exact ⟨j, by simp [hj], rfl⟩

/-- The vector of the bits `u`, `n` of them, at `a`. -/
theorem vec_bits {a n : Nat} {u : List Bool} (hl : u.length = n) {k : Nat} {v : Byte} :
    Vec a (u.map bitByte) k v ↔ ∃ j < n, k = a + j ∧ v = bitByte (u.getD j false) := by
  rw [vec_getD (d := bitByte false) (by simpa using hl)]
  simp only [List.getD_eq_getElem?_getD, List.getElem?_map]
  refine exists_congr fun j => and_congr_right fun hj => ?_
  subst hl
  simp [hj]

end Sys2Proof.Machine
end

