-- ==== Sys2Proof/Laws/Engines.lean ====
section
/-! SUPPORT. Sys2Proof/Laws/Engines.lean: one lemma for each engine command that says once all it can do: under which test it ends with
which results, and what it stores. -/

namespace Sys2Proof.Machine

/-- The bit a hard-bit load finds at position `j`. -/
theorem CoreInst.loadBits_eq (c : CoreInst) (a len : Nat) :
    c.loadBits a len = (List.range len).map fun k => bitOf (c.cell .hb (a + k)) := by
  simp [CoreInst.loadBits, CoreInst.load]

theorem CoreInst.loadSoft_eq (c : CoreInst) (a len : Nat) :
    c.loadSoft a len = (List.range len).map fun k => sext8 (c.cell .sb (a + k)) := by
  simp [CoreInst.loadSoft, CoreInst.load]

@[simp] theorem CoreInst.loadBits_length (c : CoreInst) (a len : Nat) : (c.loadBits a len).length = len := by
  simp [CoreInst.loadBits]

@[simp] theorem CoreInst.loadSoft_length (c : CoreInst) (a len : Nat) : (c.loadSoft a len).length = len := by
  simp [CoreInst.loadSoft]

/-! ### Utility commands -/

theorem nopCmd_eq (c : CoreInst) : nopCmd c = c.ended { status := 0x00000100#32 } .s0 := rfl

theorem unpkCmd_eq (msbf : Bool) (c : CoreInst) :
    unpkCmd msbf c =
      if c.a2.toNat ≤ vmax ∧ Fits c.a0 (octetsFor c.a2.toNat) .ob ∧ Fits c.a1 c.a2.toNat .hb then
        (c.storeBits c.a1.toNat (unpackBits msbf (c.load .ob c.a0.toNat (octetsFor c.a2.toNat)) c.a2.toNat)).ended
          { status := 0x000ED100#32, rlen := c.a2 } .s13
      else c.ended { status := 0x000E0112#32 } .s0 := by
  refine (ite_not_swap bad3 _ _).trans ?_
  simp only [CoreInst.clearResults_a0, CoreInst.clearResults_a1, CoreInst.clearResults_a2, CoreInst.storeBits, CoreInst.storeVec, CoreInst.complete_store_clearResults, CoreInst.raise_clearResults,
    CoreInst.load_clearResults, BitVec.ofNat_toNat, BitVec.setWidth_eq]
  rfl

theorem packCmd_eq (msbf : Bool) (c : CoreInst) :
    packCmd msbf c =
      if c.a2.toNat ≤ vmax ∧ Fits c.a0 c.a2.toNat .hb ∧ Fits c.a1 (octetsFor c.a2.toNat) .ob then
        (c.storeVec .ob c.a1.toNat (packBits msbf (c.loadBits c.a0.toNat c.a2.toNat))).ended
          { status := 0x000FD100#32, rlen := BitVec.ofNat 32 (octetsFor c.a2.toNat) } .s13
      else c.ended { status := 0x000F0112#32 } .s0 := by
  refine (ite_not_swap bad3 _ _).trans ?_
  simp only [CoreInst.clearResults_a0, CoreInst.clearResults_a1, CoreInst.clearResults_a2, CoreInst.storeVec, CoreInst.complete_store_clearResults, CoreInst.raise_clearResults,
    CoreInst.loadBits_clearResults]
  rfl

theorem h2sCmd_eq (c : CoreInst) :
    h2sCmd c =
      if c.a2.toNat ≤ vmax ∧ Fits c.a0 c.a2.toNat .hb ∧ Fits c.a1 c.a2.toNat .sb then
        (c.storeVec .sb c.a1.toNat ((c.loadBits c.a0.toNat c.a2.toNat).map fun b => tc8 (softOf b))).ended
          { status := 0x0010D100#32, rlen := c.a2 } .s13
      else c.ended { status := 0x00100112#32 } .s0 := by
  refine (ite_not_swap bad3 _ _).trans ?_
  simp only [CoreInst.clearResults_a0, CoreInst.clearResults_a1, CoreInst.clearResults_a2, CoreInst.storeVec, CoreInst.complete_store_clearResults, CoreInst.raise_clearResults,
    CoreInst.loadBits_clearResults, BitVec.ofNat_toNat, BitVec.setWidth_eq]
  rfl

theorem s2hCmd_eq (c : CoreInst) :
    s2hCmd c =
      if c.a2.toNat ≤ vmax ∧ Fits c.a0 c.a2.toNat .sb ∧ Fits c.a1 c.a2.toNat .hb then
        (c.storeBits c.a1.toNat ((c.loadSoft c.a0.toNat c.a2.toNat).map hardOf)).ended
          { status := 0x0011D100#32, rlen := c.a2 } .s13
      else c.ended { status := 0x00110112#32 } .s0 := by
  refine (ite_not_swap bad3 _ _).trans ?_
  simp only [CoreInst.clearResults_a0, CoreInst.clearResults_a1, CoreInst.clearResults_a2, CoreInst.storeBits, CoreInst.storeVec, CoreInst.complete_store_clearResults, CoreInst.raise_clearResults,
    CoreInst.loadSoft_clearResults, BitVec.ofNat_toNat, BitVec.setWidth_eq]
  rfl

/-! ### The convolutional and puncture engines -/

theorem cencCmd_absent (rom : Rom) (d : Nat) (p : Bool) (c : CoreInst) (h : romConv rom d = none) :
    cencCmd rom d p c = c.ended { status := 0x00010111#32 } .s0 := by
  simp only [cencCmd, h]
  rfl

theorem cencCmd_eq (rom : Rom) (d : Nat) (p : Bool) (c : CoreInst) {cd : ConvDesc} (h : romConv rom d = some cd) :
    cencCmd rom d p c =
      if Fits c.a0 cd.len .hb ∧ Fits c.a1 (codedLen cd p) .hb then
        if c.a2.toNat = cd.len then
          (c.storeBits c.a1.toNat (convEnc cd (c.loadBits c.a0.toNat cd.len) p)).ended
            { status := 0x0001D100#32, rlen := BitVec.ofNat 32 (codedLen cd p) } .s13
        else c.ended { status := 0x00010103#32 } .s0
      else c.ended { status := 0x00010112#32 } .s0 := by
  simp only [cencCmd, h, CoreInst.clearResults_a0, CoreInst.clearResults_a1, CoreInst.clearResults_a2, ite_not_swap bad2, ne_eq, ite_not, CoreInst.storeBits, CoreInst.storeVec, CoreInst.complete_store_clearResults, CoreInst.raise_clearResults,
    CoreInst.loadBits_clearResults]
  rfl

theorem vdecCmd_absent (rom : Rom) (d : Nat) (p : Bool) (c : CoreInst) (h : romConv rom d = none) :
    vdecCmd rom d p c = c.ended { status := 0x00020111#32 } .s0 := by
  simp only [vdecCmd, h]
  rfl

theorem vdecCmd_eq (rom : Rom) (d : Nat) (p : Bool) (c : CoreInst) {cd : ConvDesc} (h : romConv rom d = some cd) :
    vdecCmd rom d p c =
      if Fits c.a0 (codedLen cd p) .sb ∧ Fits c.a1 cd.len .hb then
        if c.a2.toNat = codedLen cd p then
          (c.storeBits c.a1.toNat (decodeStats cd (c.loadSoft c.a0.toNat (codedLen cd p)) p).1).ended
            { status := 0x0002D100#32, rlen := BitVec.ofNat 32 cd.len,
              nerr := BitVec.ofNat 32 (decodeStats cd (c.loadSoft c.a0.toNat (codedLen cd p)) p).2.1,
              nbits := BitVec.ofNat 32 (decodeStats cd (c.loadSoft c.a0.toNat (codedLen cd p)) p).2.2 } .s13
        else c.ended { status := 0x00020103#32 } .s0
      else c.ended { status := 0x00020112#32 } .s0 := by
  simp only [vdecCmd, h, CoreInst.clearResults_a0, CoreInst.clearResults_a1, CoreInst.clearResults_a2, ite_not_swap bad2, ne_eq, ite_not, CoreInst.storeBits, CoreInst.storeVec, CoreInst.raise_clearResults,
    CoreInst.loadSoft_clearResults]
  rfl

theorem puncCmd_absent (rom : Rom) (d : Nat) (m : Bool) (c : CoreInst) (h : romConv rom d = none) :
    puncCmd rom d m c = c.ended { status := 0x00050111#32 } .s0 := by
  simp only [puncCmd, h]
  rfl

theorem puncCmd_eq (rom : Rom) (d : Nat) (m : Bool) (c : CoreInst) {cd : ConvDesc} (h : romConv rom d = some cd) :
    puncCmd rom d m c =
      if Fits c.a0 (nfull cd) (bufOf m) ∧ Fits c.a1 (nmatched cd) (bufOf m) then
        if c.a2.toNat = nfull cd then
          (c.storeVec (bufOf m) c.a1.toNat (puncture (puncTable cd) (c.load (bufOf m) c.a0.toNat (nfull cd)))).ended
            { status := 0x0005D100#32, rlen := BitVec.ofNat 32 (nmatched cd) } .s13
        else c.ended { status := 0x00050103#32 } .s0
      else c.ended { status := 0x00050112#32 } .s0 := by
  simp only [puncCmd, h, CoreInst.clearResults_a0, CoreInst.clearResults_a1, CoreInst.clearResults_a2, ite_not_swap bad2, ne_eq, ite_not, CoreInst.storeVec, CoreInst.complete_store_clearResults, CoreInst.raise_clearResults,
    CoreInst.load_clearResults]
  rfl

theorem dpunCmd_absent (rom : Rom) (d : Nat) (m : Bool) (c : CoreInst) (h : romConv rom d = none) :
    dpunCmd rom d m c = c.ended { status := 0x00060111#32 } .s0 := by
  simp only [dpunCmd, h]
  rfl

theorem dpunCmd_eq (rom : Rom) (d : Nat) (m : Bool) (c : CoreInst) {cd : ConvDesc} (h : romConv rom d = some cd) :
    dpunCmd rom d m c =
      if Fits c.a0 (nmatched cd) (bufOf m) ∧ Fits c.a1 (nfull cd) (bufOf m) then
        if c.a2.toNat = nmatched cd then
          (c.storeVec (bufOf m) c.a1.toNat
            (depuncture erasureCell (puncTable cd) (c.load (bufOf m) c.a0.toNat (nmatched cd)) (nfull cd))).ended
            { status := 0x0006D100#32, rlen := BitVec.ofNat 32 (nfull cd) } .s13
        else c.ended { status := 0x00060103#32 } .s0
      else c.ended { status := 0x00060112#32 } .s0 := by
  simp only [dpunCmd, h, CoreInst.clearResults_a0, CoreInst.clearResults_a1, CoreInst.clearResults_a2, ite_not_swap bad2, ne_eq, ite_not, CoreInst.storeVec, CoreInst.complete_store_clearResults, CoreInst.raise_clearResults,
    CoreInst.load_clearResults]
  rfl

/-! ### The CRC engine -/

/-- `SUBST` after the only check of a command has passed. -/
theorem substCheck_pass : substCheck 0#32 1 true = 0x00000202#32 := by decide

/-- `SUBST` after the only check of a command has failed. -/
theorem substCheck_fail : substCheck 0#32 1 false = 0x00000002#32 := by decide

theorem crcsCmd_absent (rom : Rom) (p : Nat) (c : CoreInst) (h : romCrc rom p = none) :
    crcsCmd rom p c = c.ended { status := 0x00030111#32 } .s0 := by
  simp only [crcsCmd, h]
  rfl

theorem crcsCmd_eq (rom : Rom) (p : Nat) (c : CoreInst) {q : CrcDesc} (h : romCrc rom p = some q) :
    crcsCmd rom p c =
      if c.a2.toNat ≤ vmax ∧ Fits c.a0 c.a2.toNat .hb ∧ Fits c.a1 q.bits .hb then
        (c.storeBits c.a1.toNat (crcBits q (c.loadBits c.a0.toNat c.a2.toNat))).ended
          { status := 0x0003D100#32, rlen := BitVec.ofNat 32 q.bits } .s13
      else c.ended { status := 0x00030112#32 } .s0 := by
  simp only [crcsCmd, h]
  refine (ite_not_swap bad3 _ _).trans ?_
  simp only [CoreInst.clearResults_a0, CoreInst.clearResults_a1, CoreInst.clearResults_a2, CoreInst.storeBits, CoreInst.storeVec, CoreInst.complete_store_clearResults, CoreInst.raise_clearResults,
    CoreInst.loadBits_clearResults]
  rfl

theorem crccCmd_absent (rom : Rom) (p : Nat) (c : CoreInst) (h : romCrc rom p = none) :
    crccCmd rom p c = c.ended { status := 0x00040111#32 } .s0 := by
  simp only [crccCmd, h]
  rfl

theorem crccCmd_eq (rom : Rom) (p : Nat) (c : CoreInst) {q : CrcDesc} (h : romCrc rom p = some q) :
    crccCmd rom p c =
      if c.a2.toNat ≤ vmax ∧ Fits c.a0 c.a2.toNat .hb ∧ Fits c.a1 q.bits .hb then
        if crcCheck q (c.loadBits c.a0.toNat c.a2.toNat) (c.loadBits c.a1.toNat q.bits) then
          c.ended { status := 0x0004C100#32, subst := 0x00000202#32 } .s12
        else c.ended { status := 0x0004C301#32, subst := 0x00000002#32 } .s12
      else c.ended { status := 0x00040112#32 } .s0 := by
  simp only [crccCmd, h]
  refine (ite_not_swap bad3 _ _).trans ?_
  simp only [CoreInst.clearResults_a0, CoreInst.clearResults_a1, CoreInst.clearResults_a2, CoreInst.raise_clearResults,
    CoreInst.loadBits_clearResults]
  refine if_congr Iff.rfl ?_ rfl
  cases crcCheck q (c.loadBits c.a0.toNat c.a2.toNat) (c.loadBits c.a1.toNat q.bits)
  · simp only [CoreInst.clearResults_subst, substCheck_fail, Bool.false_eq_true, if_false]
    rfl
  · simp only [CoreInst.clearResults_subst, substCheck_pass, if_true]
    rfl

/-! ### The interleaver and the burst mapper -/

theorem ilvCmd_eq (var m : Bool) (c : CoreInst) :
    ilvCmd var m c =
      if Fits c.a0 456 (bufOf m) ∧ Fits c.a1 (burstCount var * 114) (bufOf m) then
        (c.store (bufOf m)
            (List.zip ((ilvCells (burstCount var)).map (c.a1.toNat + ·)) (c.load (bufOf m) c.a0.toNat 456))).ended
          { status := 0x0007D100#32, rlen := 456#32 } .s13
      else c.ended { status := 0x00070112#32 } .s0 := by
  simp only [ilvCmd, CoreInst.clearResults_a0, CoreInst.clearResults_a1, ite_not_swap bad2, CoreInst.complete_store_clearResults, CoreInst.raise_clearResults,
    CoreInst.load_clearResults]
  rfl

theorem dilvCmd_eq (var m : Bool) (c : CoreInst) :
    dilvCmd var m c =
      if Fits c.a0 (burstCount var * 114) (bufOf m) ∧ Fits c.a1 456 (bufOf m) then
        (c.storeVec (bufOf m) c.a1.toNat
            (gather (c.load (bufOf m) c.a0.toNat (burstCount var * 114)) 0#8 (ilvCells (burstCount var)))).ended
          { status := 0x0008D100#32, rlen := 456#32 } .s13
      else c.ended { status := 0x00080112#32 } .s0 := by
  simp only [dilvCmd, CoreInst.clearResults_a0, CoreInst.clearResults_a1, ite_not_swap bad2, CoreInst.storeVec, CoreInst.complete_store_clearResults, CoreInst.raise_clearResults,
    CoreInst.load_clearResults]
  rfl

theorem permCmd_absent (rom : Rom) (t : Nat) (inv m : Bool) (c : CoreInst) (h : romPerm rom t = none) :
    permCmd rom t inv m c = c.ended { status := 0x00090111#32 } .s0 := by
  simp only [permCmd, h]
  rfl

theorem permCmd_eq (rom : Rom) (t : Nat) (inv m : Bool) (c : CoreInst) {r : PermDesc} (h : romPerm rom t = some r) :
    permCmd rom t inv m c =
      if Fits c.a0 (if inv then r.nout else r.nin) (bufOf m) ∧ Fits c.a1 (if inv then r.nin else r.nout) (bufOf m) then
        (c.store (bufOf m)
            (if inv then vecCells c.a1.toNat (gather (c.load (bufOf m) c.a0.toNat r.nout) 0#8 r.map)
             else List.zip (r.map.map (c.a1.toNat + ·)) (c.load (bufOf m) c.a0.toNat r.nin))).ended
          { status := 0x0009D100#32, rlen := BitVec.ofNat 32 r.nin } .s13
      else c.ended { status := 0x00090112#32 } .s0 := by
  simp only [permCmd, h, CoreInst.clearResults_a0, CoreInst.clearResults_a1, ite_not_swap bad2, CoreInst.complete_store_clearResults, CoreInst.raise_clearResults,
    CoreInst.load_clearResults]
  cases inv <;> rfl

theorem bmapCmd_eq (hl hu m : Bool) (c : CoreInst) :
    bmapCmd hl hu m c =
      if Fits c.a0 114 (bufOf m) ∧ Fits c.a1 116 (bufOf m) then
        (c.storeVec (bufOf m) c.a1.toNat
            (mapBurst (c.load (bufOf m) c.a0.toNat 114) (flagCell m hl) (flagCell m hu))).ended
          { status := 0x000AD100#32, rlen := 116#32 } .s13
      else c.ended { status := 0x000A0112#32 } .s0 := by
  simp only [bmapCmd, CoreInst.clearResults_a0, CoreInst.clearResults_a1, ite_not_swap bad2, CoreInst.storeVec, CoreInst.complete_store_clearResults, CoreInst.raise_clearResults,
    CoreInst.load_clearResults]
  rfl

/-- A word read through its bits: the fields of `STEAL` that `BUNM` fills. -/
theorem stealRaw_eq (x y : Byte) : stealRaw x y = x.setWidth 32 + y.setWidth 32 * 0x100#32 := by
  have hx := x.isLt
  have hy := y.isLt
  have h : stealRaw x y = BitVec.ofNat 32 x.toNat ||| BitVec.ofNat 32 (y.toNat * 256) := by
    simp only [stealRaw, setField, Nat.mod_eq_of_lt hx, Nat.mod_eq_of_lt hy, Nat.pow_zero, Nat.mul_one, BitVec.zero_and,
      BitVec.zero_or, show (2 : Nat) ^ 8 = 256 from rfl]
    congr 1
    apply BitVec.eq_of_getLsbD_eq
    intro i hi
    simp only [BitVec.getLsbD_and, BitVec.getLsbD_not, BitVec.getLsbD_ofNat, hi, decide_true, Bool.true_and]
    by_cases h8 : i < 8
    · have : Nat.testBit (255 * 256) i = false := by interval_cases i <;> rfl
      simp [this]
    · have : Nat.testBit x.toNat i = false :=
        Nat.testBit_eq_false_of_lt (Nat.lt_of_lt_of_le hx (Nat.pow_le_pow_right (by decide) (by omega)))
      simp [this]
  rw [h]
  apply BitVec.eq_of_toNat_eq
  have e : x.toNat ||| y.toNat * 256 = y.toNat * 256 + x.toNat := by
    rw [Nat.or_comm, Nat.mul_comm]
    exact (Nat.two_pow_add_eq_or_of_lt (i := 8) hx y.toNat).symm
  simp only [BitVec.toNat_or, BitVec.toNat_ofNat, BitVec.toNat_add, BitVec.toNat_mul, BitVec.toNat_setWidth]
  rw [Nat.mod_eq_of_lt (a := x.toNat) (by omega), Nat.mod_eq_of_lt (a := y.toNat * 256) (by omega), e]
  omega

theorem bmaptCmd_eq (odd h m : Bool) (c : CoreInst) :
    bmaptCmd odd h m c =
      if Fits c.a0 114 (bufOf m) ∧ Fits c.a1 116 (bufOf m) then
        (c.store (bufOf m)
            ((halfPositions odd).map (fun j => (c.a1.toNat + burstPos j, (c.load (bufOf m) c.a0.toNat 114).getD j 0#8))
              ++ [(c.a1.toNat + (if odd then posHL else posHU), flagCell m h)])).ended
          { status := 0x000CD100#32, rlen := 58#32 } .s13
      else c.ended { status := 0x000C0112#32 } .s0 := by
  simp only [bmaptCmd, CoreInst.clearResults_a0, CoreInst.clearResults_a1, ite_not_swap bad2, CoreInst.complete_store_clearResults, CoreInst.raise_clearResults,
    CoreInst.load_clearResults]
  rfl

/-- `{ c with steal := w }` of a command that has cleared its results, once it has completed with a store. -/
theorem complete_steal (c : CoreInst) (w : Word) (b : Buf) (ws : List Host.Cell) (op n : Nat) :
    (({ c.clearResults with steal := w } : CoreInst).store b ws).complete op n
      = (c.store b ws).ended { status := statusImage op .ok {} .s13, rlen := BitVec.ofNat 32 n, steal := w } .s13 := by
  cases b <;> rfl

theorem load_getD (c : CoreInst) (b : Buf) (a : Nat) {len j : Nat} (h : j < len) (e : Byte) :
    (c.load b a len).getD j e = c.cell b (a + j) := by
  simp [CoreInst.load, h]

theorem bunmCmd_eq (fo m : Bool) (c : CoreInst) :
    bunmCmd fo m c =
      if Fits c.a0 116 (bufOf m) ∧ (fo = false → Fits c.a1 114 (bufOf m)) then
        if fo then
          c.ended
            { status := 0x000BD100#32
              steal := stealRaw (c.cell (bufOf m) (c.a0.toNat + 57)) (c.cell (bufOf m) (c.a0.toNat + 58)) } .s13
        else
          (c.storeVec (bufOf m) c.a1.toNat (unmapBurst (c.load (bufOf m) c.a0.toNat 116))).ended
            { status := 0x000BD100#32, rlen := 114#32
              steal := stealRaw (c.cell (bufOf m) (c.a0.toNat + 57)) (c.cell (bufOf m) (c.a0.toNat + 58)) } .s13
      else c.ended { status := 0x000B0112#32 } .s0 := by
  refine (ite_not_swap badFo _ _).trans ?_
  simp only [CoreInst.clearResults_a0, CoreInst.clearResults_a1, CoreInst.load_clearResults, burstWidth, posHL, posHU,
    load_getD c (bufOf m) _ (show 57 < 116 by decide), load_getD c (bufOf m) _ (show 58 < 116 by decide)]
  refine if_congr Iff.rfl ?_ rfl
  cases fo
  · exact complete_steal c _ (bufOf m) _ 0x0B 114
  · rfl

theorem bunmtCmd_eq (odd fo m : Bool) (c : CoreInst) :
    bunmtCmd odd fo m c =
      if Fits c.a0 116 (bufOf m) ∧ (fo = false → Fits c.a1 114 (bufOf m)) then
        if fo then
          c.ended
            { status := 0x000DD100#32
              steal := if odd then stealRaw (c.cell (bufOf m) (c.a0.toNat + 57)) 0#8
                else stealRaw 0#8 (c.cell (bufOf m) (c.a0.toNat + 58)) } .s13
        else
          (c.store (bufOf m)
              ((halfPositions odd).map fun j =>
                (c.a1.toNat + j, (c.load (bufOf m) c.a0.toNat 116).getD (burstPos j) 0#8))).ended
            { status := 0x000DD100#32, rlen := 57#32
              steal := if odd then stealRaw (c.cell (bufOf m) (c.a0.toNat + 57)) 0#8
                else stealRaw 0#8 (c.cell (bufOf m) (c.a0.toNat + 58)) } .s13
      else c.ended { status := 0x000D0112#32 } .s0 := by
  refine (ite_not_swap badFo _ _).trans ?_
  simp only [CoreInst.clearResults_a0, CoreInst.clearResults_a1, CoreInst.load_clearResults, burstWidth, posHL, posHU,
    load_getD c (bufOf m) _ (show 57 < 116 by decide), load_getD c (bufOf m) _ (show 58 < 116 by decide)]
  refine if_congr Iff.rfl ?_ rfl
  cases fo
  · exact complete_steal c _ (bufOf m) _ 0x0D 57
  · rfl

end Sys2Proof.Machine
end

