-- ==== Sys2Proof/Laws/Channels.lean ====
section
/-! SUPPORT. Sys2Proof/Laws/Channels.lean: one lemma for each channel command, or for each stage at which one can end, that says once
all it can do: under which test it ends with which results, and what it stores. -/

namespace Sys2Proof.Machine

/-! ### The fixed-length channels -/

theorem xcchEncCmd_eq (c : CoreInst) :
    xcchEncCmd c =
      if Fits c.a0 23 .ob ∧ Fits c.a1 464 .hb then
        (c.storeBits c.a1.toNat (mapFour (xcchEncode (c.load .ob c.a0.toNat 23)) true true)).ended
          { status := 0x0020D100#32, rlen := 464#32 } .s13
      else c.ended { status := 0x00200112#32 } .s0 := by
  refine (ite_not_swap bad2 _ _).trans ?_
  simp only [CoreInst.clearResults_a0, CoreInst.clearResults_a1, CoreInst.load_clearResults, CoreInst.storeBits,
    CoreInst.storeVec, CoreInst.complete_store_clearResults]
  rfl

/-- The results of a decode that reports its statistics: `CRCF` and the bits of `SUBST` by the outcome of its check. -/
def checkedResults (okStatus failStatus rlen : Word) (ok : Bool) (ne nb : Nat) (steal : Word) : Results :=
  { status := if ok then okStatus else failStatus, nerr := BitVec.ofNat 32 ne, nbits := BitVec.ofNat 32 nb
    rlen := if ok then rlen else 0#32, steal := steal, subst := if ok then 0x00000202#32 else 0x00000002#32 }

theorem xcchDecCmd_eq (c : CoreInst) :
    xcchDecCmd c =
      if Fits c.a0 464 .sb ∧ Fits c.a1 23 .ob then
        let area := c.loadSoft c.a0.toNat 464
        let r := xcchDecode (unmapFour area)
        let res := checkedResults 0x0021D100#32 0x0021C301#32 23#32 r.ok r.ne r.nb (stealHard (fourBurstFlags area))
        if r.ok then (c.storeVec .ob c.a1.toNat r.octets).ended res .s13 else c.ended res .s12
      else c.ended { status := 0x00210112#32 } .s0 := by
  refine (ite_not_swap bad2 _ _).trans ?_
  simp only [CoreInst.clearResults_a0, CoreInst.clearResults_a1, CoreInst.loadSoft_clearResults]
  refine if_congr Iff.rfl ?_ rfl
  generalize xcchDecode (unmapFour (c.loadSoft c.a0.toNat 464)) = r
  generalize stealHard (fourBurstFlags (c.loadSoft c.a0.toNat 464)) = w
  obtain ⟨ok, o, ne, nb⟩ := r
  cases ok
  · simp only [Bool.false_eq_true, if_false, checkedResults, ← substCheck_fail]
    rfl
  · simp only [if_true, checkedResults, ← substCheck_pass]
    rfl

theorem rachEncCmd_eq (c : CoreInst) :
    rachEncCmd c =
      if Fits c.a0 1 .ob ∧ Fits c.a1 36 .hb then
        let u := unpackBits false (c.load .ob c.a0.toNat 1) 8
        let d := u ++ bsicXor c.bsic (crcBits (roleCrc rachCrc) u)
        (c.storeBits c.a1.toNat (convEnc (roleConv rachConv) d false)).ended { status := 0x0022D100#32, rlen := 36#32 } .s13
      else c.ended { status := 0x00220112#32 } .s0 := by
  refine (ite_not_swap bad2 _ _).trans ?_
  simp only [CoreInst.clearResults_a0, CoreInst.clearResults_a1, CoreInst.clearResults_bsic, CoreInst.load_clearResults,
    CoreInst.storeBits, CoreInst.storeVec, CoreInst.complete_store_clearResults]
  rfl

theorem rachDecCmd_eq (c : CoreInst) :
    rachDecCmd c =
      if Fits c.a0 36 .sb ∧ Fits c.a1 1 .ob then
        let r := decodeStats (roleConv rachConv) (c.loadSoft c.a0.toNat 36) false
        let ok := crcCheck (roleCrc rachCrc) (r.1.take 8) (bsicXor c.bsic (r.1.drop 8))
        let res := checkedResults 0x0023D100#32 0x0023C301#32 1#32 ok r.2.1 r.2.2 0#32
        if ok then (c.storeVec .ob c.a1.toNat (packBits false (r.1.take 8))).ended res .s13 else c.ended res .s12
      else c.ended { status := 0x00230112#32 } .s0 := by
  refine (ite_not_swap bad2 _ _).trans ?_
  simp only [CoreInst.clearResults_a0, CoreInst.clearResults_a1, CoreInst.clearResults_bsic, CoreInst.loadSoft_clearResults]
  refine if_congr Iff.rfl ?_ rfl
  generalize decodeStats (roleConv rachConv) (c.loadSoft c.a0.toNat 36) false = r
  generalize crcCheck (roleCrc rachCrc) (r.1.take 8) (bsicXor c.bsic (r.1.drop 8)) = ok
  cases ok
  · simp only [Bool.false_eq_true, if_false, checkedResults, ← substCheck_fail]
    rfl
  · simp only [if_true, checkedResults, ← substCheck_pass]
    rfl

theorem schEncCmd_eq (c : CoreInst) :
    schEncCmd c =
      if Fits c.a0 4 .ob ∧ Fits c.a1 78 .hb then
        let u := unpackBits false (c.load .ob c.a0.toNat 4) 25
        (c.storeBits c.a1.toNat (convEnc (roleConv schConv) (u ++ crcBits (roleCrc schCrc) u) false)).ended
          { status := 0x0024D100#32, rlen := 78#32 } .s13
      else c.ended { status := 0x00240112#32 } .s0 := by
  refine (ite_not_swap bad2 _ _).trans ?_
  simp only [CoreInst.clearResults_a0, CoreInst.clearResults_a1, CoreInst.load_clearResults, CoreInst.storeBits,
    CoreInst.storeVec, CoreInst.complete_store_clearResults]
  rfl

theorem schDecCmd_eq (c : CoreInst) :
    schDecCmd c =
      if Fits c.a0 78 .sb ∧ Fits c.a1 4 .ob then
        let r := decodeStats (roleConv schConv) (c.loadSoft c.a0.toNat 78) false
        let ok := crcCheck (roleCrc schCrc) (r.1.take 25) (r.1.drop 25)
        let res := checkedResults 0x0025D100#32 0x0025C301#32 4#32 ok r.2.1 r.2.2 0#32
        if ok then (c.storeVec .ob c.a1.toNat (packBits false (r.1.take 25))).ended res .s13 else c.ended res .s12
      else c.ended { status := 0x00250112#32 } .s0 := by
  refine (ite_not_swap bad2 _ _).trans ?_
  simp only [CoreInst.clearResults_a0, CoreInst.clearResults_a1, CoreInst.loadSoft_clearResults]
  refine if_congr Iff.rfl ?_ rfl
  generalize decodeStats (roleConv schConv) (c.loadSoft c.a0.toNat 78) false = r
  generalize crcCheck (roleCrc schCrc) (r.1.take 25) (r.1.drop 25) = ok
  cases ok
  · simp only [Bool.false_eq_true, if_false, checkedResults, ← substCheck_fail]
    rfl
  · simp only [if_true, checkedResults, ← substCheck_pass]
    rfl

/-! ### PDTCH -/

theorem pdtchEncCmd_eq (rom : Rom) (c : CoreInst) :
    pdtchEncCmd rom c =
      if Fits c.a0 c.a2.toNat .ob then
        match schemeOfLength rom c.a2.toNat with
        | none => c.ended { status := 0x00261102#32 } .s1
        | some (s, r) =>
          if schemeEnabled c.pdcfg s then
            if Fits c.a1 (4 * pdsWidth r.psk8) .hb then
              (c.storeBits c.a1.toNat (pdtchArea rom r (c.load .ob c.a0.toNat c.a2.toNat))).ended
                { status := 0x0026D100#32, rlen := BitVec.ofNat 32 (4 * pdsWidth r.psk8), detid := detidScheme 0#32 s } .s13
            else c.ended { status := 0x00261112#32 } .s1
          else c.ended { status := 0x00261102#32 } .s1
      else c.ended { status := 0x00260112#32 } .s0 := by
  refine (ite_not_swap bad1 _ _).trans ?_
  simp only [CoreInst.clearResults_a0, CoreInst.clearResults_a1, CoreInst.clearResults_a2, CoreInst.clearResults_pdcfg]
  refine if_congr Iff.rfl ?_ rfl
  cases schemeOfLength rom c.a2.toNat with
  | none => rfl
  | some x =>
    obtain ⟨s, r⟩ := x
    refine (ite_not_swap (P := schemeEnabled c.pdcfg s = true) (by simp) _ _).trans ?_
    exact if_congr Iff.rfl (ite_not_swap bad1 _ _) rfl

/-- The results of `PDTCH_DEC` once a scheme is detected: the code by the outcome of the checks and of the USF test. -/
def pdtchResults (pass oor : Bool) (octets ne nb : Nat) (detid steal subst : Word) : Results :=
  { status :=
      if pass then (if oor then 0x0027D504#32 else 0x0027D100#32) else (if oor then 0x0027C701#32 else 0x0027C301#32)
    nerr := BitVec.ofNat 32 ne, nbits := BitVec.ofNat 32 nb, rlen := if pass then BitVec.ofNat 32 octets else 0#32
    detid := detid, steal := steal, subst := subst }

/-- `DETID` of `PDTCH_DEC`. -/
def pdtchDetid (s : Nat) : Option Nat → Word
  | none => detidScheme 0#32 s
  | some u => detidId (detidScheme 0#32 s) u

/-- The instance inside a decode command once `DETID` and `STEAL` hold `d` and `w`. -/
def CoreInst.midDecode (c : CoreInst) (d w : Word) : CoreInst := { c.clearResults with detid := d, steal := w }

/-- How `PDTCH_DEC` of an xCCH-coded scheme ends. -/
theorem pdtchDecXcch_eq (r : PdsRec) (area : List Int) (oor : Bool) (c : CoreInst) (d w : Word) :
    pdtchDecXcch r area oor (c.midDecode d w) =
      let x := xcchDecode (unmapFour area)
      let res := pdtchResults x.ok oor r.octets x.ne x.nb d w (substCheck 0#32 1 x.ok)
      if x.ok then (c.storeVec .ob c.a1.toNat x.octets).ended res .s13 else c.ended res .s12 := by
  simp only [pdtchDecXcch, pdtchStore]
  generalize xcchDecode (unmapFour area) = x
  obtain ⟨ok, o, ne, nb⟩ := x
  cases ok <;> cases oor <;> rfl

/-- How `PDTCH_DEC` of a `GEN` scheme ends. -/
theorem pdtchDecGen_eq (rom : Rom) (r : PdsRec) (subs : List SubDecoded) (usf : Nat) (oor : Bool) (c : CoreInst) (d w : Word) :
    pdtchDecGen rom r subs usf oor (c.midDecode d w) =
      let checked := subs.map fun d => (d, subCheck rom r d.num d.blk d.w usf)
      let pass := checked.all fun x => x.2.1
      let res := pdtchResults pass oor r.octets (subs.map fun d => d.ne).sum (subs.map fun d => d.nb).sum d w
        (checked.foldl (fun w x => substCheck w x.1.num x.2.1) 0#32)
      let l := scatter (8 * r.octets) false (blockAssignments r checked usf)
      if pass then (c.storeVec .ob c.a1.toNat (packBits false l)).ended res .s13 else c.ended res .s12 := by
  simp only [pdtchDecGen, pdtchStore]
  generalize subs.map (fun d => (d, subCheck rom r d.num d.blk d.w usf)) = checked
  generalize (subs.map fun d => d.ne).sum = ne
  generalize (subs.map fun d => d.nb).sum = nb
  cases checked.all fun x => x.2.1 <;> cases oor <;> rfl

theorem pdtchDecCmd_eq (rom : Rom) (psk8 : Bool) (c : CoreInst) :
    pdtchDecCmd rom psk8 c =
      if Fits c.a0 (4 * pdsWidth psk8) .sb ∧ Fits c.a1 (lmax psk8) .ob then
        let area := c.loadSoft c.a0.toNat (4 * pdsWidth psk8)
        match detectScheme (candidates rom psk8 c.pdcfg) area with
        | none => c.ended { status := 0x00271102#32 } .s1
        | some (s, r) =>
          let subs := match r.kind with
            | .xcch => []
            | .gen => decodeSubs rom r area
          let usf := findUsf rom r area subs
          let oor := usf.any fun u => !usfValid c.pdcfg u
          let mid := c.midDecode (pdtchDetid s usf) (stealHard ((gather area 0 r.sfpos).map hardOf))
          match r.kind with
          | .xcch => pdtchDecXcch r area oor mid
          | .gen => pdtchDecGen rom r subs (usf.getD 0) oor mid
      else c.ended { status := 0x00270112#32 } .s0 := by
  refine (ite_not_swap bad2 _ _).trans ?_
  simp only [CoreInst.clearResults_a0, CoreInst.clearResults_a1, CoreInst.clearResults_pdcfg, CoreInst.loadSoft_clearResults]
  refine if_congr Iff.rfl ?_ rfl
  generalize c.loadSoft c.a0.toNat (4 * pdsWidth psk8) = area
  cases detectScheme (candidates rom psk8 c.pdcfg) area with
  | none => rfl
  | some x =>
    obtain ⟨s, r⟩ := x
    simp only []
    generalize findUsf rom r area _ = usf
    cases usf <;> rfl

/-! ### TCH -/

/-- The cells that a TCH block of coded bits `cB` occupies, with its flags all `facch` (R198). -/
def tchCells (a : Nat) (cells flags : List Nat) (cB : List Bool) (facch : Bool) : List Host.Cell :=
  List.zip (cells.map (a + ·)) (cB.map bitByte) ++ flags.map fun f => (a + f, bitByte facch)

theorem tchStore_eq (c : CoreInst) (w : Word) (cells flags : List Nat) (cB : List Bool) (facch : Bool) :
    tchStore { c.clearResults with detid := w } cells flags cB facch
      = (c.store .hb (tchCells c.a1.toNat cells flags cB facch)).ended
        { status := if facch then 0x0028D900#32 else 0x0028D100#32
          rlen := BitVec.ofNat 32 (tchCells c.a1.toNat cells flags cB facch).length, detid := w } .s13 := by
  cases facch <;> rfl

theorem tchEncCmd_eq (rom : Rom) (cmr : Bool) (c : CoreInst) :
    tchEncCmd rom cmr c =
      let m := chmodeOf c.chmode
      let g := romTcg rom m
      let o := c.load .ob c.a0.toNat c.a2.toNat
      if Fits c.a0 c.a2.toNat .ob ∧ Fits c.a1 tchArea .hb then
        if m > 4 then c.ended { status := 0x00281102#32 } .s1
        else if c.a2.toNat = 23 then
          let ws := tchCells c.a1.toNat (facchCells rom g) (facchFlags g) (xcchCoded (c.load .ob c.a0.toNat 23)) true
          (c.store .hb ws).ended { status := 0x0028D900#32, rlen := BitVec.ofNat 32 ws.length } .s13
        else
          match speechScheme rom m c.a2.toNat with
          | none => c.ended { status := 0x00281102#32 } .s1
          | some (s, t) =>
            let ws := fun id => tchCells c.a1.toNat (speechCells rom g) (speechFlags g) (speechEncode rom t o id) false
            if m ≤ 2 then
              (c.store .hb (ws 0)).ended
                { status := 0x0028D100#32, rlen := BitVec.ofNat 32 (ws 0).length, detid := detidScheme 0#32 s } .s13
            else
              match amrEncodeId rom t m s cmr c with
              | none => c.ended { status := 0x00281103#32, detid := detidScheme 0#32 s } .s1
              | some id =>
                (c.store .hb (ws id)).ended
                  { status := 0x0028D100#32, rlen := BitVec.ofNat 32 (ws id).length
                    detid := detidId (detidScheme 0#32 s) id } .s13
      else c.ended { status := 0x00280112#32 } .s0 := by
  refine (ite_not_swap bad2 _ _).trans ?_
  simp only [CoreInst.clearResults_a0, CoreInst.clearResults_a1, CoreInst.clearResults_a2, CoreInst.clearResults_chmode,
    CoreInst.load_clearResults]
  refine if_congr Iff.rfl ?_ rfl
  refine if_congr Iff.rfl rfl ?_
  refine if_congr Iff.rfl (tchStore_eq c 0#32 _ _ _ _) ?_
  cases speechScheme rom (chmodeOf c.chmode) c.a2.toNat with
  | none => rfl
  | some x =>
    obtain ⟨s, t⟩ := x
    simp only []
    refine if_congr Iff.rfl (tchStore_eq c _ _ _ _ _) ?_
    have h : amrEncodeId rom t (chmodeOf c.chmode) s cmr
        { c.clearResults with detid := detidScheme c.clearResults.detid s } = amrEncodeId rom t (chmodeOf c.chmode) s cmr c := rfl
    erw [h]
    cases amrEncodeId rom t (chmodeOf c.chmode) s cmr c with
    | none => rfl
    | some id => exact tchStore_eq c _ _ _ _ _

/-- The results of `TCH_DEC` once a block is decoded: the code by the outcome of the checks and the flags. -/
def tchResults (pass : Bool) (fl : CmdFlags) (octets ne nb : Nat) (detid steal subst : Word) : Results :=
  { status := if pass then statusImage 0x29 (if fl.oor then .wOor else .ok) fl .s13 else statusImage 0x29 .eCrc fl .s12
    nerr := BitVec.ofNat 32 ne, nbits := BitVec.ofNat 32 nb, rlen := if pass then BitVec.ofNat 32 octets else 0#32
    detid := detid, steal := steal, subst := subst }

/-- How the FACCH path of `TCH_DEC` ends. -/
theorem tchDecFacch_eq (rom : Rom) (g : Geom) (area : List Int) (c : CoreInst) (w : Word) :
    tchDecFacch rom g area (c.midDecode 0#32 w) =
      let x := xcchDecodeCoded (gather area 0 (facchCells rom g))
      let res := tchResults x.ok { facch := true } 23 x.ne x.nb 0#32 w (substCheck 0#32 1 x.ok)
      if x.ok then (c.storeVec .ob c.a1.toNat x.octets).ended res .s13 else c.ended res .s12 := by
  simp only [tchDecFacch, tchFinish]
  generalize xcchDecodeCoded (gather area 0 (facchCells rom g)) = x
  obtain ⟨ok, o, ne, nb⟩ := x
  cases ok <;> rfl

/-- `SUBST` of the speech path of `TCH_DEC`. -/
def speechSubst (t : TcsRec) (r : SpeechResult) : Word :=
  if t.inner.isSome then substCheck (substCheck 0#32 1 r.ok1) 2 r.ok2 else substCheck 0#32 1 r.ok1

/-- How the speech path of `TCH_DEC` ends. -/
theorem tchDecSpeech_eq (rom : Rom) (g : Geom) (s : Nat) (area : List Int) (oor : Bool) (c : CoreInst) (d w : Word) :
    tchDecSpeech rom g s area oor (c.midDecode d w) =
      match romTcs rom s with
      | none => c.ended { status := if oor then 0x00293502#32 else 0x00293102#32, detid := d, steal := w } .s3
      | some t =>
        let r := speechDecode rom t (gather area 0 (speechCells rom g))
        let pass := r.ok1 && r.ok2
        let res := tchResults pass { oor := oor } t.octets r.ne r.nb (detidScheme d s) w (speechSubst t r)
        if pass then (c.storeVec .ob c.a1.toNat r.octets).ended res .s13 else c.ended res .s12 := by
  simp only [tchDecSpeech, tchFinish]
  cases romTcs rom s with
  | none => cases oor <;> rfl
  | some t =>
    simp only []
    generalize speechDecode rom t (gather area 0 (speechCells rom g)) = r
    obtain ⟨ok1, ok2, o, ne, nb⟩ := r
    simp only []
    generalize (ok1 && ok2) = ok
    cases ok <;> cases oor <;> simp only [Bool.false_eq_true, if_false, if_true] <;> rfl

/-- How the AMR part of stage `S3` goes on or ends. -/
theorem tchDecAmr_eq (rom : Rom) (g : Geom) (m : Nat) (cmr : Bool) (area : List Int) (c : CoreInst) (w : Word) :
    tchDecAmr rom g m cmr area (c.midDecode 0#32 w) =
      match (amrRange m).findSome? (romTcs rom) with
      | none => c.ended { status := 0x00293102#32, steal := w } .s3
      | some t0 =>
        let id := idDetect rom t0 (gather area 0 ((speechCells rom g).take (idWidth rom t0)))
        match amrSlot c.amrcfg (if cmr then ftOf c.a3 else id) with
        | none => c.ended { status := 0x00293504#32, steal := w, detid := detidId 0#32 id } .s3
        | some mode =>
          tchDecSpeech rom g (amrSchemeSlot m mode) area (slotInvalid c.amrcfg id) (c.midDecode (detidId 0#32 id) w) := by
  simp only [tchDecAmr]
  cases (amrRange m).findSome? (romTcs rom) with
  | none => rfl
  | some t0 => rfl

theorem tchDecCmd_eq (rom : Rom) (cmr : Bool) (c : CoreInst) :
    tchDecCmd rom cmr c =
      let m := chmodeOf c.chmode
      let g := romTcg rom m
      let area := c.loadSoft c.a0.toNat tchArea
      let w := stealTch ((gather area 0 (facchFlags g)).map hardOf) (stealSum g area)
      if Fits c.a0 tchArea .sb ∧ Fits c.a1 33 .ob then
        if m > 4 then c.ended { status := 0x00291102#32 } .s1
        else if stealSum g area > 0 then tchDecFacch rom g area (c.midDecode 0#32 w)
        else if m ≤ 2 then tchDecSpeech rom g m area false (c.midDecode 0#32 w)
        else tchDecAmr rom g m cmr area (c.midDecode 0#32 w)
      else c.ended { status := 0x00290112#32 } .s0 := by
  simp only [tchDecCmd, CoreInst.clearResults_a0, CoreInst.clearResults_a1, CoreInst.clearResults_chmode,
    CoreInst.loadSoft_clearResults, ite_not_swap bad2]
  rfl

end Sys2Proof.Machine
end

