-- ==== Sys2Proof/Laws/PerInstr.lean ====
section
/-! SUPPORT. Sys2Proof/Laws/PerInstr.lean: the family `Fields` of facts about the instruction as syntax, one lemma a constructor: its
opcode, `DESC` and flags fit the fields of the command word and use no bit that the opcode does not define (spec R60 to R62). -/

namespace Sys2Proof.Laws

/-- The fields of an instruction fit the command word: the opcode is a byte, the flags are among those its opcode defines
(R62), `DESC` is 0 where the opcode uses none (R60), and a well-formed `DESC` is a byte. -/
def Fields.Statement (i : Instr) : Prop :=
  i.opcode < 256
    ∧ i.flags < 256 ∧ BitVec.ofNat 8 i.flags &&& ~~~(definedFlags i.opcode) = 0#8
    ∧ (usesDesc i.opcode = false → i.desc = 0)
    ∧ (i.wf = true → i.desc < 256)

theorem Fields.nop : Fields.Statement .nop := by
  unfold Fields.Statement
  decide

theorem Fields.cenc (d : Nat) (p : Bool) : Fields.Statement (.cenc d p) :=
  ⟨of_decide_eq_true rfl, by cases p <;> exact of_decide_eq_true rfl, by cases p <;> simp [Instr.flags, Instr.opcode, flgOf, definedFlags],
    fun h => Bool.noConfusion (show true = false from h), of_decide_eq_true⟩

theorem Fields.vdec (d : Nat) (p : Bool) : Fields.Statement (.vdec d p) :=
  ⟨of_decide_eq_true rfl, by cases p <;> exact of_decide_eq_true rfl, by cases p <;> simp [Instr.flags, Instr.opcode, flgOf, definedFlags],
    fun h => Bool.noConfusion (show true = false from h), of_decide_eq_true⟩

theorem Fields.crcs (d : Nat) : Fields.Statement (.crcs d) :=
  ⟨of_decide_eq_true rfl, of_decide_eq_true rfl, by simp [Instr.flags, Instr.opcode, definedFlags],
    fun h => Bool.noConfusion (show true = false from h), of_decide_eq_true⟩

theorem Fields.crcc (d : Nat) : Fields.Statement (.crcc d) :=
  ⟨of_decide_eq_true rfl, of_decide_eq_true rfl, by simp [Instr.flags, Instr.opcode, definedFlags],
    fun h => Bool.noConfusion (show true = false from h), of_decide_eq_true⟩

theorem Fields.punc (d : Nat) (m : Bool) : Fields.Statement (.punc d m) :=
  ⟨of_decide_eq_true rfl, by cases m <;> exact of_decide_eq_true rfl, by cases m <;> simp [Instr.flags, Instr.opcode, flgOf, definedFlags],
    fun h => Bool.noConfusion (show true = false from h), of_decide_eq_true⟩

theorem Fields.dpun (d : Nat) (m : Bool) : Fields.Statement (.dpun d m) :=
  ⟨of_decide_eq_true rfl, by cases m <;> exact of_decide_eq_true rfl, by cases m <;> simp [Instr.flags, Instr.opcode, flgOf, definedFlags],
    fun h => Bool.noConfusion (show true = false from h), of_decide_eq_true⟩

theorem Fields.ilv (var m : Bool) : Fields.Statement (.ilv var m) := by
  unfold Fields.Statement
  cases var <;> cases m <;> decide

theorem Fields.dilv (var m : Bool) : Fields.Statement (.dilv var m) := by
  unfold Fields.Statement
  cases var <;> cases m <;> decide

theorem Fields.perm (d : Nat) (inv m : Bool) : Fields.Statement (.perm d inv m) :=
  ⟨of_decide_eq_true rfl, by cases inv <;> cases m <;> exact of_decide_eq_true rfl, by cases inv <;> cases m <;> simp [Instr.flags, Instr.opcode, flgOf, definedFlags],
    fun h => Bool.noConfusion (show true = false from h), of_decide_eq_true⟩

theorem Fields.bmap (hl hu m : Bool) : Fields.Statement (.bmap hl hu m) := by
  unfold Fields.Statement
  cases hl <;> cases hu <;> cases m <;> decide

theorem Fields.bunm (fo m : Bool) : Fields.Statement (.bunm fo m) := by
  unfold Fields.Statement
  cases fo <;> cases m <;> decide

theorem Fields.bmapt (odd h m : Bool) : Fields.Statement (.bmapt odd h m) := by
  unfold Fields.Statement
  cases odd <;> cases h <;> cases m <;> decide

theorem Fields.bunmt (odd fo m : Bool) : Fields.Statement (.bunmt odd fo m) := by
  unfold Fields.Statement
  cases odd <;> cases fo <;> cases m <;> decide

theorem Fields.unpk (msbf : Bool) : Fields.Statement (.unpk msbf) := by
  unfold Fields.Statement
  cases msbf <;> decide

theorem Fields.pack (msbf : Bool) : Fields.Statement (.pack msbf) := by
  unfold Fields.Statement
  cases msbf <;> decide

theorem Fields.h2s : Fields.Statement .h2s := by
  unfold Fields.Statement
  decide

theorem Fields.s2h : Fields.Statement .s2h := by
  unfold Fields.Statement
  decide

theorem Fields.xcchEnc : Fields.Statement .xcchEnc := by
  unfold Fields.Statement
  decide

theorem Fields.xcchDec : Fields.Statement .xcchDec := by
  unfold Fields.Statement
  decide

theorem Fields.rachEnc : Fields.Statement .rachEnc := by
  unfold Fields.Statement
  decide

theorem Fields.rachDec : Fields.Statement .rachDec := by
  unfold Fields.Statement
  decide

theorem Fields.schEnc : Fields.Statement .schEnc := by
  unfold Fields.Statement
  decide

theorem Fields.schDec : Fields.Statement .schDec := by
  unfold Fields.Statement
  decide

theorem Fields.pdtchEnc : Fields.Statement .pdtchEnc := by
  unfold Fields.Statement
  decide

theorem Fields.pdtchDec (psk8 : Bool) : Fields.Statement (.pdtchDec psk8) := by
  unfold Fields.Statement
  cases psk8 <;> decide

theorem Fields.tchEnc (cmr : Bool) : Fields.Statement (.tchEnc cmr) := by
  unfold Fields.Statement
  cases cmr <;> decide

theorem Fields.tchDec (cmr : Bool) : Fields.Statement (.tchDec cmr) := by
  unfold Fields.Statement
  cases cmr <;> decide

theorem Fields.srst : Fields.Statement .srst := by
  unfold Fields.Statement
  decide

end Sys2Proof.Laws
end

