-- ==== Sys2Proof/Laws/Placement.lean ====
section
/-! SUPPORT. Sys2Proof/Laws/Placement.lean: lists of cells without repetition, shown by an inverse function, so that a list of hundreds
of cells costs one pass and not a comparison of every pair. -/

namespace Sys2Proof.Machine

/-- A list whose elements tell their own positions has no repetition. -/
theorem nodup_of_inverse {l : List Nat} (inv : Nat → Nat) (h : (l.zipIdx.all fun p => inv p.1 == p.2) = true) : l.Nodup := by
  have h' : ∀ (i : Nat) (hi : i < l.length), inv l[i] = i := fun i hi => by
    have := List.all_eq_true.mp h (l[i], i) (by
      rw [List.mem_zipIdx_iff_getElem?]
      simp [hi])
    simpa using this
  rw [List.nodup_iff_injective_getElem]
  intro i j hij
  have := congrArg inv hij
  simp only [h' _ i.isLt, h' _ j.isLt] at this
  exact Fin.ext this

/-- The coded bit that i-bit `j` of a burst of class `b` modulo 8 carries: the inverse of R125. -/
def ilvInverse (b j : Nat) : Nat := (57 * b + 2800 * (j / 2)) % 456

/-- The four-row cells of the 456 coded bits are different (R126). -/
theorem ilvCells_four_nodup : (ilvCells 4).Nodup :=
  nodup_of_inverse (fun x => ilvInverse (x / 114 + 4 * (x % 114 % 2)) (x % 114)) (by decide +kernel)

/-- The eight-row cells of the 456 coded bits are different (R126). -/
theorem ilvCells_eight_nodup : (ilvCells 8).Nodup :=
  nodup_of_inverse (fun x => ilvInverse (x / 114) (x % 114)) (by decide +kernel)

theorem ilvCells_nodup (var : Bool) : (ilvCells (burstCount var)).Nodup := by
  cases var
  · exact ilvCells_four_nodup
  · exact ilvCells_eight_nodup

/-- The i-bit at a burst position that is no flag: the inverse of `pos` (R134). -/
def burstIndex (p : Nat) : Nat := if p < 57 then p else p - 2

/-- The cells of a diagonal block and its flag cells are different (R197). -/
theorem diagCells_flags_nodup : (diagCells ++ diagFlags).Nodup :=
  nodup_of_inverse
    (fun x => if x % 116 = 57 ∨ x % 116 = 58 then 456 + x / 116 else ilvInverse (x / 116) (burstIndex (x % 116)))
    (by decide +kernel)

theorem diagCells_nodup : diagCells.Nodup := diagCells_flags_nodup.of_append_left

end Sys2Proof.Machine
end

