-- ==== Sys2Proof/Laws/Transforms.lean ====
section
/-! SUPPORT. Sys2Proof/Laws/Transforms.lean: one lemma for each operation that the block transforms are built from: a vector assigned
at listed places, octets packed bit by bit, the minimum-distance search, `STEAL` as R17 has it, and the fields of a scheme record
that the spec fixes. -/

namespace Sys2Proof.Machine

/-! ### Assigned vectors -/

@[simp] theorem scatter_nil {α : Type} (n : Nat) (e : α) : scatter n e [] = List.replicate n e := rfl

theorem scatter_concat {α : Type} (n : Nat) (e : α) (ws : List (Nat × α)) (w : Nat × α) :
    scatter n e (ws ++ [w]) = (scatter n e ws).set w.1 w.2 := by simp [scatter]

@[simp] theorem scatter_length {α : Type} (n : Nat) (e : α) (ws : List (Nat × α)) : (scatter n e ws).length = n := by
  induction ws using List.reverseRecOn with
  | nil => simp
  | append_singleton ws w ih => simp [scatter_concat, ih]

/-- A place that no assignment names keeps the default. -/
theorem scatter_getD_of_notMem {α : Type} (n : Nat) (e : α) {ws : List (Nat × α)} {y : Nat} (h : y ∉ ws.map (·.1)) :
    (scatter n e ws).getD y e = e := by
  induction ws using List.reverseRecOn with
  | nil => by_cases hy : y < n <;> simp [hy]
  | append_singleton ws w ih =>
    simp only [List.map_append, List.map_cons, List.map_nil, List.mem_append, List.mem_singleton, not_or] at h
    rw [scatter_concat, List.getD_eq_getElem?_getD, List.getElem?_set_ne (fun hw => h.2 hw.symm), ← List.getD_eq_getElem?_getD]
    exact ih h.1

/-- A place that one assignment names, and no other, holds what it assigns. -/
theorem scatter_getD_of_mem {α : Type} (n : Nat) (e d : α) {ws : List (Nat × α)} (hn : (ws.map (·.1)).Nodup) {x : Nat × α}
    (hx : x ∈ ws) (hlt : x.1 < n) : (scatter n e ws).getD x.1 d = x.2 := by
  induction ws using List.reverseRecOn with
  | nil => cases hx
  | append_singleton ws w ih =>
    rw [List.map_append, List.nodup_append] at hn
    obtain ⟨hn1, -, hd⟩ := hn
    rw [scatter_concat, List.getD_eq_getElem?_getD]
    rcases List.mem_append.1 hx with h | h
    · rw [List.getElem?_set_ne (hd _ (List.mem_map_of_mem h) _ (by simp)).symm, ← List.getD_eq_getElem?_getD]
      exact ih hn1 h
    · obtain rfl := List.mem_singleton.1 h
      simp [hlt]

theorem zip_places_nodup {α : Type} {idx : List Nat} (h : idx.Nodup) (vs : List α) : ((List.zip idx vs).map (·.1)).Nodup := by
  rw [List.nodup_iff_injective_getElem]
  intro i j hij
  simp only [List.getElem_map, List.getElem_zip] at hij
  exact Fin.ext ((List.Nodup.getElem_inj_iff h).1 hij)

/-- A vector laid along the places `idx`: place `k` holds element `k`. -/
theorem scatter_zip_getD {α : Type} {n : Nat} (e : α) {idx : List Nat} (hn : idx.Nodup) (hlt : ∀ y ∈ idx, y < n) (vs : List α)
    {k y : Nat} (hk : idx[k]? = some y) : (scatter n e (List.zip idx vs)).getD y e = vs.getD k e := by
  obtain ⟨hkl, rfl⟩ := List.getElem?_eq_some_iff.1 hk
  by_cases hv : k < vs.length
  · have hmem : (idx[k], vs[k]) ∈ List.zip idx vs := by
      rw [List.mem_iff_getElem]
      exact ⟨k, by simp [hkl, hv], by simp⟩
    rw [scatter_getD_of_mem n e e (zip_places_nodup hn vs) hmem (hlt _ (List.getElem_mem _)), List.getD_eq_getElem _ _ hv]
  · rw [List.getD_eq_default _ _ (Nat.le_of_not_lt hv)]
    refine scatter_getD_of_notMem n e fun hm => ?_
    obtain ⟨⟨y, v⟩, hm, rfl⟩ := List.mem_map.1 hm
    obtain ⟨j, hj, hje⟩ := List.mem_iff_getElem.1 hm
    simp only [List.length_zip, lt_inf_iff] at hj
    simp only [List.getElem_zip, Prod.mk.injEq] at hje
    have := (List.Nodup.getElem_inj_iff hn (hi := hj.1) (hj := hkl)).1 hje.1
    omega

/-! ### Octets -/

theorem packOctet_bit (u : List Bool) (q i : Nat) (hi : i < 8) :
    (packOctet false u q).getLsbD i = u.getD (8 * q + i) false := by
  have h : packOctet false u q = (List.range 8).foldl
      (fun o i => o ||| (if (fun i => u.getD (8 * q + i) false) i then 1#8 <<< bitPos false i else 0#8)) 0#8 := rfl
  rw [h]
  show _ = (fun i => u.getD (8 * q + i) false) i
  generalize (fun i => u.getD (8 * q + i) false) = f
  simp only [List.range, List.range.loop, List.foldl]
  interval_cases i <;>
  · generalize f 0 = b0
    generalize f 1 = b1
    generalize f 2 = b2
    generalize f 3 = b3
    generalize f 4 = b4
    generalize f 5 = b5
    generalize f 6 = b6
    generalize f 7 = b7
    revert b0 b1 b2 b3 b4 b5 b6 b7
    decide

/-- Bit `k` of a packed vector is its element `k`; 0 where there is none (R147). -/
theorem packBits_bit (u : List Bool) (k : Nat) :
    ((packBits false u).getD (k / 8) 0#8).getLsbD (k % 8) = u.getD k false := by
  by_cases h : k / 8 < octetsFor u.length
  · simp only [packBits, List.getD_eq_getElem?_getD, List.getElem?_map, List.getElem?_range h, Option.map_some, Option.getD_some]
    rw [packOctet_bit u _ _ (Nat.mod_lt _ (by decide)), Nat.div_add_mod, List.getD_eq_getElem?_getD]
  · have hk : u.length ≤ k := by unfold octetsFor at h; omega
    simp [packBits, List.getD_eq_getElem?_getD, List.getElem?_eq_none hk, h]

@[simp] theorem packBits_length (msbf : Bool) (u : List Bool) : (packBits msbf u).length = (u.length + 7) / 8 := by
  simp [packBits, octetsFor]

/-! ### Minimum-distance search (R10) -/

theorem argminFrom_spec (pre : List Nat) (best bestAt : Nat) (ds : List Nat) (hb : pre[bestAt]? = some best)
    (hmin : ∀ j < pre.length, best ≤ pre.getD j 0 ∧ (j < bestAt → best < pre.getD j 0)) :
    let l := pre ++ ds
    let k := argminFrom best bestAt pre.length ds
    k < l.length ∧ ∀ j < l.length, l.getD k 0 ≤ l.getD j 0 ∧ (j < k → l.getD k 0 < l.getD j 0) := by
  induction ds generalizing pre best bestAt with
  | nil =>
    obtain ⟨hlt, he⟩ := List.getElem?_eq_some_iff.1 hb
    have hv : pre.getD bestAt 0 = best := by simp [List.getD_eq_getElem?_getD, hb]
    simp only [argminFrom, List.append_nil, hv]
    exact ⟨hlt, hmin⟩
  | cons d ds ih =>
    have happ : pre ++ d :: ds = (pre ++ [d]) ++ ds := by simp
    have hlen : (pre ++ [d]).length = pre.length + 1 := by simp
    have hold : ∀ j < pre.length, (pre ++ [d]).getD j 0 = pre.getD j 0 := fun j hj => by
      simp [List.getD_eq_getElem?_getD, List.getElem?_append_left hj]
    have hnew : (pre ++ [d]).getD pre.length 0 = d := by simp [List.getD_eq_getElem?_getD]
    obtain ⟨hlt, -⟩ := List.getElem?_eq_some_iff.1 hb
    rw [argminFrom, happ, ← hlen]
    split
    · rename_i hd
      refine ih (pre ++ [d]) d pre.length (by simp) fun j hj => ?_
      rcases Nat.lt_or_ge j pre.length with h | h
      · rw [hold j h]
        exact ⟨by have := (hmin j h).1; omega, fun _ => by have := (hmin j h).1; omega⟩
      · obtain rfl : j = pre.length := by omega
        rw [hnew]
        exact ⟨Nat.le_refl _, fun h => absurd h (by omega)⟩
    · rename_i hd
      refine ih (pre ++ [d]) best bestAt (by rw [List.getElem?_append_left hlt, hb]) fun j hj => ?_
      rcases Nat.lt_or_ge j pre.length with h | h
      · rw [hold j h]
        exact hmin j h
      · obtain rfl : j = pre.length := by omega
        rw [hnew]
        exact ⟨by omega, fun h => absurd h (by omega)⟩

/-- The search finds the lowest index of a smallest element. -/
theorem argmin_spec (l : List Nat) (h : l ≠ []) :
    argmin l < l.length ∧ ∀ j < l.length, l.getD (argmin l) 0 ≤ l.getD j 0 ∧ (j < argmin l → l.getD (argmin l) 0 < l.getD j 0) := by
  cases l with
  | nil => exact absurd rfl h
  | cons d ds =>
    exact argminFrom_spec [d] d 0 ds rfl fun j hj => by
      obtain rfl : j = 0 := by simpa using hj
      exact ⟨Nat.le_refl _, fun h => absurd h (by omega)⟩

theorem sum_zipWith_eq {α β : Type} (f : α → β → Nat) (a : α) (b : β) (p : List α) (v : List β) (h : p.length = v.length) :
    (List.zipWith f p v).sum = ((List.range p.length).map fun k => f (p.getD k a) (v.getD k b)).sum := by
  congr 1
  apply List.ext_getElem
  · simp [h]
  · intro k h1 h2
    simp only [List.length_zipWith] at h1
    simp only [List.getElem_zipWith, List.getElem_map, List.getElem_range]
    rw [List.getD_eq_getElem _ _ (by omega), List.getD_eq_getElem _ _ (by omega)]

/-- The Hamming distance, place by place. -/
theorem hamming_eq (p v : List Bool) (h : p.length = v.length) :
    hamming p v = ((List.range p.length).map fun k => (p.getD k false != v.getD k false).toNat).sum :=
  sum_zipWith_eq _ false false p v h

/-- The number of patterns of a well-formed set and the width of each. -/
theorem patWf_lengths {p : PatDesc} (h : patWf p = true) : p.bits.length = p.np ∧ 1 ≤ p.np ∧ ∀ i < p.np, (p.bits.getD i []).length = p.w := by
  simp only [patWf, Bool.and_eq_true, decide_eq_true_eq, beq_iff_eq, List.all_eq_true] at h
  obtain ⟨⟨⟨⟨h1, -⟩, h2⟩, h3⟩, -⟩ := h
  refine ⟨h2, h1.1, fun i hi => ?_⟩
  rw [List.getD_eq_getElem _ _ (by omega)]
  exact h3 _ (List.getElem_mem _)

/-! ### The fields of a scheme record that the spec fixes (R177, R205) -/

/-- A present PDTCH record has the length and the modulation of its slot, and CS1 alone is coded as xCCH (R177). -/
theorem romPds_known {rom : Rom} {n : Nat} {r : PdsRec} (h : romPds rom n = some r) :
    pdsOctets[n]? = some r.octets ∧ r.psk8 = decide (8 ≤ n) ∧ (r.kind = .xcch ↔ n = 0)
      ∧ r.sub0.isSome = decide (4 ≤ n) ∧ r.sub2.isSome = decide (10 ≤ n) := by
  have hn : n < 13 := by
    by_contra hc
    rw [romPds, if_neg (by omega), if_neg (by omega), if_neg (by omega), if_neg (by omega)] at h
    cases h
  unfold romPds at h
  interval_cases n <;> simp only [Nat.reduceEqDiff, Nat.reduceLeDiff, if_true, if_false, Option.map_eq_some_iff, Option.some.injEq] at h
  · subst h
    decide
  all_goals
    obtain ⟨e, -, rfl⟩ := h
    simp [gprsRecord, edgeRecord, pdsOctets]

/-- The flag cells of R17 over four bursts of 116 cells are those of the GPRS schemes. -/
theorem burstFlagCells_gprs : burstFlagCells false = gprsSfpos := by decide

/-- A GPRS record has its flags at the cells that R17 names (R177). -/
theorem romPds_gprs_sfpos {rom : Rom} {n : Nat} {r : PdsRec} (h : romPds rom n = some r) (hn : n < 4) :
    r.sfpos = burstFlagCells r.psk8 := by
  unfold romPds at h
  interval_cases n <;> simp only [Nat.reduceEqDiff, Nat.reduceLeDiff, if_true, if_false, Option.map_eq_some_iff, Option.some.injEq] at h
  · subst h
    exact burstFlagCells_gprs.symm
  all_goals
    obtain ⟨e, -, rfl⟩ := h
    exact burstFlagCells_gprs.symm

/-- Of a present scheme of a well-formed ROM, `SFPOS` lists the cells of R17. -/
theorem romWf_sfpos {rom : Rom} {n : Nat} {r : PdsRec} (hf : romWf rom = true) (h : romPds rom n = some r) :
    r.sfpos = burstFlagCells r.psk8 := by
  have hn : n < 13 := by
    by_contra hc
    rw [romPds, if_neg (by omega), if_neg (by omega), if_neg (by omega), if_neg (by omega)] at h
    cases h
  simp only [romWf, romFlagWf, Bool.and_eq_true, List.all_eq_true, List.mem_range] at hf
  have hr := hf.2.1.1 n hn
  rwa [h, Option.all_some, beq_iff_eq] at hr

/-- What a detected scheme is: a present record of its slot, of the flagged modulation and enabled. -/
theorem detectScheme_some {rom : Rom} {psk8 : Bool} {cfg : Word} {area : List Int} {n : Nat} {r : PdsRec}
    (h : detectScheme (candidates rom psk8 cfg) area = some (n, r)) :
    romPds rom n = some r ∧ r.psk8 = psk8 ∧ schemeEnabled cfg n = true := by
  have hm := List.mem_of_getElem? h
  simp only [candidates, List.mem_filterMap, List.mem_range, Option.bind_eq_some_iff, Option.ite_none_right_eq_some,
    Option.some.injEq, Prod.mk.injEq] at hm
  obtain ⟨_, -, _, hr, ⟨hp, he⟩, rfl, rfl⟩ := hm
  exact ⟨hr, hp, he⟩

/-- Flag `B` of a list that goes burst by burst lies in burst `B`. -/
theorem facchFlags_burst {g : Geom} (h : flagsByBurst (facchFlags g) = true) {b f : Nat} (hb : (facchFlags g)[b]? = some f) :
    f / burstWidth = b := by
  rw [flagsByBurst, List.all_eq_true] at h
  have hm := h (f, b) (List.mem_zipIdx_iff_getElem?.2 hb)
  exact beq_iff_eq.1 hm

/-- The FACCH flags of every geometry of a well-formed ROM go burst by burst. -/
theorem romWf_flagsByBurst {rom : Rom} (h : romWf rom = true) (m : Nat) : flagsByBurst (facchFlags (romTcg rom m)) = true := by
  simp only [romWf, romFlagWf, Bool.and_eq_true] at h
  unfold romTcg
  split
  · exact h.2.1.2
  · split
    · exact h.2.2
    · decide

/-- Bit `n` of the number that a list of bits stands for. -/
theorem bitsNum_testBit (bs : List Bool) (n : Nat) : (bitsNum bs).testBit n = bs.getD n false := by
  induction bs generalizing n with
  | nil => simp [bitsNum]
  | cons b bs ih =>
    cases n with
    | zero => cases b <;> simp [bitsNum]
    | succ n =>
      have h : (b.toNat + 2 * bitsNum bs) / 2 = bitsNum bs := by cases b <;> simp; omega
      rw [bitsNum, Nat.testBit_succ, h, ih, List.getD_cons_succ]

/-- R17 of `PDTCH_DEC`: where the record's flags stand in the bursts, bit `2B` of `STEAL` is the decision of `e_B[57]` and bit
`2B + 1` that of `e_B[58]`. -/
theorem stealHard_burstFlags {r : PdsRec} (h : r.sfpos = burstFlagCells r.psk8) (area : List Int) {b : Nat} (hb : b < 4) :
    let w := stealHard ((gather area 0 r.sfpos).map hardOf)
    w.getLsbD (2 * b) = hardOf (area.getD (pdsWidth r.psk8 * b + 57) 0)
      ∧ w.getLsbD (2 * b + 1) = hardOf (area.getD (pdsWidth r.psk8 * b + 58) 0) := by
  simp only [stealHard, BitVec.getLsbD_ofNat, bitsNum_testBit, h, burstFlagCells]
  interval_cases b <;> exact ⟨rfl, rfl⟩

/-- R17 of `TCH_DEC`: where the flag list goes burst by burst, bit `B` of `STEAL` is the decision of the one flag of burst `B`. -/
theorem stealTch_burst {g : Geom} (h : flagsByBurst (facchFlags g) = true) (area : List Int) {b f : Nat} (hb : b < 8)
    (hf : (facchFlags g)[b]? = some f) :
    f / burstWidth = b
      ∧ (stealTch ((gather area 0 (facchFlags g)).map hardOf) (stealSum g area)).getLsbD b = hardOf (area.getD f 0) := by
  refine ⟨facchFlags_burst h hf, ?_⟩
  have e : (bitsNum ((gather area 0 (facchFlags g)).map hardOf)).testBit b = hardOf (area.getD f 0) := by
    rw [bitsNum_testBit]
    simp [gather, List.getD_eq_getElem?_getD, hf]
  have hi (x : Nat) : (x * 2 ^ 16).testBit b = false := by
    rw [Nat.mul_comm, Nat.testBit_two_pow_mul]
    simp [show ¬16 ≤ b by omega]
  have low (x : Nat) : (x % 2 ^ 16).testBit b = x.testBit b := by
    rw [Nat.testBit_mod_two_pow, decide_eq_true (show b < 16 by omega), Bool.true_and]
  rw [← e, stealTch, setField, setField]
  simp only [BitVec.getLsbD_or, BitVec.getLsbD_and, BitVec.getLsbD_not, BitVec.getLsbD_ofNat, hi, low, BitVec.zero_and,
    BitVec.zero_or, Nat.pow_zero, Nat.mul_one, decide_eq_true (show b < 32 by omega), Bool.and_false, Bool.or_false,
    Bool.true_and, Bool.not_false, Bool.and_true]

/-- R17 of `PDTCH_DEC` over a well-formed ROM: whatever scheme is detected, what R183 puts into `STEAL` is, bit by bit, the hard
decisions of `e_B[57]` and `e_B[58]`. -/
theorem pdtchDec_steal {rom : Rom} {psk8 : Bool} {cfg : Word} {area : List Int} {n : Nat} {r : PdsRec} (hw : romWf rom = true)
    (h : detectScheme (candidates rom psk8 cfg) area = some (n, r)) {b : Nat} (hb : b < 4) :
    let w := stealHard ((gather area 0 r.sfpos).map hardOf)
    w.getLsbD (2 * b) = hardOf (area.getD (pdsWidth psk8 * b + 57) 0)
      ∧ w.getLsbD (2 * b + 1) = hardOf (area.getD (pdsWidth psk8 * b + 58) 0) := by
  obtain ⟨hr, rfl, -⟩ := detectScheme_some h
  exact stealHard_burstFlags (romWf_sfpos hw hr) area hb

/-- R17 of `TCH_DEC` over a well-formed ROM: in every mode bit `B` of what R199 puts into `STEAL` is the decision of the flag of
burst `B`. -/
theorem tchDec_steal {rom : Rom} (hw : romWf rom = true) (m : Nat) (area : List Int) {b f : Nat} (hb : b < 8)
    (hf : (facchFlags (romTcg rom m))[b]? = some f) :
    f / burstWidth = b
      ∧ (stealTch ((gather area 0 (facchFlags (romTcg rom m))).map hardOf) (stealSum (romTcg rom m) area)).getLsbD b
          = hardOf (area.getD f 0) :=
  stealTch_burst (romWf_flagsByBurst hw m) area hb hf

/-- A length that is none of the thirteen of R177 selects no scheme, whatever the ROM. -/
theorem schemeOfLength_none (rom : Rom) {len : Nat} (h : len ∉ pdsOctets) : schemeOfLength rom len = none := by
  rw [schemeOfLength, List.findSome?_eq_none_iff]
  intro n _
  cases hr : romPds rom n with
  | none => rfl
  | some r =>
    have hm : r.octets ∈ pdsOctets := List.mem_of_getElem? (romPds_known hr).1
    rw [Option.bind_some, if_neg fun e => h (by rwa [← e])]

/-- A present TCH record has the length of its slot (R205); slots 17 and 18 are never present. -/
theorem romTcs_known {rom : Rom} {n : Nat} {t : TcsRec} (h : romTcs rom n = some t) :
    ([33, 31, 14] ++ amrOctets ++ amrOctets.take 6)[n]? = some t.octets := by
  have hn : n < 17 := by
    by_contra hc
    rw [romTcs, if_neg (by omega), if_neg (by omega), if_neg (by omega), if_neg (by omega), if_neg (by omega)] at h
    cases h
  unfold romTcs at h
  interval_cases n <;> simp only [Nat.reduceEqDiff, Nat.reduceLeDiff, if_true, if_false, Option.map_eq_some_iff] at h
  all_goals
    obtain ⟨e, -, rfl⟩ := h
    simp [frRecord, efrRecord, hrRecord, amrFrRecord, amrHrRecord, speechRecord, amrOctets]

end Sys2Proof.Machine
end

