-- ==== Sys2Proof/Tests/Slice0.lean ====
section
/-! SUPPORT. Sys2Proof/Tests/Slice0.lean: the model's own tests. Expected values come from the vectors of spec/95_test_vectors.md, the
worked examples of the rules, or hand calculation from a rule; each comment names its source. The last section shows for every
statement of Certificates/Slice0 that its hypotheses can be met. -/

namespace Sys2Proof.Tests
open Sys2Proof Sys2Proof.Machine

set_option Elab.async false

/-! ### Small states -/

/-- Bit `k` of a list written as a binary literal of `n` digits, first digit first. -/
def bin (n k : Nat) : List Nat := (List.range n).map fun i => (k.testBit (n - 1 - i)).toNat

/-- The same as Booleans. -/
def binB (n k : Nat) : List Bool := (List.range n).map fun i => k.testBit (n - 1 - i)

/-- The puncture-free code of the AMR fixture (spec/95, F4). -/
def conv7 : ConvDesc := k5Desc 220 none

/-- A tail-biting shift-register code, for the statements about such codes. -/
def tailbiting : ConvDesc := { k5Desc 14 none with term := .tailbite }

/-- The information bits of `cs4` and the expansion of AMR-FR mode 0. -/
def cs4Bits : List Nat := List.range 431
def amrBits : List Nat := (List.range 214).map (· % 95)

theorem cs4Bits_nodup : cs4Bits.Nodup := List.nodup_range
theorem mem_amrBits {e : Nat} (h : e < 95) : e ∈ amrBits :=
  List.mem_map.mpr ⟨e, List.mem_range.mpr (by omega), Nat.mod_eq_of_lt h⟩

/-- The one sub-block of `cs4`. -/
def cs4Sub : SubBlock :=
  { ni := 431, gather := cs4Bits, crc := 1, protLo := 0, protN := 431, coded := false, conv := 0, p := false, place := 0 }

/-- An uncoded scheme with the known fields of CS4 (R177). -/
def cs4 : PdsRec :=
  { octets := 54, psk8 := false, kind := .gen, sfpos := gprsSfpos, sfval := binB 8 0b00010110, usfmode := .inband,
    usfbits := [0, 1, 2], usfpat := 2, usfplace := 0, sub0 := none, sub2 := none,
    sub1 := some cs4Sub }

/-- Scheme FR of fixture F9. -/
def fullRate : TcsRec :=
  { octets := 33, nd := 260, inner := none, expand := List.range 260, order := 2, n1 := 182, nprot := 50, crc := 7, conv := 5,
    p := false, idpat := none }

/-- AMR-FR codec mode 0 of fixture F10. -/
def amr0Open : AmrFrOpen :=
  { inner := none, expand := amrBits, order := 1, n1 := 214, nprot := 39, conv := 7, p := false, idpat := 1 }
def amr0 : TcsRec :=
  { octets := 12, nd := 95, inner := none, expand := amrBits, order := 1, n1 := 214, nprot := 39, crc := 6, conv := 7, p := false
    idpat := some 1 }

/-- The four-burst placement of fixture F5: row `k mod 4`, position `pos(j(k))`. -/
def rows : List Nat := (List.range 456).map fun k => 116 * (k % 4) + burstPos (ilvPos k)

/-- A well-formed OPEN part of the ROM, after the fixtures of spec/95. -/
def testRom : Rom :=
  { conv := [none, some conv7], crc := []
    perm := [some ⟨456, 464, rows⟩, some ⟨214, 214, List.range 214⟩,
             some ⟨260, 260, List.range 260⟩, some ⟨456, 928, diagCells⟩]
    pat := [none,
            some ⟨4, 8, [0b00000000, 0b10111010, 0b01011101, 0b11100111].map (binB 8)⟩,
            some ⟨8, 12, (List.range 8).map (binB 12)⟩]
    gprs := [none, none, some { usfbits := [0, 1, 2], usfpat := 2, gather := cs4Bits, protLo := 0, protN := 431, place := 0 }]
    edge := [], edgePair := [], fr := some 2, efr := none, hr := none, amrFr := [some amr0Open], amrHr := []
    tcgHr := ⟨3, diagFlags, 3, diagFlags⟩, tcgAhr := ⟨3, diagFlags, 3, diagFlags⟩ }

/-- Cells from an index on. -/
def cells (a : Nat) (vs : List Nat) : Memory := vs.zipIdx.map fun p => (a + p.2, BitVec.ofNat 8 p.1)

/-- An instance after reset with operands. -/
def inst (a0 a1 a2 : Nat) : CoreInst :=
  { coreReset 0 0 with a0 := BitVec.ofNat 32 a0, a1 := BitVec.ofNat 32 a1, a2 := BitVec.ofNat 32 a2 }

/-- A block with one instance, its window at 0x8000. -/
def ready (c : CoreInst) : State :=
  { params := { rom := testRom, base := 0x8000 }, insts := [c], active := 0, epoch := 0, pending := [], resp := none }

/-- The instance after a command. -/
def after (i : Instr) (c : CoreInst) : CoreInst := work testRom i c

/-- Cells of an instance as numbers. -/
def got (c : CoreInst) (b : Buf) (a n : Nat) : List Nat := (c.load b a n).map (·.toNat)

/-- Soft values of hard bits, as bytes: +127 and −127 (R9). -/
def soft (bits : List Nat) : List Nat := bits.map fun b => if b = 1 then 0x81 else 0x7F

/-- The cells of the four-burst placement and its flag cells are different. -/
theorem rows_flags_nodup : (rows ++ gprsSfpos).Nodup :=
  nodup_of_inverse
    (fun x => if x % 116 = 57 ∨ x % 116 = 58 then 456 + (2 * (x / 116) + (x % 116 - 57))
      else ilvInverse (x / 116 + 4 * (burstIndex (x % 116) % 2)) (burstIndex (x % 116)))
    (by decide +kernel)

theorem rows_nodup : rows.Nodup := rows_flags_nodup.of_append_left

/-! ### Well-formedness: each check refuses an ill-formed term -/

theorem test_wf_desc_255 : (Instr.cenc 255 true).wf = true := by decide
theorem test_wf_desc_256 :
    [Instr.cenc 256 true, .vdec 256 false, .crcs 256, .crcc 256, .punc 256 true, .dpun 256 false, .perm 256 true true].all
      (fun i => !i.wf) = true := by decide
/-! The test ROM satisfies every condition, part by part. -/

theorem testRom_codes : (testRom.conv.all (·.all convWf) && testRom.crc.all (·.all crcWf) && testRom.pat.all (·.all patWf)) = true := by
  decide +kernel

theorem testRom_perms : testRom.perm.all (·.all permWf) = true := by
  have h : ∀ (nin nout : Nat) (m : List Nat), m.Nodup →
      (decide (1 ≤ nin ∧ nin ≤ nout ∧ nout ≤ vmax) && m.length == nin && m.all (· < nout)) = true →
      permWf ⟨nin, nout, m⟩ = true := fun nin nout m h1 h2 => by
    show (_ && decide m.Nodup) = true
    rw [decide_eq_true h1, Bool.and_true]
    exact h2
  refine List.all_eq_true.mpr fun o ho => ?_
  simp only [testRom, List.mem_cons, List.not_mem_nil, or_false] at ho
  obtain rfl | rfl | rfl | rfl := ho
  · exact Option.all_some.trans (h _ _ rows rows_nodup (by decide +kernel))
  · exact Option.all_some.trans (h _ _ (List.range 214) List.nodup_range (by decide +kernel))
  · exact Option.all_some.trans (h _ _ (List.range 260) List.nodup_range (by decide +kernel))
  · exact Option.all_some.trans (h _ _ diagCells diagCells_nodup (by decide +kernel))

theorem testRom_cs4 : pdsWf testRom cs4 = true := by
  have h1 : (cs4Sub.gather.length == cs4Sub.ni && cs4Sub.gather.all (· < 8 * cs4.octets)) = true := by decide +kernel
  have h1' : decide cs4Sub.gather.Nodup = true :=
    decide_eq_true (by simp only [cs4Sub]; exact cs4Bits_nodup)
  have h1'' : ((romCrc testRom cs4Sub.crc).isSome && decide (cs4Sub.protLo + cs4Sub.protN ≤ cs4Sub.ni)
      && (romPerm testRom cs4Sub.place).any (fun p => p.nin == subNm testRom cs4 1 cs4Sub && p.nout == 4 * pdsWidth cs4.psk8)
      && !cs4Sub.coded) = true := by decide +kernel
  simp only [Bool.and_eq_true] at h1''
  have h2 : (subBlocks cs4).all (fun x => subWf testRom cs4 x.1 x.2) = true := by
    have e : subBlocks cs4 = [(1, cs4Sub)] := rfl
    simp only [e, List.all_cons, List.all_nil, Bool.and_true]
    rw [subWf, h1, h1', h1''.1.1.1, h1''.1.1.2, h1''.1.2, h1''.2]
    rfl
  have h3 : cellsDisjoint testRom cs4 = true := by
    have e : (subBlocks cs4).flatMap (fun x => placeCells testRom x.2)
        ++ (if cs4.usfmode = .separate then usfCells testRom cs4 else []) ++ cs4.sfpos = rows ++ gprsSfpos := by
      simp only [subBlocks, cs4, List.filterMap_cons, List.filterMap_nil, Option.map_none, Option.map_some, List.flatMap_cons,
        List.flatMap_nil, reduceCtorEq, if_false, List.append_nil, placeCells, cs4Sub, permRef, romPerm, testRom,
        List.getElem?_cons_zero, Option.join, Option.bind_some, id, Option.getD_some]
    rw [cellsDisjoint, e]
    exact decide_eq_true rows_flags_nodup
  have h4 : gatherDisjoint cs4 = true := by
    have e : (subBlocks cs4).flatMap (fun x => x.2.gather) ++ (if cs4.usfmode = .separate then cs4.usfbits else [])
        = cs4Bits := by
      simp only [subBlocks, cs4, List.filterMap_cons, List.filterMap_nil, Option.map_none, Option.map_some, List.flatMap_cons,
        List.flatMap_nil, reduceCtorEq, if_false, List.append_nil, cs4Sub]
    rw [gatherDisjoint, e]
    exact decide_eq_true cs4Bits_nodup
  have h5 : (cs4.sfpos.length == 8 && cs4.sfval.length == 8 && cs4.sfpos.all (· < 4 * pdsWidth cs4.psk8) && decide cs4.sfpos.Nodup
      && cs4.sub1.isSome && usfWf testRom cs4) = true := by decide +kernel
  simp only [Bool.and_eq_true] at h5
  obtain ⟨⟨⟨⟨⟨a, b⟩, c⟩, d⟩, e⟩, f⟩ := h5
  simp only [pdsWf, a, b, c, d, show cs4.kind = .gen from rfl, e, h2, f, h3, h4, Bool.and_self]

theorem cs4_eq : gprsRecord 3 ⟨[0, 1, 2], 2, cs4Bits, 0, 431, 0⟩ = cs4 := by
  simp only [gprsRecord, gprsBlock, cs4, cs4Sub, pdsOctets, gprsSfval, List.getD_cons_succ, List.getD_cons_zero]
  rfl

theorem romPds_cs4 : romPds testRom 3 = some cs4 := by
  rw [← cs4_eq]
  rfl

theorem testRom_pds : (List.range 13).all (fun s => (romPds testRom s).all fun r => pdsWf testRom r && pdsKnown testRom s r) = true := by
  refine List.all_eq_true.mpr fun s hs' => ?_
  have hs' := List.mem_range.mp hs'
  by_cases h3 : s = 3
  · subst h3
    rw [romPds_cs4, Option.all_some, testRom_cs4]
    decide +kernel
  · interval_cases s <;> first | exact absurd rfl h3 | decide +kernel

theorem expandWf_of : ∀ (t : TcsRec) (n : Nat), t.nd = n → t.inner = none → t.expand.all (· < n) = true → (∀ e < n, e ∈ t.expand) →
    expandWf testRom t = true := fun t n h1 h2 h3 h4 => by
  simp only [expandWf, h1, h2, Option.map_none, Option.getD_none, Nat.add_zero, h3, Bool.true_and, List.all_eq_true,
    List.mem_range, List.contains_iff_mem]
  exact h4

theorem testRom_fr_expand : expandWf testRom fullRate = true :=
  expandWf_of fullRate 260 rfl rfl (by decide +kernel) fun e he => by
    simp only [fullRate]
    exact List.mem_range.mpr he

theorem testRom_amr_expand : expandWf testRom amr0 = true :=
  expandWf_of amr0 95 rfl rfl (by decide +kernel) fun e he => by
    simp only [amr0]
    exact mem_amrBits he

theorem testRom_tcs : (List.range 19).all (fun s => (romTcs testRom s).all fun t => tcsWf testRom s t && tcsKnown testRom s t) = true := by
  refine List.all_eq_true.mpr fun s hs' => ?_
  have hs' := List.mem_range.mp hs'
  by_cases h0 : s = 0
  · subst h0
    rw [show romTcs testRom 0 = some fullRate from rfl, Option.all_some, tcsWf, testRom_fr_expand]
    decide +kernel
  · by_cases h3 : s = 3
    · subst h3
      rw [show romTcs testRom 3 = some amr0 from rfl, Option.all_some, tcsWf, testRom_amr_expand]
      decide +kernel
    · interval_cases s <;> first | exact absurd rfl h0 | exact absurd rfl h3 | decide +kernel

theorem testRom_geometry : tableWf testRom ⟨3, diagFlags, 3, diagFlags⟩ = true := by
  have h : placementWf testRom 3 diagFlags = true := by
    have hf : diagFlags.all (fun f => decide (f < tchArea) && !diagCells.contains f) = true := by
      simp only [List.all_eq_true, Bool.and_eq_true, Bool.not_eq_true', List.contains_eq_mem, decide_eq_false_iff_not,
        decide_eq_true_eq]
      exact fun f hf => ⟨of_decide_eq_true (List.all_eq_true.mp (by decide : diagFlags.all (· < tchArea) = true) f hf),
        fun hm => (List.disjoint_of_nodup_append diagCells_flags_nodup) hm hf⟩
    have e : romPerm testRom 3 = some ⟨456, 928, diagCells⟩ := rfl
    rw [placementWf, e, Option.any_some, hf]
    decide
  rw [tableWf, h]
  decide +kernel

theorem testRom_amr : (amrRangeWf testRom 3 && amrRangeWf testRom 4) = true := by decide +kernel

/-- The test ROM, and with it the fixtures it follows, satisfies every condition. -/
theorem test_wf_tables : romTablesWf testRom = true := by
  have hc := testRom_codes
  have ha := testRom_amr
  simp only [Bool.and_eq_true] at hc ha
  simp only [romTablesWf, hc.1.1, hc.1.2, hc.2, testRom_perms, testRom_pds, testRom_tcs, ha.1, ha.2, Bool.and_true]
  rw [show testRom.tcgHr = ⟨3, diagFlags, 3, diagFlags⟩ from rfl, show testRom.tcgAhr = ⟨3, diagFlags, 3, diagFlags⟩ from rfl, testRom_geometry]
  decide

/-- The flags of the test ROM stand as R17 says; a flag list out of the order of bursts does not. -/
theorem test_wf_flags : romFlagWf testRom = true ∧ flagsByBurst [58, 290, 174] = false ∧ romTcg testRom 4 = .table testRom.tcgAhr := by
  refine ⟨?_, by decide, rfl⟩
  have h : (List.range 13).all (fun s => (romPds testRom s).all fun r => r.sfpos == burstFlagCells r.psk8) = true := by
    refine List.all_eq_true.mpr fun s hs => ?_
    have hs := List.mem_range.mp hs
    interval_cases s <;> rfl
  rw [romFlagWf, h]
  decide

theorem test_wf_testRom : romWf testRom = true := by
  rw [romWf, test_wf_tables, test_wf_flags.1, Bool.and_self]

/-- R24 (a), (b), (c), (e) and the tables of R23, each broken once. -/
theorem test_wf_conv_refuses :
    [{ k5Desc 14 none with n := 1 }, { k5Desc 14 none with k := 6 }, k5Desc 0 none, k5Desc 1021 none,
     { k5Desc 14 none with nextState := List.replicate 16 (0, 0) }, { k5Desc 14 none with nextOut := [] },
     k5Desc 14 (some [5, 3, sentinel]), k5Desc 14 (some [36, sentinel]), k5Desc 14 (some [3, 5]),
     { k5Desc 14 none with termTab := some ⟨List.replicate 16 0, List.replicate 16 1⟩ },
     { k5Desc 3 none with term := .tailbite }].all (fun c => !convWf c) = true := by decide +kernel
theorem test_wf_crc_refuses :
    [(⟨0, 0, 0, 0⟩ : CrcDesc), ⟨41, 1, 0, 0⟩, ⟨6, 0x6F, 0, 0⟩, ⟨6, 0x2E, 0, 0x3F⟩].all (fun q => !crcWf q) = true := by decide
theorem test_wf_perm_refuses :
    [(⟨0, 1, []⟩ : PermDesc), ⟨3, 2, [0, 1, 1]⟩, ⟨2, 2049, [0, 1]⟩, ⟨2, 3, [1, 1]⟩, ⟨2, 3, [1, 3]⟩, ⟨2, 3, [1]⟩].all
      (fun r => !permWf r) = true := by decide
theorem test_wf_pat_refuses :
    [(⟨9, 1, []⟩ : PatDesc), ⟨1, 65, [binB 65 0]⟩, ⟨2, 2, [binB 2 0]⟩, ⟨2, 2, [binB 2 0, binB 3 1]⟩, ⟨2, 2, [binB 2 1, binB 2 1]⟩].all
      (fun p => !patWf p) = true := by decide
/-- Fields that R176 (b) fixes, and lists with a wrong length or a repetition. -/
theorem test_wf_pds_refuses :
    [{ givenPds0 with octets := 24 }, { givenPds0 with sfval := [] }, { givenPds0 with sfpos := List.replicate 8 57 },
     { givenPds0 with usfmode := .inband }].all (fun r => !(pdsWf testRom r && pdsKnown testRom 0 r)) = true := by decide
theorem test_wf_tcs_refuses :
    [{ fullRate with octets := 23 }, { fullRate with nd := 265 }, { fullRate with nprot := 183 }, { fullRate with crc := 9 },
     { fullRate with idpat := some 1 }].all (fun t => !tcsWf testRom 0 t) = true := by decide +kernel

/-! ### Decoding: words written out from R60 (fields), R62 (flags) and R64 (opcodes) -/

theorem test_decode_nop : decode 0x00000000#32 = .ok .nop := by decide
theorem test_decode_cenc : decode 0b00000000000000010000001100000001#32 = .ok (.cenc 3 true) := by decide
theorem test_decode_vdec : decode 0b00000000000000000000011000000010#32 = .ok (.vdec 6 false) := by decide
theorem test_decode_crcs : decode 0b00000000000000001111111100000011#32 = .ok (.crcs 255) := by decide
theorem test_decode_crcc : decode 0b00000000000000000000000100000100#32 = .ok (.crcc 1) := by decide
theorem test_decode_punc : decode 0b00000000000100000000010000000101#32 = .ok (.punc 4 true) := by decide
theorem test_decode_dpun : decode 0b00000000000000001000000000000110#32 = .ok (.dpun 128 false) := by decide
theorem test_decode_ilv : decode 0b00000000000000010000000000000111#32 = .ok (.ilv true false) := by decide
theorem test_decode_dilv : decode 0b00000000000100000000000000001000#32 = .ok (.dilv false true) := by decide
theorem test_decode_perm : decode 0b00000000000100010000001000001001#32 = .ok (.perm 2 true true) := by decide
theorem test_decode_bmap : decode 0b00000000000000100000000000001010#32 = .ok (.bmap false true false) := by decide
theorem test_decode_bunm : decode 0b00000000000100010000000000001011#32 = .ok (.bunm true true) := by decide
theorem test_decode_bmapt : decode 0b00000000000000010000000000001100#32 = .ok (.bmapt true false false) := by decide
theorem test_decode_bunmt : decode 0b00000000000100100000000000001101#32 = .ok (.bunmt false true true) := by decide
theorem test_decode_unpk : decode 0b00000000000000010000000000001110#32 = .ok (.unpk true) := by decide
theorem test_decode_pack : decode 0b00000000000000000000000000001111#32 = .ok (.pack false) := by decide
theorem test_decode_h2s : decode 0b00000000000000000000000000010000#32 = .ok .h2s := by decide
theorem test_decode_s2h : decode 0b00000000000000000000000000010001#32 = .ok .s2h := by decide
theorem test_decode_xcchEnc : decode 0b00000000000000000000000000100000#32 = .ok .xcchEnc := by decide
theorem test_decode_xcchDec : decode 0b00000000000000000000000000100001#32 = .ok .xcchDec := by decide
theorem test_decode_rachEnc : decode 0b00000000000000000000000000100010#32 = .ok .rachEnc := by decide
theorem test_decode_rachDec : decode 0b00000000000000000000000000100011#32 = .ok .rachDec := by decide
theorem test_decode_schEnc : decode 0b00000000000000000000000000100100#32 = .ok .schEnc := by decide
theorem test_decode_schDec : decode 0b00000000000000000000000000100101#32 = .ok .schDec := by decide
theorem test_decode_pdtchEnc : decode 0b00000000000000000000000000100110#32 = .ok .pdtchEnc := by decide
theorem test_decode_pdtchDec : decode 0b00000000000000010000000000100111#32 = .ok (.pdtchDec true) := by decide
theorem test_decode_tchEnc : decode 0b00000000000000010000000000101000#32 = .ok (.tchEnc true) := by decide
theorem test_decode_tchDec : decode 0b00000000000000000000000000101001#32 = .ok (.tchDec false) := by decide
theorem test_decode_srst : decode 0b00000000000000000000000000111111#32 = .ok .srst := by decide
/-- One word for each test of R63: `Z`, the opcode, `DESC`, an undefined flag. -/
theorem test_decode_illegal :
    [0x01000000#32, 0x00000012#32, 0x0000013F#32, 0x00020301#32].map (fun w => (decode w).toOption) = List.replicate 4 none := by
  decide
/-- The step runs a word from a bare state, and reset alone fetches nothing (assumption log 6). -/
theorem test_withFetchWord :
    (match step (State.reset.withFetchWord 32 0x00000012) with
      | .next t => t.insts.map (·.status)
      | .fault _ => []
      | .refused _ => []) = [0x00120110#32] := by decide

/-! ### One or two instructions a command: vectors of spec/95 -/

theorem test_nop_clears : (after .nop { inst 0 0 0 with rlen := 5#32, steal := 1#32 }).results = { status := 0x100#32 } := by decide
/-- spec/95: octets A5 3C, 12 bits, LSB first. -/
theorem test_unpk : got (after (.unpk false) { inst 0 0 12 with ob := cells 0 [0xA5, 0x3C] }) .hb 0 12 = bin 12 0b101001010011 := by
  decide +kernel
theorem test_unpk_msbf : got (after (.unpk true) { inst 0 0 8 with ob := cells 0 [1] }) .hb 0 8 = bin 8 0b00000001 := by decide +kernel
/-- spec/95: nine bits pack to 4B 01, or D2 80 with `MSBF`. -/
theorem test_pack : got (after (.pack false) { inst 0 8 9 with hb := cells 0 (bin 9 0b110100101) }) .ob 8 2 = [0x4B, 0x01] := by
  decide +kernel
theorem test_pack_msbf : got (after (.pack true) { inst 0 8 9 with hb := cells 0 (bin 9 0b110100101) }) .ob 8 2 = [0xD2, 0x80] := by
  decide +kernel
theorem test_h2s : got (after .h2s { inst 0 0 4 with hb := cells 0 (bin 4 0b0110) }) .sb 0 4 = [0x7F, 0x81, 0x81, 0x7F] := by
  decide +kernel
theorem test_h2s_empty_at_end : (after .h2s (inst 4096 4096 0)).results = { status := 0x0010D100#32 } := by decide +kernel
theorem test_s2h : got (after .s2h { inst 0 0 4 with sb := cells 0 [5, 255, 0, 128] }) .hb 0 4 = bin 4 0b0101 := by decide +kernel
theorem test_s2h_too_long : (after .s2h (inst 0 0 2049)).results = { status := 0x00110112#32 } := by decide +kernel
/-- R86. -/
theorem test_cenc :
    got (after (.cenc 1 false) { inst 0 64 14 with hb := cells 0 (bin 14 0b10110010011101) }) .hb 64 36
      = bin 36 0b110111011011111000000110101101111111 := by decide +kernel
/-- The branch-metric terms of R91 and spec/95: under hypothesis 0 and 1. -/
theorem test_bmTerm :
    [127, -127, -128, 1, -1, 64, -64, 10, -10, 0].map (fun x => (bmTerm false x, bmTerm true x))
      = [(0, 126), (126, 0), (127, 0), (31, 32), (32, 31), (7, 71), (71, 7), (26, 36), (36, 26), (0, 0)] := by decide
theorem test_cenc_wrong_count : (after (.cenc 1 false) (inst 0 64 13)).results = { status := 0x00010103#32 } := by decide +kernel
/-- R102: positions 3 and 20 flipped, position 10 erased. -/
theorem test_vdec :
    let y := ((((soft (bin 36 0b110111011011111000000110101101111111)).set 3 0x7F).set 20 0x81).set 10 0)
    let c := after (.vdec 1 false) { inst 0 0 36 with sb := cells 0 y }
    (got c .hb 0 14, c.nerr, c.nbits) = (bin 14 0b10110010011101, 3#32, 36#32) := by decide +kernel
/-- spec/95: CRC6 of 01011010 is 101110. -/
theorem test_crcs :
    got (after (.crcs 6) { inst 0 8 8 with hb := cells 0 (bin 8 0b01011010) }) .hb 8 6 = bin 6 0b101110 := by decide +kernel
theorem test_crcc :
    (after (.crcc 6) { inst 0 8 8 with hb := cells 0 (bin 14 0b01011010101110) }).results
      = { status := 0x0004C100#32, subst := 0x202#32 } := by decide +kernel
theorem test_crcc_flipped :
    (after (.crcc 6) { inst 0 8 8 with hb := cells 0 (bin 14 0b01011011101110) }).results
      = { status := 0x0004C301#32, subst := 0x002#32 } := by decide +kernel
/-- The vectors of spec/95 for the table 1, 4, 5, 9 over twelve elements. -/
theorem test_puncture : puncture [1, 4, 5, 9, sentinel] ((List.range 12).map (· + 100)) = [100, 102, 103, 106, 107, 108, 110, 111] := by
  decide
theorem test_depuncture :
    depuncture 0 [1, 4, 5, 9, sentinel] [100, 102, 103, 106, 107, 108, 110, 111] 12
      = [100, 0, 102, 103, 0, 0, 106, 107, 108, 0, 110, 111] := by decide
theorem test_punc_wrong_count : (after (.punc 3 false) (inst 0 0 456)).results = { status := 0x00050103#32 } := by decide +kernel
theorem test_dpun_rlen : (after (.dpun 3 true) (inst 0 1000 456)).rlen = 588#32 := by decide +kernel
/-- spec/95: coded bit 5 goes to cell 149 of four rows. -/
theorem test_ilv : (after (.ilv false false) { inst 0 1024 0 with hb := cells 5 [1] }).cell .hb (1024 + 149) = 1#8 := by
  decide +kernel
theorem test_dilv : (after (.dilv false false) { inst 1024 0 0 with hb := cells 1173 [1] }).cell .hb 5 = 1#8 := by decide +kernel
theorem test_perm : (after (.perm 0 false false) { inst 0 1024 0 with hb := cells 5 [1] }).cell .hb (1024 + 151) = 1#8 := by
  decide +kernel
theorem test_perm_absent : (after (.perm 4 false false) (inst 0 0 0)).results = { status := 0x00090111#32 } := by decide +kernel
/-- Hand calculation from R130 and R134: bits 56 and 57 stand on either side of the flags. -/
theorem test_bmap :
    got (after (.bmap false true true) { inst 0 200 0 with sb := cells 56 [5, 6] }) .sb 256 4 = [5, 0x7F, 0x81, 6] := by decide +kernel
theorem test_bunm :
    (after (.bunm true true) { inst 200 0xFFFFFFFF 0 with sb := cells 257 [0x7F, 0x81] }).results
      = { status := 0x000BD100#32, steal := 0x817F#32 } := by decide +kernel
/-- Hand calculation from R132 and R134: an odd half stores bit 57 at 59 and flag `HL`, and leaves position 58 alone. -/
theorem test_bmapt :
    got (after (.bmapt true true false) { inst 0 600 0 with hb := cells 56 [1, 1] ++ cells 656 [0, 0, 0, 0] }) .hb 656 4
      = [0, 1, 0, 1] := by decide +kernel
theorem test_bunmt :
    (after (.bunmt true true false) { inst 600 0 0 with hb := cells 657 [1, 1] }).results
      = { status := 0x000DD100#32, steal := 1#32 } := by decide +kernel
/-- The start of the first burst of block A in spec/95. -/
theorem test_xcchEnc :
    (mapFour (xcchEncode (List.replicate 23 0#8)) true true).take 24 = binB 24 0b000000010000100000000100 := by decide +kernel
theorem test_xcchEnc_results :
    (after .xcchEnc (inst 0 0 0)).results = { status := 0x0020D100#32, rlen := 464#32 } := by decide +kernel
/-- spec/95: octet 5A under BSIC 2B. -/
theorem test_rachEnc :
    got (after .rachEnc { inst 0 0 0 with bsic := 0x2B#32, ob := cells 0 [0x5A] }) .hb 0 36
      = bin 36 0b001101110110000111111111011110111111 := by decide +kernel
theorem test_rachDec :
    let y := soft (bin 36 0b001101110110000111111111011110111111)
    let c := after .rachDec { inst 0 1 0 with bsic := 0x2B#32, sb := cells 0 y }
    (c.results, c.cell .ob 1) = ({ status := 0x0023D100#32, nbits := 36#32, rlen := 1#32, subst := 0x202#32 }, 0x5A#8) := by
  decide +kernel
theorem test_rachDec_other_bsic :
    (after .rachDec { inst 0 1 0 with bsic := 0x2A#32, sb := cells 0 (soft (bin 36 0b001101110110000111111111011110111111)) }).results
      = { status := 0x0023C301#32, nbits := 36#32, subst := 0x002#32 } := by decide +kernel
/-- spec/95: octets 12 34 56 FF, and their decode. -/
theorem test_schEnc :
    got (after .schEnc { inst 0 0 0 with ob := cells 0 [0x12, 0x34, 0x56, 0xFF] }) .hb 0 78
      = bin 78 0b001101000010001111001101110110110000100100010010000101100000111101110110110011 := by decide +kernel
theorem test_schDec :
    let y := soft (bin 78 0b001101000010001111001101110110110000100100010010000101100000111101110110110011)
    let c := after .schDec { inst 0 10 0 with sb := cells 0 y }
    (got c .ob 10 4, c.nerr) = ([0x12, 0x34, 0x56, 0x01], 0#32) := by decide +kernel
/-- spec/95: 23 octets whose area would end past the buffer; the scheme is not reported. -/
theorem test_pdtchEnc_range : (after .pdtchEnc (inst 0 3700 23)).results = { status := 0x00261112#32 } := by decide +kernel
theorem test_pdtchEnc_no_length : (after .pdtchEnc (inst 0 0 24)).results = { status := 0x00261102#32 } := by decide +kernel
theorem test_pdtchDec_none_enabled :
    (after (.pdtchDec false) { inst 0 0 0 with pdcfg := 0xFF0000#32 }).results = { status := 0x00271102#32 } := by decide +kernel
theorem test_pdtchDec_range : (after (.pdtchDec true) (inst 2705 0 0)).results = { status := 0x00270112#32 } := by decide +kernel
/-- spec/95: FACCH octets 00 to 16 on a full-rate channel. -/
theorem test_tchEnc_facch :
    let c := after (.tchEnc false) { inst 0 0 23 with ob := cells 0 (List.range 23) }
    (c.status, c.rlen) = (0x0028D900#32, 464#32) := by decide +kernel
/-- spec/95: a frame type that the configuration does not give to this scheme. -/
theorem test_tchEnc_wrong_ft :
    (after (.tchEnc false) { inst 0 0 12 with chmode := 3#32, amrcfg := 0x98#32, a3 := 1#32 }).results
      = { status := 0x00281103#32, detid := 0x01030000#32 } := by decide +kernel
/-- spec/95: an all-erasure area under an empty `AMRCFG`. -/
theorem test_tchDec_invalid_id :
    (after (.tchDec false) { inst 0 64 0 with chmode := 3#32, sb := cells 0 (List.replicate 928 0) }).results
      = { status := 0x00293504#32, detid := 0x100#32 } := by decide +kernel
theorem test_tchDec_reserved_mode : (after (.tchDec false) { inst 0 64 0 with chmode := 5#32 }).results
    = { status := 0x00291102#32 } := by decide +kernel
/-- R151: every register at its reset value, the buffers as they were. -/
theorem test_srst : after .srst { inst 1 2 3 with cmd := 0x3F#32, pdcfg := 0#32, hb := cells 7 [1] }
    = { coreReset 0 0 with hb := cells 7 [1] } := by decide

/-! ### The hypotheses of the statements can be met

One theorem a statement, with a boundary value for each of its clauses. -/

theorem witness_DecodeEncodeInverse :
    (Instr.perm 255 true true).wf = true ∧ decode 0x0011FF09#32 = .ok (.perm 255 true true) := by decide

/-- A block whose port holds the given transactions. -/
def holding (evs : List BusEvent) : State := { ready (inst 0 0 0) with pending := evs }

theorem ready_cur (c : CoreInst) : (ready c).cur? = some c := rfl

theorem witness_EveryWordDecodesOrIsIllegal :
    (holding [.write 0x8004 .word 0x12#32]).pending = .write 0x8004 .word 0x12#32 :: []
      ∧ locate (holding [.write 0x8004 .word 0x12#32]) 0x8004 = some (0, 0x04)
      ∧ (holding [.write 0x8004 .word 0x12#32]).insts[0]? = some (inst 0 0 0) := ⟨rfl, by decide, rfl⟩

theorem witness_StepRunsDecodedInstruction :
    (holding [.write 0x8004 .word 0x3F#32]).pending = .write 0x8004 .word 0x3F#32 :: []
      ∧ locate (holding [.write 0x8004 .word 0x3F#32]) 0x8004 = some (0, 0x04) ∧ decode 0x3F#32 = .ok .srst :=
  ⟨rfl, by decide, by decide⟩

/-- Every kind of access that R44 refuses, at the edges of the address map. -/
theorem witness_IllegalAccessRefused :
    [(0x7FFF, Width.byte), (0x8001, .word), (0x8004, .half), (0x8004, .byte), (0x80FE, .word), (0x8100, .word), (0x8200, .byte),
      (0x8FFF, .byte), (0x9000, .half), (0xB000, .byte), (0xBFFF, .byte), (0xC000, .word)].all
      (fun x => !legalAccess (holding [.read x.1 x.2]) x.1 x.2) = true := by decide

theorem witness_CellFormatsOnTheBus :
    [(0x8100, Buf.ob, 0), (0x81FF, .ob, 255), (0x9000, .hb, 0), (0x9FFF, .hb, 4095), (0xA000, .sb, 0), (0xAFFF, .sb, 4095)].all
      (fun x => decide (locate (holding []) x.1 = some (0, x.1 - 0x8000) ∧ windowTarget (x.1 - 0x8000) = .cell x.2.1 x.2.2)) = true
      ∧ (holding []).insts[0]? = some (inst 0 0 0) := ⟨by decide, rfl⟩

theorem witness_AccessSideEffects :
    (∃ t, step (holding [.read 0x8000 .word, .read 0x8000 .word]) = .next t)
      ∧ [0x00, 0x08, 0x0C, 0x34, 0x40, 0x44, 0xFC].all (fun off =>
          decide (locate (holding [.write (0x8000 + off) .word 0xFFFFFFFF#32]) (0x8000 + off) = some (0, off)
            ∧ off < 0x100 ∧ off % 4 = 0 ∧ off ≠ 0x04)) = true := ⟨⟨_, rfl⟩, by decide⟩

theorem witness_RegisterReads :
    [0x00, 0x04, 0x40, 0x44, 0xFC].all (fun off =>
        decide (locate (holding [.read (0x8000 + off) .word]) (0x8000 + off) = some (0, off) ∧ off < 0x100 ∧ off % 4 = 0)) = true
      ∧ (holding [.read 0x8000 .word]).insts[0]? = some (inst 0 0 0) := ⟨by decide, rfl⟩

theorem witness_ResetValues :
    (holding [.powerOn]).pending = .powerOn :: []
      ∧ ∃ t c, exec .srst (ready (inst 1 2 3)) = .next t ∧ t.cur? = some c := ⟨rfl, _, _, rfl, rfl⟩

theorem witness_SrstRule :
    (ready (inst 1 2 3)).cur? = some (inst 1 2 3) ∧ opcField 0x0000013F#32 = 0x3F ∧ (0x0000013F#32 : Word) ≠ 0x0000003F#32 :=
  ⟨rfl, by decide, by decide⟩

theorem witness_StepStaysInItsInstance :
    let s : State := { holding [.write 0x8004 .word 0x00#32] with insts := [inst 0 0 0, { inst 0 0 0 with index := 1 }] }
    locate s 0x8004 = some (0, 0x04) ∧ s.insts[1]? = some { inst 0 0 0 with index := 1 } ∧ ∃ t, step s = .next t :=
  ⟨by decide, rfl, _, rfl⟩

/-- A command on an instance, its next state and the instance there. -/
theorem runs (i : Instr) (c : CoreInst) :
    exec i (ready c) = .next ((ready c).onActive (work testRom i)) ∧ ((ready c).onActive (work testRom i)).cur? = some (work testRom i c) :=
  ⟨exec_eq_work i (ready c), State.cur?_onActive rfl _⟩

theorem witness_CommandsKeepHostRegisters :
    ∃ t d, Instr.h2s ≠ .srst ∧ exec .h2s (ready (inst 0 0 1)) = .next t ∧ t.cur? = some d
      ∧ Instr.h2s.opcode ∉ [0x0F, 0x21, 0x23, 0x25, 0x27, 0x29] ∧ Instr.s2h.opcode ≠ 0x10 ∧ Instr.s2h.flags / 16 = 0
      ∧ Instr.h2s.opcode ∈ [0x00, 0x04, 0x0F, 0x10, 0x21, 0x23, 0x25, 0x27, 0x29] ∧ (Instr.perm 0 true true).flags / 16 = 1
      ∧ ∃ u e, exec (.bunm true true) (ready (inst 0 0 0)) = .next u ∧ u.cur? = some e :=
  ⟨_, _, by decide, (runs .h2s _).1, (runs .h2s _).2, by decide, by decide, by decide, by decide, by decide, _, _,
    (runs (.bunm true true) _).1, (runs (.bunm true true) _).2⟩

theorem witness_OutcomeCodes :
    ∃ t d, Instr.nop ≠ .srst ∧ exec .nop (ready (inst 0 0 0)) = .next t ∧ t.cur? = some d :=
  ⟨_, _, by decide, (runs .nop _).1, (runs .nop _).2⟩

/-- A failure, and a command that ends early with `W_OOR`. -/
theorem witness_FailureWritesNothing :
    statusCode (work testRom .h2s (inst 0 0 2049)).status = 0x12
      ∧ (let d := work testRom (.tchDec false) { inst 0 64 0 with chmode := 3#32, sb := cells 0 (List.replicate 928 0) }
         statusCode d.status = 0x04 ∧ statusStage d.status ≠ 13) := by decide +kernel

theorem witness_ResultIsFunctionOfInputs :
    ∃ t t' d d', SameInputs (inst 0 0 4) { inst 0 0 4 with cmd := 7#32, nerr := 5#32, stage := .s9 }
      ∧ exec .h2s (ready (inst 0 0 4)) = .next t
      ∧ exec .h2s (ready { inst 0 0 4 with cmd := 7#32, nerr := 5#32, stage := .s9 }) = .next t' ∧ t.cur? = some d ∧ t'.cur? = some d' :=
  ⟨_, _, _, _, ⟨rfl, rfl, rfl, rfl, rfl, rfl, rfl, rfl, fun b k => by cases b <;> rfl⟩, (runs .h2s _).1, (runs .h2s _).1,
    (runs .h2s _).2, (runs .h2s _).2⟩

theorem witness_StepKeepsSound :
    { holding [.write 0x8004 .word 0x10#32] with insts := [{ inst 0 0 4 with hb := cells 0 [1, 0, 1, 1] }] }.Sound
      ∧ ∃ t, step { holding [.write 0x8004 .word 0x10#32] with insts := [{ inst 0 0 4 with hb := cells 0 [1, 0, 1, 1] }] } = .next t := by
  refine ⟨⟨fun c hc => ?_, by decide⟩, _, rfl⟩
  obtain rfl := List.mem_singleton.mp hc
  exact ⟨fun b => by cases b <;> decide, by decide, by decide, by decide, by decide, by decide, by decide, by decide⟩

theorem witness_StepKeepsInBounds :
    romTablesWf testRom = true ∧ { ready (inst 0 0 4) with insts := [{ inst 0 0 4 with sb := cells 4095 [1] }] }.InBounds
      ∧ ∃ t, step { ready (inst 0 0 4) with insts := [{ inst 0 0 4 with sb := cells 4095 [1] }] } = .next t := by
  refine ⟨test_wf_tables, fun c hc b => ?_, _, rfl⟩
  obtain rfl := List.mem_singleton.mp hc
  cases b <;> decide

theorem witness_NopRule : (ready (inst 0 0 0)).cur? = some (inst 0 0 0) := rfl

/-- The operands of a command, as the clauses of a statement ask for them: `bad` lists operands that fail, `good` operands that
pass. The instance `inst a0 a1 a2` with each is the executing one of `ready`, by `ready_cur`. -/
def Clauses (bad good : List (Nat × Nat × Nat)) (ok : CoreInst → Bool) : Prop :=
  (bad.all fun x => !ok (inst x.1 x.2.1 x.2.2)) = true ∧ (good.all fun x => ok (inst x.1 x.2.1 x.2.2)) = true

theorem witness_UnpkRule :
    Clauses [(0, 0, 2049), (0, 4000, 97), (255, 0, 9)] [(255, 4088, 8), (256, 4096, 0), (0, 0, 2048)] fun c =>
      decide (c.a2.toNat ≤ vmax ∧ Fits c.a0 ((c.a2.toNat + 7) / 8) .ob ∧ Fits c.a1 c.a2.toNat .hb) := by
  refine ⟨?_, ?_⟩ <;> decide +kernel

theorem witness_PackRule :
    Clauses [(0, 0, 2049), (4000, 0, 97), (0, 255, 9)] [(4088, 255, 8), (4096, 256, 0), (0, 0, 2048)] fun c =>
      decide (c.a2.toNat ≤ vmax ∧ Fits c.a0 c.a2.toNat .hb ∧ Fits c.a1 ((c.a2.toNat + 7) / 8) .ob) := by
  refine ⟨?_, ?_⟩ <;> decide +kernel

theorem witness_H2sRule :
    Clauses [(0, 0, 2049), (4000, 0, 97), (0, 4096, 1)] [(4095, 4095, 1), (4096, 4096, 0), (2048, 2048, 2048)] fun c =>
      decide (c.a2.toNat ≤ vmax ∧ Fits c.a0 c.a2.toNat .hb ∧ Fits c.a1 c.a2.toNat .sb) := by
  refine ⟨?_, ?_⟩ <;> decide +kernel

theorem witness_S2hRule :
    Clauses [(0, 0, 2049), (4000, 0, 97), (0, 4096, 1)] [(4095, 4095, 1), (4096, 4096, 0), (2048, 2048, 2048)] fun c =>
      decide (c.a2.toNat ≤ vmax ∧ Fits c.a0 c.a2.toNat .sb ∧ Fits c.a1 c.a2.toNat .hb) := by
  refine ⟨?_, ?_⟩ <;> decide +kernel

/-- An absent descriptor, a present one without a table and one with a table. -/
theorem witness_descriptors :
    romConv testRom 6 = none ∧ romConv testRom 256 = none ∧ romConv testRom 1 = some (k5Desc 14 none)
      ∧ romConv testRom 3 = some (k5Desc 290 (some cs2Punc)) ∧ romCrc testRom 8 = none ∧ romCrc testRom 6 = some ⟨6, 0x2F, 0, 0x3F⟩
      ∧ romPerm testRom 4 = none ∧ romPerm testRom 0 = some ⟨456, 464, rows⟩ := ⟨rfl, rfl, rfl, rfl, rfl, rfl, rfl, rfl⟩

theorem witness_convWf : convWf (k5Desc 14 none) = true ∧ convWf (k5Desc 290 (some cs2Punc)) = true ∧ convWf tailbiting = true := by
  refine ⟨?_, ?_, ?_⟩ <;> decide +kernel

theorem witness_CencRule :
    (36 = (if false = true ∧ (k5Desc 14 none).punc.isSome = true then nmatched (k5Desc 14 none) else nfull (k5Desc 14 none))
      ∧ 456 = (if true = true ∧ (k5Desc 290 (some cs2Punc)).punc.isSome = true then nmatched (k5Desc 290 (some cs2Punc))
          else nfull (k5Desc 290 (some cs2Punc))))
    ∧ Clauses [(4083, 0, 14), (0, 4061, 14)] [(4082, 4060, 14), (4082, 4060, 13)]
        (fun c => decide (Fits c.a0 14 .hb ∧ Fits c.a1 36 .hb))
    ∧ Clauses [(4082, 4060, 13)] [(4082, 4060, 14)] (fun c => decide (c.a2.toNat = 14)) := by
  refine ⟨⟨?_, ?_⟩, ⟨?_, ?_⟩, ?_, ?_⟩ <;> decide +kernel

theorem witness_VdecRule :
    Clauses [(4061, 0, 36), (0, 4083, 36)] [(4060, 4082, 36), (4060, 4082, 35)] (fun c => decide (Fits c.a0 36 .sb ∧ Fits c.a1 14 .hb))
      ∧ Clauses [(4060, 4082, 35)] [(4060, 4082, 36)] (fun c => decide (c.a2.toNat = 36)) := by
  refine ⟨⟨?_, ?_⟩, ?_, ?_⟩ <;> decide +kernel

theorem witness_EncoderLengthAndTermination :
    (convWf (k5Desc 14 none) = true ∧ (binB 14 5).length = (k5Desc 14 none).len ∧ (k5Desc 14 none).term = .flush)
      ∧ convWf tailbiting = true ∧ (binB 14 5).length = tailbiting.len ∧ tailbiting.term = .tailbite
      ∧ ∀ s < numStates tailbiting, ∀ b, (trellisStep tailbiting s b).2 = (2 * s + b.toNat) % numStates tailbiting :=
  ⟨⟨witness_convWf.1, by decide, rfl⟩, witness_convWf.2.2, by decide, rfl, by decide⟩

theorem witness_GivenCodesHaveTheirGenerators :
    givenConv[1]? = some (k5Desc 14 none) ∧ (binB 14 5).length = (k5Desc 14 none).len ∧ 17 < (k5Desc 14 none).len + 4 :=
  ⟨rfl, by decide, by decide⟩

theorem witness_ViterbiInvertsEncoder :
    convWf (k5Desc 14 none) = true ∧ (k5Desc 14 none).term = .flush ∧ (∀ p ∈ (k5Desc 14 none).nextOut, p.1 ≠ p.2)
      ∧ (binB 14 5).length = (k5Desc 14 none).len := ⟨witness_convWf.1, rfl, by decide, by decide⟩

theorem witness_ErasuresDecodeToZeros : givenConv[5]? = some (k5Desc 185 none) := rfl

theorem witness_CrcsRule :
    Clauses [(0, 0, 2049), (4089, 0, 8), (0, 4091, 8)] [(4088, 4090, 8), (4096, 0, 0), (0, 0, 2048)] fun c =>
      decide (c.a2.toNat ≤ vmax ∧ Fits c.a0 c.a2.toNat .hb ∧ Fits c.a1 6 .hb) := by refine ⟨?_, ?_⟩ <;> decide +kernel

/-- A block with its parity, and with one bit of it flipped; both lie inside the buffer. -/
theorem witness_CrccRule :
    (let c := { inst 0 8 8 with hb := cells 0 (bin 14 0b01011010101110) }
     c.a2.toNat ≤ vmax ∧ Fits c.a0 8 .hb ∧ Fits c.a1 6 .hb ∧ crcBits ⟨6, 0x2F, 0, 0x3F⟩ (c.loadBits 0 8) = c.loadBits 8 6)
    ∧ (let c := { inst 0 8 8 with hb := cells 0 (bin 14 0b01011011101110) }
       crcBits ⟨6, 0x2F, 0, 0x3F⟩ (c.loadBits 0 8) ≠ c.loadBits 8 6)
    ∧ Clauses [(0, 0, 2049), (4089, 0, 8), (0, 4091, 8)] [(4088, 4090, 8)] fun c =>
        decide (c.a2.toNat ≤ vmax ∧ Fits c.a0 c.a2.toNat .hb ∧ Fits c.a1 6 .hb) := by
  refine ⟨?_, ?_, ?_, ?_⟩ <;> decide +kernel

theorem witness_CrcSingleBitSensitivity : crcWf ⟨6, 0x2F, 0, 0x3F⟩ = true ∧ 7 < (binB 8 5).length ∧ 5 < 6 := by decide

theorem witness_PuncRule :
    Clauses [(3509, 0, 588), (0, 3641, 588)] [(3508, 3640, 588), (3508, 3640, 456)]
        (fun c => decide (Fits c.a0 588 .sb ∧ Fits c.a1 456 .sb ∧ nfull (k5Desc 290 (some cs2Punc)) = 588
          ∧ nmatched (k5Desc 290 (some cs2Punc)) = 456))
      ∧ Clauses [(3508, 3640, 456)] [(3508, 3640, 588)] (fun c => decide (c.a2.toNat = 588)) := by
  refine ⟨⟨?_, ?_⟩, ?_, ?_⟩ <;> decide +kernel

theorem witness_DpunRule :
    Clauses [(3641, 0, 456), (0, 3509, 456)] [(3640, 3508, 456), (3640, 3508, 588)]
        (fun c => decide (Fits c.a0 456 .hb ∧ Fits c.a1 588 .hb))
      ∧ Clauses [(3640, 3508, 588)] [(3640, 3508, 456)] (fun c => decide (c.a2.toNat = 456)) := by
  refine ⟨⟨?_, ?_⟩, ?_, ?_⟩ <;> decide +kernel

theorem witness_PuncturingInverse :
    [0, 4, 11].Pairwise (· < ·) ∧ (∀ i ∈ [0, 4, 11], i < 12) ∧ 12 ≤ vmax ∧ (binB 12 5).length = 12
      ∧ (binB 9 5).length = 12 - [0, 4, 11].length := by decide

theorem witness_IlvRule :
    Clauses [(3641, 0, 0), (0, 3641, 0)] [(3640, 3640, 0)] (fun c => decide (Fits c.a0 456 .hb ∧ Fits c.a1 (4 * 114) .hb))
      ∧ Clauses [(3640, 3185, 0)] [(3640, 3184, 0)] (fun c => decide (Fits c.a0 456 .sb ∧ Fits c.a1 (8 * 114) .sb)) := by
  refine ⟨⟨?_, ?_⟩, ?_, ?_⟩ <;> decide +kernel

theorem witness_DilvRule :
    Clauses [(3185, 0, 0), (0, 3641, 0)] [(3184, 3640, 0)] (fun c => decide (Fits c.a0 (8 * 114) .hb ∧ Fits c.a1 456 .hb))
      ∧ ∃ t u d, exec (.ilv true false) (ready (inst 0 1024 0)) = .next t ∧ Fits (inst 0 1024 0).a0 456 .hb
        ∧ Fits (inst 0 1024 0).a1 (8 * 114) .hb ∧ Fits 3640#32 456 .hb
        ∧ exec (.dilv true false) (t.onActive fun e => { e with a0 := e.a1, a1 := 3640#32 }) = .next u ∧ u.cur? = some d :=
  ⟨⟨by decide +kernel, by decide +kernel⟩, _, _, _, rfl, by decide +kernel, by decide +kernel, by decide +kernel, rfl, rfl⟩

theorem witness_PermRule :
    Clauses [(3641, 0, 0), (0, 3633, 0)] [(3640, 3632, 0)] (fun c => decide (Fits c.a0 456 .hb ∧ Fits c.a1 464 .hb))
      ∧ Clauses [(3633, 0, 0), (0, 3641, 0)] [(3632, 3640, 0)] (fun c => decide (Fits c.a0 464 .sb ∧ Fits c.a1 456 .sb))
      ∧ permWf ⟨456, 464, rows⟩ = true := by
  refine ⟨⟨?_, ?_⟩, ⟨?_, ?_⟩, ?_⟩
  iterate 4 decide +kernel
  exact Option.all_some.symm.trans (List.all_eq_true.mp testRom_perms (some ⟨456, 464, rows⟩) List.mem_cons_self)

theorem witness_BmapRule :
    Clauses [(3983, 0, 0), (0, 3981, 0)] [(3982, 3980, 0)] fun c => decide (Fits c.a0 114 .sb ∧ Fits c.a1 116 .sb) := by
  refine ⟨?_, ?_⟩ <;> decide +kernel

/-- With `FO` the second operand may lie anywhere. -/
theorem witness_BunmRule :
    Clauses [(3981, 0, 0), (0, 3983, 0)] [(3980, 3982, 0)] (fun c => decide (Fits c.a0 116 .hb ∧ Fits c.a1 114 .hb))
      ∧ Clauses [(3981, 0, 0)] [(3980, 0xFFFFFFFF, 0)] (fun c => decide (Fits c.a0 116 .hb)) := by
  refine ⟨⟨?_, ?_⟩, ?_, ?_⟩ <;> decide +kernel

theorem witness_BmaptRule :
    Clauses [(3983, 0, 0), (0, 3981, 0)] [(3982, 3980, 0)] fun c => decide (Fits c.a0 114 .hb ∧ Fits c.a1 116 .hb) := by
  refine ⟨?_, ?_⟩ <;> decide +kernel

theorem witness_BunmtRule :
    Clauses [(3981, 0, 0), (0, 3983, 0)] [(3980, 3982, 0)] (fun c => decide (Fits c.a0 116 .sb ∧ Fits c.a1 114 .sb))
      ∧ Clauses [(3981, 0, 0)] [(3980, 0xFFFFFFFF, 0)] (fun c => decide (Fits c.a0 116 .sb)) := by
  refine ⟨⟨?_, ?_⟩, ?_, ?_⟩ <;> decide +kernel

/-! #### Soft areas written out by a function -/

/-- The soft buffer that holds `f k` at every `k < n`. -/
def sbOf (n : Nat) (f : Nat → Int) : Memory := (List.range n).map fun k => (k, tc8 (f k))

theorem read?_sbOf {n k : Nat} (f : Nat → Int) (h : k < n) : Memory.read? (sbOf n f) k = some (tc8 (f k)) := by
  have key : ∀ l : List Nat, k ∈ l → Memory.read? (l.map fun k => (k, tc8 (f k))) k = some (tc8 (f k)) := by
    intro l hl
    induction l with
    | nil => cases hl
    | cons a t ih =>
      simp only [List.map_cons, Memory.read?]
      by_cases ha : a = k
      · rw [if_pos ha, ha]
      · rw [if_neg ha]
        exact ih ((List.mem_cons.mp hl).resolve_left fun e => ha e.symm)
  exact key _ (List.mem_range.mpr h)

/-- A command sees the area as the function. -/
theorem loadSoft_sbOf (c : CoreInst) (n : Nat) (f : Nat → Int) (hf : ∀ k < n, sext8 (tc8 (f k)) = f k) :
    ({ c with sb := sbOf n f } : CoreInst).loadSoft 0 n = (List.range n).map f := by
  have h : ∀ k ∈ List.range n, ({ c with sb := sbOf n f } : CoreInst).cell .sb (0 + k) = tc8 (f k) := fun k hk => by
    rw [Nat.zero_add]
    show (Option.getD (Memory.read? (sbOf n f) k) _ : Byte) = _
    rw [read?_sbOf f (List.mem_range.mp hk)]
    rfl
  rw [CoreInst.loadSoft, CoreInst.load, List.map_map]
  exact List.map_congr_left fun k hk => by
    rw [Function.comp, h k hk]
    exact hf k (List.mem_range.mp hk)

/-- A soft area the command sees as the function `f`, its operand at offset 0. -/
def softBlock (n : Nat) (f : Nat → Int) : CoreInst := { inst 0 0 0 with sb := sbOf n f }

/-- Cells of such an area. -/
theorem gather_range {n : Nat} (f : Nat → Int) {idx : List Nat} (h : idx.all (· < n) = true) :
    gather ((List.range n).map f) 0 idx = idx.map f := by
  refine List.map_congr_left fun i hi => ?_
  have := of_decide_eq_true (List.all_eq_true.mp h i hi)
  simp [List.getD_eq_getElem?_getD, this]

/-- The four rows of i-bits of such an area, in coded-bit order: the cells of `rows`. -/
theorem rows_of_range (f : Nat → Int) : gather (unmapFour ((List.range 464).map f)) 0 (ilvCells 4) = rows.map f := by
  have h1 : unmapFour ((List.range 464).map f) = (unmapFour (List.range 464)).map f := by
    simp [unmapFour, burstAt, unmapBurst, List.map_flatMap, List.map_take, List.map_drop]
  have h2 : unmapFour (List.range 464) = (List.range 456).map fun q => q / 114 * 116 + burstPos (q % 114) := by decide +kernel
  have h3 : (ilvCells 4).map (fun q => q / 114 * 116 + burstPos (q % 114)) = rows := by decide +kernel
  rw [h1, h2, List.map_map, gather_range _ (by decide +kernel), ← h3, List.map_map]

/-- An area that holds ideal soft values of `u` at the listed cells, when `inv` finds the place of each. -/
theorem map_placed (u : List Bool) {cells : List Nat} (inv : Nat → Nat) (f : Nat → Int)
    (hf : (cells.all fun x => decide (f x = softOf (u.getD (inv x) false))) = true)
    (hi : cells.map inv = List.range u.length) : cells.map f = u.map softOf := by
  have h1 : cells.map f = cells.map fun x => softOf (u.getD (inv x) false) :=
    List.map_congr_left fun x hx => of_decide_eq_true (List.all_eq_true.mp hf x hx)
  have h2 : (List.range u.length).map (fun k => u.getD k false) = u :=
    List.ext_getElem (by simp) fun k h _ => by
      rw [List.length_map, List.length_range] at h
      simp [h]
  rw [h1, show (fun x => softOf (u.getD (inv x) false)) = (softOf ∘ (u.getD · false)) ∘ inv from rfl, ← List.map_map, hi,
    ← List.map_map, h2]

/-- The coded bit at a cell of the four-burst placement, and at one of the diagonal placement. -/
def rowsInv (x : Nat) : Nat := ilvInverse (x / 116 + 4 * (burstIndex (x % 116) % 2)) (burstIndex (x % 116))
def diagInv (x : Nat) : Nat := ilvInverse (x / 116) (burstIndex (x % 116))

theorem rows_inv : rows.map rowsInv = List.range 456 := by decide +kernel
theorem diag_inv : diagCells.map diagInv = List.range 456 := by decide +kernel

/-- Twenty-three zero octets, their coded bits, and whether they and an erased block pass the Fire check. -/
def zeros23 : List Byte := List.replicate 23 0#8
def zeroBits : List Bool := xcchCoded zeros23

theorem zeroBits_length : zeroBits.length = 456 := by decide +kernel

theorem zeroBlock_passes : (xcchDecodeCoded (zeroBits.map softOf)).ok = true := by decide +kernel

theorem erasures_fail : (xcchDecodeCoded (List.replicate 456 0)).ok = false := by decide +kernel

/-- Ideal soft values of `u` at the places that `inv` gives, `flag` at the flag cells. -/
def placed (u : List Bool) (inv : Nat → Nat) (flag : Bool) (x : Nat) : Int :=
  softOf (if x % 116 = 57 ∨ x % 116 = 58 then flag else u.getD (inv x) false)

theorem sext8_placed (u : List Bool) (inv : Nat → Nat) (flag : Bool) (x : Nat) :
    sext8 (tc8 (placed u inv flag x)) = placed u inv flag x := by
  unfold placed
  generalize (if x % 116 = 57 ∨ x % 116 = 58 then flag else u.getD (inv x) false) = b
  cases b <;> decide

theorem map_placed_diag (u : List Bool) (flag : Bool) (h : u.length = 456) : diagCells.map (placed u diagInv flag) = u.map softOf :=
  map_placed u diagInv _ (List.all_eq_true.mpr fun x hx => decide_eq_true (by
    rw [placed, if_neg (of_decide_eq_true (List.all_eq_true.mp
      (by decide +kernel : (diagCells.all fun x => decide ¬(x % 116 = 57 ∨ x % 116 = 58)) = true) x hx))])) (h ▸ diag_inv)

theorem map_placed_rows (u : List Bool) (flag : Bool) (h : u.length = 456) : rows.map (placed u rowsInv flag) = u.map softOf :=
  map_placed u rowsInv _ (List.all_eq_true.mpr fun x hx => decide_eq_true (by
    rw [placed, if_neg (of_decide_eq_true (List.all_eq_true.mp
      (by decide +kernel : (rows.all fun x => decide ¬(x % 116 = 57 ∨ x % 116 = 58)) = true) x hx))])) (h ▸ rows_inv)

/-! #### The channel commands -/

theorem witness_XcchTransform : zeros23.length = 23 ∧ (List.replicate 456 (0 : Int)).length = 456 := ⟨by decide, List.length_replicate⟩

theorem witness_XcchEncRule :
    Clauses [(234, 0, 0), (0, 3633, 0)] [(233, 3632, 0)] fun c => decide (Fits c.a0 23 .ob ∧ Fits c.a1 464 .hb) := by
  refine ⟨?_, ?_⟩ <;> decide +kernel

/-- The four bursts of the zero block, and an erased area. -/
def fourBursts : CoreInst := softBlock 464 (placed zeroBits rowsInv true)
def erased (n : Nat) : CoreInst := softBlock n fun _ => 0

theorem fourBursts_area : fourBursts.loadSoft 0 464 = (List.range 464).map (placed zeroBits rowsInv true) :=
  loadSoft_sbOf _ _ _ fun k _ => sext8_placed _ _ _ k

theorem erased_area (n : Nat) : (erased n).loadSoft 0 n = (List.range n).map fun _ => 0 := loadSoft_sbOf _ _ _ fun _ _ => by decide

theorem xcch_true : (xcchDecode (unmapFour (fourBursts.loadSoft 0 464))).ok = true := by
  rw [fourBursts_area, xcchDecode, rows_of_range, map_placed_rows _ _ zeroBits_length, zeroBlock_passes]

theorem xcch_false : (xcchDecode (unmapFour ((erased 464).loadSoft 0 464))).ok = false := by
  rw [erased_area, xcchDecode, rows_of_range, List.map_const', show rows.length = 456 by decide +kernel, erasures_fail]

/-- The 456 i-bits of four bursts, as the statement names them. -/
def rowsOf (c : CoreInst) : List Int :=
  (List.range 456).map fun q =>
    (c.cell .sb (c.a0.toNat + (q / 114 * 116 + (if q % 114 < 57 then q % 114 else q % 114 + 2)))).toInt

theorem rowsOf_eq (c : CoreInst) (h : c.a0 = 0#32) : rowsOf c = unmapFour (c.loadSoft 0 464) := by
  have h1 : unmapFour (c.loadSoft 0 464) = (unmapFour (List.range 464)).map fun k => (c.cell .sb k).toInt := by
    simp [CoreInst.loadSoft, CoreInst.load, unmapFour, burstAt, unmapBurst, List.map_flatMap, List.map_take, List.map_drop, sext8,
      Function.comp_def]
  have h2 : unmapFour (List.range 464) = (List.range 456).map fun q => q / 114 * 116 + (if q % 114 < 57 then q % 114 else q % 114 + 2) := by
    decide +kernel
  rw [h1, h2, List.map_map]
  simp [rowsOf, h, Function.comp_def]

theorem witness_XcchDecRule :
    Clauses [(3633, 0, 0), (0, 234, 0)] [(3632, 233, 0)] (fun c => decide (Fits c.a0 464 .sb ∧ Fits c.a1 23 .ob))
      ∧ (Fits fourBursts.a0 464 .sb ∧ Fits fourBursts.a1 23 .ob ∧ (xcchDecode (rowsOf fourBursts)).ok = true)
      ∧ Fits (erased 464).a0 464 .sb ∧ Fits (erased 464).a1 23 .ob ∧ (xcchDecode (rowsOf (erased 464))).ok = false := by
  rw [rowsOf_eq _ rfl, rowsOf_eq _ rfl, xcch_true, xcch_false]
  refine ⟨⟨?_, ?_⟩, ⟨?_, ?_, rfl⟩, ?_, ?_, rfl⟩ <;> decide +kernel

theorem witness_RachEncRule :
    Clauses [(256, 0, 0), (0, 4061, 0)] [(255, 4060, 0)] fun c => decide (Fits c.a0 1 .ob ∧ Fits c.a1 36 .hb) := by
  refine ⟨?_, ?_⟩ <;> decide +kernel

theorem witness_RachDecRule :
    Clauses [(4061, 0, 0), (0, 256, 0)] [(4060, 255, 0)] (fun c => decide (Fits c.a0 36 .sb ∧ Fits c.a1 1 .ob))
      ∧ (let passes : CoreInst → Prop := fun c =>
            let d := (vit (k5Desc 14 none) ((List.range 36).map fun k => (c.cell .sb (c.a0.toNat + k)).toInt)).1
            crcBits ⟨6, 0x2F, 0, 0x3F⟩ (d.take 8) = (List.range 6).map fun i => d.getD (8 + i) false ^^ c.bsic.getLsbD (5 - i)
         passes { inst 0 0 0 with bsic := 0x2B#32, sb := cells 0 (soft (bin 36 0b001101110110000111111111011110111111)) }
          ∧ ¬passes { inst 0 0 0 with bsic := 0x2A#32, sb := cells 0 (soft (bin 36 0b001101110110000111111111011110111111)) }) := by
  refine ⟨⟨?_, ?_⟩, ?_, ?_⟩ <;> decide +kernel

theorem witness_SchEncRule :
    Clauses [(253, 0, 0), (0, 4019, 0)] [(252, 4018, 0)] fun c => decide (Fits c.a0 4 .ob ∧ Fits c.a1 78 .hb) := by
  refine ⟨?_, ?_⟩ <;> decide +kernel

theorem witness_SchDecRule :
    Clauses [(4019, 0, 0), (0, 253, 0)] [(4018, 252, 0)] (fun c => decide (Fits c.a0 78 .sb ∧ Fits c.a1 4 .ob))
      ∧ (let passes : CoreInst → Prop := fun c =>
            let d := (vit (k5Desc 35 none) ((List.range 78).map fun k => (c.cell .sb (c.a0.toNat + k)).toInt)).1
            crcBits ⟨10, 0x175, 0, 0x3FF⟩ (d.take 25) = (d.drop 25).take 10
         passes { inst 0 0 0 with
            sb := cells 0 (soft (bin 78 0b001101000010001111001101110110110000100100010010000101100000111101110110110011)) }
          ∧ ¬passes (erased 78)) := by
  refine ⟨⟨?_, ?_⟩, ?_, ?_⟩ <;> decide +kernel

theorem witness_FixedChannelRoundTrips :
    zeros23.length = 23
      ∧ (∃ t u v d, exec .xcchEnc (ready (inst 0 0 0)) = .next t
          ∧ exec .h2s (t.onActive fun e => { e with a0 := e.a1, a1 := 0#32, a2 := 464#32 }) = .next u
          ∧ exec .xcchDec (u.onActive fun e => { e with a0 := 0#32, a1 := 233#32 }) = .next v ∧ v.cur? = some d)
      ∧ (∃ t u v d, exec .rachEnc (ready (inst 0 0 0)) = .next t
          ∧ exec .h2s (t.onActive fun e => { e with a0 := e.a1, a1 := 0#32, a2 := 36#32 }) = .next u
          ∧ exec .rachDec (u.onActive fun e => { e with a0 := 0#32, a1 := 255#32 }) = .next v ∧ v.cur? = some d)
      ∧ (∃ t u v d, exec .schEnc (ready (inst 0 0 0)) = .next t
          ∧ exec .h2s (t.onActive fun e => { e with a0 := e.a1, a1 := 0#32, a2 := 78#32 }) = .next u
          ∧ exec .schDec (u.onActive fun e => { e with a0 := 0#32, a1 := 252#32 }) = .next v ∧ v.cur? = some d)
      ∧ Fits 0#32 464 .hb ∧ Fits 0#32 464 .sb ∧ Fits 233#32 23 .ob ∧ Fits 255#32 1 .ob ∧ Fits 252#32 4 .ob :=
  ⟨by decide, ⟨_, _, _, _, rfl, rfl, rfl, rfl⟩, ⟨_, _, _, _, rfl, rfl, rfl, rfl⟩, ⟨_, _, _, _, rfl, rfl, rfl, rfl⟩,
    by decide +kernel, by decide +kernel, by decide +kernel, by decide +kernel, by decide +kernel⟩

/-! #### PDTCH -/

theorem witness_PdtchEncRule :
    Clauses [(203, 0, 54)] [(202, 0, 54), (256, 0, 0), (101, 0, 155)] (fun c => decide (Fits c.a0 c.a2.toNat .ob))
      ∧ (0 ∉ pdsOctets ∧ 24 ∉ pdsOctets ∧ 155 ∉ pdsOctets)
      ∧ (romPds testRom 3 = some cs4 ∧ cs4.octets = 54 ∧ (0xFF1FFF#32).getLsbD 3 = true ∧ (0xFF1FF7#32).getLsbD 3 = false
        ∧ ∀ n r, romPds testRom n = some r → r.octets = 54 → n = 3)
      ∧ Clauses [(0, 3633, 54)] [(0, 3632, 54)] (fun c => decide (Fits c.a1 (4 * 116) .hb)) := by
  refine ⟨⟨by decide +kernel, by decide +kernel⟩, by decide, ⟨romPds_cs4, rfl, by decide, by decide, fun n r h ho => ?_⟩, by decide +kernel,
    by decide +kernel⟩
  have hk := (romPds_known h).1
  rw [ho] at hk
  have hn : n < 13 := (List.getElem?_eq_some_iff.mp hk).1
  interval_cases n <;> first | rfl | exact absurd hk (by decide)

theorem witness_PdtchAreaLayout :
    romTablesWf testRom = true ∧ romPds testRom 3 = some cs4 ∧ (List.replicate 54 0#8).length = cs4.octets
      ∧ romPds testRom 0 = some givenPds0 ∧ zeros23.length = givenPds0.octets := ⟨test_wf_tables, romPds_cs4, by decide, rfl, by decide⟩

/-- The candidates of a configuration that enables slot 3 alone, slots 0 and 3, slot 0 alone, or none. -/
theorem candidates_three : candidates testRom false 0x8#32 = [(3, cs4)] := by
  rw [← cs4_eq]
  rfl

theorem candidates_both : candidates testRom false 0x9#32 = [(0, givenPds0), (3, cs4)] := by
  rw [← cs4_eq]
  rfl

theorem witness_SchemeDetection :
    detectScheme (candidates testRom false 0x8#32) (List.replicate 464 0) = some (3, cs4)
      ∧ detectScheme (candidates testRom false 0x9#32) (List.replicate 464 0) = some (0, givenPds0)
      ∧ detectScheme (candidates testRom true 0xFFFF#32) [] = none
      ∧ (romPat testRom cs4.usfpat = some ⟨8, 12, (List.range 8).map (binB 12)⟩
        ∧ patWf ⟨8, 12, (List.range 8).map (binB 12)⟩ = true ∧ (binB 12 7).length = 12)
      ∧ (amr0.idpat = some 1 ∧ ∃ p, romPat testRom 1 = some p ∧ patWf p = true ∧ (List.replicate 8 (0 : Int)).length = p.w) :=
  ⟨by rw [candidates_three]; rfl, by rw [candidates_both]; rfl, rfl, ⟨rfl, by decide, by decide⟩, rfl, _, rfl, by decide, rfl⟩

/-- The encoder input of CS4 with 54 zero octets, its flags as the scheme has them, USF 0. -/
def cs4Bits0 : List Bool := subEncode testRom cs4 1 cs4Sub (List.replicate 432 false) 0
def cs4Area : CoreInst := softBlock 464 (placed cs4Bits0 rowsInv true)

/-- The checks of the sub-blocks of CS4 over an area. -/
def cs4Checks (area : List Int) : List Bool :=
  let subs := decodeSubs testRom cs4 area
  subs.map fun d => (subCheck testRom cs4 d.num d.blk d.w ((findUsf testRom cs4 area subs).getD 0)).1

/-- What CS4 decodes from the cells of its one sub-block. -/
def cs4Check (m : List Int) : Bool :=
  let w := m.map hardOf
  (subCheck testRom cs4 1 cs4Sub w (usfDetect testRom cs4 (w.take 12))).1

theorem cs4Checks_eq (area : List Int) : cs4Checks area = [cs4Check (gather area 0 rows)] := by
  have h1 : subBlocks cs4 = [(1, cs4Sub)] := rfl
  have h2 : placeCells testRom cs4Sub = rows := rfl
  have h3 : cs4Sub.coded = false := rfl
  have h4 : cs4.usfmode = .inband := rfl
  have h5 : usfWidth testRom cs4 = 12 := rfl
  simp only [cs4Checks, decodeSubs, h1, List.map_cons, List.map_nil, findUsf, h4, h5, List.find?_cons, beq_self_eq_true,
    Option.map_some, Option.getD_some, subDecode, h2, h3, Bool.false_eq_true, if_false, cs4Check]

theorem cs4_true : cs4Checks (cs4Area.loadSoft 0 464) = [true] := by
  rw [cs4Area, softBlock, loadSoft_sbOf _ _ _ fun k _ => sext8_placed _ _ _ k, cs4Checks_eq, gather_range _ (by decide +kernel),
    map_placed_rows _ _ (by decide +kernel)]
  decide +kernel

theorem cs4_false : cs4Checks ((erased 464).loadSoft 0 464) = [false] := by
  rw [erased_area, cs4Checks_eq, gather_range _ (by decide +kernel), List.map_const', show rows.length = 456 by decide +kernel]
  decide +kernel

theorem detect_three (area : List Int) : detectScheme (candidates testRom false 0xFF0008#32) area = some (3, cs4) := by
  rw [show candidates testRom false 0xFF0008#32 = [(3, cs4)] by rw [← cs4_eq]; rfl]
  rfl

theorem detect_none (area : List Int) : detectScheme (candidates testRom false 0xFF0000#32) area = none := rfl

theorem detect_zero (area : List Int) : detectScheme (candidates testRom false 0xFF0001#32) area = some (0, givenPds0) := rfl

theorem witness_PdtchDecRule :
    Clauses [(3633, 0, 0), (0, 203, 0)] [(3632, 202, 0)] (fun c => decide (Fits c.a0 464 .sb ∧ Fits c.a1 54 .ob))
      ∧ detectScheme (candidates testRom false 0xFF0000#32) ((erased 464).loadSoft 0 464) = none
      ∧ detectScheme (candidates testRom false 0xFF0008#32) (cs4Area.loadSoft 0 464) = some (3, cs4) ∧ cs4.kind = .gen
      ∧ (romTablesWf testRom = true ∧ romPds testRom 3 = some cs4)
      ∧ cs4Checks (cs4Area.loadSoft 0 464) = [true]
      ∧ detectScheme (candidates testRom false 0xFF0008#32) ((erased 464).loadSoft 0 464) = some (3, cs4)
      ∧ cs4Checks ((erased 464).loadSoft 0 464) = [false] :=
  ⟨⟨by decide +kernel, by decide +kernel⟩, detect_none _, detect_three _, rfl, ⟨test_wf_tables, romPds_cs4⟩, cs4_true, detect_three _, cs4_false⟩

/-- The xCCH clauses of `PdtchDecRule`, with slot 0 alone enabled. -/
theorem witness_PdtchDecRule_xcch :
    (detectScheme (candidates testRom false 0xFF0001#32) (fourBursts.loadSoft 0 464) = some (0, givenPds0)
        ∧ givenPds0.kind = .xcch ∧ (xcchDecode (unmapFour (fourBursts.loadSoft 0 464))).ok = true)
      ∧ detectScheme (candidates testRom false 0xFF0001#32) ((erased 464).loadSoft 0 464) = some (0, givenPds0)
      ∧ (xcchDecode (unmapFour ((erased 464).loadSoft 0 464))).ok = false :=
  ⟨⟨detect_zero _, rfl, xcch_true⟩, detect_zero _, xcch_false⟩

/-! #### TCH -/

theorem witness_TchEncFacch :
    Clauses [(234, 0, 23), (0, 3169, 23)] [(233, 3168, 23)] (fun c => decide (Fits c.a0 c.a2.toNat .ob ∧ Fits c.a1 928 .hb))
      ∧ getField 5#32 0 3 = 5 ∧ getField 4#32 0 3 = 4 ∧ romTcs testRom 1 = none ∧ romTablesWf testRom = true :=
  ⟨⟨by decide +kernel, by decide +kernel⟩, by decide, by decide, rfl, test_wf_tables⟩

/-- Full rate in mode 0; AMR-FR mode 0 with a valid frame type, an invalid one and a request out of range. -/
theorem witness_TchEncSpeech :
    romTcs testRom 0 = some fullRate ∧ fullRate.octets = 33 ∧ 3 ∈ amrRange 3 ∧ romTcs testRom 3 = some amr0 ∧ amr0.octets = 12
      ∧ Fits 0#32 33 .ob ∧ Fits 3168#32 928 .hb
      ∧ (let ok : Word → Word → Bool → Bool := fun cfg a3 cmr =>
          let ft := getField a3 0 3
          let cm := getField a3 4 3
          cfg.getLsbD (4 * ft + 3) && (3 + getField cfg (4 * ft) 3 == 3) && (!cmr || cfg.getLsbD (4 * cm + 3))
            && decide ((if cmr then cm else ft) < idCount testRom amr0)
        ok 0x98#32 0#32 false = true ∧ ok 0x98#32 0x10#32 true = true ∧ ok 0x98#32 1#32 false = false ∧ ok 0x98#32 0x20#32 true = false
          ∧ ok 0x80000008#32 0x70#32 true = false) := by
  refine ⟨rfl, rfl, by decide, rfl, rfl, by decide +kernel, by decide +kernel, ?_⟩
  decide +kernel

theorem witness_DiagonalGeometry : (0 = 0 ∨ 0 = 1 ∨ 0 = 3) ∧ (1 = 0 ∨ 1 = 1 ∨ 1 = 3) ∧ (3 = 0 ∨ 3 = 1 ∨ 3 = 3) := by decide

/-- A diagonal block of coded bits with its flags. -/
def diagBlock (u : List Bool) (flag : Bool) : CoreInst := softBlock 928 (placed u diagInv flag)

theorem diagBlock_area (u : List Bool) (flag : Bool) : (diagBlock u flag).loadSoft 0 928 = (List.range 928).map (placed u diagInv flag) :=
  loadSoft_sbOf _ _ _ fun k _ => sext8_placed _ _ _ k

theorem diagCells_lt : diagCells.all (· < 928) = true := by decide +kernel

theorem diagBlock_coded (u : List Bool) (flag : Bool) (h : u.length = 456) :
    gather ((diagBlock u flag).loadSoft 0 928) 0 diagCells = u.map softOf := by
  rw [diagBlock_area, gather_range _ diagCells_lt, map_placed_diag u flag h]

theorem diagBlock_flags (u : List Bool) (flag : Bool) :
    gather ((diagBlock u flag).loadSoft 0 928) 0 diagFlags = List.replicate 8 (softOf flag) := by
  rw [diagBlock_area, gather_range _ (by decide)]
  rfl

theorem witness_TchDecFacch :
    Clauses [(3169, 0, 0), (0, 224, 0)] [(3168, 223, 0)] (fun c => decide (Fits c.a0 928 .sb ∧ Fits c.a1 33 .ob))
      ∧ 0 < ((gather ((diagBlock zeroBits true).loadSoft 0 928) 0 diagFlags).map fun x => -x).sum
      ∧ (xcchDecodeCoded (gather ((diagBlock zeroBits true).loadSoft 0 928) 0 diagCells)).ok = true := by
  rw [diagBlock_flags, diagBlock_coded _ _ zeroBits_length, zeroBlock_passes]
  refine ⟨⟨?_, ?_⟩, ?_, rfl⟩ <;> decide +kernel

/-- A stolen block whose coded bits are erased. -/
def stolenErased : CoreInst := softBlock 928 fun x => if x % 116 = 57 ∨ x % 116 = 58 then -127 else 0

theorem stolenErased_area :
    stolenErased.loadSoft 0 928 = (List.range 928).map fun x => if x % 116 = 57 ∨ x % 116 = 58 then -127 else 0 :=
  loadSoft_sbOf _ _ _ fun k _ => by split <;> decide

theorem witness_TchDecFacch_fails :
    0 < ((gather (stolenErased.loadSoft 0 928) 0 diagFlags).map fun x => -x).sum
      ∧ (xcchDecodeCoded (gather (stolenErased.loadSoft 0 928) 0 diagCells)).ok = false := by
  rw [stolenErased_area, gather_range _ (by decide), gather_range _ diagCells_lt,
    show diagCells.map (fun x => if x % 116 = 57 ∨ x % 116 = 58 then (-127 : Int) else 0) = List.replicate 456 0 by decide +kernel,
    erasures_fail]
  exact ⟨by decide, rfl⟩

/-- The coded bits of the full-rate frame of 33 zero octets. -/
def frBits0 : List Bool := speechEncode testRom fullRate (List.replicate 33 0#8) 0

theorem frBits0_length : frBits0.length = 456 := by decide +kernel

/-- Both checks of a decoded frame. -/
def frPasses (y : List Int) : Bool := (speechDecode testRom fullRate y).ok1 && (speechDecode testRom fullRate y).ok2

theorem frBits0_passes : frPasses (frBits0.map softOf) = true := by decide +kernel

theorem fr_erased : frPasses (List.replicate 456 0) = false := by decide +kernel

theorem erased_diag : gather ((erased 928).loadSoft 0 928) 0 diagCells = List.replicate 456 0 := by
  rw [erased_area, gather_range _ diagCells_lt, List.map_const', show diagCells.length = 456 by decide +kernel]

theorem witness_TchDecSpeech :
    (((gather ((diagBlock frBits0 false).loadSoft 0 928) 0 diagFlags).map fun x => -x).sum ≤ 0
      ∧ frPasses (gather ((diagBlock frBits0 false).loadSoft 0 928) 0 diagCells) = true)
    ∧ ((gather ((erased 928).loadSoft 0 928) 0 diagFlags).map fun x => -x).sum ≤ 0
    ∧ frPasses (gather ((erased 928).loadSoft 0 928) 0 diagCells) = false := by
  rw [diagBlock_flags, diagBlock_coded _ _ frBits0_length, frBits0_passes, erased_diag, fr_erased, erased_area,
    gather_range _ (by decide)]
  exact ⟨⟨by decide, rfl⟩, by decide, rfl⟩

/-- The AMR clauses: no record in mode 4; in mode 3 id 0 is detected in an erased area, valid or not, and selects a present or an
absent slot. -/
theorem witness_TchDecSpeech_amr :
    (∀ n ∈ amrRange 4, romTcs testRom n = none)
      ∧ (∀ n ∈ amrRange 3, n < 3 → romTcs testRom n = none) ∧ romTcs testRom 3 = some amr0 ∧ romTcs testRom 4 = none
      ∧ idWidth testRom amr0 = 8 ∧ idDetect testRom amr0 (gather ((erased 928).loadSoft 0 928) 0 (diagCells.take 8)) = 0
      ∧ ((0x8#32).getLsbD 3 = true ∧ 3 + getField 0x8#32 0 3 = 3) ∧ ((0x9#32).getLsbD 3 = true ∧ 3 + getField 0x9#32 0 3 = 4)
      ∧ (0x7#32).getLsbD 3 = false ∧ (0x80#32).getLsbD (4 * 1 + 3) = true := by
  rw [erased_area, gather_range _ (by decide +kernel)]
  refine ⟨?_, ?_, rfl, rfl, rfl, ?_, by decide, by decide, by decide, by decide⟩ <;> decide +kernel

end Sys2Proof.Tests
end

section
/-! SUPPORT. What one step can do, and what it leaves alone. `step` is given as an equation once (`step_eq_finish`), a bus
write as an inversion lemma once (`busWrite_cases`). From these follow the two frames of spec R8, R29 and R227: the
parameters are never written, and of the instances a transaction reaches the addressed one only. -/

namespace Sys2Proof.Machine

/-! ### One step as an equation -/

/-- What the command word `w` does where it executes: the work of the command it encodes, or `E_ILLCMD` (R63). -/
def commandWork (rom : Rom) (w : Word) : CoreInst → CoreInst :=
  match decode w with
  | .ok i => work rom i
  | .error _ => fun c => c.illegal w

/-- The state in which a step that took a transaction ends: a command it started has run to its end (R47, R49). -/
def Taken.finish : Taken → State
  | .answered s => s
  | .command w s => s.onActive (commandWork s.params.rom w)

@[simp] theorem Taken.finish_answered (s : State) : (Taken.answered s).finish = s := rfl
@[simp] theorem Taken.finish_command (w : Word) (s : State) :
    (Taken.command w s).finish = s.onActive (commandWork s.params.rom w) := rfl

theorem step_eq_self {s : State} (h : s.pending = []) : step s = .next s := by
  simp only [step, h]

theorem step_eq_finish {s : State} {ev : BusEvent} {rest : List BusEvent} (h : s.pending = ev :: rest) :
    step s = .next (takeEvent { s with pending := rest } ev).finish := by
  simp only [step, h]
  cases takeEvent { s with pending := rest } ev with
  | answered u => rfl
  | command w u =>
    simp only [Taken.finish_command, commandWork]
    cases decode w with
    | ok i => exact exec_eq_work i u
    | error e => rfl

/-! ### What a bus write can do (R44 to R46) -/

/-- A bus write gets a bus error, goes to a register other than `CMD`, writes one buffer cell, or starts a command. -/
theorem busWrite_cases (s : State) (addr : Nat) (w : Width) (v : Word) :
    busWrite s addr w v = .answered (s.answer .busError)
    ∨ (∃ i o off, locate s addr = some (i, o) ∧ windowTarget o = .reg off ∧ off ≠ offCmd
        ∧ busWrite s addr w v = .answered ({ s with insts := s.insts.modify i fun c => regWrite c off v }.answer .done))
    ∨ (∃ i o b k, locate s addr = some (i, o) ∧ windowTarget o = .cell b k
        ∧ busWrite s addr w v
          = .answered ({ s with insts := s.insts.modify i fun c => c.store b [(k, v.setWidth 8)] }.answer .done))
    ∨ ∃ i o, locate s addr = some (i, o) ∧ windowTarget o = .reg offCmd
        ∧ busWrite s addr w v = .command v (s.acceptCommand i v) := by
  unfold busWrite
  split
  next => exact .inl rfl
  next i o hl =>
    split
    next off ht =>
      split_ifs with ha hc
      · exact .inl rfl
      · exact .inr (.inr (.inr ⟨i, o, hl, hc ▸ ht, rfl⟩))
      · exact .inr (.inl ⟨i, o, off, hl, ht, hc, rfl⟩)
    next b k ht => exact .inr (.inr (.inl ⟨i, o, b, k, hl, ht, rfl⟩))
    next => exact .inl rfl

/-! ### The parameters are never written (R29) -/

theorem busWrite_finish_params (s : State) (addr : Nat) (w : Width) (v : Word) :
    (busWrite s addr w v).finish.params = s.params := by
  obtain h | ⟨i, o, off, -, -, -, h⟩ | ⟨i, o, b, k, -, -, h⟩ | ⟨i, o, -, -, h⟩ := busWrite_cases s addr w v
  all_goals simp [h]

theorem takeEvent_finish_params (s : State) (ev : BusEvent) : (takeEvent s ev).finish.params = s.params := by
  cases ev with
  | read addr w => rfl
  | write addr w v => exact busWrite_finish_params s addr w v
  | powerOn => rfl

theorem step_params {s t : State} (h : step s = .next t) : t.params = s.params := by
  cases hp : s.pending with
  | nil =>
    obtain rfl := Host.Outcome.next.inj ((step_eq_self hp).symm.trans h)
    rfl
  | cons ev rest =>
    obtain rfl := Host.Outcome.next.inj ((step_eq_finish hp).symm.trans h)
    exact takeEvent_finish_params _ ev

/-! ### The other instances are not touched (R8, R227) -/

theorem State.onActive_getElem?_of_ne {s : State} {j : Nat} (hj : j ≠ s.active) (f : CoreInst → CoreInst) :
    (s.onActive f).insts[j]? = s.insts[j]? :=
  List.getElem?_modify_ne f s.insts hj.symm

theorem busWrite_finish_getElem? {s : State} {addr i o j : Nat} (hl : locate s addr = some (i, o)) (hj : j ≠ i)
    (w : Width) (v : Word) : (busWrite s addr w v).finish.insts[j]? = s.insts[j]? := by
  have modify_frame : ∀ {i' o'}, locate s addr = some (i', o') → ∀ f, (s.insts.modify i' f)[j]? = s.insts[j]? := by
    intro i' o' hl' f
    obtain ⟨rfl, rfl⟩ := Prod.mk.inj (Option.some.inj (hl.symm.trans hl'))
    exact List.getElem?_modify_ne f s.insts hj.symm
  obtain h | ⟨i', o', off, hl', -, -, h⟩ | ⟨i', o', b, k, hl', -, h⟩ | ⟨i', o', hl', -, h⟩ := busWrite_cases s addr w v
  · simp [h]
  · simpa [h] using modify_frame hl' _
  · simpa [h] using modify_frame hl' _
  · obtain ⟨rfl, -⟩ := Prod.mk.inj (Option.some.inj (hl.symm.trans hl'))
    rw [h, Taken.finish_command, State.onActive_getElem?_of_ne (by simpa using hj)]
    exact modify_frame hl _

theorem takeEvent_finish_getElem? {s : State} {ev : BusEvent} {addr i o j : Nat}
    (hev : (∃ w, ev = .read addr w) ∨ ∃ w v, ev = .write addr w v) (hl : locate s addr = some (i, o)) (hj : j ≠ i) :
    (takeEvent s ev).finish.insts[j]? = s.insts[j]? := by
  obtain ⟨w, rfl⟩ | ⟨w, v, rfl⟩ := hev
  · rfl
  · exact busWrite_finish_getElem? hl hj w v

/-! ### The obligation -/

/-- Settles O12: the parameters by `step_params`, the other instances by `takeEvent_finish_getElem?`. -/
theorem stepStaysInItsInstance : Obligations.StepStaysInItsInstance := by
  refine ⟨fun s t h => step_params h, fun s t ev rest addr i o j hp hev hl hj h => ?_⟩
  obtain rfl := Host.Outcome.next.inj ((step_eq_finish hp).symm.trans h)
  exact takeEvent_finish_getElem? (s := { s with pending := rest }) hev hl hj

end Sys2Proof.Machine
end

section
/-! SUPPORT. The forms that R14 and R17 give the registers a command writes: every `STATUS` image is legal, `DETID` keeps its
reserved bits 0, and `SUBST` never shows a pass without its check. -/

namespace Sys2Proof.Machine

/-! ### Fields of a word -/

theorem getLsbD_setField (w : Word) {lo len : Nat} (v : Nat) {i : Nat} (hi : i < 32) :
    (setField w lo len v).getLsbD i = if lo ≤ i ∧ i < lo + len then v.testBit (i - lo) else w.getLsbD i := by
  simp only [setField, BitVec.getLsbD_or, BitVec.getLsbD_and, BitVec.getLsbD_not, BitVec.getLsbD_ofNat, hi, decide_true,
    Bool.true_and, Nat.testBit_mul_two_pow, Nat.testBit_two_pow_sub_one, Nat.testBit_mod_two_pow]
  by_cases hlo : lo ≤ i
  · by_cases hhi : i < lo + len
    · simp [hlo, hhi, show i - lo < len by omega]
    · simp [hlo, hhi, show ¬i - lo < len by omega]
  · simp [hlo]

/-- A word is 0 under a mask when it has no bit of the mask. -/
theorem and_eq_zero_of_bits {w m : Word} (h : ∀ i < 32, m.getLsbD i = true → w.getLsbD i = false) : w &&& m = 0#32 := by
  refine BitVec.eq_of_getLsbD_eq fun i hi => ?_
  rw [BitVec.getLsbD_and, BitVec.getLsbD_zero]
  cases hm : m.getLsbD i with
  | false => exact Bool.and_false _
  | true => rw [h i hi hm, Bool.false_and]

/-! ### `DETID` (R17) -/

/-- The reserved bits of `DETID` are 0. -/
def detidForm (w : Word) : Bool := w &&& 0xFE00FE00#32 == 0#32

theorem detidForm_iff {w : Word} :
    detidForm w = true ↔ ∀ i < 32, (0xFE00FE00#32).getLsbD i = true → w.getLsbD i = false := by
  rw [detidForm, beq_iff_eq]
  refine ⟨fun h i hi hm => ?_, and_eq_zero_of_bits⟩
  have := congrArg (BitVec.getLsbD · i) h
  simpa [hm] using this

/-- A field apart from the reserved bits keeps the form. -/
theorem detidForm_setField {w : Word} (h : detidForm w = true) {lo len : Nat} (v : Nat)
    (hf : ∀ i < 32, lo ≤ i → i < lo + len → (0xFE00FE00#32).getLsbD i = false) : detidForm (setField w lo len v) = true := by
  refine detidForm_iff.mpr fun i hi hm => ?_
  rw [getLsbD_setField w v hi, if_neg]
  · exact detidForm_iff.mp h i hi hm
  · rintro ⟨hlo, hhi⟩
    exact Bool.noConfusion ((hf i hi hlo hhi).symm.trans hm)

theorem detidForm_detidScheme {w : Word} (h : detidForm w = true) (n : Nat) : detidForm (detidScheme w n) = true :=
  detidForm_setField (detidForm_setField h n (by decide)) 1 (by decide)

theorem detidForm_detidId {w : Word} (h : detidForm w = true) (n : Nat) : detidForm (detidId w n) = true :=
  detidForm_setField (detidForm_setField h n (by decide)) 1 (by decide)

/-! ### `SUBST` (R17) -/

/-- The reserved bits of `SUBST` are 0, and no sub-block has passed that was not checked. -/
def substForm (w : Word) : Bool := w &&& 0xFFFFF8F8#32 == 0#32 && (w >>> 8) &&& ~~~w &&& 0x00000007#32 == 0#32

theorem substForm_iff {w : Word} :
    substForm w = true ↔ (∀ i < 32, (0xFFFFF8F8#32).getLsbD i = true → w.getLsbD i = false)
      ∧ ∀ i < 3, w.getLsbD (8 + i) = true → w.getLsbD i = true := by
  simp only [substForm, Bool.and_eq_true, beq_iff_eq]
  constructor
  · rintro ⟨hres, hpass⟩
    refine ⟨fun i hi hm => ?_, fun i hi hp => ?_⟩
    · have := congrArg (BitVec.getLsbD · i) hres
      simpa [hm] using this
    · have := congrArg (BitVec.getLsbD · i) hpass
      interval_cases i <;> simpa [hp] using this
  · rintro ⟨hres, hpass⟩
    refine ⟨and_eq_zero_of_bits hres, and_eq_zero_of_bits fun i hi hm => ?_⟩
    have hi3 : i < 3 := by
      by_contra hge
      have : ∀ i < 32, 3 ≤ i → (0x00000007#32).getLsbD i = false := by decide
      exact Bool.noConfusion ((this i hi (Nat.le_of_not_lt hge)).symm.trans hm)
    have := hpass i hi3
    rw [BitVec.getLsbD_and, BitVec.getLsbD_ushiftRight, BitVec.getLsbD_not]
    cases hp : w.getLsbD (8 + i) with
    | false => rfl
    | true => rw [this hp]; simp

theorem getLsbD_substCheck (w : Word) (n : Nat) (ok : Bool) {i : Nat} (hi : i < 32) :
    (substCheck w n ok).getLsbD i = if i = 8 + n then ok else if i = n then true else w.getLsbD i := by
  have hone : ∀ lo, lo ≤ i ∧ i < lo + 1 ↔ i = lo := by omega
  rw [substCheck, getLsbD_setField _ _ hi, getLsbD_setField _ _ hi]
  simp only [hone]
  split_ifs with hpass hcheck
  · subst hpass
    cases ok <;> simp
  · subst hcheck
    simp
  · rfl

theorem substForm_substCheck {w : Word} (h : substForm w = true) {n : Nat} (hn : n < 3) (ok : Bool) :
    substForm (substCheck w n ok) = true := by
  obtain ⟨hres, hpass⟩ := substForm_iff.mp h
  refine substForm_iff.mpr ⟨fun i hi hm => ?_, fun i hi hp => ?_⟩
  · have hne : i ≠ 8 + n ∧ i ≠ n := by
      constructor <;> intro he <;> rw [he] at hm <;> interval_cases n <;> exact absurd hm (by decide)
    rw [getLsbD_substCheck w n ok hi, if_neg hne.1, if_neg hne.2, hres i hi hm]
  · rw [getLsbD_substCheck w n ok (by omega), if_neg (by omega)]
    split
    · rfl
    · rw [getLsbD_substCheck w n ok (by omega), if_neg (by omega), if_neg (by omega)] at hp
      exact hpass i hi hp

/-- A row of checks, each of one of the three sub-blocks, keeps the form. -/
theorem substForm_foldl {α : Type} (num : α → Nat) (ok : α → Bool) {l : List α} (hl : ∀ x ∈ l, num x < 3) {w : Word}
    (h : substForm w = true) : substForm (l.foldl (fun w x => substCheck w (num x) (ok x)) w) = true := by
  induction l generalizing w with
  | nil => exact h
  | cons x l ih =>
    exact ih (fun y hy => hl y (List.mem_cons_of_mem _ hy)) (substForm_substCheck h (hl x List.mem_cons_self) (ok x))

/-! ### `STATUS` (R14, R217) -/

theorem statusImage_toNat {opc : Nat} (ho : opc < 256) (code : Code) (fl : CmdFlags) (st : Stage) :
    (statusImage opc code fl st).toNat
      = codeNum code + 0x100 + 0x200 * (crcFlag code).toNat + 0x400 * fl.oor.toNat + 0x800 * fl.facch.toNat
        + 0x1000 * stageNum st + 0x10000 * opc := by
  have h1 : codeNum code < 256 := by cases code <;> decide
  have h2 : stageNum st ≤ 13 := by cases st <;> decide
  have h3 := Bool.toNat_le (crcFlag code)
  have h4 := Bool.toNat_le fl.oor
  have h5 := Bool.toNat_le fl.facch
  rw [statusImage, BitVec.toNat_ofNat]
  omega

theorem getLsbD_of_div_mod {w : Word} {i : Nat} {b : Bool} (h : w.toNat / 2 ^ i % 2 = b.toNat) : w.getLsbD i = b := by
  rw [BitVec.getLsbD, Nat.testBit_eq_decide_div_mod_eq, h]
  cases b <;> rfl

/-- Every `STATUS` that a command can end with has a form that R217 allows. -/
theorem statusLegal_statusImage {opc : Nat} (ho : opc < 256) {code : Code} {fl : CmdFlags} (st : Stage)
    (hoor : code = .wOor → fl.oor = true) : statusLegal (statusImage opc code fl st) = true := by
  have hw := statusImage_toNat ho code fl st
  have h1 : codeNum code < 256 := by cases code <;> decide
  have h2 : stageNum st ≤ 13 := by cases st <;> decide
  have h3 := Bool.toNat_le (crcFlag code)
  have h4 := Bool.toNat_le fl.oor
  have h5 := Bool.toNat_le fl.facch
  generalize statusImage opc code fl st = w at hw ⊢
  have hcode : statusCode w = codeNum code := by simp only [statusCode, getField]; omega
  have hdone : w.getLsbD 8 = true := getLsbD_of_div_mod (by rw [Bool.toNat_true]; omega)
  have hcrcf : w.getLsbD 9 = crcFlag code := getLsbD_of_div_mod (by omega)
  have hoorBit : w.getLsbD 10 = fl.oor := getLsbD_of_div_mod (by omega)
  have hstage : statusStage w ≤ 13 := by simp only [statusStage, getField]; omega
  have htop : getField w 24 8 = 0 := by simp only [getField]; omega
  simp only [statusLegal, hcode, hdone, hcrcf, hoorBit, hstage, htop, decide_true]
  refine (Bool.or_eq_true _ _).mpr (.inr ?_)
  cases code with
  | wOor => rw [hoor rfl]; rfl
  | _ => cases fl.oor <;> rfl

end Sys2Proof.Machine
end

section
/-! SUPPORT. How a command ends, said once for two instances that agree on what a command reads (R21): both end with the same
legal results, and both store the same cells of the one buffer that the command has its destination in, or none. What a
command leaves unchanged, what it keeps sound and what its result depends on are all read off from `work_endAlike`. -/

namespace Sys2Proof.Machine

/-! ### Results in their form -/

/-- The results of a command have the forms of R14 and R17. -/
structure Results.Legal (r : Results) : Prop where
  status : statusLegal r.status = true
  detid : detidForm r.detid = true
  subst : substForm r.subst = true

theorem detidForm_zero : detidForm 0#32 = true := by decide

theorem substForm_zero : substForm 0#32 = true := by decide

theorem substForm_checked (ok : Bool) : substForm (if ok then 0x00000202#32 else 0x00000002#32) = true := by
  cases ok <;> decide

/-- Results with `SUBST` still 0. -/
theorem Results.Legal.of_detid {w nerr nbits rlen detid steal : Word} (hw : statusLegal w = true)
    (hd : detidForm detid = true) :
    Results.Legal { status := w, nerr := nerr, nbits := nbits, rlen := rlen, detid := detid, steal := steal } :=
  ⟨hw, hd, substForm_zero⟩

theorem substForm_oneCheck (ok : Bool) : substForm (substCheck 0#32 1 ok) = true :=
  substForm_substCheck substForm_zero (by decide) ok

theorem checkedResults_legal {okStatus failStatus : Word} (hok : statusLegal okStatus = true)
    (hfail : statusLegal failStatus = true) (rlen : Word) (ok : Bool) (ne nb : Nat) (steal : Word) :
    (checkedResults okStatus failStatus rlen ok ne nb steal).Legal := by
  cases ok
  · exact ⟨hfail, detidForm_zero, substForm_checked false⟩
  · exact ⟨hok, detidForm_zero, substForm_checked true⟩

theorem pdtchResults_legal {detid subst : Word} (hd : detidForm detid = true) (hs : substForm subst = true) (pass oor : Bool)
    (octets ne nb : Nat) (steal : Word) : (pdtchResults pass oor octets ne nb detid steal subst).Legal := by
  refine ⟨?_, hd, hs⟩
  cases pass <;> cases oor <;> simp only [pdtchResults, if_true, if_false, Bool.false_eq_true] <;> decide

theorem tchResults_legal {detid subst : Word} (hd : detidForm detid = true) (hs : substForm subst = true) (pass : Bool)
    (fl : CmdFlags) (octets ne nb : Nat) (steal : Word) : (tchResults pass fl octets ne nb detid steal subst).Legal := by
  refine ⟨?_, hd, hs⟩
  cases pass
  · exact statusLegal_statusImage (by decide) _ fun h => by cases h
  · refine statusLegal_statusImage (by decide) _ fun h => ?_
    by_contra hoor
    rw [if_neg hoor] at h
    cases h

theorem detidForm_pdtchDetid (n : Nat) (usf : Option Nat) : detidForm (pdtchDetid n usf) = true := by
  cases usf with
  | none => exact detidForm_detidScheme detidForm_zero n
  | some u => exact detidForm_detidId (detidForm_detidScheme detidForm_zero n) u

theorem substForm_speechSubst (t : TcsRec) (r : SpeechResult) : substForm (speechSubst t r) = true := by
  unfold speechSubst
  split
  · exact substForm_substCheck (substForm_oneCheck _) (by decide) _
  · exact substForm_oneCheck _

/-- The sub-blocks of a scheme are numbered 0, 1 and 2 (R176). -/
theorem decodeSubs_num_lt {rom : Rom} {r : PdsRec} {area : List Int} {d : SubDecoded} (h : d ∈ decodeSubs rom r area) :
    d.num < 3 := by
  obtain ⟨x, hx, rfl⟩ := List.mem_map.mp h
  obtain ⟨y, hy, hyx⟩ := List.mem_filterMap.mp hx
  obtain ⟨b, -, rfl⟩ := Option.map_eq_some_iff.mp hyx
  simp only [List.mem_cons, List.not_mem_nil, or_false] at hy
  rcases hy with rfl | rfl | rfl
  · exact (by decide : 0 < 3)
  · exact (by decide : 1 < 3)
  · exact (by decide : 2 < 3)

/-! ### Two instances with the same inputs -/

section
variable {c c' : CoreInst}

theorem SameInputs.refl (c : CoreInst) : SameInputs c c := ⟨rfl, rfl, rfl, rfl, rfl, rfl, rfl, rfl, fun _ _ => rfl⟩

theorem SameInputs.load (h : SameInputs c c') (b : Buf) (a len : Nat) : c.load b a len = c'.load b a len :=
  CoreInst.load_congr (h.cells b) a len

theorem SameInputs.loadBits (h : SameInputs c c') (a len : Nat) : c.loadBits a len = c'.loadBits a len :=
  congrArg (List.map bitOf) (h.load .hb a len)

theorem SameInputs.loadSoft (h : SameInputs c c') (a len : Nat) : c.loadSoft a len = c'.loadSoft a len :=
  congrArg (List.map sext8) (h.load .sb a len)

theorem SameInputs.amrEncodeId (h : SameInputs c c') (rom : Rom) (t : TcsRec) (m s : Nat) (cmr : Bool) :
    amrEncodeId rom t m s cmr c = amrEncodeId rom t m s cmr c' := by
  simp only [Machine.amrEncodeId, h.a3, h.amrcfg]

/-! ### Ending alike -/

/-- The buffer that a command has its destination in; `FO` switches the destination of `BUNM` and `BUNMT` off (R131, R133). -/
def destOf : Instr → Option Buf
  | .nop | .crcc _ | .srst | .bunm true _ | .bunmt _ true _ => none
  | .cenc _ _ | .vdec _ _ | .crcs _ | .unpk _ | .s2h | .xcchEnc | .rachEnc | .schEnc | .pdtchEnc | .tchEnc _ => some .hb
  | .pack _ | .xcchDec | .rachDec | .schDec | .pdtchDec _ | .tchDec _ => some .ob
  | .h2s => some .sb
  | .punc _ m | .dpun _ m | .ilv _ m | .dilv _ m | .perm _ _ m => some (bufOf m)
  | .bmap _ _ m | .bmapt _ _ m | .bunm false m | .bunmt _ false m => some (bufOf m)

/-- Two instances `c` and `c'` end a command with the same legal results, having stored nothing or the same cells of the
destination buffer. -/
inductive EndAlike (dst : Option Buf) (c c' : CoreInst) : CoreInst → CoreInst → Prop
  | ended {r : Results} {st : Stage} (hr : r.Legal) :
    EndAlike dst c c' (c.ended r st) (c'.ended r st)
  | storing {b : Buf} {ws : List Host.Cell} {r : Results} {st : Stage} (hb : dst = some b)
    (hr : r.Legal) :
    EndAlike dst c c' ((c.store b ws).ended r st) ((c'.store b ws).ended r st)

/-- A command that ends with `DETID` and `SUBST` still 0. -/
theorem EndAlike.plain {dst : Option Buf} {w nerr nbits rlen steal : Word} {st : Stage} (hw : statusLegal w = true) :
    EndAlike dst c c' (c.ended { status := w, nerr := nerr, nbits := nbits, rlen := rlen, steal := steal } st)
      (c'.ended { status := w, nerr := nerr, nbits := nbits, rlen := rlen, steal := steal } st) :=
  .ended (.of_detid hw detidForm_zero)

/-- A command that stores and ends with `DETID` and `SUBST` still 0. -/
theorem EndAlike.storingPlain {dst : Option Buf} {b : Buf} {ws : List Host.Cell} {w nerr nbits rlen steal : Word} {st : Stage}
    (hb : dst = some b) (hw : statusLegal w = true) :
    EndAlike dst c c' ((c.store b ws).ended { status := w, nerr := nerr, nbits := nbits, rlen := rlen, steal := steal } st)
      ((c'.store b ws).ended { status := w, nerr := nerr, nbits := nbits, rlen := rlen, steal := steal } st) :=
  .storing hb (.of_detid hw detidForm_zero)

theorem EndAlike.ite {dst : Option Buf} {P : Prop} [Decidable P] {x x' y y' : CoreInst} (hx : EndAlike dst c c' x x')
    (hy : EndAlike dst c c' y y') : EndAlike dst c c' (if P then x else y) (if P then x' else y') := by
  by_cases h : P
  · rwa [if_pos h, if_pos h]
  · rwa [if_neg h, if_neg h]

/-! ### Utility commands -/

theorem nopCmd_endAlike : EndAlike (destOf .nop) c c' (nopCmd c) (nopCmd c') := by
  simp only [nopCmd_eq]
  exact .plain (by decide)

theorem unpkCmd_endAlike (h : SameInputs c c') (msbf : Bool) :
    EndAlike (destOf (.unpk msbf)) c c' (unpkCmd msbf c) (unpkCmd msbf c') := by
  simp only [unpkCmd_eq, h.a0, h.a1, h.a2, h.load]
  exact .ite (.storingPlain rfl (by decide)) (.plain (by decide))

theorem packCmd_endAlike (h : SameInputs c c') (msbf : Bool) :
    EndAlike (destOf (.pack msbf)) c c' (packCmd msbf c) (packCmd msbf c') := by
  simp only [packCmd_eq, h.a0, h.a1, h.a2, h.loadBits]
  exact .ite (.storingPlain rfl (by decide)) (.plain (by decide))

theorem h2sCmd_endAlike (h : SameInputs c c') : EndAlike (destOf .h2s) c c' (h2sCmd c) (h2sCmd c') := by
  simp only [h2sCmd_eq, h.a0, h.a1, h.a2, h.loadBits]
  exact .ite (.storingPlain rfl (by decide)) (.plain (by decide))

theorem s2hCmd_endAlike (h : SameInputs c c') : EndAlike (destOf .s2h) c c' (s2hCmd c) (s2hCmd c') := by
  simp only [s2hCmd_eq, h.a0, h.a1, h.a2, h.loadSoft]
  exact .ite (.storingPlain rfl (by decide)) (.plain (by decide))

/-! ### The engines -/

theorem cencCmd_endAlike (h : SameInputs c c') (rom : Rom) (d : Nat) (p : Bool) :
    EndAlike (destOf (.cenc d p)) c c' (cencCmd rom d p c) (cencCmd rom d p c') := by
  cases hd : romConv rom d with
  | none =>
    simp only [cencCmd_absent rom d p _ hd]
    exact .plain (by decide)
  | some cd =>
    simp only [cencCmd_eq rom d p _ hd, h.a0, h.a1, h.a2, h.loadBits]
    exact .ite (.ite (.storingPlain rfl (by decide)) (.plain (by decide))) (.plain (by decide))

theorem vdecCmd_endAlike (h : SameInputs c c') (rom : Rom) (d : Nat) (p : Bool) :
    EndAlike (destOf (.vdec d p)) c c' (vdecCmd rom d p c) (vdecCmd rom d p c') := by
  cases hd : romConv rom d with
  | none =>
    simp only [vdecCmd_absent rom d p _ hd]
    exact .plain (by decide)
  | some cd =>
    simp only [vdecCmd_eq rom d p _ hd, h.a0, h.a1, h.a2, h.loadSoft]
    exact .ite (.ite (.storingPlain rfl (by decide)) (.plain (by decide))) (.plain (by decide))

theorem crcsCmd_endAlike (h : SameInputs c c') (rom : Rom) (p : Nat) :
    EndAlike (destOf (.crcs p)) c c' (crcsCmd rom p c) (crcsCmd rom p c') := by
  cases hp : romCrc rom p with
  | none =>
    simp only [crcsCmd_absent rom p _ hp]
    exact .plain (by decide)
  | some q =>
    simp only [crcsCmd_eq rom p _ hp, h.a0, h.a1, h.a2, h.loadBits]
    exact .ite (.storingPlain rfl (by decide)) (.plain (by decide))

theorem crccCmd_endAlike (h : SameInputs c c') (rom : Rom) (p : Nat) :
    EndAlike (destOf (.crcc p)) c c' (crccCmd rom p c) (crccCmd rom p c') := by
  cases hp : romCrc rom p with
  | none =>
    simp only [crccCmd_absent rom p _ hp]
    exact .plain (by decide)
  | some q =>
    simp only [crccCmd_eq rom p _ hp, h.a0, h.a1, h.a2, h.loadBits]
    have hpass : Results.Legal { status := 0x0004C100#32, subst := 0x00000202#32 } :=
      ⟨by decide, detidForm_zero, substForm_checked true⟩
    have hfail : Results.Legal { status := 0x0004C301#32, subst := 0x00000002#32 } :=
      ⟨by decide, detidForm_zero, substForm_checked false⟩
    exact .ite (.ite (.ended hpass) (.ended hfail)) (.plain (by decide))

theorem puncCmd_endAlike (h : SameInputs c c') (rom : Rom) (d : Nat) (m : Bool) :
    EndAlike (destOf (.punc d m)) c c' (puncCmd rom d m c) (puncCmd rom d m c') := by
  cases hd : romConv rom d with
  | none =>
    simp only [puncCmd_absent rom d m _ hd]
    exact .plain (by decide)
  | some cd =>
    simp only [puncCmd_eq rom d m _ hd, h.a0, h.a1, h.a2, h.load]
    exact .ite (.ite (.storingPlain rfl (by decide)) (.plain (by decide))) (.plain (by decide))

theorem dpunCmd_endAlike (h : SameInputs c c') (rom : Rom) (d : Nat) (m : Bool) :
    EndAlike (destOf (.dpun d m)) c c' (dpunCmd rom d m c) (dpunCmd rom d m c') := by
  cases hd : romConv rom d with
  | none =>
    simp only [dpunCmd_absent rom d m _ hd]
    exact .plain (by decide)
  | some cd =>
    simp only [dpunCmd_eq rom d m _ hd, h.a0, h.a1, h.a2, h.load]
    exact .ite (.ite (.storingPlain rfl (by decide)) (.plain (by decide))) (.plain (by decide))

theorem ilvCmd_endAlike (h : SameInputs c c') (var m : Bool) :
    EndAlike (destOf (.ilv var m)) c c' (ilvCmd var m c) (ilvCmd var m c') := by
  simp only [ilvCmd_eq, h.a0, h.a1, h.load]
  exact .ite (.storingPlain rfl (by decide)) (.plain (by decide))

theorem dilvCmd_endAlike (h : SameInputs c c') (var m : Bool) :
    EndAlike (destOf (.dilv var m)) c c' (dilvCmd var m c) (dilvCmd var m c') := by
  simp only [dilvCmd_eq, h.a0, h.a1, h.load]
  exact .ite (.storingPlain rfl (by decide)) (.plain (by decide))

theorem permCmd_endAlike (h : SameInputs c c') (rom : Rom) (t : Nat) (inv m : Bool) :
    EndAlike (destOf (.perm t inv m)) c c' (permCmd rom t inv m c) (permCmd rom t inv m c') := by
  cases ht : romPerm rom t with
  | none =>
    simp only [permCmd_absent rom t inv m _ ht]
    exact .plain (by decide)
  | some r =>
    simp only [permCmd_eq rom t inv m _ ht, h.a0, h.a1, h.load]
    exact .ite (.storingPlain rfl (by decide)) (.plain (by decide))

theorem bmapCmd_endAlike (h : SameInputs c c') (hl hu m : Bool) :
    EndAlike (destOf (.bmap hl hu m)) c c' (bmapCmd hl hu m c) (bmapCmd hl hu m c') := by
  simp only [bmapCmd_eq, h.a0, h.a1, h.load]
  exact .ite (.storingPlain rfl (by decide)) (.plain (by decide))

theorem bmaptCmd_endAlike (h : SameInputs c c') (odd flag m : Bool) :
    EndAlike (destOf (.bmapt odd flag m)) c c' (bmaptCmd odd flag m c) (bmaptCmd odd flag m c') := by
  simp only [bmaptCmd_eq, h.a0, h.a1, h.load]
  exact .ite (.storingPlain rfl (by decide)) (.plain (by decide))

theorem bunmCmd_endAlike (h : SameInputs c c') (fo m : Bool) :
    EndAlike (destOf (.bunm fo m)) c c' (bunmCmd fo m c) (bunmCmd fo m c') := by
  simp only [bunmCmd_eq, h.a0, h.a1, h.load, h.cells]
  cases fo with
  | false => exact .ite (.storingPlain rfl (by decide)) (.plain (by decide))
  | true => exact .ite (.plain (by decide)) (.plain (by decide))

theorem bunmtCmd_endAlike (h : SameInputs c c') (odd fo m : Bool) :
    EndAlike (destOf (.bunmt odd fo m)) c c' (bunmtCmd odd fo m c) (bunmtCmd odd fo m c') := by
  simp only [bunmtCmd_eq, h.a0, h.a1, h.load, h.cells]
  cases fo with
  | false => exact .ite (.storingPlain rfl (by decide)) (.plain (by decide))
  | true => exact .ite (.plain (by decide)) (.plain (by decide))

/-! ### The fixed-length channels -/

theorem xcchEncCmd_endAlike (h : SameInputs c c') : EndAlike (destOf .xcchEnc) c c' (xcchEncCmd c) (xcchEncCmd c') := by
  simp only [xcchEncCmd_eq, h.a0, h.a1, h.load]
  exact .ite (.storingPlain rfl (by decide)) (.plain (by decide))

theorem xcchDecCmd_endAlike (h : SameInputs c c') : EndAlike (destOf .xcchDec) c c' (xcchDecCmd c) (xcchDecCmd c') := by
  simp only [xcchDecCmd_eq, h.a0, h.a1, h.loadSoft]
  have hr := checkedResults_legal (okStatus := 0x0021D100#32) (failStatus := 0x0021C301#32) (by decide) (by decide)
  exact .ite (.ite (.storing rfl (hr ..)) (.ended (hr ..))) (.plain (by decide))

theorem rachEncCmd_endAlike (h : SameInputs c c') : EndAlike (destOf .rachEnc) c c' (rachEncCmd c) (rachEncCmd c') := by
  simp only [rachEncCmd_eq, h.a0, h.a1, h.bsic, h.load]
  exact .ite (.storingPlain rfl (by decide)) (.plain (by decide))

theorem rachDecCmd_endAlike (h : SameInputs c c') : EndAlike (destOf .rachDec) c c' (rachDecCmd c) (rachDecCmd c') := by
  simp only [rachDecCmd_eq, h.a0, h.a1, h.bsic, h.loadSoft]
  have hr := checkedResults_legal (okStatus := 0x0023D100#32) (failStatus := 0x0023C301#32) (by decide) (by decide)
  exact .ite (.ite (.storing rfl (hr ..)) (.ended (hr ..))) (.plain (by decide))

theorem schEncCmd_endAlike (h : SameInputs c c') : EndAlike (destOf .schEnc) c c' (schEncCmd c) (schEncCmd c') := by
  simp only [schEncCmd_eq, h.a0, h.a1, h.load]
  exact .ite (.storingPlain rfl (by decide)) (.plain (by decide))

theorem schDecCmd_endAlike (h : SameInputs c c') : EndAlike (destOf .schDec) c c' (schDecCmd c) (schDecCmd c') := by
  simp only [schDecCmd_eq, h.a0, h.a1, h.loadSoft]
  have hr := checkedResults_legal (okStatus := 0x0025D100#32) (failStatus := 0x0025C301#32) (by decide) (by decide)
  exact .ite (.ite (.storing rfl (hr ..)) (.ended (hr ..))) (.plain (by decide))

/-! ### PDTCH -/

theorem pdtchEncCmd_endAlike (h : SameInputs c c') (rom : Rom) :
    EndAlike (destOf .pdtchEnc) c c' (pdtchEncCmd rom c) (pdtchEncCmd rom c') := by
  simp only [pdtchEncCmd_eq, h.a0, h.a1, h.a2, h.pdcfg, h.load]
  refine .ite ?_ (.plain (by decide))
  cases schemeOfLength rom c'.a2.toNat with
  | none => exact .plain (by decide)
  | some x =>
    have hd : detidForm (detidScheme 0#32 x.1) = true := detidForm_detidScheme detidForm_zero _
    exact .ite (.ite (.storing rfl (.of_detid (by decide) hd)) (.plain (by decide))) (.plain (by decide))

theorem pdtchDecXcch_endAlike (h : SameInputs c c') (r : PdsRec) (area : List Int) (oor : Bool) {d : Word} (w : Word)
    (hd : detidForm d = true) :
    EndAlike (some .ob) c c' (pdtchDecXcch r area oor (c.midDecode d w)) (pdtchDecXcch r area oor (c'.midDecode d w)) := by
  simp only [pdtchDecXcch_eq, h.a1]
  exact .ite (.storing rfl (pdtchResults_legal hd (substForm_oneCheck _) ..))
    (.ended (pdtchResults_legal hd (substForm_oneCheck _) ..))

theorem pdtchDecGen_endAlike (h : SameInputs c c') {rom : Rom} {r : PdsRec} {subs : List SubDecoded}
    (hsubs : ∀ x ∈ subs, x.num < 3) (usf : Nat) (oor : Bool) {d : Word} (w : Word) (hd : detidForm d = true) :
    EndAlike (some .ob) c c' (pdtchDecGen rom r subs usf oor (c.midDecode d w))
      (pdtchDecGen rom r subs usf oor (c'.midDecode d w)) := by
  simp only [pdtchDecGen_eq, h.a1]
  have hs := substForm_foldl (fun x : SubDecoded × Bool × List Bool => x.1.num) (fun x => x.2.1)
    (l := subs.map fun d => (d, subCheck rom r d.num d.blk d.w usf))
    (fun x hx => by
      obtain ⟨y, hy, rfl⟩ := List.mem_map.mp hx
      exact hsubs y hy)
    substForm_zero
  exact .ite (.storing rfl (pdtchResults_legal hd hs ..)) (.ended (pdtchResults_legal hd hs ..))

theorem pdtchDecCmd_endAlike (h : SameInputs c c') (rom : Rom) (psk8 : Bool) :
    EndAlike (destOf (.pdtchDec psk8)) c c' (pdtchDecCmd rom psk8 c) (pdtchDecCmd rom psk8 c') := by
  simp only [pdtchDecCmd_eq, h.a0, h.a1, h.pdcfg, h.loadSoft]
  refine .ite ?_ (.plain (by decide))
  cases detectScheme (candidates rom psk8 c'.pdcfg) (c'.loadSoft c'.a0.toNat (4 * pdsWidth psk8)) with
  | none => exact .plain (by decide)
  | some x =>
    obtain ⟨s, r⟩ := x
    show EndAlike (some .ob) c c' _ _
    cases hk : r.kind with
    | xcch => simpa only [hk] using pdtchDecXcch_endAlike h r _ _ _ (detidForm_pdtchDetid s _)
    | gen =>
      simpa only [hk] using pdtchDecGen_endAlike h (fun _ => decodeSubs_num_lt) _ _ _ (detidForm_pdtchDetid s _)

/-! ### TCH -/

theorem tchEncCmd_endAlike (h : SameInputs c c') (rom : Rom) (cmr : Bool) :
    EndAlike (destOf (.tchEnc cmr)) c c' (tchEncCmd rom cmr c) (tchEncCmd rom cmr c') := by
  simp only [tchEncCmd_eq, h.a0, h.a1, h.a2, h.chmode, h.load, h.amrEncodeId]
  refine .ite (.ite (.plain (by decide)) (.ite (.storingPlain rfl (by decide)) ?_)) (.plain (by decide))
  cases speechScheme rom (chmodeOf c'.chmode) c'.a2.toNat with
  | none => exact .plain (by decide)
  | some x =>
    obtain ⟨s, t⟩ := x
    have hd : detidForm (detidScheme 0#32 s) = true := detidForm_detidScheme detidForm_zero s
    refine .ite (.storing rfl (.of_detid (by decide) hd)) ?_
    cases amrEncodeId rom t (chmodeOf c'.chmode) s cmr c' with
    | none => exact .ended (.of_detid (by decide) hd)
    | some id => exact .storing rfl (.of_detid (by decide) (detidForm_detidId hd id))

theorem tchDecFacch_endAlike (h : SameInputs c c') (rom : Rom) (g : Geom) (area : List Int) (w : Word) :
    EndAlike (some .ob) c c' (tchDecFacch rom g area (c.midDecode 0#32 w)) (tchDecFacch rom g area (c'.midDecode 0#32 w)) := by
  simp only [tchDecFacch_eq, h.a1]
  exact .ite (.storing rfl (tchResults_legal detidForm_zero (substForm_oneCheck _) ..))
    (.ended (tchResults_legal detidForm_zero (substForm_oneCheck _) ..))

theorem tchDecSpeech_endAlike (h : SameInputs c c') (rom : Rom) (g : Geom) (s : Nat) (area : List Int) (oor : Bool)
    {d : Word} (w : Word) (hd : detidForm d = true) :
    EndAlike (some .ob) c c' (tchDecSpeech rom g s area oor (c.midDecode d w))
      (tchDecSpeech rom g s area oor (c'.midDecode d w)) := by
  simp only [tchDecSpeech_eq, h.a1]
  cases romTcs rom s with
  | none =>
    refine .ended (.of_detid ?_ hd)
    cases oor <;> simp only [if_true, if_false, Bool.false_eq_true] <;> decide
  | some t =>
    have hd' : detidForm (detidScheme d s) = true := detidForm_detidScheme hd s
    exact .ite (.storing rfl (tchResults_legal hd' (substForm_speechSubst t _) ..))
      (.ended (tchResults_legal hd' (substForm_speechSubst t _) ..))

theorem tchDecAmr_endAlike (h : SameInputs c c') (rom : Rom) (g : Geom) (m : Nat) (cmr : Bool) (area : List Int) (w : Word) :
    EndAlike (some .ob) c c' (tchDecAmr rom g m cmr area (c.midDecode 0#32 w))
      (tchDecAmr rom g m cmr area (c'.midDecode 0#32 w)) := by
  simp only [tchDecAmr_eq, h.a3, h.amrcfg]
  cases (amrRange m).findSome? (romTcs rom) with
  | none => exact .plain (by decide)
  | some t0 =>
    dsimp only
    generalize idDetect rom t0 _ = id
    have hd : detidForm (detidId 0#32 id) = true := detidForm_detidId detidForm_zero id
    cases amrSlot c'.amrcfg (if cmr then ftOf c'.a3 else id) with
    | none => exact .ended (.of_detid (by decide) hd)
    | some mode => exact tchDecSpeech_endAlike h rom g _ area _ w hd

theorem tchDecCmd_endAlike (h : SameInputs c c') (rom : Rom) (cmr : Bool) :
    EndAlike (destOf (.tchDec cmr)) c c' (tchDecCmd rom cmr c) (tchDecCmd rom cmr c') := by
  simp only [tchDecCmd_eq, h.a0, h.a1, h.chmode, h.loadSoft]
  exact .ite
    (.ite (.plain (by decide))
      (.ite (tchDecFacch_endAlike h ..) (.ite (tchDecSpeech_endAlike h _ _ _ _ _ _ detidForm_zero) (tchDecAmr_endAlike h ..))))
    (.plain (by decide))

/-! ### Every command but `SRST` -/

/-- Every command but `SRST` ends alike on two instances with the same inputs. -/
theorem work_endAlike (h : SameInputs c c') (rom : Rom) {i : Instr} (hi : i ≠ .srst) :
    EndAlike (destOf i) c c' (work rom i c) (work rom i c') := by
  cases i with
  | nop => exact nopCmd_endAlike
  | cenc d p => exact cencCmd_endAlike h rom d p
  | vdec d p => exact vdecCmd_endAlike h rom d p
  | crcs d => exact crcsCmd_endAlike h rom d
  | crcc d => exact crccCmd_endAlike h rom d
  | punc d m => exact puncCmd_endAlike h rom d m
  | dpun d m => exact dpunCmd_endAlike h rom d m
  | ilv var m => exact ilvCmd_endAlike h var m
  | dilv var m => exact dilvCmd_endAlike h var m
  | perm d inv m => exact permCmd_endAlike h rom d inv m
  | bmap hl hu m => exact bmapCmd_endAlike h hl hu m
  | bunm fo m => exact bunmCmd_endAlike h fo m
  | bmapt odd flag m => exact bmaptCmd_endAlike h odd flag m
  | bunmt odd fo m => exact bunmtCmd_endAlike h odd fo m
  | unpk msbf => exact unpkCmd_endAlike h msbf
  | pack msbf => exact packCmd_endAlike h msbf
  | h2s => exact h2sCmd_endAlike h
  | s2h => exact s2hCmd_endAlike h
  | xcchEnc => exact xcchEncCmd_endAlike h
  | xcchDec => exact xcchDecCmd_endAlike h
  | rachEnc => exact rachEncCmd_endAlike h
  | rachDec => exact rachDecCmd_endAlike h
  | schEnc => exact schEncCmd_endAlike h
  | schDec => exact schDecCmd_endAlike h
  | pdtchEnc => exact pdtchEncCmd_endAlike h rom
  | pdtchDec psk8 => exact pdtchDecCmd_endAlike h rom psk8
  | tchEnc cmr => exact tchEncCmd_endAlike h rom cmr
  | tchDec cmr => exact tchDecCmd_endAlike h rom cmr
  | srst => exact absurd rfl hi

/-! ### What ending alike keeps and makes equal -/

theorem EndAlike.keeps_cells {dst : Option Buf} {d d' : CoreInst} (h : EndAlike dst c c' d d') {b : Buf} (hb : dst ≠ some b)
    (k : Nat) : d.cell b k = c.cell b k := by
  cases h with
  | ended => exact c.cell_ended _ _ b k
  | storing hdst => rw [CoreInst.cell_ended, CoreInst.cell_store_ne _ _ fun e => hb (hdst.trans (congrArg some e.symm))]

theorem EndAlike.keeps_hostRegisters {dst : Option Buf} {d d' : CoreInst} (h : EndAlike dst c c' d d') :
    d.cmd = c.cmd ∧ d.a0 = c.a0 ∧ d.a1 = c.a1 ∧ d.a2 = c.a2 ∧ d.a3 = c.a3 ∧ d.bsic = c.bsic ∧ d.chmode = c.chmode
      ∧ d.amrcfg = c.amrcfg ∧ d.pdcfg = c.pdcfg := by
  cases h <;> simp

theorem CoreInst.store_cons (c : CoreInst) (b : Buf) (w : Host.Cell) (ws : List Host.Cell) :
    c.store b (w :: ws) = (c.store b [w]).store b ws := by cases b <;> rfl

/-- What a cell holds after a store depends on the stored list and on what the cell held before. -/
theorem CoreInst.cell_store_congr {b b' : Buf} {k : Nat} (h : c.cell b' k = c'.cell b' k) (ws : List Host.Cell) :
    (c.store b ws).cell b' k = (c'.store b ws).cell b' k := by
  by_cases hb : b' = b
  · subst hb
    induction ws generalizing c c' with
    | nil => rwa [c.cell_store_of_notMem (by simp), c'.cell_store_of_notMem (by simp)]
    | cons w ws ih =>
      rw [c.store_cons, c'.store_cons]
      apply ih
      by_cases hk : w.1 = k
      · subst hk
        rw [c.cell_store_of_mem (by simp) (List.mem_singleton_self w), c'.cell_store_of_mem (by simp) (List.mem_singleton_self w)]
      · rwa [c.cell_store_of_notMem (by simpa using hk), c'.cell_store_of_notMem (by simpa using hk)]
  · rwa [c.cell_store_ne ws hb, c'.cell_store_ne ws hb]

theorem EndAlike.sameOutputs {dst : Option Buf} {d d' : CoreInst} (h : EndAlike dst c c' d d')
    (hcells : ∀ b k, c.cell b k = c'.cell b k) : SameOutputs d d' := by
  cases h with
  | ended => exact ⟨rfl, fun b k => by rw [CoreInst.cell_ended, CoreInst.cell_ended, hcells]⟩
  | storing =>
    exact ⟨rfl, fun b k => by rw [CoreInst.cell_ended, CoreInst.cell_ended, CoreInst.cell_store_congr (hcells b k)]⟩

theorem srstCmd_sameOutputs (hcells : ∀ b k, c.cell b k = c'.cell b k) : SameOutputs (srstCmd c) (srstCmd c') :=
  ⟨rfl, fun b k => by rw [srstCmd, srstCmd, CoreInst.cell_resetRegs, CoreInst.cell_resetRegs, hcells]⟩

end

end Sys2Proof.Machine
end

section
/-! SUPPORT. Which buffer a command can change, by its opcode and flags, and what its result depends on (R12, R21, R48). -/

namespace Sys2Proof.Machine

/-! ### The destination by opcode and flags -/

theorem bufOf_ne_ob (m : Bool) : bufOf m ≠ .ob := by cases m <;> decide

theorem bufOf_eq_hb {m : Bool} : bufOf m = .hb ↔ m = false := by cases m <;> decide

theorem bufOf_eq_sb {m : Bool} : bufOf m = .sb ↔ m = true := by cases m <;> decide

/-- `M` is bit 4 of `FLG` (R62). -/
theorem flgOf_div (b0 b1 b4 : Bool) : flgOf b0 b1 b4 / 16 = b4.toNat := by
  cases b0 <;> cases b1 <;> cases b4 <;> rfl

theorem opcode_of_destOf_ob {i : Instr} (h : destOf i = some .ob) : i.opcode ∈ [0x0F, 0x21, 0x23, 0x25, 0x27, 0x29] := by
  cases i
  case bunm fo m => cases fo <;> simp [destOf, bufOf_ne_ob] at h
  case bunmt odd fo m => cases fo <;> simp [destOf, bufOf_ne_ob] at h
  all_goals simp [destOf, bufOf_ne_ob, Instr.opcode] at h ⊢

theorem opcode_or_flag_of_destOf_sb {i : Instr} (h : destOf i = some .sb) : i.opcode = 0x10 ∨ i.flags / 16 = 1 := by
  cases i
  case bunm fo m => cases fo <;> simp_all [destOf, bufOf_eq_sb, Instr.flags, flgOf_div]
  case bunmt odd fo m => cases fo <;> simp_all [destOf, bufOf_eq_sb, Instr.flags, flgOf_div]
  all_goals simp_all [destOf, bufOf_eq_sb, Instr.opcode, Instr.flags, flgOf_div]

theorem opcode_and_flag_of_destOf_hb {i : Instr} (h : destOf i = some .hb) :
    i.opcode ∉ [0x00, 0x04, 0x0F, 0x10, 0x21, 0x23, 0x25, 0x27, 0x29] ∧ i.flags / 16 = 0 := by
  cases i
  case bunm fo m => cases fo <;> simp_all [destOf, bufOf_eq_hb, Instr.opcode, Instr.flags, flgOf_div]
  case bunmt odd fo m => cases fo <;> simp_all [destOf, bufOf_eq_hb, Instr.opcode, Instr.flags, flgOf_div]
  all_goals simp_all [destOf, bufOf_eq_hb, Instr.opcode, Instr.flags, flgOf_div]

/-! ### The obligations -/

/-- What stands at the executing place after a command. -/
theorem cur?_of_exec {i : Instr} {s t : State} {c d : CoreInst} (hc : s.cur? = some c) (ht : exec i s = .next t)
    (hd : t.cur? = some d) : d = work s.params.rom i c := by
  obtain rfl := Host.Outcome.next.inj ((exec_eq_work i s).symm.trans ht)
  exact Option.some.inj (hd.symm.trans (State.cur?_onActive hc _))

/-- Settles O13: by `work_endAlike` a command ends with a store into its destination buffer alone, and `destOf` tells which. -/
theorem commandsKeepHostRegisters : Obligations.CommandsKeepHostRegisters := by
  intro i s t c d hi hc ht hd
  have h : EndAlike (destOf i) c c d (work s.params.rom i c) := by
    have := work_endAlike (SameInputs.refl c) s.params.rom hi
    rwa [← cur?_of_exec hc ht hd] at this ⊢
  obtain ⟨hcmd, ha0, ha1, ha2, ha3, hbsic, hchmode, hamrcfg, hpdcfg⟩ := h.keeps_hostRegisters
  refine ⟨hcmd, ha0, ha1, ha2, ha3, hbsic, hchmode, hamrcfg, hpdcfg, fun hop => h.keeps_cells ?_,
    fun hop hm => h.keeps_cells ?_, fun hop => h.keeps_cells ?_, ?_⟩
  · exact fun hob => hop (opcode_of_destOf_ob hob)
  · intro hsb
    rcases opcode_or_flag_of_destOf_sb hsb with hop' | hm'
    · exact hop hop'
    · omega
  · intro hhb
    obtain ⟨hop', hm'⟩ := opcode_and_flag_of_destOf_hb hhb
    rcases hop with hop | hm
    · exact hop' hop
    · omega
  rintro (⟨m, rfl⟩ | ⟨odd, m, rfl⟩) b k
  · exact h.keeps_cells (by simp [destOf]) k
  · exact h.keeps_cells (by simp [destOf]) k

/-- Settles O16: two instances with the same inputs end alike, by `work_endAlike`; `SRST` resets both alike. -/
theorem resultIsFunctionOfInputs : Obligations.ResultIsFunctionOfInputs := by
  intro i s s' t t' c c' d d' hrom hc hc' h ht ht' hd hd'
  rw [cur?_of_exec hc ht hd, cur?_of_exec hc' ht' hd', ← hrom]
  by_cases hi : i = .srst
  · subst hi
    exact srstCmd_sameOutputs h.cells
  · exact (work_endAlike h s.params.rom hi).sameOutputs h.cells

end Sys2Proof.Machine
end

section
/-! SUPPORT. The invariant of a sound state: what each update of one CORE keeps of it, then
commands, bus accesses and resets. -/

namespace Sys2Proof.Machine

/-! ### One CORE -/

theorem resultsLegal_eq (c : CoreInst) : resultsLegal c = (detidForm c.detid && substForm c.subst) := Bool.and_assoc _ _ _

theorem Results.Legal.resultsLegal {r : Results} (hr : r.Legal) (c : CoreInst) (st : Stage) :
    resultsLegal (c.ended r st) = true := by
  rw [resultsLegal_eq, CoreInst.ended_detid, CoreInst.ended_subst, hr.detid, hr.subst]
  rfl

/-- What differs from a sound CORE in its registers alone is sound when these registers have their form. -/
theorem CoreInst.Sound.of_mem_eq {c d : CoreInst} (h : c.Sound) (hmem : ∀ b, d.mem b = c.mem b)
    (hbsic : d.bsic &&& ~~~bsicMask = 0#32) (hchmode : d.chmode &&& ~~~chmodeMask = 0#32)
    (hpdcfg : d.pdcfg &&& ~~~pdcfgMask = 0#32) (hidle : d.idle = true) (hstatus : statusLegal d.status = true)
    (hresults : resultsLegal d = true) : d.Sound where
  memWf b := hmem b ▸ h.memWf b
  hardBits x hx := h.hardBits x (Eq.mp (congrArg (x ∈ ·) (hmem .hb)) hx)
  bsicBits := hbsic
  chmodeBits := hchmode
  pdcfgBits := hpdcfg
  idle := hidle
  status := hstatus
  results := hresults

theorem CoreInst.Sound.ended {c : CoreInst} (h : c.Sound) {r : Results} (hr : r.Legal) (st : Stage) : (c.ended r st).Sound :=
  h.of_mem_eq (c.mem_ended r st) h.bsicBits h.chmodeBits h.pdcfgBits rfl hr.status (hr.resultsLegal c st)

theorem cellForm_hb (v : Byte) : cellForm .hb v = 0#8 ∨ cellForm .hb v = 1#8 := by
  have hv : (cellForm .hb v).toNat = v.toNat % 2 := by
    rw [cellForm, BitVec.toNat_and]
    exact Nat.and_one_is_mod _
  rcases Nat.mod_two_eq_zero_or_one v.toNat with h0 | h1
  · exact .inl (BitVec.eq_of_toNat_eq (hv.trans h0))
  · exact .inr (BitVec.eq_of_toNat_eq (hv.trans h1))

theorem CoreInst.Sound.store {c : CoreInst} (h : c.Sound) (b : Buf) (ws : List Host.Cell) : (c.store b ws).Sound where
  memWf b' := by
    by_cases hb : b' = b
    · subst hb
      rw [CoreInst.store, CoreInst.mem_setMem_self]
      exact Memory.writeAll_wf (h.memWf b') _
    · rw [CoreInst.store, CoreInst.mem_setMem_ne _ _ hb]
      exact h.memWf b'
  hardBits x hx := by
    cases b with
    | ob => exact h.hardBits x hx
    | sb => exact h.hardBits x hx
    | hb =>
      rcases Memory.mem_writeAll hx with hw | hm
      · obtain ⟨w, -, rfl⟩ := List.mem_map.mp hw
        exact cellForm_hb w.2
      · exact h.hardBits x hm
  bsicBits := by rw [CoreInst.store_bsic]; exact h.bsicBits
  chmodeBits := by rw [CoreInst.store_chmode]; exact h.chmodeBits
  pdcfgBits := by rw [CoreInst.store_pdcfg]; exact h.pdcfgBits
  idle := by rw [CoreInst.store_idle]; exact h.idle
  status := by rw [CoreInst.store_status]; exact h.status
  results := by
    rw [resultsLegal_eq, CoreInst.store_detid, CoreInst.store_subst, ← resultsLegal_eq]
    exact h.results

theorem coreReset_sound (index epoch : Nat) : (coreReset index epoch).Sound where
  memWf := coreReset_mem_wf index epoch
  hardBits _ hx := absurd hx List.not_mem_nil
  bsicBits := BitVec.zero_and
  chmodeBits := BitVec.zero_and
  pdcfgBits := (by decide : pdcfgReset &&& ~~~pdcfgMask = 0#32)
  idle := rfl
  status := (by decide : statusLegal 0#32 = true)
  results := (resultsLegal_eq _).trans (by decide : (detidForm 0#32 && substForm 0#32) = true)

theorem CoreInst.Sound.resetRegs {c : CoreInst} (h : c.Sound) : c.resetRegs.Sound :=
  have hr := coreReset_sound c.index c.epoch
  h.of_mem_eq c.mem_resetRegs hr.bsicBits hr.chmodeBits hr.pdcfgBits rfl hr.status hr.results

theorem CoreInst.Sound.setCmd {c : CoreInst} (h : c.Sound) (w : Word) : ({ c with cmd := w } : CoreInst).Sound :=
  h.of_mem_eq (fun b => by cases b <;> rfl) h.bsicBits h.chmodeBits h.pdcfgBits h.idle h.status h.results

/-- What a register write leaves in the fields that the invariant speaks of (R18). -/
theorem regWrite_cases (c : CoreInst) (off : Nat) (v : Word) :
    ((regWrite c off v).bsic = c.bsic ∨ (regWrite c off v).bsic = v &&& bsicMask)
    ∧ ((regWrite c off v).chmode = c.chmode ∨ (regWrite c off v).chmode = v &&& chmodeMask)
    ∧ ((regWrite c off v).pdcfg = c.pdcfg ∨ (regWrite c off v).pdcfg = v &&& pdcfgMask) := by
  unfold regWrite
  split_ifs <;> simp

theorem regWrite_mem (c : CoreInst) (off : Nat) (v : Word) (b : Buf) : (regWrite c off v).mem b = c.mem b := by
  unfold regWrite
  split_ifs <;> cases b <;> rfl

theorem regWrite_results (c : CoreInst) (off : Nat) (v : Word) : (regWrite c off v).results = c.results := by
  unfold regWrite
  split_ifs <;> rfl

theorem regWrite_idle (c : CoreInst) (off : Nat) (v : Word) : (regWrite c off v).idle = c.idle := by
  unfold regWrite
  split_ifs <;> rfl

/-- A register that keeps its value or takes a masked one has no unimplemented bit. -/
theorem masked_bits {w w' v m : Word} (h : w &&& ~~~m = 0#32) (hw : w' = w ∨ w' = v &&& m) : w' &&& ~~~m = 0#32 := by
  rcases hw with rfl | rfl
  · exact h
  · simp [BitVec.and_assoc]

theorem CoreInst.Sound.regWrite {c : CoreInst} (h : c.Sound) (off : Nat) (v : Word) : (regWrite c off v).Sound := by
  obtain ⟨hbsic, hchmode, hpdcfg⟩ := regWrite_cases c off v
  have hres := regWrite_results c off v
  have hstatus : (Machine.regWrite c off v).status = c.status := congrArg Results.status hres
  have hdetid : (Machine.regWrite c off v).detid = c.detid := congrArg Results.detid hres
  have hsubst : (Machine.regWrite c off v).subst = c.subst := congrArg Results.subst hres
  refine h.of_mem_eq (regWrite_mem c off v) (masked_bits h.bsicBits hbsic) (masked_bits h.chmodeBits hchmode)
    (masked_bits h.pdcfgBits hpdcfg) ((regWrite_idle c off v).trans h.idle) (hstatus ▸ h.status) ?_
  rw [resultsLegal_eq, hdetid, hsubst, ← resultsLegal_eq]
  exact h.results

/-! ### Commands -/

theorem EndAlike.sound {dst : Option Buf} {c c' d d' : CoreInst} (h : EndAlike dst c c' d d') (hc : c.Sound) : d.Sound := by
  cases h with
  | ended hr => exact hc.ended hr _
  | storing _ hr => exact (hc.store _ _).ended hr _

theorem CoreInst.Sound.illegal {c : CoreInst} (h : c.Sound) (w : Word) : (c.illegal w).Sound := by
  have hopc : getField w 0 8 < 256 := Nat.mod_lt _ (by decide)
  rw [CoreInst.illegal, CoreInst.raise_clearResults]
  exact h.ended (.of_detid (statusLegal_statusImage hopc _ (by simp)) detidForm_zero) _

/-- Every command word, legal or not, keeps a sound CORE sound. -/
theorem CoreInst.Sound.commandWork {c : CoreInst} (h : c.Sound) (rom : Rom) (w : Word) : (commandWork rom w c).Sound := by
  simp only [Machine.commandWork]
  cases decode w with
  | ok i =>
    by_cases hi : i = .srst
    · subst hi
      exact h.resetRegs
    · exact (work_endAlike (.refl c) rom hi).sound h
  | error e => exact h.illegal w

/-! ### The block -/

theorem forall_mem_modify {α : Type} {p : α → Prop} {l : List α} (hl : ∀ x ∈ l, p x) {f : α → α} (hf : ∀ x, p x → p (f x))
    (i : Nat) : ∀ x ∈ l.modify i f, p x := by
  intro x hx
  obtain ⟨k, hk⟩ := List.mem_iff_getElem?.mp hx
  rw [List.getElem?_modify] at hk
  obtain ⟨y, hy, rfl⟩ := Option.map_eq_some_iff.mp hk
  have hp := hl y (List.mem_of_getElem? hy)
  split
  · exact hf y hp
  · exact hp

theorem State.Sound.onActive {s : State} (h : s.Sound) {f : CoreInst → CoreInst} (hf : ∀ c, c.Sound → (f c).Sound) :
    (s.onActive f).Sound :=
  ⟨forall_mem_modify h.insts hf s.active, Nat.lt_of_lt_of_eq h.active (List.length_modify f s.insts _).symm⟩

theorem State.Sound.modify {s : State} (h : s.Sound) {f : CoreInst → CoreInst} (hf : ∀ c, c.Sound → (f c).Sound) (i : Nat)
    (r : Response) : (State.answer { s with insts := s.insts.modify i f } r).Sound :=
  ⟨forall_mem_modify h.insts hf i, Nat.lt_of_lt_of_eq h.active (List.length_modify f s.insts _).symm⟩

theorem State.Sound.acceptCommand {s : State} (h : s.Sound) {i : Nat} (hi : i < s.insts.length) (w : Word) :
    (s.acceptCommand i w).Sound :=
  ⟨forall_mem_modify h.insts (fun _ hc => hc.setCmd w) i, Nat.lt_of_lt_of_eq hi (List.length_modify _ s.insts _).symm⟩

theorem State.Sound.powerOn {s : State} (h : s.Sound) : s.powerOn.Sound where
  insts c hc := by
    obtain ⟨i, -, rfl⟩ := List.mem_mapIdx.mp hc
    exact coreReset_sound i _
  active := by
    rw [State.powerOn_insts, List.length_mapIdx]
    exact h.active

/-- The windows of the address map are those of the instances there are (R41). -/
theorem locate_lt {s : State} {addr i o : Nat} (h : locate s addr = some (i, o)) : i < s.insts.length := by
  simp only [locate] at h
  split_ifs at h with hbase hlt
  obtain ⟨rfl, -⟩ := Prod.mk.inj (Option.some.inj h)
  exact hlt

theorem busWrite_finish_sound {s : State} (h : s.Sound) (addr : Nat) (w : Width) (v : Word) :
    (busWrite s addr w v).finish.Sound := by
  obtain e | ⟨i, o, off, -, -, -, e⟩ | ⟨i, o, b, k, -, -, e⟩ | ⟨i, o, hl, -, e⟩ := busWrite_cases s addr w v
  · rw [e]
    exact ⟨h.insts, h.active⟩
  · rw [e]
    exact h.modify (fun _ hc => hc.regWrite off v) i .done
  · rw [e]
    exact h.modify (fun _ hc => hc.store b _) i .done
  · rw [e]
    exact (h.acceptCommand (locate_lt hl) v).onActive fun _ hc => hc.commandWork _ v

theorem takeEvent_finish_sound {s : State} (h : s.Sound) (ev : BusEvent) : (takeEvent s ev).finish.Sound := by
  cases ev with
  | read addr w => exact ⟨h.insts, h.active⟩
  | write addr w v => exact busWrite_finish_sound h addr w v
  | powerOn => exact h.powerOn

/-! ### The obligations -/

/-- Settles O17: a step takes nothing, or one event whose effect keeps all instances sound. -/
theorem stepKeepsSound : Obligations.StepKeepsSound := by
  intro s t h ht
  cases hp : s.pending with
  | nil =>
    obtain rfl := Host.Outcome.next.inj ((step_eq_self hp).symm.trans ht)
    exact h
  | cons ev rest =>
    obtain rfl := Host.Outcome.next.inj ((step_eq_finish hp).symm.trans ht)
    exact takeEvent_finish_sound (s := { s with pending := rest }) ⟨h.insts, h.active⟩ ev

/-- Settles O18: the one CORE after reset is sound, and its buffers list no cell. -/
theorem resetIsSound : Obligations.ResetIsSound := by
  refine ⟨⟨fun c hc => ?_, by decide⟩, fun c hc b x hx => ?_⟩ <;> obtain rfl := List.mem_singleton.mp hc
  · exact coreReset_sound 0 0
  · cases b <;> exact absurd hx List.not_mem_nil

end Sys2Proof.Machine
end

section
/-! SUPPORT. Two transactions of the port: a `CMD` write that decodes, and a word read of a register. -/

namespace Sys2Proof.Machine

/-- Settles O4: offset 4 is `CMD` in the map of R41, so the port accepts the word and `step` runs what it decodes to. -/
theorem stepRunsDecodedInstruction : Obligations.StepRunsDecodedInstruction := by
  intro s addr k w i rest hp hl hd
  have htake : takeEvent { s with pending := rest } (.write addr .word w)
      = .command w (State.acceptCommand { s with pending := rest } k w) := by
    have hl' : locate { s with pending := rest } addr = some (k, 0x04) := hl
    simp only [takeEvent, busWrite, hl']
    rfl
  simp only [step, hp, htake, hd]
  rfl

/-- The register map of R12 as one table: the word registers in order of their offset. -/
theorem regRead_eq_getD (c : CoreInst) {off : Nat} (h4 : off % 4 = 0) :
    regRead c off =
      [idValue, c.cmd, c.status, c.a0, c.a1, c.a2, c.a3, c.nerr, c.nbits, c.rlen, c.detid, c.steal, c.subst, c.bsic, c.chmode,
        c.amrcfg, c.pdcfg].getD (off / 4) 0#32 := by
  obtain ⟨k, rfl⟩ : ∃ k, off = 4 * k := ⟨off / 4, by omega⟩
  rw [Nat.mul_div_cancel_left k (by decide)]
  by_cases hk : k < 17
  · interval_cases k <;> rfl
  · rw [List.getD_eq_default _ _ (by simpa using Nat.le_of_not_lt hk)]
    have hne : ∀ o ≤ 64, (4 * k = o) = False := fun o ho => eq_false (by omega)
    simp (disch := decide) only [regRead, hne, if_false]

theorem busRead_reg {s : State} {addr i off : Nat} {c : CoreInst} (hl : locate s addr = some (i, off)) (ho : off < 0x100)
    (h4 : off % 4 = 0) (hc : s.insts[i]? = some c) : busRead s addr .word = .data (regRead c off) := by
  have ht : windowTarget off = .reg off := if_pos ho
  simp only [busRead, hl, hc, ht, if_pos h4]

/-- Settles O9: a word read answers the register that the table of R12 has at its offset. -/
theorem registerReads : Obligations.RegisterReads := by
  intro s addr i off c rest hp hl ho h4 hc
  refine ⟨regRead c off, ?_, regRead_eq_getD c h4⟩
  rw [step_eq_finish hp]
  exact congrArg (fun r => Host.Outcome.next (State.answer { s with pending := rest } r))
    (busRead_reg (s := { s with pending := rest }) hl ho h4 hc)

end Sys2Proof.Machine
end

section
/-! SUPPORT. The encoder of the six given codes as a shift register: its coded bits are the two generators of R27 over the
information bits, their tail of zeros and the state it starts in. -/

namespace Sys2Proof.Machine

theorem givenConv_eq_k5Desc {d : Nat} {cd : ConvDesc} (h : givenConv[d]? = some cd) : ∃ len punc, cd = k5Desc len punc := by
  have hm := List.mem_of_getElem? h
  simp only [givenConv, List.mem_cons, List.not_mem_nil, or_false] at hm
  rcases hm with rfl | rfl | rfl | rfl | rfl | rfl <;> exact ⟨_, _, rfl⟩

/-- The bit that entered the shift register `i` steps before step `j` of the input `v`: the state `s` at the start holds the four
before the first, the latest in its lowest place. -/
def tap (s : Nat) (v : List Bool) (j i : Nat) : Bool := if i ≤ j then v.getD (j - i) false else s.testBit (i - j - 1)

/-- The state after a step of a given code, and what its output symbol is, by the bits of the state before. -/
theorem k5_trellisStep (len : Nat) (punc : Option (List Nat)) {s : Nat} (hs : s < 16) (b : Bool) :
    (trellisStep (k5Desc len punc) s b).2 = (2 * s + b.toNat) % 16
    ∧ symbolBits 2 (trellisStep (k5Desc len punc) s b).1
      = [(b ^^ s.testBit 2) ^^ s.testBit 3, ((b ^^ s.testBit 0) ^^ s.testBit 2) ^^ s.testBit 3] := by
  have htrellis : trellisStep (k5Desc len punc) s b = trellisStep (k5Desc 0 none) s b := rfl
  have htable : ∀ s < 16, ∀ b, (trellisStep (k5Desc 0 none) s b).2 = (2 * s + b.toNat) % 16
      ∧ symbolBits 2 (trellisStep (k5Desc 0 none) s b).1
        = [(b ^^ s.testBit 2) ^^ s.testBit 3, ((b ^^ s.testBit 0) ^^ s.testBit 2) ^^ s.testBit 3] := by decide
  exact htrellis ▸ htable s hs b

/-- A step of the shift register keeps the taps: what the next state holds is what the input and this state held. -/
theorem tap_step (s : Nat) (b : Bool) (v : List Bool) (j : Nat) {i : Nat} (hi : i ≤ 4) :
    tap ((2 * s + b.toNat) % 16) v j i = tap s (b :: v) (j + 1) i := by
  have hbit : ∀ n < 4, ((2 * s + b.toNat) % 16).testBit n = if n = 0 then b else s.testBit (n - 1) := by
    intro n hn
    rw [show 16 = 2 ^ 4 from rfl, Nat.testBit_mod_two_pow, decide_eq_true hn, Bool.true_and]
    cases n with
    | zero => cases b <;> simp
    | succ n =>
      have hdiv : (2 * s + b.toNat) / 2 = s := by by_cases hb : b <;> simp [hb]; omega
      rw [Nat.testBit_succ, hdiv]
      rfl
  simp only [tap]
  by_cases hij : i ≤ j
  · rw [if_pos hij, if_pos (Nat.le_succ_of_le hij), Nat.succ_sub hij, List.getD_cons_succ]
  · rw [if_neg hij, hbit (i - j - 1) (by omega)]
    by_cases h1 : i = j + 1
    · simp [h1]
    · rw [if_neg (by omega), if_neg (by omega)]
      rfl

/-- The generators 1 + D^3 + D^4 and 1 + D + D^3 + D^4 over the taps `x` (R27). -/
def k5Generators (x : Nat → Bool) : List Bool := [(x 0 ^^ x 3) ^^ x 4, ((x 0 ^^ x 1) ^^ x 3) ^^ x 4]

theorem encInfo_k5_getD (len : Nat) (punc : Option (List Nat)) {s : Nat} (hs : s < 16) (v : List Bool) {j r : Nat}
    (hj : j < v.length) (hr : r < 2) :
    (encInfo (k5Desc len punc) s v).1.getD (2 * j + r) false = (k5Generators (tap s v j)).getD r false := by
  induction v generalizing s j with
  | nil => cases hj
  | cons b v ih =>
    obtain ⟨hnext, hsym⟩ := k5_trellisStep len punc hs b
    have hsplit : (encInfo (k5Desc len punc) s (b :: v)).1
        = k5Generators (tap s (b :: v) 0) ++ (encInfo (k5Desc len punc) ((2 * s + b.toNat) % 16) v).1 := by
      rw [← hnext]
      exact congrArg (· ++ _) hsym
    rw [hsplit]
    cases j with
    | zero =>
      rw [Nat.mul_zero, Nat.zero_add]
      interval_cases r <;> rfl
    | succ j =>
      rw [List.getD_append_right _ _ _ _ (by simp [k5Generators]; omega),
        show 2 * (j + 1) + r - (k5Generators (tap s (b :: v) 0)).length = 2 * j + r by simp [k5Generators]; omega,
        ih (Nat.mod_lt _ (by decide)) (Nat.lt_of_succ_lt_succ hj)]
      simp only [k5Generators, tap_step s b v j (show 0 ≤ 4 by decide), tap_step s b v j (show 1 ≤ 4 by decide),
        tap_step s b v j (show 3 ≤ 4 by decide), tap_step s b v j (show 4 ≤ 4 by decide)]

/-- Without a termination table the termination steps are information steps with input 0 (R81). -/
theorem encInfo_append_zeros (c : ConvDesc) (h : c.termTab = none) (s : Nat) (u : List Bool) (t : Nat) :
    (encInfo c s (u ++ List.replicate t false)).1 = (encInfo c s u).1 ++ (encTerm c (encInfo c s u).2 t).1 := by
  induction u generalizing s with
  | nil =>
    have hterm : ∀ s, termStep c s = trellisStep c s false := fun s => by simp only [termStep, h]
    rw [List.nil_append]
    induction t generalizing s with
    | zero => rfl
    | succ t ih =>
      simp only [List.replicate_succ, encInfo, encTerm, hterm, List.nil_append]
      exact congrArg (_ ++ ·) (ih _)
  | cons b u ih => simp only [List.cons_append, encInfo, ih, List.append_assoc]

theorem convFull_k5 (len : Nat) (punc : Option (List Nat)) (u : List Bool) :
    convFull (k5Desc len punc) u = (encInfo (k5Desc len punc) 0 (u ++ List.replicate 4 false)).1 :=
  (encInfo_append_zeros (k5Desc len punc) rfl 0 u 4).symm

/-- From state 0 the taps are the information bits, and 0 before the first and behind the last. -/
theorem tap_zero (u : List Bool) (t j i : Nat) :
    tap 0 (u ++ List.replicate t false) j i = (decide (i ≤ j) && u.getD (j - i) false) := by
  have hpad : ∀ n, (u ++ List.replicate t false).getD n false = u.getD n false := fun n => by
    by_cases hn : n < u.length
    · rw [List.getD_append _ _ _ _ hn]
    · rw [List.getD_append_right _ _ _ _ (Nat.le_of_not_lt hn), List.getD_eq_default u _ (Nat.le_of_not_lt hn)]
      rw [List.getD_eq_getElem?_getD, List.getElem?_getD_replicate_default_eq]
  by_cases h : i ≤ j <;> simp [tap, h, hpad, -List.getD_eq_getElem?_getD]

/-- Settles O27: the encoder from state 0 over the information bits and four zeros, by `encInfo_k5_getD`. -/
theorem givenCodesHaveTheirGenerators : Obligations.GivenCodesHaveTheirGenerators := by
  intro d cd u hd hu j hj
  obtain ⟨len, punc, rfl⟩ := givenConv_eq_k5Desc hd
  have hlen : j < (u ++ List.replicate 4 false).length := by simpa [hu] using hj
  have hbit : ∀ r < 2, (convFull (k5Desc len punc) u).getD (2 * j + r) false
      = (k5Generators fun i => decide (i ≤ j) && u.getD (j - i) false).getD r false := fun r hr => by
    rw [convFull_k5, encInfo_k5_getD len punc (by decide) _ hlen hr]
    exact congrArg (fun x => (k5Generators x).getD r false) (funext (tap_zero u 4 j))
  exact ⟨hbit 0 (by decide), hbit 1 (by decide)⟩

end Sys2Proof.Machine
end

section
/-! SUPPORT. How long the vectors are that the commands store, and where the cells lie that the interleaver, the burst mapper and
the TCH geometries list: what a range check has to cover (R48, R221). -/

namespace Sys2Proof.Machine

/-! ### Vectors -/

@[simp] theorem gather_length {α : Type} (v : List α) (e : α) (idx : List Nat) : (gather v e idx).length = idx.length :=
  List.length_map _

@[simp] theorem unpackBits_length (msbf : Bool) (o : List Byte) (n : Nat) : (unpackBits msbf o n).length = n := by
  rw [unpackBits, List.length_map, List.length_range]

@[simp] theorem crcBits_length (q : CrcDesc) (d : List Bool) : (crcBits q d).length = q.bits := by
  rw [crcBits, List.length_map, List.length_range]

/-- Octets packed from at most the first `8 * m` bits of a vector. -/
theorem packBits_take_length_le (u : List Bool) {n m : Nat} (h : n ≤ 8 * m) : (packBits false (u.take n)).length ≤ m := by
  have := List.length_take_le n u
  rw [packBits_length]
  omega

theorem packBits_octets_length {u : List Bool} {m : Nat} (h : u.length = 8 * m) : (packBits false u).length = m := by
  rw [packBits_length]
  omega

/-! ### The convolutional encoder (R82) -/

theorem symbolBits_length (n y : Nat) : (symbolBits n y).length = n := by
  rw [symbolBits, List.length_map, List.length_range]

theorem encInfo_length (c : ConvDesc) (s : Nat) (u : List Bool) : (encInfo c s u).1.length = c.n * u.length := by
  induction u generalizing s with
  | nil => rfl
  | cons b u ih =>
    rw [encInfo, List.length_append, symbolBits_length, ih, List.length_cons, Nat.mul_succ, Nat.add_comm]

theorem encTerm_length (c : ConvDesc) (s t : Nat) : (encTerm c s t).1.length = c.n * t := by
  induction t generalizing s with
  | zero => rfl
  | succ t ih => rw [encTerm, List.length_append, symbolBits_length, ih, Nat.mul_succ, Nat.add_comm]

theorem convFull_length {c : ConvDesc} {u : List Bool} (hu : u.length = c.len) : (convFull c u).length = nfull c := by
  rw [convFull, List.length_append, encInfo_length, encTerm_length, hu, nfull, Nat.mul_add]

/-! ### Puncturing (R118, R119) -/

@[simp] theorem depuncture_length {α : Type} (e : α) (tab : List Nat) (m : List α) (n : Nat) : (depuncture e tab m n).length = n := by
  rw [depuncture]
  generalize 0 = i
  induction n generalizing i tab m with
  | zero => rfl
  | succ n ih =>
    rw [depunctureFrom]
    split
    · rw [List.length_cons, ih]
    · rw [List.length_cons, ih]

/-- An ascending row of numbers from `i` on that does not begin with `i` lies above `i`. -/
theorem lt_of_ascending_of_head?_ne {i : Nat} {ents : List Nat} (hasc : ents.Pairwise (· < ·)) (hle : ∀ e ∈ ents, i ≤ e)
    (hhead : ents.head? ≠ some i) : ∀ e ∈ ents, i < e := by
  intro e he
  cases ents with
  | nil => cases he
  | cons e' ents =>
    have hne : e' ≠ i := fun h => hhead (congrArg some h)
    have hfirst : i < e' := Nat.lt_of_le_of_ne (hle e' List.mem_cons_self) hne.symm
    rcases List.mem_cons.mp he with rfl | he
    · exact hfirst
    · exact Nat.lt_trans hfirst ((List.pairwise_cons.mp hasc).1 e he)

/-- One element is dropped for each entry of an ascending table whose entries all lie in the vector. -/
theorem punctureFrom_length {α : Type} {i : Nat} {ents : List Nat} {v : List α} (hasc : ents.Pairwise (· < ·))
    (hin : ∀ e ∈ ents, i ≤ e ∧ e < i + v.length) (hend : i + v.length ≤ sentinel) :
    (punctureFrom i (ents ++ [sentinel]) v).length + ents.length = v.length := by
  induction v generalizing i ents with
  | nil =>
    have hnone : ents = [] := List.eq_nil_iff_forall_not_mem.mpr fun e he =>
      absurd (hin e he).2 (Nat.not_lt.mpr (hin e he).1)
    rw [hnone]
    rfl
  | cons x v ih =>
    rw [List.length_cons] at hend hin ⊢
    rw [punctureFrom]
    by_cases hhead : (ents ++ [sentinel]).head? = some i
    · rw [if_pos hhead]
      cases ents with
      | nil =>
        have : sentinel = i := Option.some.inj hhead
        omega
      | cons e ents =>
        obtain rfl : e = i := Option.some.inj hhead
        obtain ⟨hlt, hasc'⟩ := List.pairwise_cons.mp hasc
        have hrest := ih (i := e + 1) hasc'
          (fun e' he' => ⟨hlt e' he', by have := hin e' (List.mem_cons_of_mem _ he'); omega⟩) (by omega)
        rw [List.cons_append, List.tail_cons, List.length_cons, ← hrest, Nat.add_assoc]
    · rw [if_neg hhead]
      have habove := lt_of_ascending_of_head?_ne hasc (fun e he => (hin e he).1) fun h => hhead (by rw [List.head?_append, h]; rfl)
      have hrest := ih (i := i + 1) hasc (fun e he => ⟨habove e he, by have := hin e he; omega⟩) (by omega)
      rw [List.length_cons, ← hrest, Nat.add_right_comm]

/-! ### The Viterbi decoder (R97, R98) -/

theorem vitRun_rows_length (c : ConvDesc) (f : ConvDesc → List Nat → List Int → AcsRow) (k : Nat) (v : VitState) :
    (vitRun c f k v).rows.length = v.rows.length + k := by
  induction k generalizing v with
  | zero => rfl
  | succ k ih =>
    rw [vitRun, ih, vitStep, List.length_cons]
    omega

theorem traceInfo_length (c : ConvDesc) (cur : Nat) (acc : List Bool) (rows : List (List Nat)) :
    (traceInfo c cur acc rows).length = acc.length + rows.length := by
  induction rows generalizing cur acc with
  | nil => rfl
  | cons h rows ih =>
    rw [traceInfo, ih, List.length_cons, List.length_cons]
    omega

theorem decodeStats_length (c : ConvDesc) (y : List Int) (p : Bool) : (decodeStats c y p).1.length = c.len := by
  simp only [decodeStats, vit, traceInfo_length, vitRun_rows_length, List.length_nil, Nat.zero_add]

/-! ### Interleaver and burst mapper (R125, R134) -/

theorem ilvPos_lt (k : Nat) : ilvPos k < 114 := by
  have h1 := Nat.mod_lt (49 * k) (show 0 < 57 by decide)
  have h2 := Nat.mod_lt k (show 0 < 8 by decide)
  rw [ilvPos]
  omega

theorem ilvCells_lt {var : Bool} {x : Nat} (h : x ∈ ilvCells (burstCount var)) : x < burstCount var * 114 := by
  obtain ⟨k, -, rfl⟩ := List.mem_map.mp h
  have hp := ilvPos_lt k
  have hk : k % burstCount var < burstCount var := Nat.mod_lt k (by cases var <;> decide)
  rw [ilvCell]
  omega

theorem burstPos_lt {j : Nat} (h : j < 114) : burstPos j < burstWidth := by
  rw [burstPos, burstWidth]
  split <;> omega

theorem halfPositions_lt {odd : Bool} {j : Nat} (h : j ∈ halfPositions odd) : j < 114 :=
  List.mem_range.mp (List.mem_filter.mp h).1

theorem mapBurst_length {α : Type} {i : List α} (h : i.length = 114) (hl hu : α) : (mapBurst i hl hu).length = 116 := by
  simp [mapBurst, h]

theorem unmapBurst_length {α : Type} {e : List α} (h : e.length = 116) : (unmapBurst e).length = 114 := by
  simp [unmapBurst, h]

/-- Four rows of 114 make four bursts of 116. -/
theorem mapFour_length {α : Type} {iB : List α} (h : iB.length = 456) (hl hu : α) : (mapFour iB hl hu).length = 464 := by
  have hburst : ∀ b < 4, (mapBurst (burstAt iB 114 b) hl hu).length = 116 := fun b hb =>
    mapBurst_length (by simp only [burstAt, List.length_take, List.length_drop, h]; omega) hl hu
  rw [mapFour, List.length_flatMap, List.map_congr_left fun b hb => hburst b (List.mem_range.mp hb)]
  rfl

theorem diagCells_lt {x : Nat} (h : x ∈ diagCells) : x < tchArea := by
  obtain ⟨k, -, rfl⟩ := List.mem_map.mp h
  have hp := burstPos_lt (ilvPos_lt k)
  have hk := Nat.mod_lt k (show 0 < 8 by decide)
  simp only [diagCell, tchArea, burstWidth] at hp ⊢
  omega

theorem diagFlags_lt : ∀ x ∈ diagFlags, x < tchArea := by decide

/-! ### The xCCH transform (R158) -/

theorem xcchEncode_length (o : List Byte) : (xcchEncode o).length = 456 := scatter_length _ _ _

theorem xcchDecodeCoded_octets_length_le (cB : List Int) : (xcchDecodeCoded cB).octets.length ≤ 23 :=
  packBits_take_length_le _ (by decide)

end Sys2Proof.Machine
end

section
/-! SUPPORT. What the well-formed tables of a ROM say of the descriptors, geometries and scheme records whose numbers bound a store
(R24, R26, R176, R196, R197), and the lengths of punctured and decoded vectors that follow. -/

namespace Sys2Proof.Machine

/-! ### The tables, slot by slot -/

/-- The conditions of `romTablesWf` that bound what commands store. -/
theorem romTablesWf_parts {rom : Rom} (h : romTablesWf rom = true) :
    rom.conv.all (·.all convWf) = true ∧ rom.perm.all (·.all permWf) = true
      ∧ (∀ s < 19, (romTcs rom s).all (fun t => tcsWf rom s t && tcsKnown rom s t) = true)
      ∧ tableWf rom rom.tcgHr = true ∧ tableWf rom rom.tcgAhr = true := by
  simp only [romTablesWf, Bool.and_eq_true] at h
  obtain ⟨⟨⟨⟨⟨⟨⟨⟨⟨⟨-, hconv⟩, -⟩, hperm⟩, -⟩, -⟩, htcs⟩, -⟩, -⟩, hhr⟩, hahr⟩ := h
  exact ⟨hconv, hperm, fun s hs => List.all_eq_true.mp htcs s (List.mem_range.mpr hs), hhr, hahr⟩

/-- A condition on every present slot of a table holds of the record found in one. -/
theorem slot_of_all {α : Type} {l : List (Option α)} {p : α → Bool} (h : l.all (·.all p) = true) {k : Nat} {x : α}
    (hx : (l[k]?).join = some x) : p x = true := by
  have hslot : l[k]? = some (some x) := Option.join_eq_some_iff.mp hx
  exact List.all_eq_true.mp h _ (List.mem_of_getElem? hslot)

theorem givenConv_wf : givenConv.all convWf = true := by decide +kernel

theorem romConv_wf {rom : Rom} (h : romTablesWf rom = true) {d : Nat} {cd : ConvDesc} (hd : romConv rom d = some cd) :
    convWf cd = true := by
  obtain ⟨hconv, -⟩ := romTablesWf_parts h
  unfold romConv at hd
  split at hd
  · exact List.all_eq_true.mp givenConv_wf cd (List.mem_of_getElem? hd)
  · exact slot_of_all hconv hd

theorem romPerm_wf {rom : Rom} (h : romTablesWf rom = true) {t : Nat} {r : PermDesc} (ht : romPerm rom t = some r) :
    permWf r = true := by
  obtain ⟨-, hperm, -⟩ := romTablesWf_parts h
  exact slot_of_all hperm ht

/-- A permutation sends each of its `NIN` places below `NOUT` (R26). -/
theorem permWf_map {r : PermDesc} (h : permWf r = true) : r.map.length = r.nin ∧ ∀ x ∈ r.map, x < r.nout := by
  simp only [permWf, Bool.and_eq_true, beq_iff_eq, List.all_eq_true, decide_eq_true_eq] at h
  obtain ⟨⟨⟨-, hlen⟩, hlt⟩, -⟩ := h
  exact ⟨hlen, hlt⟩

/-! ### Punctured vectors (R24, R115) -/

/-- The table of a well-formed descriptor is an ascending row of places of the full coded sequence, then the sentinel. -/
theorem convWf_puncTable {c : ConvDesc} (h : convWf c = true) :
    nfull c ≤ vmax ∧ ∃ ents : List Nat, puncTable c = ents ++ [sentinel] ∧ ents.Pairwise (· < ·) ∧ ∀ e ∈ ents, e < nfull c := by
  simp only [convWf, Bool.and_eq_true, decide_eq_true_eq] at h
  obtain ⟨⟨⟨⟨⟨⟨-, hfull⟩, -⟩, -⟩, -⟩, hpunc⟩, -⟩ := h
  refine ⟨hfull, ?_⟩
  cases hp : c.punc with
  | none => exact ⟨[], by rw [puncTable, hp]; rfl, List.Pairwise.nil, by simp⟩
  | some tab =>
    simp only [puncWf, hp, Option.all_some, Bool.and_eq_true, beq_iff_eq, List.all_eq_true, decide_eq_true_eq] at hpunc
    obtain ⟨⟨hlast, hasc⟩, hlt⟩ := hpunc
    exact ⟨tab.dropLast, by rw [puncTable, hp]; exact (List.dropLast_append_getLast? _ hlast).symm, hasc, hlt⟩

theorem puncture_length {α : Type} {c : ConvDesc} (h : convWf c = true) {v : List α} (hv : v.length = nfull c) :
    (puncture (puncTable c) v).length = nmatched c := by
  obtain ⟨hfull, ents, htab, hasc, hlt⟩ := convWf_puncTable h
  have hbound : nfull c < sentinel := Nat.lt_of_le_of_lt hfull (by decide)
  have hnpunc : npunc c = ents.length := by
    have hpass : ∀ e ∈ ents, (e != sentinel) = true := fun e he => bne_iff_ne.mpr (by have := hlt e he; omega)
    rw [npunc, htab, List.takeWhile_append_of_pos hpass]
    simp
  have hlen := punctureFrom_length (i := 0) (v := v) hasc (fun e he => ⟨Nat.zero_le e, by have := hlt e he; omega⟩) (by omega)
  rw [nmatched, hnpunc, puncture, htab, ← hv, ← hlen, Nat.add_sub_cancel]

theorem convEnc_length {c : ConvDesc} (h : convWf c = true) {u : List Bool} (hu : u.length = c.len) (p : Bool) :
    (convEnc c u p).length = codedLen c p := by
  rw [convEnc, codedLen]
  split
  · exact puncture_length h (convFull_length hu)
  · exact convFull_length hu

/-- A role descriptor without puncturing needs no condition on the ROM (R28). -/
theorem convEnc_plain_length {c : ConvDesc} {u : List Bool} (hu : u.length = c.len) : (convEnc c u false).length = nfull c :=
  convFull_length hu

/-! ### PDTCH and TCH records (R176, R196) -/

theorem pdtchArea_length (rom : Rom) (r : PdsRec) (o : List Byte) : (pdtchArea rom r o).length = 4 * pdsWidth r.psk8 :=
  scatter_length _ _ _

/-- What `PDTCH_DEC` reserves in `OB` holds a block of any scheme of its modulation (R183). -/
theorem octets_le_lmax {rom : Rom} {n : Nat} {r : PdsRec} (h : romPds rom n = some r) : r.octets ≤ lmax r.psk8 := by
  obtain ⟨hoct, hpsk, -⟩ := romPds_known h
  have htable : ∀ x ∈ pdsOctets.zipIdx, x.1 ≤ lmax (decide (8 ≤ x.2)) := by decide
  rw [hpsk]
  exact htable (r.octets, n) (List.mem_zipIdx_iff_getElem?.mpr hoct)

/-- The speech bits of a frame fit its octets (R196). -/
theorem tcsWf_nd_le {rom : Rom} {s : Nat} {t : TcsRec} (h : tcsWf rom s t = true) : t.nd ≤ 8 * t.octets := by
  simp only [tcsWf, Bool.and_eq_true, decide_eq_true_eq] at h
  obtain ⟨⟨⟨⟨⟨⟨⟨⟨⟨-, hnd⟩, -⟩, -⟩, -⟩, -⟩, -⟩, -⟩, -⟩, -⟩ := h
  exact hnd

/-- A frame of a well-formed TCH record has at most 33 octets (R196, R205), the length that `TCH_DEC` reserves. -/
theorem speechDecode_octets_length_le {rom : Rom} (h : romTablesWf rom = true) {n : Nat} {t : TcsRec} (ht : romTcs rom n = some t)
    (y : List Int) : (speechDecode rom t y).octets.length ≤ 33 := by
  have hoct := romTcs_known ht
  have hn : n < 19 := Nat.lt_of_lt_of_le (List.getElem?_eq_some_iff.mp hoct).1 (by decide)
  have htable : ∀ o ∈ [33, 31, 14] ++ amrOctets ++ amrOctets.take 6, o ≤ 33 := by decide
  obtain ⟨-, -, htcs, -⟩ := romTablesWf_parts h
  have hwf := htcs n hn
  rw [ht, Option.all_some, Bool.and_eq_true] at hwf
  have hnd := tcsWf_nd_le hwf.1
  refine Nat.le_trans (Nat.le_of_eq (packBits_octets_length ?_)) (htable t.octets (List.mem_of_getElem? hoct))
  rw [List.length_append, List.length_map, List.length_range, List.length_replicate]
  omega

/-! ### TCH geometries (R197) -/

theorem placementWf_lt {rom : Rom} (h : romTablesWf rom = true) {place : Nat} {flags : List Nat}
    (hp : placementWf rom place flags = true) : ∀ x ∈ (permRef rom place).map ++ flags, x < tchArea := by
  cases hr : romPerm rom place with
  | none =>
    rw [placementWf, hr] at hp
    cases hp
  | some r =>
    simp only [placementWf, hr, Option.any_some, Bool.and_eq_true, beq_iff_eq, List.all_eq_true, decide_eq_true_eq] at hp
    obtain ⟨⟨hnout, hflags⟩, -⟩ := hp
    obtain ⟨-, hmap⟩ := permWf_map (romPerm_wf h hr)
    have href : permRef rom place = r := by rw [permRef, hr]; rfl
    intro x hx
    rcases List.mem_append.mp hx with hx | hx
    · exact hnout ▸ hmap x (href ▸ hx)
    · exact (hflags x hx).1

/-- The cells of every geometry lie in the burst area, for speech and for FACCH. -/
theorem romTcg_lt {rom : Rom} (h : romTablesWf rom = true) (m : Nat) :
    (∀ x ∈ speechCells rom (romTcg rom m) ++ speechFlags (romTcg rom m), x < tchArea)
      ∧ ∀ x ∈ facchCells rom (romTcg rom m) ++ facchFlags (romTcg rom m), x < tchArea := by
  have hdiag : ∀ x ∈ diagCells ++ diagFlags, x < tchArea := fun x hx =>
    (List.mem_append.mp hx).elim diagCells_lt (diagFlags_lt x)
  have htable : ∀ t, tableWf rom t = true → (∀ x ∈ (permRef rom t.splace).map ++ t.sflags, x < tchArea)
      ∧ ∀ x ∈ (permRef rom t.fplace).map ++ t.fflags, x < tchArea := fun t ht => by
    simp only [tableWf, Bool.and_eq_true] at ht
    obtain ⟨⟨⟨hs, hf⟩, -⟩, -⟩ := ht
    exact ⟨placementWf_lt h hs, placementWf_lt h hf⟩
  obtain ⟨-, -, -, hhr, hahr⟩ := romTablesWf_parts h
  unfold romTcg
  split
  · exact htable rom.tcgHr hhr
  · split
    · exact htable rom.tcgAhr hahr
    · exact ⟨hdiag, hdiag⟩

end Sys2Proof.Machine
end

section
/-! SUPPORT. How a command ends, in the words of R48 and R217: it keeps every cell and leaves `RLEN` 0, or it ends with `OK`, or with
`W_OOR` in stage `S13`, and stores cells that its range check has covered. That a failure writes nothing and that no store
leaves its buffer are both read off from `work_ends`. -/

namespace Sys2Proof.Machine

/-! ### The two ways to end -/

/-- The `STATUS` of a command that ran to the end of its work: `OK`, or `W_OOR` in stage `S13` (R219). -/
def statusDone (w : Word) : Bool := statusCode w == 0x00 || (statusCode w == 0x04 && statusStage w == 13)

/-- How a command ends: with every cell kept and `RLEN` 0, or done with a store. That the store lies inside its buffer needs a ROM
of well-formed tables. -/
inductive CommandEnd (rom : Rom) (c : CoreInst) : CoreInst → Prop
  | kept {r : Results} {st : Stage} (hrlen : r.rlen = 0#32) : CommandEnd rom c (c.ended r st)
  | stored {b : Buf} {ws : List Host.Cell} {r : Results} {st : Stage} (hdone : statusDone r.status = true)
    (hin : romTablesWf rom = true → ∀ x ∈ ws, x.1 < bufSize b) : CommandEnd rom c ((c.store b ws).ended r st)

section
variable {rom : Rom} {c : CoreInst}

theorem CommandEnd.ite {P : Prop} [Decidable P] {x y : CoreInst} (hx : P → CommandEnd rom c x) (hy : ¬P → CommandEnd rom c y) :
    CommandEnd rom c (if P then x else y) := by
  by_cases h : P
  · rw [if_pos h]
    exact hx h
  · rw [if_neg h]
    exact hy h

theorem vecCells_lt {a n : Nat} {vs : List Byte} (h : a + vs.length ≤ n) : ∀ x ∈ vecCells a vs, x.1 < n := by
  intro x hx
  obtain ⟨j, hj, he⟩ := mem_vecCells.mp hx
  have := (List.getElem?_eq_some_iff.mp hj).1
  omega

/-- A vector no longer than `n` lies inside the buffer where `n` cells fit. -/
theorem vec_inBuffer {b : Buf} {a : Word} {n : Nat} {vs : List Byte} (hfit : Fits a n b) (hlen : vs.length ≤ n) :
    ∀ x ∈ vecCells a.toNat vs, x.1 < bufSize b :=
  vecCells_lt (Nat.le_trans (Nat.add_le_add_left hlen _) hfit)

theorem bits_inBuffer {a : Word} {n : Nat} {u : List Bool} (hfit : Fits a n .hb) (hlen : u.length ≤ n) :
    ∀ x ∈ vecCells a.toNat (u.map bitByte), x.1 < bufSize .hb :=
  vec_inBuffer hfit (Nat.le_trans (Nat.le_of_eq (List.length_map _)) hlen)

/-- Cells at offsets below `n` from the operand lie inside the buffer where `n` cells fit. -/
theorem offsets_inBuffer {b : Buf} {a : Word} {n : Nat} {ws : List Host.Cell} (hfit : Fits a n b)
    (hoff : ∀ x ∈ ws, ∃ k < n, x.1 = a.toNat + k) : ∀ x ∈ ws, x.1 < bufSize b := by
  intro x hx
  obtain ⟨k, hk, he⟩ := hoff x hx
  rw [he]
  exact Nat.lt_of_lt_of_le (Nat.add_lt_add_left hk _) hfit

/-- A command that is done, with its `STATUS` word written out. -/
theorem CommandEnd.storing {b : Buf} {ws : List Host.Cell} {w nerr nbits rlen detid steal subst : Word} {st : Stage}
    (hdone : statusDone w = true) (hin : romTablesWf rom = true → ∀ x ∈ ws, x.1 < bufSize b) :
    CommandEnd rom c ((c.store b ws).ended
      { status := w, nerr := nerr, nbits := nbits, rlen := rlen, detid := detid, steal := steal, subst := subst } st) :=
  .stored hdone hin

/-- The offsets of cells that are laid along a list of places. -/
theorem zip_offsets {a n : Nat} {places : List Nat} {vs : List Byte} (h : ∀ k ∈ places, k < n) :
    ∀ x ∈ List.zip (places.map (a + ·)) vs, ∃ k < n, x.1 = a + k := by
  rintro ⟨y, v⟩ hx
  obtain ⟨k, hk, he⟩ := List.mem_map.mp (List.of_mem_zip hx).1
  exact ⟨k, h k hk, he.symm⟩

/-- A decoder stores its block on a pass, and keeps every cell when its check fails. -/
theorem CommandEnd.decoded {ok : Bool} {a : Word} {n : Nat} {o : List Byte} {r : Results} {st st' : Stage}
    (hpass : ok = true → statusDone r.status = true) (hfail : ok = false → r.rlen = 0#32) (hfit : Fits a n .ob)
    (hlen : romTablesWf rom = true → o.length ≤ n) :
    CommandEnd rom c (if ok then (c.storeVec .ob a.toNat o).ended r st else c.ended r st') :=
  .ite (fun h => .stored (hpass h) fun hw => vec_inBuffer hfit (hlen hw)) fun h => .kept (hfail (Bool.eq_false_iff.mpr h))

/-! ### Utility commands -/

theorem nopCmd_ends : CommandEnd rom c (nopCmd c) := by
  rw [nopCmd_eq]
  exact .kept rfl

theorem unpkCmd_ends (msbf : Bool) : CommandEnd rom c (unpkCmd msbf c) := by
  rw [unpkCmd_eq]
  exact .ite (fun ⟨_, _, hfit⟩ => .storing (by decide) fun _ => bits_inBuffer hfit (by simp)) fun _ => .kept rfl

theorem packCmd_ends (msbf : Bool) : CommandEnd rom c (packCmd msbf c) := by
  rw [packCmd_eq]
  exact .ite (fun ⟨_, _, hfit⟩ => .storing (by decide) fun _ => vec_inBuffer hfit (by simp [octetsFor])) fun _ => .kept rfl

theorem h2sCmd_ends : CommandEnd rom c (h2sCmd c) := by
  rw [h2sCmd_eq]
  exact .ite (fun ⟨_, _, hfit⟩ => .storing (by decide) fun _ => vec_inBuffer hfit (by simp)) fun _ => .kept rfl

theorem s2hCmd_ends : CommandEnd rom c (s2hCmd c) := by
  rw [s2hCmd_eq]
  exact .ite (fun ⟨_, _, hfit⟩ => .storing (by decide) fun _ => bits_inBuffer hfit (by simp)) fun _ => .kept rfl

/-! ### The engines -/

theorem cencCmd_ends (d : Nat) (p : Bool) : CommandEnd rom c (cencCmd rom d p c) := by
  cases hd : romConv rom d with
  | none =>
    rw [cencCmd_absent rom d p c hd]
    exact .kept rfl
  | some cd =>
    rw [cencCmd_eq rom d p c hd]
    refine .ite (fun ⟨_, hfit⟩ => .ite (fun _ => ?_) fun _ => .kept rfl) fun _ => .kept rfl
    exact .storing (by decide) fun hw => bits_inBuffer hfit (convEnc_length (romConv_wf hw hd) (c.loadBits_length _ _) p).le

theorem vdecCmd_ends (d : Nat) (p : Bool) : CommandEnd rom c (vdecCmd rom d p c) := by
  cases hd : romConv rom d with
  | none =>
    rw [vdecCmd_absent rom d p c hd]
    exact .kept rfl
  | some cd =>
    rw [vdecCmd_eq rom d p c hd]
    refine .ite (fun ⟨_, hfit⟩ => .ite (fun _ => ?_) fun _ => .kept rfl) fun _ => .kept rfl
    exact .storing (by decide) fun _ => bits_inBuffer hfit (decodeStats_length cd _ p).le

theorem crcsCmd_ends (p : Nat) : CommandEnd rom c (crcsCmd rom p c) := by
  cases hp : romCrc rom p with
  | none =>
    rw [crcsCmd_absent rom p c hp]
    exact .kept rfl
  | some q =>
    rw [crcsCmd_eq rom p c hp]
    exact .ite (fun ⟨_, _, hfit⟩ => .storing (by decide) fun _ => bits_inBuffer hfit (by simp)) fun _ => .kept rfl

theorem crccCmd_ends (p : Nat) : CommandEnd rom c (crccCmd rom p c) := by
  cases hp : romCrc rom p with
  | none =>
    rw [crccCmd_absent rom p c hp]
    exact .kept rfl
  | some q =>
    rw [crccCmd_eq rom p c hp]
    exact .ite (fun _ => .ite (fun _ => .kept rfl) fun _ => .kept rfl) fun _ => .kept rfl

theorem puncCmd_ends (d : Nat) (m : Bool) : CommandEnd rom c (puncCmd rom d m c) := by
  cases hd : romConv rom d with
  | none =>
    rw [puncCmd_absent rom d m c hd]
    exact .kept rfl
  | some cd =>
    rw [puncCmd_eq rom d m c hd]
    refine .ite (fun ⟨_, hfit⟩ => .ite (fun _ => ?_) fun _ => .kept rfl) fun _ => .kept rfl
    exact .storing (by decide) fun hw => vec_inBuffer hfit (puncture_length (romConv_wf hw hd) (c.load_length _ _ _)).le

theorem dpunCmd_ends (d : Nat) (m : Bool) : CommandEnd rom c (dpunCmd rom d m c) := by
  cases hd : romConv rom d with
  | none =>
    rw [dpunCmd_absent rom d m c hd]
    exact .kept rfl
  | some cd =>
    rw [dpunCmd_eq rom d m c hd]
    refine .ite (fun ⟨_, hfit⟩ => .ite (fun _ => ?_) fun _ => .kept rfl) fun _ => .kept rfl
    exact .storing (by decide) fun _ => vec_inBuffer hfit (depuncture_length _ _ _ _).le

theorem ilvCmd_ends (var m : Bool) : CommandEnd rom c (ilvCmd var m c) := by
  rw [ilvCmd_eq]
  exact .ite (fun ⟨_, hfit⟩ => .storing (by decide) fun _ => offsets_inBuffer hfit (zip_offsets fun _ => ilvCells_lt)) fun _ => .kept rfl

theorem dilvCmd_ends (var m : Bool) : CommandEnd rom c (dilvCmd var m c) := by
  rw [dilvCmd_eq]
  exact .ite (fun ⟨_, hfit⟩ => .storing (by decide) fun _ => vec_inBuffer hfit (by simp [ilvCells])) fun _ => .kept rfl

theorem permCmd_ends (t : Nat) (inv m : Bool) : CommandEnd rom c (permCmd rom t inv m c) := by
  cases ht : romPerm rom t with
  | none =>
    rw [permCmd_absent rom t inv m c ht]
    exact .kept rfl
  | some r =>
    have hmap := fun hw => permWf_map (romPerm_wf hw ht)
    rw [permCmd_eq rom t inv m c ht]
    refine .ite (fun ⟨_, hfit⟩ => ?_) fun _ => .kept rfl
    cases inv with
    | false => exact .storing (by decide) fun hw => offsets_inBuffer hfit (zip_offsets (hmap hw).2)
    | true =>
      exact .storing (by decide) fun hw => vec_inBuffer hfit ((gather_length _ _ _).trans (hmap hw).1).le

theorem bmapCmd_ends (hl hu m : Bool) : CommandEnd rom c (bmapCmd hl hu m c) := by
  rw [bmapCmd_eq]
  exact .ite (fun ⟨_, hfit⟩ => .storing (by decide) fun _ => vec_inBuffer hfit (mapBurst_length (c.load_length _ _ _) _ _).le)
    fun _ => .kept rfl

theorem bmaptCmd_ends (odd h m : Bool) : CommandEnd rom c (bmaptCmd odd h m c) := by
  rw [bmaptCmd_eq]
  refine .ite (fun ⟨_, hfit⟩ => .storing (by decide) fun _ => offsets_inBuffer hfit fun x hx => ?_) fun _ => .kept rfl
  rcases List.mem_append.mp hx with hx | hx
  · obtain ⟨j, hj, rfl⟩ := List.mem_map.mp hx
    exact ⟨burstPos j, burstPos_lt (halfPositions_lt hj), rfl⟩
  · obtain rfl := List.mem_singleton.mp hx
    exact ⟨_, by cases odd <;> decide, rfl⟩

theorem bunmCmd_ends (fo m : Bool) : CommandEnd rom c (bunmCmd fo m c) := by
  rw [bunmCmd_eq]
  refine .ite (fun ⟨_, hfit⟩ => .ite (fun _ => .kept rfl) fun hfo => ?_) fun _ => .kept rfl
  exact .storing (by decide) fun _ => vec_inBuffer (hfit (Bool.eq_false_iff.mpr hfo))
    (unmapBurst_length (c.load_length _ _ _)).le

theorem bunmtCmd_ends (odd fo m : Bool) : CommandEnd rom c (bunmtCmd odd fo m c) := by
  rw [bunmtCmd_eq]
  refine .ite (fun ⟨_, hfit⟩ => .ite (fun _ => .kept rfl) fun hfo => ?_) fun _ => .kept rfl
  refine .storing (by decide) fun _ => offsets_inBuffer (hfit (Bool.eq_false_iff.mpr hfo)) fun x hx => ?_
  obtain ⟨j, hj, rfl⟩ := List.mem_map.mp hx
  exact ⟨j, halfPositions_lt hj, rfl⟩

/-! ### The fixed-length channels -/

theorem checkedResults_done {okStatus : Word} (h : statusDone okStatus = true) {failStatus rlen : Word} {ok : Bool} {ne nb : Nat}
    {steal : Word} : ok = true → statusDone (checkedResults okStatus failStatus rlen ok ne nb steal).status = true := by
  rintro rfl
  exact h

theorem checkedResults_rlen {okStatus failStatus rlen : Word} {ok : Bool} {ne nb : Nat} {steal : Word} :
    ok = false → (checkedResults okStatus failStatus rlen ok ne nb steal).rlen = 0#32 := by
  rintro rfl
  rfl

theorem xcchEncCmd_ends : CommandEnd rom c (xcchEncCmd c) := by
  rw [xcchEncCmd_eq]
  exact .ite (fun ⟨_, hfit⟩ => .storing (by decide) fun _ => bits_inBuffer hfit (mapFour_length (xcchEncode_length _) _ _).le)
    fun _ => .kept rfl

theorem xcchDecCmd_ends : CommandEnd rom c (xcchDecCmd c) := by
  rw [xcchDecCmd_eq]
  refine .ite (fun ⟨_, hfit⟩ => ?_) fun _ => .kept rfl
  exact .decoded (checkedResults_done (by decide)) checkedResults_rlen hfit fun _ => xcchDecodeCoded_octets_length_le _

theorem rachEncCmd_ends : CommandEnd rom c (rachEncCmd c) := by
  rw [rachEncCmd_eq]
  refine .ite (fun ⟨_, hfit⟩ => .storing (by decide) fun _ => bits_inBuffer hfit ?_) fun _ => .kept rfl
  refine Nat.le_of_eq (convEnc_plain_length (c := roleConv rachConv) ?_)
  rw [List.length_append, unpackBits_length, bsicXor, List.length_mapIdx, crcBits_length]
  rfl

theorem rachDecCmd_ends : CommandEnd rom c (rachDecCmd c) := by
  rw [rachDecCmd_eq]
  refine .ite (fun ⟨_, hfit⟩ => ?_) fun _ => .kept rfl
  exact .decoded (checkedResults_done (by decide)) checkedResults_rlen hfit fun _ => packBits_take_length_le _ (by decide)

theorem schEncCmd_ends : CommandEnd rom c (schEncCmd c) := by
  rw [schEncCmd_eq]
  refine .ite (fun ⟨_, hfit⟩ => .storing (by decide) fun _ => bits_inBuffer hfit ?_) fun _ => .kept rfl
  refine Nat.le_of_eq (convEnc_plain_length (c := roleConv schConv) ?_)
  rw [List.length_append, unpackBits_length, crcBits_length]
  rfl

theorem schDecCmd_ends : CommandEnd rom c (schDecCmd c) := by
  rw [schDecCmd_eq]
  refine .ite (fun ⟨_, hfit⟩ => ?_) fun _ => .kept rfl
  exact .decoded (checkedResults_done (by decide)) checkedResults_rlen hfit fun _ => packBits_take_length_le _ (by decide)

/-! ### PDTCH -/

theorem pdtchEncCmd_ends : CommandEnd rom c (pdtchEncCmd rom c) := by
  rw [pdtchEncCmd_eq]
  refine .ite (fun _ => ?_) fun _ => .kept rfl
  cases schemeOfLength rom c.a2.toNat with
  | none => exact .kept rfl
  | some x =>
    obtain ⟨s, r⟩ := x
    refine .ite (fun _ => .ite (fun hfit => ?_) fun _ => .kept rfl) fun _ => .kept rfl
    exact .storing (by decide) fun _ => bits_inBuffer hfit (pdtchArea_length rom r _).le

theorem pdtchResults_done {pass oor : Bool} {octets ne nb : Nat} {detid steal subst : Word} :
    pass = true → statusDone (pdtchResults pass oor octets ne nb detid steal subst).status = true := by
  rintro rfl
  cases oor
  · exact (by decide : statusDone 0x0027D100#32 = true)
  · exact (by decide : statusDone 0x0027D504#32 = true)

theorem pdtchResults_rlen {pass oor : Bool} {octets ne nb : Nat} {detid steal subst : Word} :
    pass = false → (pdtchResults pass oor octets ne nb detid steal subst).rlen = 0#32 := by
  rintro rfl
  rfl

/-- The smaller of the two reserved lengths holds an xCCH block (R183). -/
theorem xcchOctets_le_lmax (psk8 : Bool) : 23 ≤ lmax psk8 := by cases psk8 <;> decide

theorem pdtchDecCmd_ends (psk8 : Bool) : CommandEnd rom c (pdtchDecCmd rom psk8 c) := by
  rw [pdtchDecCmd_eq]
  refine .ite (fun ⟨_, hfit⟩ => ?_) fun _ => .kept rfl
  dsimp only
  generalize c.loadSoft c.a0.toNat (4 * pdsWidth psk8) = area
  cases hx : detectScheme (candidates rom psk8 c.pdcfg) area with
  | none => exact .kept rfl
  | some x =>
    obtain ⟨s, r⟩ := x
    obtain ⟨hr, rfl, -⟩ := detectScheme_some hx
    cases hk : r.kind with
    | xcch =>
      simp only [hk, pdtchDecXcch_eq]
      exact .decoded pdtchResults_done pdtchResults_rlen hfit fun _ =>
        Nat.le_trans (xcchDecodeCoded_octets_length_le _) (xcchOctets_le_lmax r.psk8)
    | gen =>
      simp only [hk, pdtchDecGen_eq]
      exact .decoded pdtchResults_done pdtchResults_rlen hfit fun _ =>
        Nat.le_trans (Nat.le_of_eq (packBits_octets_length (scatter_length _ _ _))) (octets_le_lmax hr)

/-! ### TCH -/

/-- Coded bits and flags of a block lie in the burst area when their places do. -/
theorem tchCells_offsets {a : Nat} {cells flags : List Nat} (h : ∀ x ∈ cells ++ flags, x < tchArea) (cB : List Bool) (facch : Bool) :
    ∀ x ∈ tchCells a cells flags cB facch, ∃ k < tchArea, x.1 = a + k := by
  intro x hx
  rcases List.mem_append.mp hx with hx | hx
  · exact zip_offsets (fun k hk => h k (List.mem_append_left _ hk)) x hx
  · obtain ⟨f, hf, rfl⟩ := List.mem_map.mp hx
    exact ⟨f, h f (List.mem_append_right _ hf), rfl⟩

theorem tchEncCmd_ends (cmr : Bool) : CommandEnd rom c (tchEncCmd rom cmr c) := by
  rw [tchEncCmd_eq]
  refine .ite (fun ⟨_, hfit⟩ => .ite (fun _ => .kept rfl) fun _ => .ite (fun _ => ?_) fun _ => ?_) fun _ => .kept rfl
  · exact .storing (by decide) fun hw => offsets_inBuffer hfit (tchCells_offsets (romTcg_lt hw _).2 _ _)
  · cases speechScheme rom (chmodeOf c.chmode) c.a2.toNat with
    | none => exact .kept rfl
    | some x =>
      obtain ⟨s, t⟩ := x
      refine .ite (fun _ => ?_) fun _ => ?_
      · exact .storing (by decide) fun hw => offsets_inBuffer hfit (tchCells_offsets (romTcg_lt hw _).1 _ _)
      · cases amrEncodeId rom t (chmodeOf c.chmode) s cmr c with
        | none => exact .kept rfl
        | some id => exact .storing (by decide) fun hw => offsets_inBuffer hfit (tchCells_offsets (romTcg_lt hw _).1 _ _)

theorem tchResults_done {pass : Bool} {fl : CmdFlags} {octets ne nb : Nat} {detid steal subst : Word} :
    pass = true → statusDone (tchResults pass fl octets ne nb detid steal subst).status = true := by
  rintro rfl
  have hall : ∀ oor facch : Bool,
      statusDone (statusImage 0x29 (if oor then .wOor else .ok) { oor := oor, facch := facch } .s13) = true := by decide
  exact hall fl.oor fl.facch

theorem tchResults_rlen {pass : Bool} {fl : CmdFlags} {octets ne nb : Nat} {detid steal subst : Word} :
    pass = false → (tchResults pass fl octets ne nb detid steal subst).rlen = 0#32 := by
  rintro rfl
  rfl

theorem tchDecSpeech_ends (hfit : Fits c.a1 33 .ob) (g : Geom) (s : Nat) (area : List Int) (oor : Bool) (d w : Word) :
    CommandEnd rom c (tchDecSpeech rom g s area oor (c.midDecode d w)) := by
  rw [tchDecSpeech_eq]
  cases ht : romTcs rom s with
  | none => exact .kept rfl
  | some t =>
    exact .decoded tchResults_done tchResults_rlen hfit fun hw => speechDecode_octets_length_le hw ht _

theorem tchDecAmr_ends (hfit : Fits c.a1 33 .ob) (g : Geom) (m : Nat) (cmr : Bool) (area : List Int) (w : Word) :
    CommandEnd rom c (tchDecAmr rom g m cmr area (c.midDecode 0#32 w)) := by
  rw [tchDecAmr_eq]
  cases (amrRange m).findSome? (romTcs rom) with
  | none => exact .kept rfl
  | some t0 =>
    dsimp only
    generalize idDetect rom t0 _ = id
    cases amrSlot c.amrcfg (if cmr then ftOf c.a3 else id) with
    | none => exact .kept rfl
    | some mode => exact tchDecSpeech_ends hfit g _ area _ _ w

theorem tchDecCmd_ends (cmr : Bool) : CommandEnd rom c (tchDecCmd rom cmr c) := by
  rw [tchDecCmd_eq]
  refine .ite (fun ⟨_, hfit⟩ => .ite (fun _ => .kept rfl) fun _ => .ite (fun _ => ?_) fun _ => ?_) fun _ => .kept rfl
  · rw [tchDecFacch_eq]
    exact .decoded tchResults_done tchResults_rlen hfit fun _ =>
      Nat.le_trans (xcchDecodeCoded_octets_length_le _) (by decide)
  · exact .ite (fun _ => tchDecSpeech_ends hfit ..) fun _ => tchDecAmr_ends hfit ..

/-! ### Every command but `SRST` -/

theorem work_ends {i : Instr} (hi : i ≠ .srst) : CommandEnd rom c (work rom i c) := by
  cases i with
  | nop => exact nopCmd_ends
  | cenc d p => exact cencCmd_ends d p
  | vdec d p => exact vdecCmd_ends d p
  | crcs d => exact crcsCmd_ends d
  | crcc d => exact crccCmd_ends d
  | punc d m => exact puncCmd_ends d m
  | dpun d m => exact dpunCmd_ends d m
  | ilv var m => exact ilvCmd_ends var m
  | dilv var m => exact dilvCmd_ends var m
  | perm d inv m => exact permCmd_ends d inv m
  | bmap hl hu m => exact bmapCmd_ends hl hu m
  | bunm fo m => exact bunmCmd_ends fo m
  | bmapt odd flag m => exact bmaptCmd_ends odd flag m
  | bunmt odd fo m => exact bunmtCmd_ends odd fo m
  | unpk msbf => exact unpkCmd_ends msbf
  | pack msbf => exact packCmd_ends msbf
  | h2s => exact h2sCmd_ends
  | s2h => exact s2hCmd_ends
  | xcchEnc => exact xcchEncCmd_ends
  | xcchDec => exact xcchDecCmd_ends
  | rachEnc => exact rachEncCmd_ends
  | rachDec => exact rachDecCmd_ends
  | schEnc => exact schEncCmd_ends
  | schDec => exact schDecCmd_ends
  | pdtchEnc => exact pdtchEncCmd_ends
  | pdtchDec psk8 => exact pdtchDecCmd_ends psk8
  | tchEnc cmr => exact tchEncCmd_ends cmr
  | tchDec cmr => exact tchDecCmd_ends cmr
  | srst => exact absurd rfl hi

end

end Sys2Proof.Machine
end

section
/-! SUPPORT. What `work_ends` says of failures and of the bounds of the buffers, and the bounds under every other event: bus writes and
both resets (R19, R48, R221). -/

namespace Sys2Proof.Machine

/-! ### Failures (R48, R217, R219) -/

/-- A command that did not run to the end of its work has kept every cell and left `RLEN` 0. -/
theorem CommandEnd.kept_of_not_done {rom : Rom} {c d : CoreInst} (h : CommandEnd rom c d) (hd : ¬statusDone d.status = true) :
    d.rlen = 0#32 ∧ ∀ b k, d.cell b k = c.cell b k := by
  cases h with
  | kept hrlen => exact ⟨hrlen, fun b k => c.cell_ended _ _ b k⟩
  | stored hdone => exact absurd hdone hd

/-- Settles O15: by `work_ends` a command whose `STATUS` is neither `OK` nor `W_OOR` of stage `S13` keeps every cell. -/
theorem failureWritesNothing : Obligations.FailureWritesNothing := by
  intro i s t c d hi hc ht hd hfail
  have h : CommandEnd s.params.rom c d := cur?_of_exec hc ht hd ▸ work_ends hi
  refine h.kept_of_not_done fun hdone => ?_
  simp only [statusDone, Bool.or_eq_true, Bool.and_eq_true, beq_iff_eq] at hdone
  omega

/-! ### The bounds of one CORE -/

theorem CoreInst.InBounds.of_mem_eq {c d : CoreInst} (h : c.InBounds) (hmem : ∀ b, d.mem b = c.mem b) : d.InBounds :=
  fun b x hx => h b x (Eq.mp (congrArg (x ∈ ·) (hmem b)) hx)

theorem CoreInst.InBounds.store {c : CoreInst} (h : c.InBounds) {b : Buf} {ws : List Host.Cell} (hws : ∀ x ∈ ws, x.1 < bufSize b) :
    (c.store b ws).InBounds := by
  intro b' x hx
  by_cases hb : b' = b
  · subst hb
    rw [CoreInst.store, CoreInst.mem_setMem_self] at hx
    rcases Memory.mem_writeAll hx with hx | hx
    · obtain ⟨y, hy, rfl⟩ := List.mem_map.mp hx
      exact hws y hy
    · exact h b' x hx
  · rw [CoreInst.store, CoreInst.mem_setMem_ne _ _ hb] at hx
    exact h b' x hx

theorem coreReset_inBounds (index epoch : Nat) : (coreReset index epoch).InBounds := by
  intro b x hx
  cases b <;> cases hx

theorem CommandEnd.inBounds {rom : Rom} {c d : CoreInst} (h : CommandEnd rom c d) (hw : romTablesWf rom = true) (hc : c.InBounds) :
    d.InBounds := by
  cases h with
  | kept => exact hc.of_mem_eq (c.mem_ended _ _)
  | stored _ hin => exact (hc.store (hin hw)).of_mem_eq (CoreInst.mem_ended _ _ _)

theorem CoreInst.InBounds.illegal {c : CoreInst} (h : c.InBounds) (w : Word) : (c.illegal w).InBounds := by
  rw [CoreInst.illegal, CoreInst.raise_clearResults]
  exact h.of_mem_eq (c.mem_ended _ _)

/-- No command word, legal or not, stores outside a buffer. -/
theorem CoreInst.InBounds.commandWork {c : CoreInst} (h : c.InBounds) {rom : Rom} (hw : romTablesWf rom = true) (w : Word) :
    (commandWork rom w c).InBounds := by
  simp only [Machine.commandWork]
  cases decode w with
  | ok i =>
    by_cases hi : i = .srst
    · subst hi
      exact h.of_mem_eq c.mem_resetRegs
    · exact (work_ends hi).inBounds hw h
  | error e => exact h.illegal w

/-! ### The block -/

/-- The buffer windows of the address map are as long as the buffers (R41). -/
theorem windowTarget_cell_lt {o : Nat} {b : Buf} {k : Nat} (h : windowTarget o = .cell b k) : k < bufSize b := by
  unfold windowTarget at h
  split_ifs at h with h1 h2 h3 h4 h5 <;> obtain ⟨rfl, rfl⟩ := Target.cell.inj h <;>
    simp only [bufSize, obSize, hbSize, sbSize] <;> omega

theorem busWrite_finish_inBounds {s : State} (hw : romTablesWf s.params.rom = true) (h : s.InBounds) (addr : Nat) (w : Width)
    (v : Word) : (busWrite s addr w v).finish.InBounds := by
  obtain e | ⟨i, o, off, -, -, -, e⟩ | ⟨i, o, b, k, -, ht, e⟩ | ⟨i, o, -, -, e⟩ := busWrite_cases s addr w v
  · rw [e]
    exact h
  · rw [e]
    exact forall_mem_modify h (fun c hc => hc.of_mem_eq (regWrite_mem c off v)) i
  · have hcell : ∀ x ∈ [((k, v.setWidth 8) : Host.Cell)], x.1 < bufSize b := by
      intro x hx
      obtain rfl := List.mem_singleton.mp hx
      exact windowTarget_cell_lt ht
    rw [e]
    exact forall_mem_modify h (fun _ hc => hc.store hcell) i
  · have haccept : (s.acceptCommand i v).InBounds :=
      forall_mem_modify h (fun _ hc => hc.of_mem_eq fun b => by cases b <;> rfl) i
    rw [e]
    exact forall_mem_modify haccept (fun _ hc => hc.commandWork hw v) _

theorem takeEvent_finish_inBounds {s : State} (hw : romTablesWf s.params.rom = true) (h : s.InBounds) (ev : BusEvent) :
    (takeEvent s ev).finish.InBounds := by
  cases ev with
  | read addr w => exact h
  | write addr w v => exact busWrite_finish_inBounds hw h addr w v
  | powerOn =>
    intro c hc
    obtain ⟨i, -, rfl⟩ := List.mem_mapIdx.mp hc
    exact coreReset_inBounds i _

/-- Settles O19: a step takes nothing, or one event; of these only a cell write and a command store, the one inside its window, the
other, by `work_ends`, inside the range that was checked. -/
theorem stepKeepsInBounds : Obligations.StepKeepsInBounds := by
  intro s t hw h ht
  cases hp : s.pending with
  | nil =>
    obtain rfl := Host.Outcome.next.inj ((step_eq_self hp).symm.trans ht)
    exact h
  | cons ev rest =>
    obtain rfl := Host.Outcome.next.inj ((step_eq_finish hp).symm.trans ht)
    exact takeEvent_finish_inBounds (s := { s with pending := rest }) hw h ev

end Sys2Proof.Machine
end

section
/-! SUPPORT. The accesses of the host port: which are refused, what a byte access does to a buffer cell, and what a word write does to a
register (R44 to R46). -/

namespace Sys2Proof.Machine

/-! ### Refused accesses (R44) -/

theorem busRead_refused {s : State} {addr : Nat} {w : Width} (h : legalAccess s addr w = false) : busRead s addr w = .busError := by
  unfold busRead
  split
  next => rfl
  next i o hl =>
    split
    next c off _ ht =>
      have halign : ¬off % 4 = 0 := by simpa [legalAccess, hl, ht] using h
      rw [if_neg halign]
    next c b k _ ht => simp [legalAccess, hl, ht] at h
    next => rfl

theorem busWrite_refused {s : State} {addr : Nat} {w : Width} (h : legalAccess s addr w = false) (v : Word) :
    busWrite s addr w v = .answered (s.answer .busError) := by
  unfold busWrite
  split
  next => rfl
  next i o hl =>
    split
    next off ht =>
      have halign : ¬off % 4 = 0 := by simpa [legalAccess, hl, ht] using h
      rw [if_pos halign]
    next b k ht => simp [legalAccess, hl, ht] at h
    next => rfl

/-! ### Accesses that are answered -/

/-- A read answers from the state and changes nothing but the port (R46). -/
theorem step_read {s : State} {addr : Nat} {w : Width} {rest : List BusEvent} (hp : s.pending = .read addr w :: rest) :
    step s = .next { s with pending := rest, resp := some (busRead s addr w) } := step_eq_finish hp

theorem step_write {s : State} {addr : Nat} {w : Width} {v : Word} {rest : List BusEvent} (hp : s.pending = .write addr w v :: rest) :
    step s = .next (busWrite { s with pending := rest } addr w v).finish := step_eq_finish hp

section
variable {s : State} {addr i o : Nat}

theorem busRead_cell {b : Buf} {k : Nat} {c : CoreInst} (hl : locate s addr = some (i, o)) (ht : windowTarget o = .cell b k)
    (hc : s.insts[i]? = some c) : busRead s addr .byte = .data ((c.cell b k).setWidth 32) := by
  simp only [busRead, hl, hc, ht]

/-- Updating what is found at a place is putting the updated value there. -/
theorem modify_eq_set_of_getElem? {α : Type} {l : List α} {c : α} (hc : l[i]? = some c) (f : α → α) :
    l.modify i f = l.set i (f c) := by
  rw [List.modify_eq_set_getElem?, hc]
  rfl

theorem busWrite_cell {b : Buf} {k : Nat} {c : CoreInst} (hl : locate s addr = some (i, o)) (ht : windowTarget o = .cell b k)
    (hc : s.insts[i]? = some c) (v : Word) :
    busWrite s addr .byte v = .answered { s with resp := some .done, insts := s.insts.set i (c.store b [(k, v.setWidth 8)]) } := by
  simp only [busWrite, hl, ht, modify_eq_set_of_getElem? hc]
  rfl

theorem busWrite_reg {c : CoreInst} (hl : locate s addr = some (i, o)) (ho : o < 0x100) (h4 : o % 4 = 0) (hcmd : o ≠ offCmd)
    (hc : s.insts[i]? = some c) (v : Word) :
    busWrite s addr .word v = .answered { s with resp := some .done, insts := s.insts.set i (regWrite c o v) } := by
  have ht : windowTarget o = .reg o := if_pos ho
  have halign : ¬o % 4 ≠ 0 := not_not.mpr h4
  simp only [busWrite, hl, ht, if_neg halign, if_neg hcmd, modify_eq_set_of_getElem? hc]
  rfl

end

/-! ### The obligations -/

/-- Settles O6: a refused access is answered with a bus error, and the port alone changes. -/
theorem illegalAccessRefused : Obligations.IllegalAccessRefused := by
  intro s addr w rest hill
  refine ⟨fun hp => ?_, fun v hp => ?_⟩
  · rw [step_read hp, busRead_refused hill]
  · rw [step_write hp, busWrite_refused (s := { s with pending := rest }) hill v]
    rfl

/-- Settles O7: a byte write stores one cell in the form of its buffer (`cellForm`, R45), and a byte read returns the cell. -/
theorem cellFormatsOnTheBus : Obligations.CellFormatsOnTheBus := by
  intro s addr i o k b c rest hl ht hc
  refine ⟨fun v hp => ?_, fun hp => ?_, ?_⟩
  · refine ⟨Memory.writeAll (c.mem b) [(k, cellForm b (v.setWidth 8))], ?_, ?_, fun j hj => ?_⟩
    · rw [step_write hp, busWrite_cell (s := { s with pending := rest }) hl ht hc v]
      rfl
    · have hcell : (c.store b [(k, v.setWidth 8)]).cell b k = cellForm b (v.setWidth 8) :=
        c.cell_store_of_mem (ws := [(k, v.setWidth 8)]) (List.nodup_singleton k) (List.mem_singleton_self _)
      refine hcell.trans ?_
      cases b <;> rfl
    · exact c.cell_store_of_notMem (ws := [(k, v.setWidth 8)]) fun x hx => List.mem_singleton.mp hx ▸ hj.symm
  · rw [step_read hp, busRead_cell hl ht hc]
  · rintro rfl
    exact cellForm_hb _

/-- Settles O8: the answer to a read depends on neither the queue nor the last answer, so it repeats; a register write is `regWrite`
on the addressed CORE. -/
theorem accessSideEffects : Obligations.AccessSideEffects := by
  refine ⟨fun s t addr w rest hp ht => ?_, fun s addr i off v c rest hp hl ho h4 hcmd hc => ?_⟩
  · obtain rfl := Host.Outcome.next.inj ((step_read hp).symm.trans ht)
    exact ⟨rfl, step_read rfl⟩
  · rw [step_write hp, busWrite_reg (s := { s with pending := rest }) hl ho h4 hcmd hc v]
    rfl

end Sys2Proof.Machine
end

section
/-! SUPPORT. The four fields of a command word (R60), the instruction an opcode and its operands make (R64), and the rows of the opcode
table by their fields: what both the decoder of R63 and the masks of R64 come to. -/

namespace Sys2Proof

/-! ### The fields of a word as numbers (R60) -/

theorem opcField_eq (w : Word) : opcField w = w.toNat % 256 := by
  simp [opcField]

theorem descField_eq (w : Word) : descField w = w.toNat / 256 % 256 := by
  simp [descField, Nat.shiftRight_eq_div_pow]

theorem flgField_toNat (w : Word) : (flgField w).toNat = w.toNat / 65536 % 256 := by
  simp [flgField, Nat.shiftRight_eq_div_pow]

theorem zField_toNat (w : Word) : (zField w).toNat = w.toNat / 16777216 := by
  have hw := w.isLt
  simp only [zField, BitVec.extractLsb'_toNat, Nat.shiftRight_eq_div_pow]
  omega

/-- The four fields hold all 32 bits of a word. -/
theorem toNat_eq_fields (w : Word) :
    w.toNat = opcField w + 256 * descField w + 65536 * (flgField w).toNat + 16777216 * (zField w).toNat := by
  rw [opcField_eq, descField_eq, flgField_toNat, zField_toNat]
  omega

theorem word_ext {v w : Word} (hopc : opcField v = opcField w) (hdesc : descField v = descField w) (hflg : flgField v = flgField w)
    (hz : zField v = zField w) : v = w := by
  apply BitVec.eq_of_toNat_eq
  rw [toNat_eq_fields v, toNat_eq_fields w, hopc, hdesc, hflg, hz]

theorem descField_eq_zero {w : Word} : descField w = 0 ↔ w.extractLsb' 8 8 = 0#8 := BitVec.toNat_inj (y := 0#8)

theorem descField_lt (w : Word) : descField w < 256 := BitVec.isLt _

/-! ### The word of an instruction (R60 to R62) -/

/-- The fields of every instruction fit the command word. -/
theorem fields_fit (i : Instr) : Laws.Fields.Statement i :=
  match i with
  | .nop => Laws.Fields.nop
  | .cenc d p => Laws.Fields.cenc d p
  | .vdec d p => Laws.Fields.vdec d p
  | .crcs d => Laws.Fields.crcs d
  | .crcc d => Laws.Fields.crcc d
  | .punc d m => Laws.Fields.punc d m
  | .dpun d m => Laws.Fields.dpun d m
  | .ilv var m => Laws.Fields.ilv var m
  | .dilv var m => Laws.Fields.dilv var m
  | .perm d inv m => Laws.Fields.perm d inv m
  | .bmap hl hu m => Laws.Fields.bmap hl hu m
  | .bunm fo m => Laws.Fields.bunm fo m
  | .bmapt odd h m => Laws.Fields.bmapt odd h m
  | .bunmt odd fo m => Laws.Fields.bunmt odd fo m
  | .unpk msbf => Laws.Fields.unpk msbf
  | .pack msbf => Laws.Fields.pack msbf
  | .h2s => Laws.Fields.h2s
  | .s2h => Laws.Fields.s2h
  | .xcchEnc => Laws.Fields.xcchEnc
  | .xcchDec => Laws.Fields.xcchDec
  | .rachEnc => Laws.Fields.rachEnc
  | .rachDec => Laws.Fields.rachDec
  | .schEnc => Laws.Fields.schEnc
  | .schDec => Laws.Fields.schDec
  | .pdtchEnc => Laws.Fields.pdtchEnc
  | .pdtchDec psk8 => Laws.Fields.pdtchDec psk8
  | .tchEnc cmr => Laws.Fields.tchEnc cmr
  | .tchDec cmr => Laws.Fields.tchDec cmr
  | .srst => Laws.Fields.srst

theorem encode_toNat {i : Instr} (hi : i.wf = true) : (encode i).toNat = i.opcode + 256 * i.desc + 65536 * i.flags := by
  obtain ⟨hopc, hflg, -, -, hdesc⟩ := fields_fit i
  have hdesc := hdesc hi
  rw [encode, BitVec.toNat_ofNat]
  omega

section
variable {i : Instr} (hi : i.wf = true)
include hi

theorem opcField_encode : opcField (encode i) = i.opcode := by
  obtain ⟨hopc, -⟩ := fields_fit i
  rw [opcField_eq, encode_toNat hi]
  omega

theorem descField_encode : descField (encode i) = i.desc := by
  obtain ⟨hopc, -, -, -, hdesc⟩ := fields_fit i
  have hdesc := hdesc hi
  rw [descField_eq, encode_toNat hi]
  omega

theorem flgField_encode : flgField (encode i) = BitVec.ofNat 8 i.flags := by
  obtain ⟨hopc, hflg, -, -, hdesc⟩ := fields_fit i
  have hdesc := hdesc hi
  apply BitVec.eq_of_toNat_eq
  rw [flgField_toNat, encode_toNat hi, BitVec.toNat_ofNat]
  omega

theorem zField_encode : zField (encode i) = 0#8 := by
  obtain ⟨hopc, hflg, -, -, hdesc⟩ := fields_fit i
  have hdesc := hdesc hi
  apply BitVec.eq_of_toNat_eq
  rw [zField_toNat, encode_toNat hi, BitVec.toNat_zero]
  omega

end

/-! ### The instruction of an opcode, a descriptor index and flags (R62, R64) -/

/-- The bits of a `FLG` field that `flgOf` builds: 0, 1 and 4 are its arguments, the others 0. -/
theorem getLsbD_ofNat_flgOf (b0 b1 b4 : Bool) (k : Nat) :
    (BitVec.ofNat 8 (flgOf b0 b1 b4)).getLsbD k = [b0, b1, false, false, b4].getD k false := by
  rw [BitVec.getLsbD_ofNat]
  by_cases hk : k < 8
  · interval_cases k <;> cases b0 <;> cases b1 <;> cases b4 <;> rfl
  · rw [List.getD_eq_default _ _ (show 5 ≤ k by omega), decide_eq_false hk, Bool.false_and]

/-- Flags with no bit set that the mask `m` leaves out are their own part under `m`. -/
theorem mask_and_eq_self {m f : Byte} (h : f &&& ~~~m = 0#8) : m &&& f = f := by
  apply BitVec.eq_of_getLsbD_eq
  intro k hk
  have hbit : (f &&& ~~~m).getLsbD k = false := by rw [h, BitVec.getLsbD_zero]
  simpa [hk] using hbit

/-- The flags `f` under a mask `m` that selects none but bits 0, 1 and 4. -/
theorem ofNat_flgOf_and (m f : Byte) (hm : m &&& ~~~0x13#8 = 0#8) :
    BitVec.ofNat 8 (flgOf (m.getLsbD 0 && f.getLsbD 0) (m.getLsbD 1 && f.getLsbD 1) (m.getLsbD 4 && f.getLsbD 4)) = m &&& f := by
  apply BitVec.eq_of_getLsbD_eq
  intro k hk
  have hbit : m.getLsbD k = ((0x13#8).getLsbD k && m.getLsbD k) := by rw [← BitVec.getLsbD_and, mask_and_eq_self hm]
  rw [getLsbD_ofNat_flgOf, BitVec.getLsbD_and, hbit]
  interval_cases k <;> rfl

theorem instrOf_fields (i : Instr) : instrOf i.opcode i.desc (BitVec.ofNat 8 i.flags) = some i := by
  cases i with
  | nop | crcs d | crcc d | h2s | s2h | xcchEnc | xcchDec | rachEnc | rachDec | schEnc | schDec | pdtchEnc | srst => rfl
  | _ =>
    simp only [Instr.opcode, Instr.desc, Instr.flags, instrOf, getLsbD_ofNat_flgOf, List.getD_cons_zero, List.getD_cons_succ]

/-- What an instruction was made from: its opcode, its descriptor index where it uses one, and the flags that its opcode defines. -/
theorem instrOf_eq_some {opc d : Nat} {f : Byte} {i : Instr} (h : instrOf opc d f = some i) :
    i.opcode = opc ∧ i.desc = (if usesDesc opc then d else 0)
      ∧ i.flags = flgOf ((definedFlags opc).getLsbD 0 && f.getLsbD 0) ((definedFlags opc).getLsbD 1 && f.getLsbD 1)
          ((definedFlags opc).getLsbD 4 && f.getLsbD 4) := by
  unfold instrOf at h
  split at h
  case h_30 => cases h
  all_goals
    cases h
    exact ⟨rfl, rfl, rfl⟩

theorem wf_of_desc_lt {i : Instr} (h : i.desc < 256) : i.wf = true := by
  cases i with
  | cenc | vdec | crcs | crcc | punc | dpun | perm => exact decide_eq_true h
  | _ => rfl

theorem definedFlags_subset (opc : Nat) : definedFlags opc &&& ~~~0x13#8 = 0#8 := by
  unfold definedFlags
  split <;> rfl

/-! ### The decoder (R63) -/

/-- The tests (1), (3) and (4) of R63: all of them but that of the opcode. -/
structure LegalFields (w : Word) : Prop where
  z : zField w = 0#8
  desc : usesDesc (opcField w) = false → descField w = 0
  flg : flgField w &&& ~~~(definedFlags (opcField w)) = 0#8

theorem decode_eq_ok_iff {w : Word} {i : Instr} :
    decode w = .ok i ↔ LegalFields w ∧ instrOf (opcField w) (descField w) (flgField w) = some i := by
  unfold decode
  constructor
  · intro h
    split at h
    · cases h
    next hz =>
      split at h
      · cases h
      next j hj =>
        split at h
        · cases h
        next hd =>
          split at h
          · cases h
          next hf =>
            cases h
            exact ⟨⟨not_not.mp hz, fun hu => by simpa [hu] using hd, not_not.mp hf⟩, hj⟩
  · rintro ⟨⟨hz, hd, hf⟩, hi⟩
    have hdesc : ¬(!usesDesc (opcField w) && descField w != 0) = true := by simpa using hd
    rw [if_neg (not_not.mpr hz), hi]
    exact (if_neg hdesc).trans (if_neg (not_not.mpr hf))

theorem legalFields_encode {i : Instr} (hi : i.wf = true) : LegalFields (encode i) := by
  obtain ⟨-, -, hflg, hdesc, -⟩ := fields_fit i
  refine ⟨zField_encode hi, fun hu => ?_, ?_⟩
  · rw [opcField_encode hi] at hu
    rw [descField_encode hi, hdesc hu]
  · rw [flgField_encode hi, opcField_encode hi, hflg]

theorem decode_encode {i : Instr} (hi : i.wf = true) : decode (encode i) = .ok i := by
  refine decode_eq_ok_iff.mpr ⟨legalFields_encode hi, ?_⟩
  rw [opcField_encode hi, descField_encode hi, flgField_encode hi, instrOf_fields]

theorem encode_decode {w : Word} {i : Instr} (h : decode w = .ok i) : encode i = w ∧ i.wf = true := by
  obtain ⟨hlegal, hi⟩ := decode_eq_ok_iff.mp h
  obtain ⟨hopc, hdesc, hflg⟩ := instrOf_eq_some hi
  have hdesc : i.desc = descField w := by
    cases hu : usesDesc (opcField w) with
    | true => rw [hdesc, if_pos hu]
    | false => rw [hdesc, hu, hlegal.desc hu, if_neg Bool.false_ne_true]
  have hwf : i.wf = true := wf_of_desc_lt (hdesc ▸ descField_lt w)
  refine ⟨word_ext ?_ ?_ ?_ ?_, hwf⟩
  · rw [opcField_encode hwf, hopc]
  · rw [descField_encode hwf, hdesc]
  · rw [flgField_encode hwf, hflg, ofNat_flgOf_and _ _ (definedFlags_subset _), mask_and_eq_self hlegal.flg]
  · rw [zField_encode hwf, hlegal.z]

/-! ### The rows of the opcode table (R64) -/

/-- What the mask and the match value of a row say, byte by byte: the opcode is matched, `Z` against 0, `DESC` against 0 where the
opcode uses none, and so are the flags that it does not define. -/
def OpRow.ByFields (r : OpRow) : Prop :=
  (r.mask.extractLsb' 0 8 = 0xFF#8 ∧ r.mask.extractLsb' 8 8 = (if usesDesc (opcField r.value) then 0#8 else 0xFF#8)
    ∧ r.mask.extractLsb' 16 8 = ~~~(definedFlags (opcField r.value)) ∧ r.mask.extractLsb' 24 8 = 0xFF#8)
  ∧ r.value.extractLsb' 8 8 = 0#8 ∧ r.value.extractLsb' 16 8 = 0#8 ∧ r.value.extractLsb' 24 8 = 0#8

theorem opcodeTable_byFields : ∀ r ∈ opcodeTable, r.ByFields := by
  unfold OpRow.ByFields
  decide

/-- Two words are the same when they agree on their four bytes. -/
theorem word_eq_iff {v w : Word} :
    v = w ↔ v.extractLsb' 0 8 = w.extractLsb' 0 8 ∧ v.extractLsb' 8 8 = w.extractLsb' 8 8
      ∧ v.extractLsb' 16 8 = w.extractLsb' 16 8 ∧ v.extractLsb' 24 8 = w.extractLsb' 24 8 := by
  refine ⟨fun h => h ▸ ⟨rfl, rfl, rfl, rfl⟩, fun ⟨hopc, hdesc, hflg, hz⟩ => ?_⟩
  exact word_ext (congrArg BitVec.toNat hopc) (congrArg BitVec.toNat hdesc) hflg hz

theorem byte_and_ff (x : Byte) : x &&& 0xFF#8 = x := BitVec.and_allOnes

/-- The mask test of R64 is the procedure of R63 for the row's opcode. -/
theorem accepts_iff {r : OpRow} (hr : r ∈ opcodeTable) (w : Word) :
    r.accepts w = true ↔ opcField w = opcField r.value ∧ LegalFields w := by
  obtain ⟨⟨hm0, hm8, hm16, hm24⟩, hv8, hv16, hv24⟩ := opcodeTable_byFields r hr
  have hopc : w.extractLsb' 0 8 = r.value.extractLsb' 0 8 ↔ opcField w = opcField r.value := BitVec.toNat_inj.symm
  rw [OpRow.accepts, beq_iff_eq, word_eq_iff]
  simp only [BitVec.extractLsb'_and, hm0, hm8, hm16, hm24, hv8, hv16, hv24, byte_and_ff, hopc]
  refine and_congr_right fun ho => ?_
  have hdesc : w.extractLsb' 8 8 &&& (if usesDesc (opcField w) then 0#8 else 0xFF#8) = 0#8
      ↔ (usesDesc (opcField w) = false → descField w = 0) := by
    cases usesDesc (opcField w) with
    | true => simp
    | false => simp [byte_and_ff, descField_eq_zero]
  rw [← ho, hdesc]
  exact ⟨fun ⟨hd, hf, hz⟩ => ⟨hz, hd, hf⟩, fun ⟨hz, hd, hf⟩ => ⟨hd, hf, hz⟩⟩

/-- Where the values of `f` on a list differ, one element has the value `f r`. -/
theorem filter_eq_singleton_of_nodup_map {α β : Type} [DecidableEq β] {f : α → β} {l : List α} (hn : (l.map f).Nodup) {r : α}
    (hr : r ∈ l) : l.filter (fun x => f r = f x) = [r] := by
  induction l with
  | nil => cases hr
  | cons x xs ih =>
    obtain ⟨hx, hxs⟩ := List.nodup_cons.mp hn
    cases hr with
    | head =>
      rw [List.filter_cons_of_pos (by simp)]
      have hrest : xs.filter (fun y => f r = f y) = [] := by
        refine List.filter_eq_nil_iff.mpr fun y hy h => hx ?_
        rw [of_decide_eq_true h]
        exact List.mem_map_of_mem hy
      rw [hrest]
    | tail _ hr =>
      have hne : f r ≠ f x := fun h => hx (h ▸ List.mem_map_of_mem hr)
      rw [List.filter_cons_of_neg (by simpa using hne), ih hxs hr]

theorem filter_accepts_of_legal {w : Word} (hlegal : LegalFields w) {r : OpRow} (hr : r ∈ opcodeTable)
    (ho : opcField r.value = opcField w) : opcodeTable.filter (·.accepts w) = [r] := by
  have hnodup : (opcodeTable.map fun r => opcField r.value).Nodup := by decide
  rw [← filter_eq_singleton_of_nodup_map hnodup hr]
  refine List.filter_congr fun x hx => Bool.eq_iff_iff.mpr ?_
  rw [accepts_iff hx, decide_eq_true_iff, ho]
  exact and_iff_left hlegal

theorem filter_accepts_of_illegal {w : Word} (h : ¬(opcField w ∈ opcodeTable.map (fun r => opcField r.value) ∧ LegalFields w)) :
    opcodeTable.filter (·.accepts w) = [] := by
  refine List.filter_eq_nil_iff.mpr fun r hr ha => h ?_
  obtain ⟨ho, hlegal⟩ := (accepts_iff hr w).mp ha
  exact ⟨ho ▸ List.mem_map_of_mem hr, hlegal⟩

/-! ### Opcodes -/

theorem opcode_mem_table (i : Instr) : i.opcode ∈ opcodeTable.map (fun r => opcField r.value) := by
  cases i <;> exact of_decide_eq_true rfl

theorem instrOf_isSome {r : OpRow} (hr : r ∈ opcodeTable) (d : Nat) (f : Byte) : (instrOf (opcField r.value) d f).isSome = true :=
  have hall : opcodeTable.all (fun r => (instrOf (opcField r.value) d f).isSome) = true := rfl
  List.all_eq_true.mp hall r hr

/-- The words that decode: the opcode is one of R64, and the other fields pass the tests of R63. -/
theorem exists_decode_iff {w : Word} :
    (∃ i, decode w = .ok i) ↔ opcField w ∈ opcodeTable.map (fun r => opcField r.value) ∧ LegalFields w := by
  constructor
  · rintro ⟨i, hi⟩
    obtain ⟨hlegal, hi⟩ := decode_eq_ok_iff.mp hi
    obtain ⟨hopc, -⟩ := instrOf_eq_some hi
    exact ⟨hopc ▸ opcode_mem_table i, hlegal⟩
  · rintro ⟨hopc, hlegal⟩
    obtain ⟨r, hr, ho⟩ := List.mem_map.mp hopc
    have hsome := instrOf_isSome hr (descField w) (flgField w)
    rw [ho] at hsome
    obtain ⟨i, hi⟩ := Option.isSome_iff_exists.mp hsome
    exact ⟨i, decode_eq_ok_iff.mpr ⟨hlegal, hi⟩⟩

/-- R65's four kinds of illegal word are the failures of the tests of R63. -/
theorem illegal_kinds_iff {w : Word} :
    (zField w ≠ 0#8 ∨ opcField w ∉ opcodeTable.map (fun r => opcField r.value)
        ∨ (usesDesc (opcField w) = false ∧ descField w ≠ 0) ∨ flgField w &&& ~~~(definedFlags (opcField w)) ≠ 0#8)
      ↔ ¬(opcField w ∈ opcodeTable.map (fun r => opcField r.value) ∧ LegalFields w) := by
  constructor
  · rintro (hz | ho | ⟨hu, hd⟩ | hf) ⟨hopc, hlegal⟩
    · exact hz hlegal.z
    · exact ho hopc
    · exact hd (hlegal.desc hu)
    · exact hf hlegal.flg
  · intro h
    by_contra hno
    obtain ⟨hz, ho, hd, hf⟩ := by simpa only [not_or] using hno
    exact h ⟨not_not.mp ho, not_not.mp hz, fun hu => not_not.mp fun hne => hd ⟨hu, hne⟩, not_not.mp hf⟩

end Sys2Proof
end

section
/-! SUPPORT. The statements about the encoding: decoding and encoding are inverse, and what becomes of each of the 2^32 words. -/

namespace Sys2Proof.Machine

/-- Settles O1: `decode_encode` and `encode_decode`. -/
theorem decodeEncodeInverse : Obligations.DecodeEncodeInverse :=
  ⟨fun _ hi => decode_encode hi, fun _ _ h => encode_decode h⟩

/-- `E_ILLCMD` in the words of Safety.lean (R65, R217). -/
theorem CoreInst.illegal_eq_ended (c : CoreInst) (w : Word) :
    c.illegal w = c.ended { status := BitVec.ofNat 32 (0x110 + 0x10000 * opcField w) } .s0 := by
  have hopc : getField w 0 8 = opcField w := by simp [opcField_eq, getField]
  rw [CoreInst.illegal, CoreInst.raise_clearResults, hopc]
  rfl

theorem busWrite_cmd {s : State} {addr i : Nat} (hl : locate s addr = some (i, 0x04)) (w : Word) :
    busWrite s addr .word w = .command w (s.acceptCommand i w) := by
  simp only [busWrite, hl]
  rfl

theorem commandWork_of_illegal {w : Word} (h : ¬∃ i, decode w = .ok i) (rom : Rom) (c : CoreInst) :
    commandWork rom w c = c.illegal w := by
  unfold commandWork
  cases hd : decode w with
  | ok i => exact absurd ⟨i, hd⟩ h
  | error e => rfl

/-- A `CMD` write of a word that does not decode. -/
theorem step_illegal {s : State} {addr i : Nat} {w : Word} {c : CoreInst} {rest : List BusEvent} (h : ¬∃ j, decode w = .ok j)
    (hp : s.pending = .write addr .word w :: rest) (hl : locate s addr = some (i, 0x04)) (hc : s.insts[i]? = some c) :
    step s = .next { s with
      pending := rest, active := i, resp := some .done, insts := s.insts.set i (CoreInst.illegal { c with cmd := w } w) } := by
  rw [step_write hp, busWrite_cmd (s := { s with pending := rest }) hl, Taken.finish_command]
  have hcur : (State.acceptCommand { s with pending := rest } i w).cur? = some { c with cmd := w } := by
    simp [State.cur?, hc]
  rw [State.onActive_eq_putActive hcur, commandWork_of_illegal h]
  simp only [State.putActive, State.acceptCommand, modify_eq_set_of_getElem? hc, List.set_set]

/-- Settles O2: the rows of R64 and the decoder of R63 both accept the words with a known opcode and legal fields. -/
theorem everyWordDecodesOrIsIllegal : Obligations.EveryWordDecodesOrIsIllegal := by
  intro w
  rw [illegal_kinds_iff]
  by_cases h : opcField w ∈ opcodeTable.map (fun r => opcField r.value) ∧ LegalFields w
  · obtain ⟨hopc, hlegal⟩ := h
    obtain ⟨r, hr, ho⟩ := List.mem_map.mp hopc
    obtain ⟨i, hi⟩ := exists_decode_iff.mpr ⟨hopc, hlegal⟩
    exact .inl ⟨⟨r, i, filter_accepts_of_legal hlegal hr ho, hi⟩, not_not.mpr ⟨hopc, hlegal⟩⟩
  · refine .inr ⟨filter_accepts_of_illegal h, h, fun s addr i c rest hp hl hc => ⟨.s0, ?_⟩⟩
    rw [step_illegal (mt exists_decode_iff.mp h) hp hl hc, CoreInst.illegal_eq_ended]

/-- Settles O3: the legal words are those of their instructions (`decode_encode`); the others are run through the tests of R63. -/
theorem sampleWordsDecode : Obligations.SampleWordsDecode := by
  refine ⟨decode_encode (i := .nop) rfl, decode_encode (i := .cenc 3 true) rfl, decode_encode (i := .vdec 6 false) rfl,
    decode_encode (i := .crcs 255) rfl, decode_encode (i := .dpun 3 true) rfl, decode_encode (i := .perm 2 true true) rfl,
    decode_encode (i := .bmap true true false) rfl, decode_encode (i := .bunmt true true true) rfl,
    decode_encode (i := .unpk true) rfl, decode_encode (i := .xcchDec) rfl, decode_encode (i := .pdtchDec true) rfl,
    decode_encode (i := .tchDec true) rfl, decode_encode (i := .srst) rfl, ?_⟩
  decide

end Sys2Proof.Machine
end

section
/-! SUPPORT. The states the convolutional encoder passes through (R81, R82, R84): they stay below `NS`, the termination steps of a
flush descriptor lead to 0, and a shift register holds the last `K-1` bits, where a tail-biting one starts. -/

namespace Sys2Proof.Machine

/-! ### Inline puncturing in the words of R80 and R83 -/

theorem usesPunc_iff {c : ConvDesc} {p : Bool} : usesPunc c p = true ↔ p = true ∧ c.punc.isSome = true := Bool.and_eq_true_iff

theorem codedLen_eq_ite (c : ConvDesc) (p : Bool) :
    codedLen c p = if p = true ∧ c.punc.isSome = true then nmatched c else nfull c := if_congr usesPunc_iff rfl rfl

theorem convEnc_eq_ite (c : ConvDesc) (u : List Bool) (p : Bool) :
    convEnc c u p = if p = true ∧ c.punc.isSome = true then puncture (puncTable c) (convFull c u) else convFull c u :=
  if_congr usesPunc_iff rfl rfl

/-! ### What a well-formed descriptor says of its states (R23, R24) -/

/-- The conditions of `convWf` on states: the trellis, R24 (e) for a flush code, and the length of a tail-biting code. -/
theorem convWf_states {c : ConvDesc} (h : convWf c = true) :
    trellisWf c = true ∧ (c.term = .flush → flushesToZero c = true) ∧ (c.term = .tailbite → c.k - 1 ≤ c.len) := by
  simp only [convWf, Bool.and_eq_true] at h
  obtain ⟨⟨⟨⟨⟨-, htrellis⟩, -⟩, -⟩, -⟩, hterm⟩ := h
  refine ⟨htrellis, fun hf => ?_, fun ht => ?_⟩
  · simpa only [hf] using hterm
  · simpa only [ht, decide_eq_true_eq] using hterm

theorem trellisStep_snd_lt {c : ConvDesc} (h : trellisWf c = true) {s : Nat} (hs : s < numStates c) (b : Bool) :
    (trellisStep c s b).2 < numStates c := by
  simp only [trellisWf, Bool.and_eq_true, beq_iff_eq, List.all_eq_true, decide_eq_true_eq] at h
  obtain ⟨⟨⟨-, hlen⟩, -⟩, hnext⟩ := h
  have hrow : c.nextState.getD s (0, 0) ∈ c.nextState := by
    rw [List.getD_eq_getElem _ _ (hlen.symm ▸ hs)]
    exact List.getElem_mem _
  obtain ⟨h0, h1⟩ := hnext _ hrow
  cases b
  · exact h0
  · exact h1

/-! ### A flush descriptor ends in state 0 (R84) -/

theorem encInfo_snd_lt {c : ConvDesc} (h : trellisWf c = true) {s : Nat} (hs : s < numStates c) (u : List Bool) :
    (encInfo c s u).2 < numStates c := by
  induction u generalizing s with
  | nil => exact hs
  | cons b u ih => exact ih (trellisStep_snd_lt h hs b)

theorem encTerm_snd (c : ConvDesc) (s t : Nat) : (encTerm c s t).2 = termReach c s t := by
  induction t generalizing s with
  | zero => rfl
  | succ t ih => exact ih _

theorem termReach_of_flushesToZero {c : ConvDesc} (h : flushesToZero c = true) {s : Nat} (hs : s < numStates c) :
    termReach c s (c.k - 1) = 0 :=
  beq_iff_eq.mp (List.all_eq_true.mp h s (List.mem_range.mpr hs))

theorem encTerm_snd_of_flush {c : ConvDesc} (h : convWf c = true) (hf : c.term = .flush) (u : List Bool) :
    (encTerm c (encInfo c (startState c u) u).2 (termSteps c)).2 = 0 := by
  obtain ⟨htrellis, hflush, -⟩ := convWf_states h
  have hstart : startState c u < numStates c := by
    simp only [startState, hf]
    exact Nat.two_pow_pos _
  have hsteps : termSteps c = c.k - 1 := by simp only [termSteps, hf]
  rw [encTerm_snd, hsteps]
  exact termReach_of_flushesToZero (hflush hf) (encInfo_snd_lt htrellis hstart u)

/-! ### A shift register holds the last bits it has read (R82, R84) -/

/-- The number read by appending the bits `u` to `s`, the latest in the lowest place: a register that loses no bit. -/
def shiftIn (s : Nat) (u : List Bool) : Nat := u.foldl (fun s b => 2 * s + b.toNat) s

theorem startState_of_tailbite {c : ConvDesc} (ht : c.term = .tailbite) (u : List Bool) :
    startState c u = shiftIn 0 (u.drop (c.len - (c.k - 1))) := by
  simp only [startState, ht, shiftIn]

theorem shiftIn_eq (s : Nat) (u : List Bool) : shiftIn s u = s * 2 ^ u.length + shiftIn 0 u := by
  induction u generalizing s with
  | nil => simp [shiftIn]
  | cons b u ih =>
    have hcons : ∀ s, shiftIn s (b :: u) = shiftIn (2 * s + b.toNat) u := fun _ => rfl
    rw [hcons, hcons, ih, ih (2 * 0 + b.toNat), List.length_cons, Nat.pow_succ]
    ring

theorem shiftIn_zero_lt (u : List Bool) : shiftIn 0 u < 2 ^ u.length := by
  induction u using List.reverseRecOn with
  | nil => exact Nat.one_pos
  | append_singleton u b ih =>
    have happ : shiftIn 0 (u ++ [b]) = 2 * shiftIn 0 u + b.toNat := by simp [shiftIn]
    have hb := Bool.toNat_le b
    rw [happ, List.length_append, List.length_singleton, Nat.pow_succ]
    omega

/-- A register of as many places as `v` has bits holds `v` once it has read it, whatever came before. -/
theorem shiftIn_append_mod (s : Nat) (u v : List Bool) : shiftIn s (u ++ v) % 2 ^ v.length = shiftIn 0 v := by
  have happ : shiftIn s (u ++ v) = shiftIn (shiftIn s u) v := List.foldl_append
  rw [happ, shiftIn_eq, Nat.mul_add_mod_self_right, Nat.mod_eq_of_lt (shiftIn_zero_lt v)]

theorem shiftIn_mod (n s : Nat) (u : List Bool) : shiftIn (s % n) u % n = shiftIn s u % n := by
  rw [shiftIn_eq (s % n), shiftIn_eq s, Nat.add_mod, Nat.mod_mul_mod, ← Nat.add_mod]

/-- The trellis is that of a shift register of `K-1` bits. -/
def IsShiftRegister (c : ConvDesc) : Prop :=
  ∀ s < numStates c, ∀ b, (trellisStep c s b).2 = (2 * s + b.toNat) % numStates c

theorem IsShiftRegister.encInfo_snd {c : ConvDesc} (h : IsShiftRegister c) {s : Nat} (hs : s < numStates c) (u : List Bool) :
    (encInfo c s u).2 = shiftIn s u % numStates c := by
  induction u generalizing s with
  | nil => exact (Nat.mod_eq_of_lt hs).symm
  | cons b u ih =>
    calc (encInfo c s (b :: u)).2 = (encInfo c ((2 * s + b.toNat) % numStates c) u).2 := by rw [← h s hs b]; rfl
      _ = shiftIn ((2 * s + b.toNat) % numStates c) u % numStates c := ih (Nat.mod_lt _ (Nat.two_pow_pos _))
      _ = shiftIn s (b :: u) % numStates c := shiftIn_mod _ _ u

/-- Whatever state it starts in, the register ends in the last `K-1` information bits; a tail-biting code starts there. -/
theorem IsShiftRegister.encInfo_snd_of_tailbite {c : ConvDesc} (h : IsShiftRegister c) (ht : c.term = .tailbite)
    {u : List Bool} (hu : u.length = c.len) (hlen : c.k - 1 ≤ c.len) :
    (encInfo c (startState c u) u).2 = startState c u := by
  have hlast : (u.drop (c.len - (c.k - 1))).length = c.k - 1 := by rw [List.length_drop]; omega
  have hstart := startState_of_tailbite ht u
  have hlt := shiftIn_zero_lt (u.drop (c.len - (c.k - 1)))
  rw [hlast, ← hstart] at hlt
  have hmod := shiftIn_append_mod (startState c u) (u.take (c.len - (c.k - 1))) (u.drop (c.len - (c.k - 1)))
  rw [List.take_append_drop, hlast, ← hstart] at hmod
  exact (h.encInfo_snd hlt u).trans hmod

/-! ### The obligations -/

/-- Settles O25: the branches of `cencCmd_eq`; what is stored has its length by `convEnc_length`. -/
theorem cencRule : Obligations.CencRule := by
  intro d p s c hc
  refine ⟨fun hd => .of_work hc (cencCmd_absent _ d p c hd), fun cd nout hd hn => ?_⟩
  obtain rfl : nout = codedLen cd p := hn.trans (codedLen_eq_ite cd p).symm
  have hwork := cencCmd_eq s.params.rom d p c hd
  refine ⟨fun hfit => ?_, fun hsrc hdst hlen => ?_, fun hsrc hdst hlen hwf => ?_⟩
  · exact .of_work hc (hwork.trans (if_neg hfit))
  · exact .of_work hc (hwork.trans ((if_pos ⟨hsrc, hdst⟩).trans (if_neg hlen)))
  · refine .of_work hc (hwork.trans ((if_pos ⟨hsrc, hdst⟩).trans (if_pos hlen))) ?_
    refine (storesExactly_storeBits c _ _).congr fun k v => ?_
    rw [vec_bits (convEnc_length hwf (c.loadBits_length _ _) p), convEnc_eq_ite]

/-- Settles O28: the lengths by `convFull_length` and `convEnc_length`, the end states by `encTerm_snd_of_flush` and
`IsShiftRegister.encInfo_snd_of_tailbite`. -/
theorem encoderLengthAndTermination : Obligations.EncoderLengthAndTermination := by
  intro cd u p hwf hu
  obtain ⟨-, -, hlen⟩ := convWf_states hwf
  exact ⟨convFull_length hu, (convEnc_length hwf hu p).trans (codedLen_eq_ite cd p), fun hf => encTerm_snd_of_flush hwf hf u,
    fun ht hshift => IsShiftRegister.encInfo_snd_of_tailbite hshift ht hu (hlen ht)⟩

end Sys2Proof.Machine
end

section
/-! SUPPORT. Command `VDEC` (R90): what its decode finds, in the words of the rule, and its four outcomes. -/

namespace Sys2Proof.Machine

theorem vitInput_eq_ite (c : ConvDesc) (y : List Int) (p : Bool) :
    vitInput c y p = if p = true ∧ c.punc.isSome = true then depuncture 0 (puncTable c) y (nfull c) else y :=
  if_congr usesPunc_iff rfl rfl

/-- `NBITS` counts the values received (R99). -/
@[simp] theorem decodeStats_nbits (c : ConvDesc) (y : List Int) (p : Bool) : (decodeStats c y p).2.2 = y.length := rfl

/-- Settles O26: the branches of `vdecCmd_eq`; what is stored has its length by `decodeStats_length`. -/
theorem vdecRule : Obligations.VdecRule := by
  intro d p s c hc
  refine ⟨fun hd => .of_work hc (vdecCmd_absent _ d p c hd), fun cd nin hd hn => ?_⟩
  obtain rfl : nin = codedLen cd p := hn.trans (codedLen_eq_ite cd p).symm
  have hwork := vdecCmd_eq s.params.rom d p c hd
  refine ⟨fun hfit => ?_, fun hsrc hdst hlen => ?_, fun hsrc hdst hlen => ?_⟩
  · exact .of_work hc (hwork.trans (if_neg hfit))
  · exact .of_work hc (hwork.trans ((if_pos ⟨hsrc, hdst⟩).trans (if_neg hlen)))
  · simp only [← vitInput_eq_ite]
    have hdone := hwork.trans ((if_pos ⟨hsrc, hdst⟩).trans (if_pos hlen))
    rw [decodeStats_nbits, CoreInst.loadSoft_length] at hdone
    exact .of_work hc hdone ((storesExactly_storeBits c _ _).congr fun k v => vec_bits (decodeStats_length cd _ p))

end Sys2Proof.Machine
end

section
/-! SUPPORT. The Viterbi decoder along a path of metric 0 (R91 to R98). A step of add-compare-select is one sweep over a list of
branches, and the first branch of metric 0 into a state survives there; so a path whose branches all have metric 0, and come
first among those, is the path that the traceback follows. -/

namespace Sys2Proof.Machine

/-! ### Branch metrics of ideal soft values (R91) -/

theorem bmTerm_softOf_eq_zero_iff (hyp b : Bool) : bmTerm hyp (softOf b) = 0 ↔ hyp = b := by
  cases hyp <;> cases b <;> decide

theorem sum_bmTerm_softOf_eq_zero_iff {l l' : List Bool} (h : l.length = l'.length) :
    (List.zipWith bmTerm l (l'.map softOf)).sum = 0 ↔ l = l' := by
  induction l generalizing l' with
  | nil => simp [List.length_eq_zero_iff.mp h.symm]
  | cons a l ih =>
    cases l' with
    | nil => simp at h
    | cons b l' =>
      rw [List.map_cons, List.zipWith_cons_cons, List.sum_cons, Nat.add_eq_zero_iff, bmTerm_softOf_eq_zero_iff,
        ih (Nat.succ.inj h), List.cons.injEq]

theorem symbolBits_injective {n y y' : Nat} (hy : y < 2 ^ n) (hy' : y' < 2 ^ n) (h : symbolBits n y = symbolBits n y') :
    y = y' := by
  refine Nat.eq_of_testBit_eq fun i => ?_
  by_cases hi : i < n
  · have hbit := List.map_inj_left.mp h (n - 1 - i) (List.mem_range.mpr (by omega))
    rwa [show n - 1 - (n - 1 - i) = i by omega] at hbit
  · have hpow : 2 ^ n ≤ 2 ^ i := Nat.pow_le_pow_right (by decide) (by omega)
    rw [Nat.testBit_lt_two_pow (by omega), Nat.testBit_lt_two_pow (by omega)]

theorem branchMetric_ideal_eq_zero_iff {n y y' : Nat} (hy : y < 2 ^ n) (hy' : y' < 2 ^ n) :
    branchMetric n y ((symbolBits n y').map softOf) = 0 ↔ y = y' := by
  rw [branchMetric, sum_bmTerm_softOf_eq_zero_iff (by simp only [symbolBits_length])]
  exact ⟨symbolBits_injective hy hy', congrArg _⟩

theorem branchMetric_ideal_self (n y : Nat) : branchMetric n y ((symbolBits n y).map softOf) = 0 :=
  (sum_bmTerm_softOf_eq_zero_iff rfl).mpr rfl

/-- An erasure tells nothing: every hypothesis has metric 0. -/
theorem branchMetric_erased (n y : Nat) {xs : List Int} (h : ∀ x ∈ xs, x = 0) : branchMetric n y xs = 0 := by
  refine List.sum_eq_zero_iff.mpr fun m hm => ?_
  rw [List.zipWith_eq_zipWith_take_min] at hm
  obtain ⟨⟨b, x⟩, hbx, rfl⟩ := List.mem_map.mp (List.map_uncurry_zip_eq_zipWith ▸ hm)
  have hx : x = 0 := h x (List.mem_of_mem_take (List.of_mem_zip hbx).2)
  rw [hx]
  rfl

/-! ### What a well-formed descriptor says of its branches (R23, R24) -/

theorem numStates_pos (c : ConvDesc) : 0 < numStates c := Nat.two_pow_pos _

section
variable {c : ConvDesc} {s : Nat}

/-- The row of a state is a row of each table, so what the tables' rows have in common holds of its branches. -/
theorem trellisWf_rows (h : trellisWf c = true) (hs : s < numStates c) :
    c.nextOut.getD s (0, 0) ∈ c.nextOut ∧ c.nextState.getD s (0, 0) ∈ c.nextState := by
  simp only [trellisWf, Bool.and_eq_true, beq_iff_eq] at h
  obtain ⟨⟨⟨hout, hstate⟩, -⟩, -⟩ := h
  exact ⟨List.getD_eq_getElem _ (0, 0) (hout.symm ▸ hs) ▸ List.getElem_mem _,
    List.getD_eq_getElem _ (0, 0) (hstate.symm ▸ hs) ▸ List.getElem_mem _⟩

theorem trellisStep_fst_lt (h : trellisWf c = true) (hs : s < numStates c) (b : Bool) :
    (trellisStep c s b).1 < 2 ^ c.n := by
  have hrow := (trellisWf_rows h hs).1
  simp only [trellisWf, Bool.and_eq_true, List.all_eq_true, decide_eq_true_eq] at h
  obtain ⟨⟨-, hout⟩, -⟩ := h
  obtain ⟨h0, h1⟩ := hout _ hrow
  cases b
  · exact h0
  · exact h1

/-- The symbol tells the input bit where the two branches out of every state carry different symbols. -/
theorem trellisStep_fst_inj (h : trellisWf c = true) (hsym : ∀ p ∈ c.nextOut, p.1 ≠ p.2) (hs : s < numStates c) {a b : Bool} :
    (trellisStep c s a).1 = (trellisStep c s b).1 ↔ a = b := by
  have hne := hsym _ (trellisWf_rows h hs).1
  cases a <;> cases b
  · exact iff_of_true rfl rfl
  · exact iff_of_false hne Bool.false_ne_true
  · exact iff_of_false hne.symm Bool.false_ne_true.symm
  · exact iff_of_true rfl rfl

/-- The bit that the traceback reads off a branch is the branch's input bit (R24 (b), R98). -/
theorem decide_trellisStep_snd_ne (h : convWf c = true) (hs : s < numStates c) (b : Bool) :
    decide ((trellisStep c s false).2 ≠ (trellisStep c s b).2) = b := by
  obtain ⟨htrellis, -⟩ := convWf_states h
  simp only [convWf, branchesDiffer, Bool.and_eq_true, List.all_eq_true, bne_iff_ne] at h
  obtain ⟨⟨⟨-, hdiffer⟩, -⟩, -⟩ := h
  have hne := hdiffer _ (trellisWf_rows htrellis hs).2
  cases b
  · exact decide_eq_false (not_not_intro rfl)
  · exact decide_eq_true hne

theorem termStep_snd_lt (h : convWf c = true) (hs : s < numStates c) : (termStep c s).2 < numStates c := by
  obtain ⟨htrellis, -⟩ := convWf_states h
  cases ht : c.termTab with
  | none =>
    rw [termStep, ht]
    exact trellisStep_snd_lt htrellis hs false
  | some t =>
    simp only [convWf, termTabWf, ht, Option.all_some, Bool.and_eq_true, beq_iff_eq, List.all_eq_true, decide_eq_true_eq] at h
    obtain ⟨⟨⟨⟨-, ⟨⟨-, hlen⟩, -⟩, hnext⟩, -⟩, -⟩, -⟩ := h
    simp only [termStep, ht]
    exact hnext _ (List.getD_eq_getElem _ 0 (hlen.symm ▸ hs) ▸ List.getElem_mem _)

end

/-! ### A sweep of add-compare-select over a list of branches (R94, R95) -/

/-- The branches of an information step in the order they are met: the state left, the symbol and the state reached. -/
def infoBranches (c : ConvDesc) : List (Nat × Nat × Nat) :=
  (List.range (numStates c)).flatMap fun s => [(s, trellisStep c s false), (s, trellisStep c s true)]

/-- The branches of a termination step. -/
def termBranches (c : ConvDesc) : List (Nat × Nat × Nat) := (List.range (numStates c)).map fun s => (s, termStep c s)

/-- Add-compare-select over the branches `L`, on top of `row`. -/
def sweep (c : ConvDesc) (pm : List Nat) (xs : List Int) (row : AcsRow) (L : List (Nat × Nat × Nat)) : AcsRow :=
  L.foldl (fun row e => acsBranch c pm xs row e.1 e.2) row

theorem acs_eq_sweep (c : ConvDesc) : acs c = fun pm xs => sweep c pm xs (acsStart c) (infoBranches c) := by
  funext pm xs
  simp only [acs, sweep, infoBranches, List.foldl_flatMap, List.foldl_cons, List.foldl_nil]

theorem acsTerm_eq_sweep (c : ConvDesc) : acsTerm c = fun pm xs => sweep c pm xs (acsStart c) (termBranches c) := by
  funext pm xs
  simp only [acsTerm, sweep, termBranches, List.foldl_map]

theorem mem_infoBranches {c : ConvDesc} {e : Nat × Nat × Nat} :
    e ∈ infoBranches c ↔ ∃ s < numStates c, ∃ b, e = (s, trellisStep c s b) := by
  simp only [infoBranches, List.mem_flatMap, List.mem_range, List.mem_cons, List.not_mem_nil, or_false, Bool.exists_bool]

theorem mem_termBranches {c : ConvDesc} {e : Nat × Nat × Nat} :
    e ∈ termBranches c ↔ ∃ s < numStates c, e = (s, termStep c s) := by
  simp only [termBranches, List.mem_map, List.mem_range, eq_comm]

/-- A branch of total metric 0: nothing speaks against the path that it ends. -/
def isFree (c : ConvDesc) (pm : List Nat) (xs : List Int) (e : Nat × Nat × Nat) : Bool :=
  pm.getD e.1 inf + branchMetric c.n e.2.1 xs == 0

section
variable {c : ConvDesc} {pm : List Nat} {xs : List Int} {t : Nat}

/-- The row has a place for state `t`. -/
def AcsRow.Has (row : AcsRow) (t : Nat) : Prop := t < row.nx.length ∧ t < row.h.length

/-- The row has reached state `t` at metric 0, from state `s`. -/
def AcsRow.Reached (row : AcsRow) (s t : Nat) : Prop := row.nx.getD t inf = 0 ∧ row.h.getD t 0 = s

theorem acsStart_has (ht : t < numStates c) : (acsStart c).Has t := by
  simpa only [acsStart, AcsRow.Has, List.length_replicate, and_self] using ht

theorem acsStart_nx_ne_zero (c : ConvDesc) (t : Nat) : (acsStart c).nx.getD t inf ≠ 0 := by
  rw [acsStart, List.getD_eq_getElem?_getD, List.getElem?_replicate]
  split <;> decide

theorem AcsRow.Has.acsBranch {row : AcsRow} (h : row.Has t) (s : Nat) (yt : Nat × Nat) : (acsBranch c pm xs row s yt).Has t := by
  unfold Machine.acsBranch acsCandidate
  split
  · simpa only [AcsRow.Has, List.length_set] using h
  · exact h

/-- A branch into another state leaves the entries of `t` alone. -/
theorem acsBranch_ne (row : AcsRow) {s : Nat} {yt : Nat × Nat} (h : yt.2 ≠ t) :
    (acsBranch c pm xs row s yt).nx.getD t inf = row.nx.getD t inf ∧ (acsBranch c pm xs row s yt).h.getD t 0 = row.h.getD t 0 := by
  unfold acsBranch acsCandidate
  split
  · simp only [List.getD_eq_getElem?_getD, List.getElem?_set_ne h, and_self]
  · exact ⟨rfl, rfl⟩

/-- No branch beats a metric of 0. -/
theorem AcsRow.Reached.acsBranch {row : AcsRow} {r : Nat} (h : row.Reached r t) (s : Nat) (yt : Nat × Nat) :
    (acsBranch c pm xs row s yt).Reached r t := by
  obtain ⟨hnx, hh⟩ := h
  by_cases ht : yt.2 = t
  · have hkeep : Machine.acsBranch c pm xs row s yt = row := if_neg (by rw [ht, hnx]; exact Nat.not_lt_zero _)
    rw [hkeep]
    exact ⟨hnx, hh⟩
  · obtain ⟨hnx', hh'⟩ := acsBranch_ne (c := c) (pm := pm) (xs := xs) row (s := s) ht
    exact ⟨hnx'.trans hnx, hh'.trans hh⟩

/-- A branch of metric 0 into `t` survives where `t` had a positive metric. -/
theorem acsBranch_of_free {row : AcsRow} (hhas : row.Has t) (h : row.nx.getD t inf ≠ 0) {s y : Nat}
    (hfree : isFree c pm xs (s, y, t) = true) : (acsBranch c pm xs row s (y, t)).Reached s t := by
  have hcand : pm.getD s inf + branchMetric c.n y xs = 0 := beq_iff_eq.mp hfree
  have hwin : acsBranch c pm xs row s (y, t) = ⟨row.nx.set t 0, row.h.set t s⟩ := by
    simp only [acsBranch, acsCandidate, hcand]
    exact if_pos (Nat.pos_of_ne_zero h)
  obtain ⟨hnx, hh⟩ := hhas
  rw [hwin, AcsRow.Reached, List.getD_eq_getElem?_getD, List.getD_eq_getElem?_getD, List.getElem?_set_self hnx,
    List.getElem?_set_self hh]
  exact ⟨rfl, rfl⟩

/-- A branch of positive metric makes no metric 0. -/
theorem acsBranch_of_not_free {row : AcsRow} (h : row.nx.getD t inf ≠ 0) {s : Nat} {yt : Nat × Nat}
    (hfree : isFree c pm xs (s, yt) = false) : (acsBranch c pm xs row s yt).nx.getD t inf ≠ 0 := by
  by_cases ht : yt.2 = t
  · have hcand : pm.getD s inf + branchMetric c.n yt.1 xs ≠ 0 := beq_eq_false_iff_ne.mp hfree
    unfold acsBranch acsCandidate
    split
    · by_cases hlt : t < row.nx.length
      · rwa [ht, List.getD_eq_getElem?_getD, List.getElem?_set_self hlt]
      · rwa [ht, List.set_eq_of_length_le (by omega)]
    · exact h
  · rwa [(acsBranch_ne row ht).1]

theorem AcsRow.Reached.sweep {row : AcsRow} {r : Nat} (h : row.Reached r t) (L : List (Nat × Nat × Nat)) :
    (sweep c pm xs row L).Reached r t := by
  induction L generalizing row with
  | nil => exact h
  | cons e L ih => exact ih (h.acsBranch e.1 e.2)

/-- The first of the branches of metric 0 into `t`. -/
def firstFree (c : ConvDesc) (pm : List Nat) (xs : List Int) (t : Nat) (L : List (Nat × Nat × Nat)) : Option (Nat × Nat × Nat) :=
  L.find? fun e => e.2.2 == t && isFree c pm xs e

/-- Add-compare-select keeps the first branch of metric 0 into `t`, where there is one. -/
theorem sweep_reached_of_firstFree {row : AcsRow} (hhas : row.Has t) (h : row.nx.getD t inf ≠ 0) {L : List (Nat × Nat × Nat)}
    {e : Nat × Nat × Nat} (he : firstFree c pm xs t L = some e) : (sweep c pm xs row L).Reached e.1 t := by
  induction L generalizing row with
  | nil => cases he
  | cons d L ih =>
    obtain ⟨s, y, t'⟩ := d
    rw [firstFree, List.find?_cons] at he
    by_cases ht : t' = t
    · subst ht
      cases hfree : isFree c pm xs (s, y, t') with
      | true =>
        obtain rfl : (s, y, t') = e := by simpa only [hfree, beq_self_eq_true, Bool.and_self, Option.some.injEq] using he
        exact (acsBranch_of_free hhas h hfree).sweep L
      | false =>
        rw [hfree, Bool.and_false] at he
        exact ih (hhas.acsBranch s (y, t')) (acsBranch_of_not_free h hfree) he
    · have hkeep := (acsBranch_ne (c := c) (pm := pm) (xs := xs) row (s := s) (yt := (y, t')) ht).1
      rw [beq_eq_false_iff_ne.mpr ht, Bool.false_and] at he
      exact ih (hhas.acsBranch s (y, t')) (hkeep.symm ▸ h) he

theorem sweep_ne_zero_of_none_free {row : AcsRow} (h : row.nx.getD t inf ≠ 0) {L : List (Nat × Nat × Nat)}
    (hL : ∀ e ∈ L, e.2.2 = t → isFree c pm xs e = false) : (sweep c pm xs row L).nx.getD t inf ≠ 0 := by
  induction L generalizing row with
  | nil => exact h
  | cons e L ih =>
    refine ih ?_ fun d hd => hL d (List.mem_cons_of_mem _ hd)
    by_cases ht : e.2.2 = t
    · exact acsBranch_of_not_free h (hL e List.mem_cons_self ht)
    · rwa [(acsBranch_ne row ht).1]

end

/-! ### Following a path through the steps and back (R97, R98) -/

/-- `P s k u pm rest` is kept along a path of the trellis: with the path in `s`, the information bits `u` and then `k` termination
steps to go, the metrics `pm` and the input `rest`, the path's next branch survives at metric 0. -/
structure Followed (c : ConvDesc) (P : Nat → Nat → List Bool → List Nat → List Int → Prop) : Prop where
  info : ∀ {s k b u pm rest}, P s k (b :: u) pm rest → s < numStates c
    ∧ (acs c pm (rest.take c.n)).Reached s (trellisStep c s b).2
    ∧ P (trellisStep c s b).2 k u (acs c pm (rest.take c.n)).nx (rest.drop c.n)
  term : ∀ {s k pm rest}, P s (k + 1) [] pm rest →
    (acsTerm c pm (rest.take c.n)).Reached s (termStep c s).2
      ∧ P (termStep c s).2 k [] (acsTerm c pm (rest.take c.n)).nx (rest.drop c.n)
  zero : ∀ {s pm rest}, P s 0 [] pm rest → pm.getD s inf = 0

section
variable {c : ConvDesc} {P : Nat → Nat → List Bool → List Nat → List Int → Prop}

/-- The traceback of the information steps returns along a followed path and reads its input bits. -/
theorem Followed.traceInfo (hP : Followed c P) (hwf : convWf c = true) {s k : Nat} {u : List Bool} {v : VitState}
    (h : P s k u v.pm v.rest) :
    P (encInfo c s u).2 k [] (vitRun c acs u.length v).pm (vitRun c acs u.length v).rest
      ∧ ∀ acc, traceInfo c (encInfo c s u).2 acc (vitRun c acs u.length v).rows = traceInfo c s (u ++ acc) v.rows := by
  induction u generalizing s v with
  | nil => exact ⟨h, fun _ => rfl⟩
  | cons b u ih =>
    obtain ⟨hs, ⟨-, hrow⟩, hnext⟩ := hP.info h
    obtain ⟨hend, htrace⟩ := ih (v := vitStep c acs v) hnext
    refine ⟨hend, fun acc => (htrace acc).trans ?_⟩
    rw [vitStep, Machine.traceInfo, hrow, decide_trellisStep_snd_ne hwf hs]
    rfl

/-- The traceback of the termination steps returns along a followed path. -/
theorem Followed.traceTerm (hP : Followed c P) {s k : Nat} {v : VitState} (h : P s k [] v.pm v.rest) :
    P (encTerm c s k).2 0 [] (vitRun c acsTerm k v).pm (vitRun c acsTerm k v).rest
      ∧ traceTerm (encTerm c s k).2 (vitRun c acsTerm k v).rows = traceTerm s v.rows := by
  induction k generalizing s v with
  | zero => exact ⟨h, rfl⟩
  | succ k ih =>
    obtain ⟨⟨-, hrow⟩, hnext⟩ := hP.term h
    obtain ⟨hend, htrace⟩ := ih (v := vitStep c acsTerm v) hnext
    refine ⟨hend, htrace.trans ?_⟩
    rw [vitStep, Machine.traceTerm, hrow]

/-- A flush decoder finds the information bits of a followed path, at metric 0. -/
theorem Followed.vit (hP : Followed c P) (hwf : convWf c = true) (hf : c.term = .flush) {u : List Bool} (hu : u.length = c.len)
    {x : List Int} (h : P 0 (termSteps c) u (initMetrics c) x) : vit c x = (u, 0) := by
  have hstart : vitStart c x = initMetrics c := by rw [vitStart, hf]
  have hencode : startState c u = 0 := by rw [startState, hf]
  have hlast := encTerm_snd_of_flush hwf hf u
  rw [hencode] at hlast
  obtain ⟨hmid, hbits⟩ := hP.traceInfo hwf (v := ⟨initMetrics c, [], x⟩) h
  rw [hu] at hmid hbits
  obtain ⟨hend, hback⟩ := hP.traceTerm (v := ⟨_, [], _⟩) hmid
  rw [hlast] at hend hback
  simp only [Machine.vit, hf, hstart, hback, hP.zero hend, Prod.mk.injEq, and_true]
  exact (hbits []).trans (List.append_nil u)

end

end Sys2Proof.Machine
end

section
/-! SUPPORT. Statements about the Viterbi decoder (R101): without noise the encoder's path is the only one of metric 0, and under
erasures alone every path has metric 0 and the one that stays in state 0 comes first. -/

namespace Sys2Proof.Machine

section
variable {c : ConvDesc} {pm : List Nat} {xs : List Int} {s : Nat}

/-! ### The only path of metric 0 -/

/-- State `s` and no other has metric 0. -/
def OnlyZeroAt (pm : List Nat) (s : Nat) : Prop := ∀ t, pm.getD t inf = 0 ↔ t = s

theorem initMetrics_onlyZeroAt (hf : c.term = .flush) : OnlyZeroAt (initMetrics c) 0 := by
  intro t
  rw [initMetrics, hf]
  cases t with
  | zero => exact iff_of_true rfl rfl
  | succ t =>
    refine iff_of_false ?_ (Nat.succ_ne_zero t)
    rw [List.getD_cons_succ, List.getD_eq_getElem?_getD, List.getElem?_replicate]
    split <;> decide

/-- Where a single branch has metric 0, it survives, and the state it reaches is the only one of metric 0. -/
theorem sweep_of_free_unique {L : List (Nat × Nat × Nat)} {e : Nat × Nat × Nat} (he : e ∈ L) (ht : e.2.2 < numStates c)
    (hfree : ∀ d ∈ L, isFree c pm xs d = true ↔ d = e) :
    (sweep c pm xs (acsStart c) L).Reached e.1 e.2.2 ∧ OnlyZeroAt (sweep c pm xs (acsStart c) L).nx e.2.2 := by
  have hfirst : firstFree c pm xs e.2.2 L = some e := by
    cases hfind : firstFree c pm xs e.2.2 L with
    | none => exact absurd (by simp [(hfree e he).mpr rfl]) (List.find?_eq_none.mp hfind e he)
    | some d =>
      have hd := List.find?_some hfind
      rw [(hfree d (List.mem_of_find?_eq_some hfind)).mp (Bool.and_eq_true_iff.mp hd).2]
  have hreached := sweep_reached_of_firstFree (acsStart_has ht) (acsStart_nx_ne_zero c _) hfirst
  refine ⟨hreached, fun t => ⟨fun hzero => ?_, fun h => h ▸ hreached.1⟩⟩
  by_contra hne
  refine sweep_ne_zero_of_none_free (acsStart_nx_ne_zero c t) (fun d hd hdt => ?_) hzero
  exact Bool.eq_false_iff.mpr fun h => hne (by rw [← hdt, (hfree d hd).mp h])

theorem isFree_iff {e : Nat × Nat × Nat} (hpm : OnlyZeroAt pm s) :
    isFree c pm xs e = true ↔ e.1 = s ∧ branchMetric c.n e.2.1 xs = 0 := by
  rw [isFree, beq_iff_eq, Nat.add_eq_zero_iff, hpm]

/-- One noise-free information step (R94). -/
theorem acs_ideal (h : trellisWf c = true) (hsym : ∀ p ∈ c.nextOut, p.1 ≠ p.2) (hs : s < numStates c) (hpm : OnlyZeroAt pm s)
    (b : Bool) (hxs : xs = (symbolBits c.n (trellisStep c s b).1).map softOf) :
    (acs c pm xs).Reached s (trellisStep c s b).2 ∧ OnlyZeroAt (acs c pm xs).nx (trellisStep c s b).2 := by
  rw [acs_eq_sweep]
  refine sweep_of_free_unique (e := (s, trellisStep c s b)) (mem_infoBranches.mpr ⟨s, hs, b, rfl⟩) (trellisStep_snd_lt h hs b)
    fun d hd => ?_
  obtain ⟨r, hr, a, rfl⟩ := mem_infoBranches.mp hd
  rw [isFree_iff hpm, hxs, branchMetric_ideal_eq_zero_iff (trellisStep_fst_lt h hr a) (trellisStep_fst_lt h hs b)]
  constructor
  · rintro ⟨rfl, hsymbol⟩
    rw [(trellisStep_fst_inj h hsym hs).mp hsymbol]
  · intro heq
    obtain ⟨rfl, hbranch⟩ := Prod.mk.inj heq
    exact ⟨rfl, congrArg Prod.fst hbranch⟩

/-- One noise-free termination step (R95). -/
theorem acsTerm_ideal (h : convWf c = true) (hs : s < numStates c) (hpm : OnlyZeroAt pm s)
    (hxs : xs = (symbolBits c.n (termStep c s).1).map softOf) :
    (acsTerm c pm xs).Reached s (termStep c s).2 ∧ OnlyZeroAt (acsTerm c pm xs).nx (termStep c s).2 := by
  rw [acsTerm_eq_sweep]
  refine sweep_of_free_unique (e := (s, termStep c s)) (mem_termBranches.mpr ⟨s, hs, rfl⟩) (termStep_snd_lt h hs) fun d hd => ?_
  obtain ⟨r, -, rfl⟩ := mem_termBranches.mp hd
  rw [isFree_iff hpm, hxs]
  constructor
  · rintro ⟨rfl, -⟩
    rfl
  · intro heq
    obtain ⟨rfl, -⟩ := Prod.mk.inj heq
    exact ⟨rfl, branchMetric_ideal_self _ _⟩

/-- The decoder stands at metric 0 where the encoder stands, before the ideal soft values of what the encoder has yet to send. -/
structure NoiseFree (c : ConvDesc) (s k : Nat) (u : List Bool) (pm : List Nat) (rest : List Int) : Prop where
  lt : s < numStates c
  only : OnlyZeroAt pm s
  rest_eq : rest = ((encInfo c s u).1 ++ (encTerm c (encInfo c s u).2 k).1).map softOf

theorem noiseFree_followed (hwf : convWf c = true) (hsym : ∀ p ∈ c.nextOut, p.1 ≠ p.2) : Followed c (NoiseFree c) := by
  obtain ⟨htrellis, -⟩ := convWf_states hwf
  have hsplit : ∀ (y : Nat) (l : List Bool), ((symbolBits c.n y ++ l).map softOf).take c.n = (symbolBits c.n y).map softOf
      ∧ ((symbolBits c.n y ++ l).map softOf).drop c.n = l.map softOf := fun y l => by
    rw [List.map_append]
    exact ⟨List.take_left' ((List.length_map _).trans (symbolBits_length _ _)),
      List.drop_left' ((List.length_map _).trans (symbolBits_length _ _))⟩
  refine ⟨fun {s k b u pm rest} h => ?_, fun {s k pm rest} h => ?_, fun {s pm rest} h => (h.only s).mpr rfl⟩
  · obtain ⟨hs, hpm, rfl⟩ := h
    obtain ⟨htake, hdrop⟩ := hsplit (trellisStep c s b).1
      ((encInfo c (trellisStep c s b).2 u).1 ++ (encTerm c (encInfo c (trellisStep c s b).2 u).2 k).1)
    rw [encInfo, List.append_assoc, htake, hdrop]
    obtain ⟨hreached, honly⟩ := acs_ideal htrellis hsym hs hpm b rfl
    exact ⟨hs, hreached, trellisStep_snd_lt htrellis hs b, honly, rfl⟩
  · obtain ⟨hs, hpm, rfl⟩ := h
    obtain ⟨htake, hdrop⟩ := hsplit (termStep c s).1 (encTerm c (termStep c s).2 k).1
    rw [encInfo, List.nil_append, encTerm, htake, hdrop]
    obtain ⟨hreached, honly⟩ := acsTerm_ideal hwf hs hpm rfl
    exact ⟨hreached, termStep_snd_lt hwf hs, honly, rfl⟩

theorem vit_noiseFree (hwf : convWf c = true) (hf : c.term = .flush) (hsym : ∀ p ∈ c.nextOut, p.1 ≠ p.2) {u : List Bool}
    (hu : u.length = c.len) : vit c ((convFull c u).map softOf) = (u, 0) := by
  have hstart : startState c u = 0 := by rw [startState, hf]
  refine (noiseFree_followed hwf hsym).vit hwf hf hu ⟨numStates_pos c, initMetrics_onlyZeroAt hf, ?_⟩
  rw [convFull, hstart]

/-! ### The first of the paths of metric 0 -/

/-- Under erasures, a sweep that begins with the branch from state 0 to itself keeps it. -/
theorem sweep_erased (hpm : pm.getD 0 inf = 0) (hxs : ∀ x ∈ xs, x = 0) (y : Nat) (L : List (Nat × Nat × Nat)) :
    (sweep c pm xs (acsStart c) ((0, y, 0) :: L)).Reached 0 0 := by
  have hfree : isFree c pm xs (0, y, 0) = true := by
    rw [isFree, beq_iff_eq, hpm, branchMetric_erased _ _ hxs]
  refine sweep_reached_of_firstFree (e := (0, y, 0)) (acsStart_has (numStates_pos c)) (acsStart_nx_ne_zero c 0) ?_
  rw [firstFree, List.find?_cons, hfree]
  rfl

/-- The path stays in state 0 at metric 0, with zeros and erasures alone to come. -/
structure Erased (s k : Nat) (u : List Bool) (pm : List Nat) (rest : List Int) : Prop where
  state : s = 0
  bits : ∀ b ∈ u, b = false
  metric : pm.getD 0 inf = 0
  erased : ∀ x ∈ rest, x = 0

/-- Where input 0 and the termination step keep state 0, add-compare-select meets these branches first. -/
theorem erased_followed (hinfo : (trellisStep c 0 false).2 = 0) (hterm : (termStep c 0).2 = 0) : Followed c Erased := by
  have hrange : List.range (numStates c) = 0 :: (List.range (numStates c - 1)).map Nat.succ := by
    rw [← List.range_succ_eq_map, Nat.sub_add_cancel (numStates_pos c)]
  refine ⟨fun {s k b u pm rest} h => ?_, fun {s k pm rest} h => ?_, fun {s pm rest} h => h.state ▸ h.metric⟩
  · obtain ⟨rfl, hbits, hpm, hrest⟩ := h
    obtain rfl : b = false := hbits b List.mem_cons_self
    have hreached : (acs c pm (rest.take c.n)).Reached 0 0 := by
      have hfirst : (0, trellisStep c 0 false) = (0, (trellisStep c 0 false).1, 0) :=
        Prod.ext rfl (Prod.ext rfl hinfo)
      rw [acs_eq_sweep, infoBranches, hrange, List.flatMap_cons, List.cons_append, hfirst]
      exact sweep_erased hpm (fun x hx => hrest x (List.mem_of_mem_take hx)) _ _
    rw [hinfo]
    exact ⟨numStates_pos c, hreached, rfl, fun a ha => hbits a (List.mem_cons_of_mem _ ha), hreached.1,
      fun x hx => hrest x (List.mem_of_mem_drop hx)⟩
  · obtain ⟨rfl, hbits, hpm, hrest⟩ := h
    have hreached : (acsTerm c pm (rest.take c.n)).Reached 0 0 := by
      have hfirst : (0, termStep c 0) = (0, (termStep c 0).1, 0) := Prod.ext rfl (Prod.ext rfl hterm)
      rw [acsTerm_eq_sweep, termBranches, hrange, List.map_cons, hfirst]
      exact sweep_erased hpm (fun x hx => hrest x (List.mem_of_mem_take hx)) _ _
    rw [hterm]
    exact ⟨hreached, rfl, hbits, hreached.1, fun x hx => hrest x (List.mem_of_mem_drop hx)⟩

theorem vit_erased (hwf : convWf c = true) (hf : c.term = .flush) (hinfo : (trellisStep c 0 false).2 = 0)
    (hterm : (termStep c 0).2 = 0) (m : Nat) : vit c (List.replicate m 0) = (List.replicate c.len false, 0) :=
  (erased_followed hinfo hterm).vit hwf hf List.length_replicate
    ⟨rfl, fun _ h => List.eq_of_mem_replicate h, (initMetrics_onlyZeroAt hf 0).mpr rfl, fun _ h => List.eq_of_mem_replicate h⟩

end

/-! ### Error statistics (R99) -/

theorem disagrees_softOf (b : Bool) : disagrees b (softOf b) = false := by cases b <;> decide

theorem disagrees_zero (b : Bool) : disagrees b 0 = true := by cases b <;> decide

section
variable {c : ConvDesc} {u : List Bool}

/-- The statistics of a received sequence that depends on the coded bits alone. -/
theorem errstat_map (hu : u.length = c.len) (f : Bool → Int) :
    errstat c u ((convFull c u).map f) false = ((convFull c u).countP fun b => disagrees b (f b), nfull c) := by
  have hplain : convEnc c u false = convFull c u := rfl
  rw [errstat, hplain, List.length_map, convFull_length hu, List.zipWith_map_right, List.zipWith_self, List.count,
    List.countP_map]
  simp only [Function.comp_def, beq_true]

/-- A code word agrees with its ideal soft values everywhere. -/
theorem errstat_ideal (hu : u.length = c.len) : errstat c u ((convFull c u).map softOf) false = (0, nfull c) := by
  rw [errstat_map hu, List.countP_eq_zero.mpr fun b _ => Bool.eq_false_iff.mp (disagrees_softOf b)]

/-- A code word agrees with an erasure nowhere. -/
theorem errstat_erased (hu : u.length = c.len) : errstat c u (List.replicate (nfull c) 0) false = (nfull c, nfull c) := by
  have hmap : List.replicate (nfull c) 0 = (convFull c u).map fun _ => (0 : Int) := by
    rw [List.map_const', convFull_length hu]
  rw [hmap, errstat_map hu, List.countP_eq_length.mpr fun b _ => disagrees_zero b, convFull_length hu]

end

/-! ### The obligations -/

/-- Settles O29: `vit_noiseFree` and `errstat_ideal`. -/
theorem viterbiInvertsEncoder : Obligations.ViterbiInvertsEncoder :=
  fun _ _ hwf hf hsym hu => ⟨vit_noiseFree hwf hf hsym hu, errstat_ideal hu⟩

/-- Settles O30: `vit_erased`, since the shift register of the given codes keeps state 0 on zeros, and `errstat_erased`. -/
theorem erasuresDecodeToZeros : Obligations.ErasuresDecodeToZeros := by
  intro d cd hd
  obtain ⟨len, punc, rfl⟩ := givenConv_eq_k5Desc hd
  have hwf := List.all_eq_true.mp givenConv_wf _ (List.mem_of_getElem? hd)
  exact ⟨vit_erased hwf rfl rfl rfl _, errstat_erased List.length_replicate⟩

end Sys2Proof.Machine
end

section
/-! SUPPORT. The CRC register as a machine that forgets nothing (R105): bit 0 of a well-formed `POLY` is 1, so a step can be undone,
and two runs that part never meet again. That gives the sensitivity to one flipped bit (R110); beside it stand the commands
`CRCS` (R106) and `CRCC` (R107). -/

namespace Sys2Proof.Machine

/-- What R110 uses of a well-formed descriptor (R25). -/
theorem crcWf_bounds {q : CrcDesc} (h : crcWf q = true) :
    0 < q.bits ∧ q.init < 2 ^ q.bits ∧ q.rem < 2 ^ q.bits ∧ q.poly.testBit 0 = true := by
  simp only [crcWf, Bool.and_eq_true, decide_eq_true_eq] at h
  obtain ⟨⟨⟨hpos, -⟩, -, hinit, hrem⟩, hpoly⟩ := h
  exact ⟨hpos, hinit, hrem, hpoly⟩

/-- Two contents of an `n`-bit register are equal when their bits are. -/
theorem eq_of_testBit_of_lt {n x y : Nat} (hx : x < 2 ^ n) (hy : y < 2 ^ n) (h : ∀ i < n, x.testBit i = y.testBit i) : x = y := by
  refine Nat.eq_of_testBit_eq fun i => ?_
  by_cases hi : i < n
  · exact h i hi
  · have hpow : 2 ^ n ≤ 2 ^ i := Nat.pow_le_pow_right (by decide) (Nat.le_of_not_lt hi)
    rw [Nat.testBit_lt_two_pow (hx.trans_le hpow), Nat.testBit_lt_two_pow (hy.trans_le hpow)]

/-! ### One step of the register -/

/-- The register with a data bit entered at the top, before the shift (R105). -/
def crcEnter (q : CrcDesc) (crc : Nat) (b : Bool) : Nat := crc ^^^ (b.toNat <<< (q.bits - 1))

theorem crcEnter_lt {q : CrcDesc} {crc : Nat} (hpos : 0 < q.bits) (h : crc < 2 ^ q.bits) (b : Bool) : crcEnter q crc b < 2 ^ q.bits := by
  refine Nat.xor_lt_two_pow h ?_
  rw [Nat.shiftLeft_eq]
  calc b.toNat * 2 ^ (q.bits - 1) ≤ 1 * 2 ^ (q.bits - 1) := Nat.mul_le_mul_right _ b.toNat_le
    _ < 2 ^ q.bits := by rw [one_mul]; exact Nat.pow_lt_pow_right (by decide) (by omega)

theorem crcEnter_inj_register {q : CrcDesc} {crc crc' : Nat} {b : Bool} (h : crcEnter q crc b = crcEnter q crc' b) : crc = crc' :=
  Nat.xor_left_injective h

theorem crcEnter_inj_bit {q : CrcDesc} {crc : Nat} {b b' : Bool} (h : crcEnter q crc b = crcEnter q crc b') : b = b' := by
  have htop : b.toNat <<< (q.bits - 1) = b'.toNat <<< (q.bits - 1) := Nat.xor_right_injective h
  rw [Nat.shiftLeft_eq, Nat.shiftLeft_eq] at htop
  have hnat : b.toNat = b'.toNat := Nat.eq_of_mul_eq_mul_right (Nat.two_pow_pos _) htop
  simpa using congrArg (· == 1) hnat

theorem crcStep_eq (q : CrcDesc) (crc : Nat) (b : Bool) :
    crcStep q crc b = if (crcEnter q crc b).testBit (q.bits - 1) = true then ((crcEnter q crc b <<< 1) ^^^ q.poly) % 2 ^ q.bits
      else (crcEnter q crc b <<< 1) % 2 ^ q.bits := rfl

theorem crcStep_lt (q : CrcDesc) (crc : Nat) (b : Bool) : crcStep q crc b < 2 ^ q.bits := by
  rw [crcStep_eq]
  split <;> exact Nat.mod_lt _ (Nat.two_pow_pos _)

/-- A step shifts the register left by one and adds `POLY` where the bit shifted out was 1. -/
theorem testBit_crcStep (q : CrcDesc) (crc : Nat) (b : Bool) {i : Nat} (hi : i < q.bits) :
    (crcStep q crc b).testBit i
      = ((decide (1 ≤ i) && (crcEnter q crc b).testBit (i - 1)) ^^ ((crcEnter q crc b).testBit (q.bits - 1) && q.poly.testBit i)) := by
  rw [crcStep_eq]
  split
  next htop => simp [Nat.testBit_mod_two_pow, Nat.testBit_xor, Nat.testBit_shiftLeft, hi, htop]
  next htop => simp [Nat.testBit_mod_two_pow, Nat.testBit_shiftLeft, hi, htop]

/-- A step can be undone: bit 0 of the new register is the bit shifted out, and the others follow. -/
theorem crcStep_inj {q : CrcDesc} (hwf : crcWf q = true) {crc crc' : Nat} (hc : crc < 2 ^ q.bits) (hc' : crc' < 2 ^ q.bits)
    {b b' : Bool} (h : crcStep q crc b = crcStep q crc' b') : crcEnter q crc b = crcEnter q crc' b' := by
  obtain ⟨hpos, -, -, hpoly⟩ := crcWf_bounds hwf
  have hbit (i : Nat) (hi : i < q.bits) :=
    calc _ = (crcStep q crc b).testBit i := (testBit_crcStep q crc b hi).symm
      _ = (crcStep q crc' b').testBit i := by rw [h]
      _ = _ := testBit_crcStep q crc' b' hi
  have htop : (crcEnter q crc b).testBit (q.bits - 1) = (crcEnter q crc' b').testBit (q.bits - 1) := by
    simpa [hpoly] using hbit 0 hpos
  refine eq_of_testBit_of_lt (crcEnter_lt hpos hc b) (crcEnter_lt hpos hc' b') fun i hi => ?_
  obtain hlow | rfl : i + 1 < q.bits ∨ i = q.bits - 1 := by omega
  · simpa [htop] using hbit (i + 1) hlow
  · exact htop

/-! ### A run of the register -/

theorem foldl_crcStep_lt (q : CrcDesc) (d : List Bool) {crc : Nat} (h : crc < 2 ^ q.bits) : d.foldl (crcStep q) crc < 2 ^ q.bits := by
  induction d generalizing crc with
  | nil => exact h
  | cons b d ih => exact ih (crcStep_lt q crc b)

/-- The same data take different registers to different registers. -/
theorem foldl_crcStep_inj {q : CrcDesc} (hwf : crcWf q = true) (d : List Bool) {crc crc' : Nat} (hc : crc < 2 ^ q.bits)
    (hc' : crc' < 2 ^ q.bits) (h : d.foldl (crcStep q) crc = d.foldl (crcStep q) crc') : crc = crc' := by
  induction d generalizing crc crc' with
  | nil => exact h
  | cons b d ih => exact crcEnter_inj_register (crcStep_inj hwf hc hc' (ih (crcStep_lt q crc b) (crcStep_lt q crc' b) h))

theorem crcCompute_lt {q : CrcDesc} (hwf : crcWf q = true) (d : List Bool) : crcCompute q d < 2 ^ q.bits := by
  obtain ⟨-, hinit, hrem, -⟩ := crcWf_bounds hwf
  exact Nat.xor_lt_two_pow (foldl_crcStep_lt q d hinit) hrem

/-- Data vectors that differ in one bit leave different registers. -/
theorem crcCompute_inj_at {q : CrcDesc} (hwf : crcWf q = true) (l r : List Bool) {b b' : Bool}
    (h : crcCompute q (l ++ b :: r) = crcCompute q (l ++ b' :: r)) : b = b' := by
  obtain ⟨-, hinit, -, -⟩ := crcWf_bounds hwf
  have hrun := Nat.xor_left_injective h
  rw [List.foldl_append, List.foldl_append, List.foldl_cons, List.foldl_cons] at hrun
  have hlead := foldl_crcStep_lt q l hinit
  exact crcEnter_inj_bit (crcStep_inj hwf hlead hlead (foldl_crcStep_inj hwf r (crcStep_lt ..) (crcStep_lt ..) hrun))

/-! ### Parity bits and their check (R108) -/

theorem crcBits_getElem? {q : CrcDesc} (d : List Bool) {i : Nat} (hi : i < q.bits) :
    (crcBits q d)[i]? = some ((crcCompute q d).testBit (q.bits - 1 - i)) := by
  rw [crcBits, List.getElem?_map, List.getElem?_range hi, Option.map_some]

/-- The parity bits are the whole register. -/
theorem crcCompute_eq_of_crcBits {q : CrcDesc} (hwf : crcWf q = true) {d d' : List Bool} (h : crcBits q d = crcBits q d') :
    crcCompute q d = crcCompute q d' := by
  refine eq_of_testBit_of_lt (crcCompute_lt hwf d) (crcCompute_lt hwf d') fun i hi => ?_
  have hbit : (crcBits q d)[q.bits - 1 - i]? = (crcBits q d')[q.bits - 1 - i]? := by rw [h]
  rwa [crcBits_getElem? d (by omega), crcBits_getElem? d' (by omega), Nat.sub_sub_self (by omega), Option.some_inj] at hbit

theorem crcCheck_iff {q : CrcDesc} {d par : List Bool} : crcCheck q d par = true ↔ crcBits q d = par := beq_iff_eq

theorem crcCheck_eq_false_iff {q : CrcDesc} {d par : List Bool} : crcCheck q d par = false ↔ crcBits q d ≠ par := beq_eq_false_iff_ne

/-- A flipped bit of the data changes the parity (R110). -/
theorem crcBits_flip_ne {q : CrcDesc} (hwf : crcWf q = true) {d : List Bool} {k : Nat} (hk : k < d.length) :
    crcBits q (d.set k (!d.getD k false)) ≠ crcBits q d := by
  intro h
  have hsplit : d = d.take k ++ d[k] :: d.drop (k + 1) := by rw [← List.drop_eq_getElem_cons hk, List.take_append_drop]
  have hreg := crcCompute_eq_of_crcBits hwf h
  rw [List.set_eq_take_append_cons_drop, if_pos hk, List.getD_eq_getElem d false hk] at hreg
  exact Bool.not_ne_self _ (crcCompute_inj_at hwf _ _ (hreg.trans (congrArg (crcCompute q) hsplit)))

theorem ne_flip_self {l : List Bool} {k : Nat} (hk : k < l.length) : l ≠ l.set k (!l.getD k false) := by
  intro h
  have hbit := congrArg (·[k]?) h
  simp [hk] at hbit

/-! ### The obligations -/

/-- Settles O31: the branches of `crcsCmd_eq`; what is stored has its length by `crcBits_length`. -/
theorem crcsRule : Obligations.CrcsRule := by
  intro p s c hc
  refine ⟨fun hp => .of_work hc (crcsCmd_absent _ p c hp), fun q n hq hn => ?_⟩
  subst hn
  have hwork := crcsCmd_eq s.params.rom p c hq
  refine ⟨fun hbad => ?_, fun hmax hsrc hdst => ?_⟩
  · exact .of_work hc (hwork.trans (if_neg hbad))
  · exact .of_work hc (hwork.trans (if_pos ⟨hmax, hsrc, hdst⟩))
      ((storesExactly_storeBits c _ _).congr fun k v => vec_bits (crcBits_length q _))

/-- Settles O32: the branches of `crccCmd_eq`, where the check is an equality of parities by `crcCheck_iff`. -/
theorem crccRule : Obligations.CrccRule := by
  intro p s c hc
  refine ⟨fun hp => .of_work hc (crccCmd_absent _ p c hp), fun q n hq hn => ?_⟩
  subst hn
  have hwork := crccCmd_eq s.params.rom p c hq
  refine ⟨fun hbad => ?_, fun hmax hsrc hpar => ?_⟩
  · exact .of_work hc (hwork.trans (if_neg hbad))
  · have hchecked := hwork.trans (if_pos ⟨hmax, hsrc, hpar⟩)
    exact ⟨fun heq => .of_work hc (hchecked.trans (if_pos (crcCheck_iff.mpr heq))),
      fun hne => .of_work hc (hchecked.trans (if_neg (crcCheck_iff.not.mpr hne)))⟩

/-- Settles O33: a flipped data bit changes the parity by `crcBits_flip_ne`, and a flipped parity bit is not the parity. -/
theorem crcSingleBitSensitivity : Obligations.CrcSingleBitSensitivity := by
  intro q d hwf
  refine ⟨crcCheck_iff.mpr rfl, fun k hk => ?_, fun k hk => ?_⟩
  · exact crcCheck_eq_false_iff.mpr (crcBits_flip_ne hwf hk)
  · exact crcCheck_eq_false_iff.mpr (ne_flip_self (hk.trans_eq (crcBits_length q d).symm))

end Sys2Proof.Machine
end

section
/-! SUPPORT. The puncture engine (R118, R119): what a puncturing table does to a sequence is one walk over the sequence's indices,
along which depuncturing undoes puncturing and the other way round (R120); beside it stand the commands `PUNC` (R116) and
`DPUN` (R117). -/

namespace Sys2Proof.Machine

/-! ### One step of the engine -/

section
variable {α : Type} {e x : α} {i n : Nat} {tab : List Nat} {l : List α}

theorem punctureFrom_entry : punctureFrom i (i :: tab) (x :: l) = punctureFrom (i + 1) tab l := if_pos rfl

theorem depunctureFrom_entry : depunctureFrom e i (i :: tab) l (n + 1) = e :: depunctureFrom e (i + 1) tab l n := if_pos rfl

theorem punctureFrom_notMem (h : i ∉ tab) : punctureFrom i tab (x :: l) = x :: punctureFrom (i + 1) tab l :=
  if_neg fun hhead => h (List.mem_of_head? hhead)

theorem depunctureFrom_notMem (h : i ∉ tab) :
    depunctureFrom e i tab (x :: l) (n + 1) = x :: depunctureFrom e (i + 1) tab l n :=
  if_neg fun hhead => h (List.mem_of_head? hhead)

end

/-! ### What the elements of a result are -/

theorem punctureFrom_sublist {α : Type} (i : Nat) (tab : List Nat) (v : List α) : (punctureFrom i tab v).Sublist v := by
  induction v generalizing i tab with
  | nil => exact List.Sublist.slnil
  | cons x v ih =>
    rw [punctureFrom]
    split
    · exact (ih _ _).cons x
    · exact (ih _ _).cons_cons x

theorem puncture_sublist {α : Type} (tab : List Nat) (v : List α) : (puncture tab v).Sublist v := punctureFrom_sublist 0 tab v

theorem mem_depunctureFrom {α : Type} {e x : α} {i n : Nat} {tab : List Nat} {m : List α}
    (h : x ∈ depunctureFrom e i tab m n) : x = e ∨ x ∈ m := by
  induction n generalizing i tab m with
  | zero => cases h
  | succ n ih =>
    rw [depunctureFrom] at h
    split at h
    · exact (List.mem_cons.mp h).elim .inl ih
    · cases m with
      | nil => exact (List.mem_cons.mp h).elim .inl ih
      | cons y m =>
        rcases List.mem_cons.mp h with rfl | h
        · exact .inr List.mem_cons_self
        · exact (ih h).imp_right (List.mem_cons_of_mem y)

theorem mem_depuncture {α : Type} {e x : α} {n : Nat} {tab : List Nat} {m : List α} (h : x ∈ depuncture e tab m n) :
    x = e ∨ x ∈ m := mem_depunctureFrom h

/-! ### The walk of a well-formed table (R24, R115) -/

/-- The pointer meets the entries `ents` one after the other on the `n` indices from `i` on, and passes every other index by. -/
inductive TableWalk : Nat → List Nat → Nat → Prop
  | done (i : Nat) : TableWalk i [] 0
  | entry {i n : Nat} {ents : List Nat} (rest : TableWalk (i + 1) ents n) : TableWalk i (i :: ents) (n + 1)
  | pass {i n : Nat} {ents : List Nat} (hi : i ∉ ents ++ [sentinel]) (rest : TableWalk (i + 1) ents n) : TableWalk i ents (n + 1)

/-- A strictly ascending table is met in full by the end of a sequence that holds all its entries. -/
theorem tableWalk_of_ascending {i n : Nat} {ents : List Nat} (hasc : ents.Pairwise (· < ·)) (hin : ∀ e ∈ ents, i ≤ e ∧ e < i + n)
    (hend : i + n ≤ sentinel) : TableWalk i ents n := by
  induction n generalizing i ents with
  | zero =>
    obtain rfl : ents = [] := List.eq_nil_iff_forall_not_mem.mpr fun e he => by have := hin e he; omega
    exact .done i
  | succ n ih =>
    by_cases hhead : ents.head? = some i
    · obtain ⟨ents, rfl⟩ := List.head?_eq_some_iff.mp hhead
      obtain ⟨hlt, hasc⟩ := List.pairwise_cons.mp hasc
      exact .entry (ih hasc (fun e he => ⟨hlt e he, by have := hin e (List.mem_cons_of_mem i he); omega⟩) (by omega))
    · have habove := lt_of_ascending_of_head?_ne hasc (fun e he => (hin e he).1) hhead
      refine .pass (fun hi => ?_) (ih hasc (fun e he => ⟨habove e he, by have := hin e he; omega⟩) (by omega))
      rcases List.mem_append.mp hi with hi | hi
      · exact Nat.lt_irrefl i (habove i hi)
      · have := List.mem_singleton.mp hi
        omega

namespace TableWalk
variable {i n : Nat} {ents : List Nat}

theorem length_le (hw : TableWalk i ents n) : ents.length ≤ n := by
  induction hw with
  | done => exact Nat.le_refl 0
  | entry _ ih => exact Nat.succ_le_succ ih
  | pass _ _ ih => exact Nat.le_succ_of_le ih

/-- Depuncturing a punctured vector puts the erasure at the entries of the table and gives back every other element. -/
theorem depunctureFrom_punctureFrom {α : Type} (e : α) (hw : TableWalk i ents n) {v : List α} (hv : v.length = n) {j : Nat}
    (hj : j < n) :
    (depunctureFrom e i (ents ++ [sentinel]) (punctureFrom i (ents ++ [sentinel]) v) n)[j]?
      = if i + j ∈ ents then some e else v[j]? := by
  induction hw generalizing v j with
  | done => exact absurd hj (Nat.not_lt_zero j)
  | @entry i n ents _ ih =>
    obtain ⟨x, v, rfl⟩ := List.exists_cons_of_length_eq_add_one hv
    rw [List.cons_append, punctureFrom_entry, depunctureFrom_entry]
    cases j with
    | zero => exact (if_pos List.mem_cons_self).symm
    | succ j =>
      have hmem : i + (j + 1) ∈ i :: ents ↔ i + 1 + j ∈ ents := by
        rw [List.mem_cons, or_iff_right (by omega), Nat.add_assoc, Nat.add_comm 1 j]
      rw [List.getElem?_cons_succ, List.getElem?_cons_succ, ih (Nat.succ.inj hv) (Nat.lt_of_succ_lt_succ hj), if_congr hmem rfl rfl]
  | @pass i n ents hi _ ih =>
    obtain ⟨x, v, rfl⟩ := List.exists_cons_of_length_eq_add_one hv
    rw [punctureFrom_notMem hi, depunctureFrom_notMem hi]
    cases j with
    | zero => exact (if_neg fun hmem => hi (List.mem_append_left _ hmem)).symm
    | succ j =>
      rw [List.getElem?_cons_succ, List.getElem?_cons_succ, ih (Nat.succ.inj hv) (Nat.lt_of_succ_lt_succ hj), Nat.add_right_comm,
        Nat.add_assoc]

/-- Puncturing drops the erasures that depuncturing has put in, and nothing else. -/
theorem punctureFrom_depunctureFrom {α : Type} (e : α) (hw : TableWalk i ents n) {m : List α} (hm : m.length + ents.length = n) :
    punctureFrom i (ents ++ [sentinel]) (depunctureFrom e i (ents ++ [sentinel]) m n) = m := by
  induction hw generalizing m with
  | done => exact (List.length_eq_zero_iff.mp hm).symm
  | entry _ ih =>
    rw [List.cons_append, depunctureFrom_entry, punctureFrom_entry]
    exact ih (Nat.succ.inj hm)
  | @pass i n ents hi rest ih =>
    have hle := rest.length_le
    obtain ⟨x, m, rfl⟩ := List.exists_cons_of_length_pos (l := m) (by omega)
    rw [depunctureFrom_notMem hi, punctureFrom_notMem hi, ih (by rw [List.length_cons] at hm; omega)]

end TableWalk

/-! ### Storing a vector -/

/-- A command that stores the vector `vs` of `n` cells at offset `a`. -/
theorem EndsStoring.of_storeVec {i : Instr} {s : State} {c : CoreInst} {r : Results} {b : Buf} {a n : Nat} {vs : List Byte} {st : Stage}
    (hc : s.cur? = some c) (hw : work s.params.rom i c = (c.storeVec b a vs).ended r st) (hform : ∀ v ∈ vs, cellForm b v = v)
    (hlen : vs.length = n) : EndsStoring i s c r b fun k v => ∃ j < n, k = a + j ∧ v = vs.getD j 0#8 :=
  .of_work hc hw ((storesExactly_storeVec c a hform).congr fun _ _ => vec_getD hlen)

theorem cellForm_erasureCell (b : Buf) : cellForm b erasureCell = erasureCell := cellForm_bitByte b false

/-! ### The obligations -/

/-- Settles O36: a well-formed table is walked in full (`tableWalk_of_ascending`), and along the walk each direction of R120 is an
induction. -/
theorem puncturingInverse : Obligations.PuncturingInverse := by
  intro α e tab n hasc hlt hn
  have hend : 0 + n ≤ sentinel := by rw [Nat.zero_add]; exact Nat.le_trans hn (by decide)
  have hin : ∀ k ∈ tab, 0 ≤ k ∧ k < 0 + n := fun k hk => ⟨Nat.zero_le k, by rw [Nat.zero_add]; exact hlt k hk⟩
  have hw := tableWalk_of_ascending hasc hin hend
  refine ⟨fun v hv => ⟨?_, fun i hi => ?_⟩, fun m hm => ?_⟩
  · subst hv
    exact Nat.eq_sub_of_add_eq (punctureFrom_length hasc hin hend)
  · have hback := hw.depunctureFrom_punctureFrom e hv hi
    rwa [Nat.zero_add] at hback
  · exact hw.punctureFrom_depunctureFrom e (by rw [hm]; exact Nat.sub_add_cancel hw.length_le)

/-- Settles O34: the branches of `puncCmd_eq`; the kept elements are loaded cells (`puncture_sublist`), `nmatched` of them. -/
theorem puncRule : Obligations.PuncRule := by
  intro d m s c hc
  refine ⟨fun hd => .of_work hc (puncCmd_absent _ d m c hd), fun cd b hd hb => ?_⟩
  obtain rfl : b = bufOf m := hb
  have hwork := puncCmd_eq s.params.rom d m c hd
  refine ⟨fun hfit => ?_, fun hsrc hdst hlen => ?_, fun hsrc hdst hlen hwf => ?_⟩
  · exact .of_work hc (hwork.trans (if_neg hfit))
  · exact .of_work hc (hwork.trans ((if_pos ⟨hsrc, hdst⟩).trans (if_neg hlen)))
  · exact .of_storeVec hc (hwork.trans ((if_pos ⟨hsrc, hdst⟩).trans (if_pos hlen)))
      (fun v hv => CoreInst.load_form ((puncture_sublist _ _).subset hv)) (puncture_length hwf (c.load_length _ _ _))

/-- Settles O35: the branches of `dpunCmd_eq`; each of the `nfull` elements is the erasure or a loaded cell (`mem_depuncture`). -/
theorem dpunRule : Obligations.DpunRule := by
  intro d m s c hc
  refine ⟨fun hd => .of_work hc (dpunCmd_absent _ d m c hd), fun cd b hd hb => ?_⟩
  obtain rfl : b = bufOf m := hb
  have hwork := dpunCmd_eq s.params.rom d m c hd
  refine ⟨fun hfit => ?_, fun hsrc hdst hlen => ?_, fun hsrc hdst hlen => ?_⟩
  · exact .of_work hc (hwork.trans (if_neg hfit))
  · exact .of_work hc (hwork.trans ((if_pos ⟨hsrc, hdst⟩).trans (if_neg hlen)))
  · refine .of_storeVec hc (hwork.trans ((if_pos ⟨hsrc, hdst⟩).trans (if_pos hlen))) (fun v hv => ?_) (depuncture_length _ _ _ _)
    rcases mem_depuncture hv with rfl | hv
    · exact cellForm_erasureCell _
    · exact CoreInst.load_form hv

end Sys2Proof.Machine
end

section
/-! SUPPORT. The interleaver and the burst mapper (R125 to R135): where the cells go that a command moves, said once for cells laid
along a list of places (`ILV`, `PERM`), for cells fetched along one (`DILV`, `PERM` inverse), and for the 114 i-bit positions of
a burst around its two flags (`BMAP`, `BUNM`, `BMAPT`, `BUNMT`). -/

namespace Sys2Proof.Machine

/-! ### Storing cells that have their form -/

theorem EndsStoring.congr {i : Instr} {s : State} {c : CoreInst} {r : Results} {b : Buf} {p q : Nat → Byte → Prop}
    (h : EndsStoring i s c r b p) (hpq : ∀ k v, p k v ↔ q k v) : EndsStoring i s c r b q := by
  obtain ⟨m, st, hexec, hstores⟩ := h
  exact ⟨m, st, hexec, hstores.congr hpq⟩

/-- A command that stores a list of cells with different indices, each value in its cell's form, stores the pairs of the list. -/
theorem EndsStoring.of_store {i : Instr} {s : State} {c : CoreInst} {r : Results} {b : Buf} {ws : List Host.Cell} {st : Stage}
    (hc : s.cur? = some c) (hw : work s.params.rom i c = (c.store b ws).ended r st) (hn : (ws.map (·.1)).Nodup)
    (hform : ∀ x ∈ ws, cellForm b x.2 = x.2) : EndsStoring i s c r b fun k v => (k, v) ∈ ws := by
  refine .of_work hc hw ((storesExactly_store c hn).congr fun k v => ⟨?_, fun hx => ⟨(k, v), hx, rfl, (hform _ hx).symm⟩⟩)
  rintro ⟨x, hx, rfl, rfl⟩
  rwa [hform x hx]

/-- What a storing command leaves where it ran: the stored cells, and the destination operand `A1` as it was. -/
theorem EndsStoring.cur? {i : Instr} {s t : State} {c : CoreInst} {r : Results} {b : Buf} {stored : Nat → Byte → Prop}
    (h : EndsStoring i s c r b stored) (hc : s.cur? = some c) (ht : exec i s = .next t) :
    ∃ d, t.cur? = some d ∧ d.a1 = c.a1 ∧ ∀ k v, stored k v → d.cell b k = v := by
  obtain ⟨m, st, hexec, hstored, -⟩ := h
  obtain rfl : s.putActive ((c.setMem b m).ended r st) = t := Host.Outcome.next.inj (hexec.symm.trans ht)
  refine ⟨_, State.cur?_putActive hc _, ?_, fun k v hkv => (CoreInst.cell_ended _ r st b k).trans (hstored k v hkv)⟩
  cases b <;> rfl

/-! ### Cells laid along a list of places, and fetched along one -/

theorem mem_gather {α : Type} {v : List α} {e x : α} {idx : List Nat} (h : x ∈ gather v e idx) : x = e ∨ x ∈ v := by
  obtain ⟨i, -, rfl⟩ := List.mem_map.mp h
  rw [List.getD_eq_getElem?_getD]
  cases hi : v[i]? with
  | none => exact .inl rfl
  | some y => exact .inr (List.mem_of_getElem? hi)

theorem gather_load_form {c : CoreInst} {b : Buf} {a len : Nat} {idx : List Nat} :
    ∀ v ∈ gather (c.load b a len) 0#8 idx, cellForm b v = v := by
  intro v hv
  rcases mem_gather hv with rfl | hv
  · exact cellForm_bitByte b false
  · exact CoreInst.load_form hv

theorem gather_load_getD (c : CoreInst) (b : Buf) (a : Nat) {len j x : Nat} {idx : List Nat} (hj : idx[j]? = some x) (hx : x < len) :
    (gather (c.load b a len) 0#8 idx).getD j 0#8 = c.cell b (a + x) := by
  rw [gather, List.getD_eq_getElem?_getD, List.getElem?_map, hj]
  exact load_getD c b a hx 0#8

/-- The cells of a loaded vector laid along a list of as many places. -/
theorem mem_zip_load {c : CoreInst} {b : Buf} {a a' n k : Nat} {v : Byte} {places : List Nat} (hlen : places.length = n) :
    (k, v) ∈ List.zip (places.map (a' + ·)) (c.load b a n) ↔
      ∃ j x, places[j]? = some x ∧ k = a' + x ∧ v = c.cell b (a + j) := by
  rw [List.mem_iff_getElem?]
  refine exists_congr fun j => ?_
  rw [List.getElem?_zip_eq_some, List.getElem?_map, Option.map_eq_some_iff]
  constructor
  · rintro ⟨⟨x, hx, rfl⟩, hv⟩
    have hj : j < n := hlen ▸ (List.getElem?_eq_some_iff.mp hx).1
    exact ⟨x, hx, rfl, Option.some.inj (hv.symm.trans (c.load_getElem? b a hj))⟩
  · rintro ⟨x, hx, rfl, rfl⟩
    exact ⟨⟨x, hx, rfl⟩, c.load_getElem? b a (hlen ▸ (List.getElem?_eq_some_iff.mp hx).1)⟩

/-- A command that lays the loaded cells along different places from offset `a` on. -/
theorem EndsStoring.of_places {i : Instr} {s : State} {c : CoreInst} {r : Results} {b : Buf} {a a' n : Nat} {places : List Nat}
    {st : Stage} (hc : s.cur? = some c)
    (hw : work s.params.rom i c = (c.store b (List.zip (places.map (a' + ·)) (c.load b a n))).ended r st)
    (hn : places.Nodup) (hlen : places.length = n) :
    EndsStoring i s c r b fun k v => ∃ j x, places[j]? = some x ∧ k = a' + x ∧ v = c.cell b (a + j) := by
  have hkeys : (places.map (a' + ·)).length ≤ (c.load b a n).length := by rw [List.length_map, c.load_length, hlen]
  refine (EndsStoring.of_store hc hw ?_ fun x hx => ?_).congr fun k v => mem_zip_load hlen
  · rw [List.map_fst_zip hkeys]
    exact hn.map fun x y => Nat.add_left_cancel
  · exact CoreInst.load_form (List.of_mem_zip (a := x.1) (b := x.2) hx).2

/-- A command that fetches cells along a list of places and stores them as a vector. -/
theorem EndsStoring.of_gather {i : Instr} {s : State} {c : CoreInst} {r : Results} {b : Buf} {a a' n : Nat} {places : List Nat}
    {st : Stage} (hc : s.cur? = some c)
    (hw : work s.params.rom i c = (c.storeVec b a' (gather (c.load b a n) 0#8 places)).ended r st) (hlt : ∀ x ∈ places, x < n) :
    EndsStoring i s c r b fun k v => ∃ j x, places[j]? = some x ∧ k = a' + j ∧ v = c.cell b (a + x) := by
  refine (EndsStoring.of_storeVec hc hw gather_load_form (gather_length _ _ _)).congr fun k v => exists_congr fun j => ?_
  constructor
  · rintro ⟨hj, rfl, rfl⟩
    have hx := List.getElem?_eq_getElem hj
    exact ⟨places[j], hx, rfl, gather_load_getD c b a hx (hlt _ (List.mem_of_getElem? hx))⟩
  · rintro ⟨x, hx, rfl, rfl⟩
    exact ⟨(List.getElem?_eq_some_iff.mp hx).1, rfl, (gather_load_getD c b a hx (hlt x (List.mem_of_getElem? hx))).symm⟩

theorem exists_place_iff {places : List Nat} {n : Nat} (hlen : places.length = n) {p : Nat → Nat → Prop} :
    (∃ j x, places[j]? = some x ∧ p j x) ↔ ∃ j x, j < n ∧ places[j]? = some x ∧ p j x :=
  exists₂_congr fun _ _ => (and_iff_right_of_imp fun ⟨hx, _⟩ => hlen ▸ (List.getElem?_eq_some_iff.mp hx).1).symm

/-- The places of a well-formed `MAP` are different (R26). -/
theorem permWf_nodup {r : PermDesc} (h : permWf r = true) : r.map.Nodup := by
  simp only [permWf, Bool.and_eq_true, decide_eq_true_eq] at h
  exact h.2

/-! ### The interleaver (R125) -/

theorem ilvCells_length (nb : Nat) : (ilvCells nb).length = 456 := by rw [ilvCells, List.length_map, List.length_range]

theorem ilvCells_getElem?_eq_some {nb j x : Nat} : (ilvCells nb)[j]? = some x ↔ j < 456 ∧ x = ilvCell nb j := by
  rw [ilvCells, List.getElem?_map, Option.map_eq_some_iff]
  constructor
  · rintro ⟨y, hy, rfl⟩
    obtain ⟨hj, rfl⟩ := List.getElem?_eq_some_iff.mp hy
    rw [List.length_range] at hj
    exact ⟨hj, by rw [List.getElem_range]⟩
  · rintro ⟨hj, rfl⟩
    exact ⟨j, List.getElem?_range hj, rfl⟩

/-- Going through the list of interleaved cells is going through the coded bits with the index function of R125. -/
theorem exists_ilvCells {nb : Nat} {p : Nat → Nat → Prop} :
    (∃ j x, (ilvCells nb)[j]? = some x ∧ p j x) ↔ ∃ j < 456, p j (ilvCell nb j) := by
  simp only [ilvCells_getElem?_eq_some, and_assoc, exists_and_left, exists_eq_left]

/-- What `DILV` stores where both operands fit (R127). -/
theorem dilv_endsStoring (var m : Bool) {s : State} {c : CoreInst} (hc : s.cur? = some c)
    (hsrc : Fits c.a0 (burstCount var * 114) (bufOf m)) (hdst : Fits c.a1 456 (bufOf m)) :
    EndsStoring (.dilv var m) s c { status := 0x0008D100#32, rlen := 456#32 } (bufOf m) fun k v =>
      ∃ j < 456, k = c.a1.toNat + j ∧ v = c.cell (bufOf m) (c.a0.toNat + ilvCell (burstCount var) j) :=
  .congr (.of_gather hc ((dilvCmd_eq var m c).trans (if_pos ⟨hsrc, hdst⟩)) fun _ => ilvCells_lt) fun _ _ => exists_ilvCells

/-- What `ILV` stores where both operands fit (R126). -/
theorem ilv_endsStoring (var m : Bool) {s : State} {c : CoreInst} (hc : s.cur? = some c) (hsrc : Fits c.a0 456 (bufOf m))
    (hdst : Fits c.a1 (burstCount var * 114) (bufOf m)) :
    EndsStoring (.ilv var m) s c { status := 0x0007D100#32, rlen := 456#32 } (bufOf m) fun k v =>
      ∃ j < 456, k = c.a1.toNat + ilvCell (burstCount var) j ∧ v = c.cell (bufOf m) (c.a0.toNat + j) :=
  .congr (.of_places hc ((ilvCmd_eq var m c).trans (if_pos ⟨hsrc, hdst⟩)) (ilvCells_nodup var) (ilvCells_length _))
    fun _ _ => exists_ilvCells

/-! ### Positions in a burst (R134) -/

theorem burstPos_eq (j : Nat) : burstPos j = if j < 57 then j else j + 2 := if_congr Nat.lt_succ_iff.symm rfl rfl

theorem burstPos_injective : Function.Injective burstPos := by
  intro i j h
  simp only [burstPos_eq] at h
  split at h <;> split at h <;> omega

theorem burstPos_ne_flag (j : Nat) : burstPos j ≠ 57 ∧ burstPos j ≠ 58 := by
  rw [burstPos_eq]
  split <;> omega

/-- A position of a burst is one of the two flags or that of an i-bit. -/
theorem flag_or_burstPos (p : Nat) : p = 57 ∨ p = 58 ∨ ∃ j, p = burstPos j := by
  rcases lt_or_ge p 57 with h | h
  · exact .inr (.inr ⟨p, by rw [burstPos_eq, if_pos h]⟩)
  · by_cases h57 : p = 57
    · exact .inl h57
    · by_cases h58 : p = 58
      · exact .inr (.inl h58)
      · exact .inr (.inr ⟨p - 2, by rw [burstPos_eq, if_neg (by omega)]; omega⟩)

theorem unmapBurst_getElem? {α : Type} {e : List α} (h : e.length = 116) (j : Nat) : (unmapBurst e)[j]? = e[burstPos j]? := by
  have hlen : (e.take 57).length = 57 := List.length_take_of_le (by omega)
  rw [unmapBurst, burstPos_eq]
  rcases lt_or_ge j 57 with hj | hj
  · rw [if_pos hj, List.getElem?_append_left (by omega), List.getElem?_take_of_lt hj]
  · rw [if_neg (by omega), List.getElem?_append_right (by omega), hlen, List.getElem?_drop]
    congr 1
    omega

section
variable {α : Type} {i : List α} (h : i.length = 114) (hl hu : α)
include h

theorem mapBurst_getElem?_burstPos (j : Nat) : (mapBurst i hl hu)[burstPos j]? = i[j]? := by
  have hlen : (i.take 57).length = 57 := List.length_take_of_le (by omega)
  rw [mapBurst, burstPos_eq, List.append_assoc]
  rcases lt_or_ge j 57 with hj | hj
  · rw [if_pos hj, List.getElem?_append_left (by omega), List.getElem?_take_of_lt hj]
  · rw [if_neg (by omega), List.getElem?_append_right (by omega), hlen, List.getElem?_append_right (by simp; omega),
      List.getElem?_drop]
    congr 1
    simp only [List.length_cons, List.length_nil]
    omega

theorem mapBurst_getElem?_flags : (mapBurst i hl hu)[57]? = some hl ∧ (mapBurst i hl hu)[58]? = some hu := by
  have hlen : (i.take 57).length = 57 := List.length_take_of_le (by omega)
  rw [mapBurst, List.append_assoc]
  constructor <;> rw [List.getElem?_append_right (by omega), hlen] <;> rfl

/-- The elements of a burst: the i-bits at their positions, and the two flags. -/
theorem mapBurst_getElem?_eq_some {p : Nat} {v : α} :
    (mapBurst i hl hu)[p]? = some v ↔ (∃ j, p = burstPos j ∧ i[j]? = some v) ∨ (p = 57 ∧ v = hl) ∨ (p = 58 ∧ v = hu) := by
  obtain ⟨h57, h58⟩ := mapBurst_getElem?_flags h hl hu
  constructor
  · intro hv
    rcases flag_or_burstPos p with rfl | rfl | ⟨j, rfl⟩
    · exact .inr (.inl ⟨rfl, Option.some.inj (hv.symm.trans h57)⟩)
    · exact .inr (.inr ⟨rfl, Option.some.inj (hv.symm.trans h58)⟩)
    · exact .inl ⟨j, rfl, (mapBurst_getElem?_burstPos h hl hu j).symm.trans hv⟩
  · rintro (⟨j, rfl, hv⟩ | ⟨rfl, rfl⟩ | ⟨rfl, rfl⟩)
    · exact (mapBurst_getElem?_burstPos h hl hu j).trans hv
    · exact h57
    · exact h58

end

theorem mem_mapBurst {α : Type} {i : List α} {hl hu v : α} (h : v ∈ mapBurst i hl hu) : v = hl ∨ v = hu ∨ v ∈ i := by
  simp only [mapBurst, List.mem_append, List.mem_cons, List.not_mem_nil, or_false] at h
  rcases h with (h | h | h) | h
  · exact .inr (.inr (List.mem_of_mem_take h))
  · exact .inl h
  · exact .inr (.inl h)
  · exact .inr (.inr (List.mem_of_mem_drop h))

theorem mem_of_mem_unmapBurst {α : Type} {e : List α} {v : α} (h : v ∈ unmapBurst e) : v ∈ e :=
  (List.mem_append.mp h).elim List.mem_of_mem_take List.mem_of_mem_drop

theorem flagCell_eq_flagByte (m x : Bool) : flagCell m x = flagByte m x := by cases m <;> cases x <;> decide

theorem cellForm_flagCell (m x : Bool) : cellForm (bufOf m) (flagCell m x) = flagCell m x := by
  cases m
  · exact cellForm_bitByte .hb x
  · rfl

/-- The burst of 114 loaded i-bits, stored at `a'`. -/
theorem vec_mapBurst {c : CoreInst} {b : Buf} {a a' k : Nat} {v hl hu : Byte} :
    Vec a' (mapBurst (c.load b a 114) hl hu) k v ↔
      (∃ j < 114, k = a' + burstPos j ∧ v = c.cell b (a + j)) ∨ (k = a' + 57 ∧ v = hl) ∨ (k = a' + 58 ∧ v = hu) := by
  simp only [Vec, mapBurst_getElem?_eq_some (c.load_length b a 114)]
  constructor
  · rintro ⟨p, ⟨j, rfl, hv⟩ | ⟨rfl, rfl⟩ | ⟨rfl, rfl⟩, rfl⟩
    · have hj : j < 114 := c.load_length b a 114 ▸ (List.getElem?_eq_some_iff.mp hv).1
      exact .inl ⟨j, hj, rfl, Option.some.inj (hv.symm.trans (c.load_getElem? b a hj))⟩
    · exact .inr (.inl ⟨rfl, rfl⟩)
    · exact .inr (.inr ⟨rfl, rfl⟩)
  · rintro (⟨j, hj, rfl, rfl⟩ | ⟨rfl, rfl⟩ | ⟨rfl, rfl⟩)
    · exact ⟨_, .inl ⟨j, rfl, c.load_getElem? b a hj⟩, rfl⟩
    · exact ⟨_, .inr (.inl ⟨rfl, rfl⟩), rfl⟩
    · exact ⟨_, .inr (.inr ⟨rfl, rfl⟩), rfl⟩

theorem load_getD_burstPos (c : CoreInst) (b : Buf) (a : Nat) {j : Nat} (hj : j < 114) :
    (c.load b a 116).getD (burstPos j) 0#8 = c.cell b (a + burstPos j) := load_getD c b a (burstPos_lt hj) 0#8

theorem unmapBurst_load_getD (c : CoreInst) (b : Buf) (a : Nat) {j : Nat} (hj : j < 114) :
    (unmapBurst (c.load b a 116)).getD j 0#8 = c.cell b (a + burstPos j) := by
  rw [List.getD_eq_getElem?_getD, unmapBurst_getElem? (c.load_length b a 116), ← List.getD_eq_getElem?_getD,
    load_getD_burstPos c b a hj]

/-! ### The half of one parity (R132, R133) -/

theorem mem_halfPositions {odd : Bool} {j : Nat} : j ∈ halfPositions odd ↔ j < 114 ∧ j % 2 = odd.toNat := by
  rw [halfPositions, List.mem_filter, List.mem_range, beq_iff_eq]

theorem halfPositions_nodup (odd : Bool) : (halfPositions odd).Nodup := List.nodup_range.filter _

theorem mem_map_halfPositions {odd : Bool} {f : Nat → Nat} {g : Nat → Byte} {k : Nat} {v : Byte} :
    (k, v) ∈ (halfPositions odd).map (fun j => (f j, g j)) ↔ ∃ j < 114, j % 2 = odd.toNat ∧ k = f j ∧ v = g j := by
  rw [List.mem_map]
  refine exists_congr fun j => ?_
  rw [mem_halfPositions, Prod.mk.injEq, and_assoc, eq_comm (a := f j), eq_comm (a := g j)]

theorem map_fst_halfPositions_nodup (odd : Bool) {f : Nat → Nat} (g : Nat → Byte) (hf : Function.Injective f) :
    (((halfPositions odd).map fun j => (f j, g j)).map (·.1)).Nodup := by
  rw [List.map_map]
  exact (halfPositions_nodup odd).map hf

/-- A loaded cell is in its form already, so moving it changes nothing (R137 (c)). -/
theorem load_getD_form (c : CoreInst) (b : Buf) (a : Nat) {len j : Nat} (h : j < len) :
    cellForm b ((c.load b a len).getD j 0#8) = (c.load b a len).getD j 0#8 := by
  rw [load_getD c b a h, c.cellForm_cell]

/-- The one field of `STEAL` that `BUNMT` fills (R133). -/
theorem stealRaw_half (odd : Bool) (x y : Byte) :
    (if odd then stealRaw x 0#8 else stealRaw 0#8 y) = if odd then x.setWidth 32 else y.setWidth 32 * 0x100#32 := by
  cases odd <;> simp [stealRaw_eq]

/-! ### The obligations -/

/-- Settles O37: the branches of `ilvCmd_eq`. The 456 places are different (`ilvCells_nodup`), so each cell keeps what it was given. -/
theorem ilvRule : Obligations.IlvRule := by
  intro var m s c b nb hc hb hnb
  obtain rfl : b = bufOf m := hb
  obtain rfl : nb = burstCount var := hnb
  exact ⟨fun hfit => .of_work hc ((ilvCmd_eq var m c).trans (if_neg hfit)), ilv_endsStoring var m hc⟩

/-- Settles O38: the branches of `dilvCmd_eq`; after `ILV` each fetched cell is the one that `ilv_endsStoring` says was laid there. -/
theorem dilvRule : Obligations.DilvRule := by
  refine ⟨fun var m s c b nb hc hb hnb => ?_, fun var m s t u c d b a1 hc hb hsrc hmid hdst hilv hdilv hd k hk => ?_⟩
  · obtain rfl : b = bufOf m := hb
    obtain rfl : nb = burstCount var := hnb
    exact ⟨fun hfit => .of_work hc ((dilvCmd_eq var m c).trans (if_neg hfit)), dilv_endsStoring var m hc⟩
  · obtain rfl : b = bufOf m := hb
    have harea : Fits c.a1 (burstCount var * 114) (bufOf m) := by cases var <;> exact hmid
    obtain ⟨e, he, hea1, hlaid⟩ := (ilv_endsStoring var m hc hsrc harea).cur? hc hilv
    have he' := State.cur?_onActive he fun e => { e with a0 := e.a1, a1 := a1 }
    obtain ⟨d', hd', -, hfetched⟩ := (dilv_endsStoring var m he' (hea1 ▸ harea) hdst).cur? he' hdilv
    obtain rfl : d' = d := Option.some.inj (hd'.symm.trans hd)
    calc d'.cell (bufOf m) (a1.toNat + k)
      _ = e.cell (bufOf m) (e.a1.toNat + ilvCell (burstCount var) k) :=
        (hfetched _ _ ⟨k, hk, rfl, rfl⟩).trans (CoreInst.cell_congr (by cases m <;> rfl) rfl rfl _)
      _ = c.cell (bufOf m) (c.a0.toNat + k) := hlaid _ _ ⟨k, hk, by rw [hea1], rfl⟩

/-- Settles O39: the branches of `permCmd_eq`. A well-formed `MAP` has `NIN` different places below `NOUT`, along which the cells are
laid or fetched. -/
theorem permRule : Obligations.PermRule := by
  intro t inv m s c b hc hb
  obtain rfl : b = bufOf m := hb
  refine ⟨fun ht => .of_work hc (permCmd_absent _ t inv m c ht), fun r hr => ?_⟩
  have hwork := permCmd_eq s.params.rom t inv m c hr
  refine ⟨fun hfit => .of_work hc (hwork.trans (if_neg hfit)), fun hsrc hdst hwf => ?_⟩
  have hdone := hwork.trans (if_pos ⟨hsrc, hdst⟩)
  obtain ⟨hlen, hlt⟩ := permWf_map hwf
  cases inv with
  | false => exact .congr (.of_places hc hdone (permWf_nodup hwf) hlen) fun _ _ => exists_place_iff hlen
  | true => exact .congr (.of_gather hc hdone hlt) fun _ _ => exists_place_iff hlen

/-- Settles O40: the branches of `bmapCmd_eq`; the cells of a burst are those of `vec_mapBurst`. -/
theorem bmapRule : Obligations.BmapRule := by
  intro hl hu m s c b hc hb
  obtain rfl : b = bufOf m := hb
  have hwork := bmapCmd_eq hl hu m c
  refine ⟨fun hfit => .of_work hc (hwork.trans (if_neg hfit)), fun hsrc hdst => ?_⟩
  refine .of_work hc (hwork.trans (if_pos ⟨hsrc, hdst⟩)) ((storesExactly_storeVec c _ fun v hv => ?_).congr fun k v => ?_)
  · rcases mem_mapBurst hv with rfl | rfl | hv
    · exact cellForm_flagCell m hl
    · exact cellForm_flagCell m hu
    · exact CoreInst.load_form hv
  · simp only [vec_mapBurst, burstPos_eq, flagCell_eq_flagByte]

/-- Settles O41: the branches of `bunmCmd_eq`; `STEAL` by `stealRaw_eq`. -/
theorem bunmRule : Obligations.BunmRule := by
  intro fo m s c b steal hc hb hsteal
  obtain rfl : b = bufOf m := hb
  have hwork := bunmCmd_eq fo m c
  rw [stealRaw_eq, ← hsteal] at hwork
  refine ⟨fun hfit => .of_work hc (hwork.trans (if_neg hfit)), fun hsrc hfo => ?_, fun hsrc hfo hdst => ?_⟩
  · subst hfo
    exact .of_work hc (hwork.trans (if_pos ⟨hsrc, nofun⟩))
  · subst hfo
    refine .congr (.of_storeVec hc (hwork.trans (if_pos ⟨hsrc, fun _ => hdst⟩))
      (fun v hv => CoreInst.load_form (mem_of_mem_unmapBurst hv)) (unmapBurst_length (c.load_length _ _ _))) fun k v => ?_
    refine exists_congr fun j => and_congr_right fun hj => ?_
    rw [unmapBurst_load_getD c _ _ hj, burstPos_eq]

/-- Settles O42: the branches of `bmaptCmd_eq`; the flag's place is none of the 57 i-bit places (`burstPos_ne_flag`). -/
theorem bmaptRule : Obligations.BmaptRule := by
  intro odd h m s c b hc hb
  obtain rfl : b = bufOf m := hb
  have hwork := bmaptCmd_eq odd h m c
  refine ⟨fun hfit => .of_work hc (hwork.trans (if_neg hfit)), fun hsrc hdst => ?_⟩
  refine .congr (.of_store hc (hwork.trans (if_pos ⟨hsrc, hdst⟩)) ?_ fun x hx => ?_) fun k v => ?_
  · rw [List.map_append]
    refine List.nodup_append'.mpr ⟨map_fst_halfPositions_nodup odd _ fun i j hij => burstPos_injective (Nat.add_left_cancel hij),
      List.nodup_singleton _, fun x hx hflag => ?_⟩
    obtain ⟨_, hmem, rfl⟩ := List.mem_map.mp hx
    obtain ⟨j, -, rfl⟩ := List.mem_map.mp hmem
    have hpos := Nat.add_left_cancel (List.mem_singleton.mp hflag)
    obtain ⟨h57, h58⟩ := burstPos_ne_flag j
    cases odd with
    | false => exact h58 hpos
    | true => exact h57 hpos
  · rcases List.mem_append.mp hx with hx | hx
    · obtain ⟨j, hj, rfl⟩ := List.mem_map.mp hx
      exact load_getD_form c _ _ (halfPositions_lt hj)
    · obtain rfl := List.mem_singleton.mp hx
      exact cellForm_flagCell m h
  · rw [List.mem_append, mem_map_halfPositions, List.mem_singleton, Prod.mk.injEq, flagCell_eq_flagByte]
    refine or_congr (exists_congr fun j => and_congr_right fun hj => ?_) Iff.rfl
    rw [load_getD c _ _ hj, burstPos_eq]

/-- Settles O43: the branches of `bunmtCmd_eq`; `STEAL` by `stealRaw_half`. -/
theorem bunmtRule : Obligations.BunmtRule := by
  intro odd fo m s c b steal hc hb hsteal
  obtain rfl : b = bufOf m := hb
  have hwork := bunmtCmd_eq odd fo m c
  rw [stealRaw_half, ← hsteal] at hwork
  refine ⟨fun hfit => .of_work hc (hwork.trans (if_neg hfit)), fun hsrc hfo => ?_, fun hsrc hfo hdst => ?_⟩
  · subst hfo
    exact .of_work hc (hwork.trans (if_pos ⟨hsrc, nofun⟩))
  · subst hfo
    refine .congr (.of_store hc (hwork.trans (if_pos ⟨hsrc, fun _ => hdst⟩))
      (map_fst_halfPositions_nodup odd _ fun i j => Nat.add_left_cancel) fun x hx => ?_) fun k v => ?_
    · obtain ⟨j, hj, rfl⟩ := List.mem_map.mp hx
      exact load_getD_form c _ _ (burstPos_lt (halfPositions_lt hj))
    · rw [mem_map_halfPositions]
      refine exists_congr fun j => and_congr_right fun hj => ?_
      rw [load_getD_burstPos c _ _ hj, burstPos_eq]

end Sys2Proof.Machine
end

section
/-! SUPPORT. The utility commands (R145 to R151): what `UNPK`, `PACK`, `H2S` and `S2H` store is a vector `f 0 … f (n-1)`, said once for
the four of them, with `f` read from the cells of the source; beside them stand `NOP` and `SRST`. -/

namespace Sys2Proof.Machine

/-! ### Storing a vector given by its elements -/

/-- A command that stores `f 0 … f (n-1)` at offset `a`, each value in its cell's form. -/
theorem EndsStoring.of_storeMap {i : Instr} {s : State} {c : CoreInst} {r : Results} {b : Buf} {a n : Nat} {vs : List Byte}
    {st : Stage} {f : Nat → Byte} (hc : s.cur? = some c) (hw : work s.params.rom i c = (c.storeVec b a vs).ended r st)
    (hvs : vs = (List.range n).map f) (hform : ∀ j, cellForm b (f j) = f j) :
    EndsStoring i s c r b fun k v => ∃ j < n, k = a + j ∧ v = f j := by
  subst hvs
  refine .of_work hc hw ((storesExactly_storeVec c a fun v hv => ?_).congr fun _ _ => vec_map_range)
  obtain ⟨j, -, rfl⟩ := List.mem_map.mp hv
  exact hform j

/-! ### Bits inside octets (R43) -/

theorem bitPos_lt (msbf : Bool) (i : Nat) : bitPos msbf i < 8 := by
  unfold bitPos
  split <;> omega

theorem bitPos_of_lt (msbf : Bool) {i : Nat} (hi : i < 8) : bitPos msbf i = if msbf then 7 - i else i := by
  rw [bitPos, Nat.mod_eq_of_lt hi]

/-- In either bit order the eight bits of an octet have different positions. -/
theorem bitPos_eq_iff (msbf : Bool) {i j : Nat} (hi : i < 8) (hj : j < 8) : bitPos msbf i = bitPos msbf j ↔ i = j := by
  rw [bitPos_of_lt msbf hi, bitPos_of_lt msbf hj]
  split <;> omega

/-- Every bit of an octet has a place in either bit order. -/
theorem exists_bitPos_eq (msbf : Bool) {p : Nat} (hp : p < 8) : ∃ i < 8, bitPos msbf i = p := by
  cases msbf with
  | false => exact ⟨p, hp, bitPos_of_lt false hp⟩
  | true => exact ⟨7 - p, by omega, (bitPos_of_lt true (by omega)).trans (Nat.sub_sub_self (Nat.le_of_lt_succ hp))⟩

theorem getLsbD_one_shiftLeft (p : Nat) {k : Nat} (hk : k < 8) : (1#8 <<< p).getLsbD k = decide (p = k) := by
  rw [← BitVec.twoPow_eq, BitVec.getLsbD_twoPow]
  by_cases hp : p = k
  · rw [hp, decide_eq_true hk, Bool.true_and]
  · rw [decide_eq_false hp, Bool.and_false]

/-- Setting bit `p i` of an octet for each `i` of a list with `f i`. -/
theorem getLsbD_foldl_setBit (f : Nat → Bool) (p : Nat → Nat) (l : List Nat) (o : Byte) {k : Nat} (hk : k < 8) :
    (l.foldl (fun o i => o ||| (if f i then 1#8 <<< p i else 0#8)) o).getLsbD k
      = (o.getLsbD k || l.any fun i => f i && decide (p i = k)) := by
  induction l generalizing o with
  | nil => simp
  | cons i l ih =>
    have hbit : (if f i then 1#8 <<< p i else 0#8).getLsbD k = (f i && decide (p i = k)) := by
      cases f i with
      | false => exact BitVec.getLsbD_zero
      | true => exact getLsbD_one_shiftLeft (p i) hk
    rw [List.foldl_cons, ih, BitVec.getLsbD_or, hbit, List.any_cons, Bool.or_assoc]

/-- Bit `i` of octet `q`, in either bit order, is element `8q + i` of the packed vector (R147). -/
theorem packOctet_bitPos (msbf : Bool) (u : List Bool) (q : Nat) {i : Nat} (hi : i < 8) :
    (packOctet msbf u q).getLsbD (bitPos msbf i) = u.getD (8 * q + i) false := by
  rw [packOctet, getLsbD_foldl_setBit (fun i => u.getD (8 * q + i) false) _ _ _ (bitPos_lt msbf i), BitVec.getLsbD_zero,
    Bool.false_or, Bool.eq_iff_iff, List.any_eq_true]
  constructor
  · rintro ⟨j, hj, h⟩
    obtain ⟨hu, hpos⟩ := Bool.and_eq_true_iff.mp h
    obtain rfl := (bitPos_eq_iff msbf (List.mem_range.mp hj) hi).mp (of_decide_eq_true hpos)
    exact hu
  · exact fun hu => ⟨i, List.mem_range.mpr hi, Bool.and_eq_true_iff.mpr ⟨hu, decide_eq_true rfl⟩⟩

/-- The eight bits of a packed octet determine it. -/
theorem eq_packOctet_iff {msbf : Bool} {u : List Bool} {q : Nat} {v : Byte} :
    v = packOctet msbf u q ↔ ∀ i < 8, v.getLsbD (bitPos msbf i) = u.getD (8 * q + i) false := by
  constructor
  · rintro rfl i hi
    exact packOctet_bitPos msbf u q hi
  · intro h
    refine BitVec.eq_of_getLsbD_eq fun p hp => ?_
    obtain ⟨i, hi, rfl⟩ := exists_bitPos_eq msbf hp
    rw [h i hi, packOctet_bitPos msbf u q hi]

/-! ### What the four commands store -/

/-- `UNPK`: bit `j` stands in octet `j / 8` (R146). -/
theorem unpackBits_load (msbf : Bool) (c : CoreInst) (a n : Nat) :
    unpackBits msbf (c.load .ob a (octetsFor n)) n
      = (List.range n).map fun j => (c.cell .ob (a + j / 8)).getLsbD (bitPos msbf j) := by
  refine List.map_congr_left fun j hj => ?_
  have hoctet : j / 8 < octetsFor n := by
    have := List.mem_range.mp hj
    unfold octetsFor
    omega
  rw [load_getD c .ob a hoctet]

/-- `PACK`: one octet for every eight bits or part of eight (R147). -/
theorem packBits_loadBits (msbf : Bool) (c : CoreInst) (a n : Nat) :
    packBits msbf (c.loadBits a n) = (List.range ((n + 7) / 8)).map (packOctet msbf (c.loadBits a n)) := by
  rw [packBits, c.loadBits_length, octetsFor]

/-- `PACK`: a loaded bit, 0 where there is none (R147). -/
theorem loadBits_getD (c : CoreInst) (a n k : Nat) :
    (c.loadBits a n).getD k false = (decide (k < n) && (c.cell .hb (a + k)).getLsbD 0) := by
  rw [c.loadBits_eq, List.getD_eq_getElem?_getD, List.getElem?_map]
  by_cases hk : k < n
  · simp [hk, bitOf]
  · simp [hk]

/-- A hard-bit cell holds the byte of a bit: it is 1 exactly when its bit is 1 (R45). -/
theorem bitOf_cell_hb (c : CoreInst) (k : Nat) : bitOf (c.cell .hb k) = decide (c.cell .hb k = 1#8) := by
  have hform (v : Byte) (hv : v &&& 1#8 = v) : bitOf v = decide (v = 1#8) := by
    revert v
    decide
  exact hform _ (c.cellForm_cell .hb k)

/-- `H2S`: the soft value of a hard-bit cell (R149). -/
theorem soft_loadBits (c : CoreInst) (a n : Nat) :
    (c.loadBits a n).map (fun b => tc8 (softOf b))
      = (List.range n).map fun j => if c.cell .hb (a + j) = 1#8 then 0x81#8 else 0x7F#8 := by
  rw [c.loadBits_eq, List.map_map]
  refine List.map_congr_left fun j _ => ?_
  rw [Function.comp_apply, bitOf_cell_hb]
  split
  next hone => rw [decide_eq_true hone]; rfl
  next hone => rw [decide_eq_false hone]; rfl

/-- `S2H`: the sign of a soft value as a bit (R150). -/
theorem hard_loadSoft (c : CoreInst) (a n : Nat) :
    ((c.loadSoft a n).map hardOf).map bitByte
      = (List.range n).map fun j => if (c.cell .sb (a + j)).toInt < 0 then 1#8 else 0#8 := by
  rw [c.loadSoft_eq, List.map_map, List.map_map]
  refine List.map_congr_left fun j _ => ?_
  simp only [Function.comp_apply, bitByte, hardOf, sext8, decide_eq_true_eq]

/-! ### `SRST` (R151) -/

/-- The one word with `SRST`'s opcode that decodes is that with every other field 0. -/
theorem decode?_srst_illformed {w : Word} (hopc : opcField w = 0x3F) (hw : w ≠ 0x0000003F#32) : decode? w = none := by
  unfold decode?
  cases hd : decode w with
  | error e => rfl
  | ok i =>
    obtain ⟨-, hi⟩ := decode_eq_ok_iff.mp hd
    rw [hopc] at hi
    obtain rfl : .srst = i := Option.some.inj hi
    exact absurd (encode_decode hd).1.symm hw

/-! ### The obligations -/

/-- Settles O11: `SRST` resets the registers alone; no ill-formed word decodes (`decode?_srst_illformed`), and the illegal-command
path is `CoreInst.illegal_eq_ended`. -/
theorem srstRule : Obligations.SrstRule := by
  refine ⟨fun s c hc => ⟨.s0, ?_⟩, fun w hopc hw => ⟨decode?_srst_illformed hopc hw, fun s c hc => ⟨.s0, ?_⟩⟩⟩
  · rw [exec_eq_work, State.onActive_eq_putActive hc]
    rfl
  · rw [illegalCommand, State.onActive_eq_putActive hc, CoreInst.illegal_eq_ended, hopc]

/-- Settles O21: the branches of `unpkCmd_eq`; the stored bits are those of `unpackBits_load`. -/
theorem unpkRule : Obligations.UnpkRule := by
  intro msbf s c n hc hn
  subst hn
  have hwork := unpkCmd_eq msbf c
  refine ⟨fun hfit => .of_work hc (hwork.trans (if_neg hfit)), fun hlen hsrc hdst => ?_⟩
  exact .of_storeMap hc (hwork.trans (if_pos ⟨hlen, hsrc, hdst⟩))
    ((congrArg (List.map bitByte) (unpackBits_load msbf c _ _)).trans List.map_map) fun _ => cellForm_bitByte .hb _

/-- Settles O22: the branches of `packCmd_eq`; a stored octet is given by its eight bits (`eq_packOctet_iff`). -/
theorem packRule : Obligations.PackRule := by
  intro msbf s c n hc hn
  subst hn
  have hwork := packCmd_eq msbf c
  refine ⟨fun hfit => .of_work hc (hwork.trans (if_neg hfit)), fun hlen hsrc hdst => ?_⟩
  refine .congr (.of_storeMap hc (hwork.trans (if_pos ⟨hlen, hsrc, hdst⟩)) (packBits_loadBits msbf c _ _) fun _ => rfl) fun k v => ?_
  refine exists_congr fun q => and_congr_right fun _ => and_congr_right fun _ => eq_packOctet_iff.trans ?_
  refine forall₂_congr fun i hi => ?_
  rw [bitPos_of_lt msbf hi, loadBits_getD]

/-- Settles O23: the branches of `h2sCmd_eq`; the stored values are those of `soft_loadBits`. -/
theorem h2sRule : Obligations.H2sRule := by
  intro s c n hc hn
  subst hn
  have hwork := h2sCmd_eq c
  refine ⟨fun hfit => .of_work hc (hwork.trans (if_neg hfit)), fun hlen hsrc hdst => ?_⟩
  exact .of_storeMap hc (hwork.trans (if_pos ⟨hlen, hsrc, hdst⟩)) (soft_loadBits c _ _) fun _ => rfl

/-- Settles O24: the branches of `s2hCmd_eq`; the stored bits are those of `hard_loadSoft`. -/
theorem s2hRule : Obligations.S2hRule := by
  intro s c n hc hn
  subst hn
  have hwork := s2hCmd_eq c
  refine ⟨fun hfit => .of_work hc (hwork.trans (if_neg hfit)), fun hlen hsrc hdst => ?_⟩
  refine .of_storeMap hc (hwork.trans (if_pos ⟨hlen, hsrc, hdst⟩)) (hard_loadSoft c _ _) fun j => ?_
  split <;> decide

/-- Settles O20: `nopCmd_eq`. -/
theorem nopRule : Obligations.NopRule := fun _ c hc => .of_work hc (nopCmd_eq c)

end Sys2Proof.Machine
end

section
/-! SUPPORT. The transforms behind the fixed-length channels (R155 to R165): rows of 114 i-bits in bursts of 116 cells, octets packed
and unpacked, the noise-free identity of the codes of the roles (R28), and from these the xCCH transform and its inverse. -/

namespace Sys2Proof.Machine

/-! ### Four rows and four bursts (R156, R157) -/

/-- Element `p` of block `b` of `n` blocks of width `w`. -/
theorem flatMap_range_getElem? {α : Type} {n w : Nat} {f : Nat → List α} (hf : ∀ b < n, (f b).length = w) {b p : Nat}
    (hb : b < n) (hp : p < w) : ((List.range n).flatMap f)[b * w + p]? = (f b)[p]? := by
  induction n generalizing f b with
  | zero => exact absurd hb (Nat.not_lt_zero b)
  | succ n ih =>
    rw [List.range_succ_eq_map, List.flatMap_cons, List.flatMap_map]
    have h0 : (f 0).length = w := hf 0 (Nat.succ_pos n)
    cases b with
    | zero => rw [Nat.zero_mul, Nat.zero_add, List.getElem?_append_left (h0 ▸ hp)]
    | succ b =>
      have hoff : (b + 1) * w + p - w = b * w + p := by rw [Nat.succ_mul]; omega
      rw [List.getElem?_append_right (by rw [h0, Nat.succ_mul]; omega), h0, hoff]
      exact ih (f := fun b => f (b + 1)) (fun i hi => hf (i + 1) (Nat.succ_lt_succ hi)) (Nat.lt_of_succ_lt_succ hb)

section
variable {α β : Type}

theorem burstAt_getElem? (area : List α) (b : Nat) {w p : Nat} (hp : p < w) : (burstAt area w b)[p]? = area[b * w + p]? := by
  rw [burstAt, List.getElem?_take_of_lt hp, List.getElem?_drop, Nat.mul_comm]

theorem burstAt_length {area : List α} {w b : Nat} (h : (b + 1) * w ≤ area.length) : (burstAt area w b).length = w := by
  rw [Nat.succ_mul, Nat.mul_comm] at h
  rw [burstAt, List.length_take, List.length_drop]
  omega

theorem row_length {iB : List α} (h : iB.length = 456) {b : Nat} (hb : b < 4) : (burstAt iB 114 b).length = 114 :=
  burstAt_length (by omega)

/-- Position `p` of burst `b` of four. -/
theorem mapFour_getElem? {iB : List α} (h : iB.length = 456) (hl hu : α) {b p : Nat} (hb : b < 4) (hp : p < 116) :
    (mapFour iB hl hu)[b * 116 + p]? = (mapBurst (burstAt iB 114 b) hl hu)[p]? :=
  flatMap_range_getElem? (fun _ hb => mapBurst_length (row_length h hb) hl hu) hb hp

/-- I-bit `j` of row `b` of four, found in the bursts. -/
theorem unmapFour_getElem? {area : List α} (h : area.length = 464) {b j : Nat} (hb : b < 4) (hj : j < 114) :
    (unmapFour area)[b * 114 + j]? = area[b * 116 + burstPos j]? := by
  have hburst : ∀ b < 4, (burstAt area burstWidth b).length = 116 := fun b hb => burstAt_length (by rw [burstWidth]; omega)
  rw [unmapFour, flatMap_range_getElem? (fun b hb => unmapBurst_length (hburst b hb)) hb hj, unmapBurst_getElem? (hburst b hb),
    burstAt_getElem? area b (burstPos_lt hj), burstWidth]

theorem unmapFour_length {area : List α} (h : area.length = 464) : (unmapFour area).length = 456 := by
  have hrow : ∀ b < 4, (unmapBurst (burstAt area burstWidth b)).length = 114 := fun b hb =>
    unmapBurst_length (burstAt_length (by rw [burstWidth]; omega))
  rw [unmapFour, List.length_flatMap, List.map_congr_left fun b hb => hrow b (List.mem_range.mp hb)]
  rfl

/-- The rows found in four bursts, in the order of the i-bits (R157). -/
theorem unmapFour_eq_map {area : List α} (h : area.length = 464) (e : α) :
    unmapFour area = (List.range 456).map fun q => area.getD (q / 114 * 116 + burstPos (q % 114)) e := by
  refine List.ext_getElem? fun q => ?_
  by_cases hq : q < 456
  · have hj : q % 114 < 114 := Nat.mod_lt q (by decide)
    have hpos := burstPos_lt hj
    have hsplit : q / 114 * 114 + q % 114 = q := by omega
    have hcell := unmapFour_getElem? h (b := q / 114) (by omega) hj
    rw [hsplit] at hcell
    rw [burstWidth] at hpos
    rw [hcell, List.getElem?_map, List.getElem?_range hq, Option.map_some, List.getD_eq_getElem _ _ (by omega),
      List.getElem?_eq_getElem]
  · rw [List.getElem?_eq_none (by rw [unmapFour_length h]; omega), List.getElem?_eq_none (by simp; omega)]

/-- Unmapping finds the rows that were mapped, whatever the flags. -/
theorem unmapFour_mapFour {iB : List α} (h : iB.length = 456) (hl hu : α) : unmapFour (mapFour iB hl hu) = iB := by
  have harea := mapFour_length h hl hu
  refine List.ext_getElem? fun q => ?_
  by_cases hq : q < 456
  · have hj : q % 114 < 114 := Nat.mod_lt q (by decide)
    have hb : q / 114 < 4 := by omega
    have hsplit : q / 114 * 114 + q % 114 = q := by omega
    rw [← hsplit, unmapFour_getElem? harea hb hj, mapFour_getElem? h hl hu hb (burstPos_lt hj),
      mapBurst_getElem?_burstPos (row_length h hb), burstAt_getElem? iB _ hj]
  · rw [List.getElem?_eq_none (by rw [unmapFour_length harea]; omega), List.getElem?_eq_none (by omega)]

theorem mapFour_map (f : α → β) (iB : List α) (hl hu : α) : (mapFour iB hl hu).map f = mapFour (iB.map f) (f hl) (f hu) := by
  simp only [mapFour, mapBurst, burstAt, List.map_flatMap, List.map_append, List.map_take, List.map_drop, List.map_cons,
    List.map_nil]

/-- The elements of four bursts: the i-bits at their positions, and the two flags of each. -/
theorem mapFour_getElem?_eq_some {iB : List α} (h : iB.length = 456) {hl hu v : α} {q : Nat} :
    (mapFour iB hl hu)[q]? = some v ↔
      ∃ b < 4, (∃ j < 114, q = b * 116 + burstPos j ∧ iB[b * 114 + j]? = some v)
        ∨ (q = b * 116 + 57 ∧ v = hl) ∨ (q = b * 116 + 58 ∧ v = hu) := by
  constructor
  · intro hv
    have hq : q < 464 := mapFour_length h hl hu ▸ (List.getElem?_eq_some_iff.mp hv).1
    have hb : q / 116 < 4 := by omega
    have hsplit : q = q / 116 * 116 + q % 116 := by omega
    rw [hsplit, mapFour_getElem? h hl hu hb (Nat.mod_lt q (by decide)), mapBurst_getElem?_eq_some (row_length h hb)] at hv
    refine ⟨q / 116, hb, ?_⟩
    rcases hv with ⟨j, hpos, hv⟩ | ⟨hpos, rfl⟩ | ⟨hpos, rfl⟩
    · have hj : j < 114 := row_length h hb ▸ (List.getElem?_eq_some_iff.mp hv).1
      exact .inl ⟨j, hj, hpos ▸ hsplit, (burstAt_getElem? iB _ hj).symm.trans hv⟩
    · exact .inr (.inl ⟨hpos ▸ hsplit, rfl⟩)
    · exact .inr (.inr ⟨hpos ▸ hsplit, rfl⟩)
  · rintro ⟨b, hb, ⟨j, hj, rfl, hv⟩ | ⟨rfl, rfl⟩ | ⟨rfl, rfl⟩⟩
    · rw [mapFour_getElem? h hl hu hb (burstPos_lt hj), mapBurst_getElem?_burstPos (row_length h hb), burstAt_getElem? iB b hj, hv]
    · rw [mapFour_getElem? h v hu hb (by decide)]
      exact (mapBurst_getElem?_flags (row_length h hb) v hu).1
    · rw [mapFour_getElem? h hl v hb (by decide)]
      exact (mapBurst_getElem?_flags (row_length h hb) hl v).2

end

/-- The eight flag cells of four bursts, in the order of the bits of `STEAL` (R17). -/
theorem gprsSfpos_eq_map : gprsSfpos = (List.range 8).map fun n => n / 2 * 116 + 57 + n % 2 := by decide

/-! ### Octets and bits (R43) -/

/-- The eight bits of octet `q` of a packed vector determine it. -/
theorem eq_packBits_getD_iff {u : List Bool} {q : Nat} (hq : 8 * q < u.length) {v : Byte} :
    v = (packBits false u).getD q 0#8 ↔ ∀ i < 8, v.getLsbD i = u.getD (8 * q + i) false := by
  have hoctet : (packBits false u).getD q 0#8 = packOctet false u q := by
    have hlt : q < octetsFor u.length := by unfold octetsFor; omega
    rw [packBits, List.getD_eq_getElem?_getD, List.getElem?_map, List.getElem?_range hlt, Option.map_some, Option.getD_some]
  rw [hoctet, eq_packOctet_iff]
  exact forall₂_congr fun i hi => by rw [bitPos_of_lt false hi]; rfl

theorem unpackBits_getD (o : List Byte) {n k : Nat} (hk : k < n) :
    (unpackBits false o n).getD k false = (o.getD (k / 8) 0#8).getLsbD (k % 8) := by
  rw [unpackBits, List.getD_eq_getElem?_getD, List.getElem?_map, List.getElem?_range hk]
  rfl

/-- Packing the bits of whole octets gives them back. -/
theorem packBits_unpackBits {o : List Byte} {m n : Nat} (ho : o.length = m) (hn : n = 8 * m) :
    packBits false (unpackBits false o n) = o := by
  have hlen : (packBits false (unpackBits false o n)).length = m := packBits_octets_length ((unpackBits_length _ _ _).trans hn)
  refine List.ext_getElem (hlen.trans ho.symm) fun q hq hq' => ?_
  have hbits : o[q] = (packBits false (unpackBits false o n)).getD q 0#8 :=
    (eq_packBits_getD_iff (by rw [unpackBits_length]; omega)).mpr fun i hi => by
      rw [unpackBits_getD o (by omega), Nat.mul_add_div (by decide), Nat.div_eq_of_lt hi, Nat.add_zero, Nat.mul_add_mod,
        Nat.mod_eq_of_lt hi, List.getD_eq_getElem _ _ hq']
  rw [hbits, List.getD_eq_getElem _ _ hq]

/-- The same of a vector packed from the first `n` bits of `d`. -/
theorem eq_packBits_take_getD_iff {d : List Bool} {n q : Nat} (hn : n ≤ d.length) (hq : 8 * q < n) {v : Byte} :
    v = (packBits false (d.take n)).getD q 0#8 ↔
      ∀ i < 8, v.getLsbD i = (decide (8 * q + i < n) && d.getD (8 * q + i) false) := by
  rw [eq_packBits_getD_iff (by rwa [List.length_take_of_le hn])]
  refine forall₂_congr fun i _ => ?_
  rw [List.getD_eq_getElem?_getD, List.getElem?_take]
  by_cases hi : 8 * q + i < n
  · rw [if_pos hi, decide_eq_true hi, Bool.true_and, List.getD_eq_getElem?_getD]
  · rw [if_neg hi, decide_eq_false hi, Bool.false_and, Option.getD_none]

/-! ### The roles (R28) -/

theorem roleConv_eq_some {d : Nat} (hd : d < 6) : givenConv[d]? = some (roleConv d) := by
  have hlt : d < givenConv.length := hd
  rw [roleConv, List.getD_eq_getElem _ _ hlt, List.getElem?_eq_getElem hlt]

theorem k5NextOut_differ : ∀ p ∈ k5NextOut, p.1 ≠ p.2 := by decide

theorem decodeStats_plain {c : ConvDesc} {y : List Int} {n : Nat} (hy : y.length = n) :
    decodeStats c y false = ((vit c y).1, (errstat c (vit c y).1 y false).1, n) := by
  subst hy
  rfl

/-- The ideal soft values of a code word of a role decode to its bits, with no error (R101 (c)). -/
theorem decodeStats_ideal {d : Nat} (hd : d < 6) {u : List Bool} (hu : u.length = (roleConv d).len) :
    decodeStats (roleConv d) ((convEnc (roleConv d) u false).map softOf) false = (u, 0, nfull (roleConv d)) := by
  have hgiven := roleConv_eq_some hd
  have hwf := List.all_eq_true.mp givenConv_wf _ (List.mem_of_getElem? hgiven)
  obtain ⟨len, punc, hk5⟩ := givenConv_eq_k5Desc hgiven
  rw [hk5] at hu hwf ⊢
  have hplain : convEnc (k5Desc len punc) u false = convFull (k5Desc len punc) u := rfl
  rw [hplain, decodeStats_plain ((List.length_map softOf).trans (convFull_length hu)), vit_noiseFree hwf rfl k5NextOut_differ hu,
    errstat_ideal hu]

/-! ### The xCCH transform (R158) -/

theorem xcchCoded_length (o : List Byte) : (xcchCoded o).length = 456 :=
  convEnc_plain_length (by rw [List.length_append, unpackBits_length, crcBits_length]; rfl)

theorem ilvCell_four_lt {k : Nat} (hk : k < 456) : ilvCell 4 k < 456 :=
  ilvCells_lt (var := false) (List.mem_of_getElem? (ilvCells_getElem?_eq_some.mpr ⟨hk, rfl⟩))

/-- The rows hold coded bit `k` at the place that the index function gives it. -/
theorem xcchEncode_getD (o : List Byte) {k : Nat} (hk : k < 456) :
    (xcchEncode o).getD (ilvCell 4 k) false = (xcchCoded o).getD k false :=
  scatter_zip_getD false ilvCells_four_nodup (fun _ hx => ilvCells_lt (var := false) hx) _
    (ilvCells_getElem?_eq_some.mpr ⟨hk, rfl⟩)

/-- Deinterleaving the ideal soft values of the rows gives those of the coded bits. -/
theorem gather_xcchEncode (o : List Byte) : gather ((xcchEncode o).map softOf) 0 (ilvCells 4) = (xcchCoded o).map softOf := by
  refine List.ext_getElem (by rw [gather_length, ilvCells_length, List.length_map, xcchCoded_length]) fun k hk hk' => ?_
  have hk456 : k < 456 := Nat.lt_of_lt_of_eq hk (by rw [gather_length, ilvCells_length])
  have hplace : ilvCell 4 k < (xcchEncode o).length :=
    Nat.lt_of_lt_of_eq (ilvCell_four_lt hk456) (xcchEncode_length o).symm
  have hbit := xcchEncode_getD o hk456
  rw [List.getD_eq_getElem _ _ hplace, List.getD_eq_getElem _ _ (by simpa using hk')] at hbit
  simp only [gather, ilvCells, List.getElem_map, List.getElem_range]
  rw [List.getD_eq_getElem _ _ (by rwa [List.length_map]), List.getElem_map, hbit]

theorem gather_ilvCells {α : Type} (v : List α) (e : α) (nb : Nat) :
    gather v e (ilvCells nb) = (List.range 456).map fun k => v.getD (ilvCell nb k) e := List.map_map

/-- A block with its parity passes the check that takes it apart. -/
theorem crcCheck_block {q : CrcDesc} {u par : List Bool} {n : Nat} (hn : u.length = n) (hpar : crcBits q u = par) :
    crcCheck q ((u ++ par).take n) ((u ++ par).drop n) = true := by
  rw [List.take_left' hn, List.drop_left' hn, crcCheck_iff, hpar]

/-- The ideal soft values of an xCCH block decode to it (R165 (a)). -/
theorem xcchDecode_ideal {o : List Byte} (ho : o.length = 23) :
    xcchDecode ((xcchEncode o).map softOf) = { ok := true, octets := o, ne := 0, nb := 456 } := by
  have hbits : (unpackBits false o 184).length = 184 := unpackBits_length _ _ _
  have hdec := decodeStats_ideal (d := xcchConv) (by decide)
    (u := unpackBits false o 184 ++ crcBits (roleCrc fireCrc) (unpackBits false o 184))
    (by rw [List.length_append, hbits, crcBits_length]; rfl)
  rw [xcchDecode, gather_xcchEncode, xcchDecodeCoded, xcchCoded, hdec]
  dsimp only
  rw [crcCheck_block hbits rfl, List.take_left' hbits, packBits_unpackBits ho rfl]
  rfl

end Sys2Proof.Machine
end

section
/-! SUPPORT. The fixed-length channel commands (R155 to R165): what the three encoders store and how the three decoders end, each said
once in the words of the model, and from these the rule of each command. -/

namespace Sys2Proof.Machine

/-! ### Encoders and decoders in general -/

/-- A command that stores the `n` bits `u` at offset `a`. -/
theorem EndsStoring.of_storeBits {i : Instr} {s : State} {c : CoreInst} {r : Results} {a n : Nat} {u : List Bool} {st : Stage}
    (hc : s.cur? = some c) (hw : work s.params.rom i c = (c.storeBits a u).ended r st) (hlen : u.length = n) :
    EndsStoring i s c r .hb fun k v => ∃ j < n, k = a + j ∧ v = bitByte (u.getD j false) :=
  .of_work hc hw ((storesExactly_storeBits c a u).congr fun _ _ => vec_bits hlen)

/-- How a decoder with one check ends: `n` octets stored where it passes, nothing stored where it fails, and the statistics reported
in either case. -/
def EndsChecked (i : Instr) (s : State) (c : CoreInst) (okStatus failStatus rlen : Word) (ok : Bool) (o : List Byte) (n ne nb : Nat)
    (steal : Word) : Prop :=
  (ok = true → EndsStoring i s c (checkedResults okStatus failStatus rlen true ne nb steal) .ob fun k v =>
    ∃ q < n, k = c.a1.toNat + q ∧ v = o.getD q 0#8)
  ∧ (ok = false → Ends i s c (checkedResults okStatus failStatus rlen false ne nb steal))

theorem EndsChecked.of_work {i : Instr} {s : State} {c : CoreInst} {okStatus failStatus rlen steal : Word} {ok : Bool} {o : List Byte}
    {n ne nb : Nat} (hc : s.cur? = some c)
    (hw : work s.params.rom i c =
      if ok then (c.storeVec .ob c.a1.toNat o).ended (checkedResults okStatus failStatus rlen ok ne nb steal) .s13
      else c.ended (checkedResults okStatus failStatus rlen ok ne nb steal) .s12)
    (hlen : o.length = n) : EndsChecked i s c okStatus failStatus rlen ok o n ne nb steal := by
  refine ⟨fun hok => ?_, fun hok => ?_⟩
  · subst hok
    exact .of_storeVec hc (hw.trans (if_pos rfl)) (fun _ _ => rfl) hlen
  · subst hok
    exact .of_work hc (hw.trans (if_neg nofun))

/-- `SB` as the decoders read it. -/
theorem loadSoft_getD (c : CoreInst) (a : Nat) {len j : Nat} (hj : j < len) (e : Int) :
    (c.loadSoft a len).getD j e = (c.cell .sb (a + j)).toInt := by
  rw [c.loadSoft_eq, List.getD_eq_getElem?_getD, List.getElem?_map, List.getElem?_range hj]
  rfl

/-- Going through the places of a vector of `n` bits is going through its elements. -/
theorem exists_getD_iff {l : List Bool} {n : Nat} (hl : l.length = n) {p : Nat → Bool → Prop} :
    (∃ j < n, p j (l.getD j false)) ↔ ∃ j x, l[j]? = some x ∧ p j x := by
  subst hl
  constructor
  · rintro ⟨j, hj, hp⟩
    exact ⟨j, l[j], List.getElem?_eq_getElem hj, List.getD_eq_getElem l false hj ▸ hp⟩
  · rintro ⟨j, x, hx, hp⟩
    obtain ⟨hj, rfl⟩ := List.getElem?_eq_some_iff.mp hx
    exact ⟨j, hj, (List.getD_eq_getElem l false hj).symm ▸ hp⟩

/-! ### xCCH (R156, R157) -/

/-- The cells of four bursts of hard bits stored at `a`, both flags of every burst 1. -/
theorem exists_mapFour_bits {iB : List Bool} (h : iB.length = 456) {a k : Nat} {v : Byte} :
    (∃ q < 464, k = a + q ∧ v = bitByte ((mapFour iB true true).getD q false)) ↔
      ∃ B < 4, (∃ j < 114, k = a + (B * 116 + if j < 57 then j else j + 2) ∧ v = bitByte (iB.getD (B * 114 + j) false))
        ∨ ((k = a + (B * 116 + 57) ∨ k = a + (B * 116 + 58)) ∧ v = 1#8) := by
  rw [exists_getD_iff (p := fun q x => k = a + q ∧ v = bitByte x) (mapFour_length h true true)]
  simp only [mapFour_getElem?_eq_some h, ← burstPos_eq]
  constructor
  · rintro ⟨q, x, ⟨B, hB, ⟨j, hj, rfl, hx⟩ | ⟨rfl, rfl⟩ | ⟨rfl, rfl⟩⟩, rfl, rfl⟩
    · exact ⟨B, hB, .inl ⟨j, hj, rfl, by rw [List.getD_eq_getElem?_getD, hx, Option.getD_some]⟩⟩
    · exact ⟨B, hB, .inr ⟨.inl rfl, rfl⟩⟩
    · exact ⟨B, hB, .inr ⟨.inr rfl, rfl⟩⟩
  · rintro ⟨B, hB, ⟨j, hj, rfl, rfl⟩ | ⟨rfl | rfl, rfl⟩⟩
    · have hcell : B * 114 + j < iB.length := by omega
      refine ⟨_, _, ⟨B, hB, .inl ⟨j, hj, rfl, List.getElem?_eq_getElem hcell⟩⟩, rfl, ?_⟩
      rw [List.getD_eq_getElem _ _ hcell]
    · exact ⟨_, true, ⟨B, hB, .inr (.inl ⟨rfl, rfl⟩)⟩, rfl, rfl⟩
    · exact ⟨_, true, ⟨B, hB, .inr (.inr ⟨rfl, rfl⟩)⟩, rfl, rfl⟩

theorem xcchEnc_endsStoring {s : State} {c : CoreInst} (hc : s.cur? = some c) (hsrc : Fits c.a0 23 .ob) (hdst : Fits c.a1 464 .hb) :
    EndsStoring .xcchEnc s c { status := 0x0020D100#32, rlen := 464#32 } .hb fun k v =>
      ∃ j < 464, k = c.a1.toNat + j
        ∧ v = bitByte ((mapFour (xcchEncode (c.load .ob c.a0.toNat 23)) true true).getD j false) :=
  .of_storeBits hc ((xcchEncCmd_eq c).trans (if_pos ⟨hsrc, hdst⟩)) (mapFour_length (xcchEncode_length _) _ _)

theorem xcchDecode_octets_length (iB : List Int) : (xcchDecode iB).octets.length = 23 := by
  refine packBits_octets_length ?_
  rw [List.length_take, decodeStats_length]
  rfl

/-- The decode in the words of R158. -/
theorem xcchDecodeCoded_eq (cB : List Int) :
    xcchDecodeCoded cB =
      let d := (vit (roleConv xcchConv) cB).1
      { ok := crcCheck (roleCrc fireCrc) (d.take 184) (d.drop 184), octets := packBits false (d.take 184)
        ne := (errstat (roleConv xcchConv) d cB false).1, nb := cB.length } := by
  simp only [xcchDecodeCoded, decodeStats_plain (y := cB) rfl]

theorem xcchDecode_nb (iB : List Int) : (xcchDecode iB).nb = 456 := by
  rw [xcchDecode, xcchDecodeCoded_eq, gather_length, ilvCells_length]

theorem xcchDec_endsChecked {s : State} {c : CoreInst} (hc : s.cur? = some c) (hsrc : Fits c.a0 464 .sb) (hdst : Fits c.a1 23 .ob)
    {area : List Int} (harea : c.loadSoft c.a0.toNat 464 = area) {r : XcchResult} (hr : xcchDecode (unmapFour area) = r) :
    EndsChecked .xcchDec s c 0x0021D100#32 0x0021C301#32 23#32 r.ok r.octets 23 r.ne r.nb (stealHard (fourBurstFlags area)) := by
  subst harea hr
  exact .of_work hc ((xcchDecCmd_eq c).trans (if_pos ⟨hsrc, hdst⟩)) (xcchDecode_octets_length _)

/-- The flags of four bursts in `SB` (R17). -/
theorem fourBurstFlags_loadSoft (c : CoreInst) (a : Nat) :
    fourBurstFlags (c.loadSoft a 464)
      = (List.range 8).map fun n => decide ((c.cell .sb (a + (n / 2 * 116 + 57 + n % 2))).toInt < 0) := by
  rw [fourBurstFlags, gprsSfpos_eq_map, gather, List.map_map, List.map_map]
  refine List.map_congr_left fun n hn => ?_
  have hn8 := List.mem_range.mp hn
  simp only [Function.comp_apply, loadSoft_getD c a (show n / 2 * 116 + 57 + n % 2 < 464 by omega), hardOf]

/-- The rows of four bursts in `SB` (R157). -/
theorem unmapFour_loadSoft (c : CoreInst) (a : Nat) :
    unmapFour (c.loadSoft a 464)
      = (List.range 456).map fun q =>
          (c.cell .sb (a + (q / 114 * 116 + if q % 114 < 57 then q % 114 else q % 114 + 2))).toInt := by
  rw [unmapFour_eq_map (c.loadSoft_length a 464) 0]
  refine List.map_congr_left fun q hq => ?_
  have hq456 := List.mem_range.mp hq
  have hpos := burstPos_lt (Nat.mod_lt q (show 0 < 114 by decide))
  rw [burstWidth] at hpos
  rw [loadSoft_getD c a (by omega), burstPos_eq]

/-! ### RACH (R160, R161) -/

/-- The bits of one octet. -/
theorem unpackBits_load_octet (c : CoreInst) (a : Nat) :
    unpackBits false (c.load .ob a 1) 8 = (List.range 8).map fun k => (c.cell .ob a).getLsbD k := by
  refine (unpackBits_load false c a 8).trans (List.map_congr_left fun k hk => ?_)
  have hk8 := List.mem_range.mp hk
  rw [Nat.div_eq_of_lt hk8, Nat.add_zero, bitPos_of_lt false hk8]
  rfl

theorem bsicXor_eq_map (bsic : Word) {par : List Bool} (h : par.length = 6) :
    bsicXor bsic par = (List.range 6).map fun i => par.getD i false ^^ bsic.getLsbD (5 - i) := by
  refine List.ext_getElem (by simp [bsicXor, h]) fun i hi _ => ?_
  have hpar : i < par.length := by simpa [bsicXor] using hi
  simp only [bsicXor, List.getElem_mapIdx, List.getElem_map, List.getElem_range, List.getD_eq_getElem _ _ hpar, bsicBit]

/-- The BSIC folded in twice is folded out (R162). -/
theorem bsicXor_bsicXor (bsic : Word) (par : List Bool) : bsicXor bsic (bsicXor bsic par) = par := by
  refine List.ext_getElem (by simp [bsicXor]) fun i _ _ => ?_
  simp only [bsicXor, List.getElem_mapIdx]
  cases bsicBit bsic i <;> simp

@[simp] theorem bsicXor_length (bsic : Word) (par : List Bool) : (bsicXor bsic par).length = par.length := List.length_mapIdx

/-- The eight information bits of an access burst and its parity with the BSIC folded in (R160). -/
def rachBlock (bsic : Word) (o : List Byte) : List Bool :=
  unpackBits false o 8 ++ bsicXor bsic (crcBits (roleCrc rachCrc) (unpackBits false o 8))

theorem rachBlock_length (bsic : Word) (o : List Byte) : (rachBlock bsic o).length = 14 := by
  rw [rachBlock, List.length_append, unpackBits_length, bsicXor_length, crcBits_length]
  rfl

theorem rachEnc_endsStoring {s : State} {c : CoreInst} (hc : s.cur? = some c) (hsrc : Fits c.a0 1 .ob) (hdst : Fits c.a1 36 .hb) :
    EndsStoring .rachEnc s c { status := 0x0022D100#32, rlen := 36#32 } .hb fun k v =>
      ∃ j < 36, k = c.a1.toNat + j
        ∧ v = bitByte ((convEnc (roleConv rachConv) (rachBlock c.bsic (c.load .ob c.a0.toNat 1)) false).getD j false) :=
  .of_storeBits hc ((rachEncCmd_eq c).trans (if_pos ⟨hsrc, hdst⟩)) (convEnc_plain_length (rachBlock_length _ _))

theorem rachDec_endsChecked {s : State} {c : CoreInst} (hc : s.cur? = some c) (hsrc : Fits c.a0 36 .sb) (hdst : Fits c.a1 1 .ob)
    {y : List Int} (hy : c.loadSoft c.a0.toNat 36 = y) {d : List Bool} {ne nb : Nat}
    (hdec : decodeStats (roleConv rachConv) y false = (d, ne, nb)) :
    EndsChecked .rachDec s c 0x0023D100#32 0x0023C301#32 1#32 (crcCheck (roleCrc rachCrc) (d.take 8) (bsicXor c.bsic (d.drop 8)))
      (packBits false (d.take 8)) 1 ne nb 0#32 := by
  have hd : d.length = 14 := (congrArg (fun r => r.1.length) hdec).symm.trans (decodeStats_length _ _ _)
  have hwork := (rachDecCmd_eq c).trans (if_pos ⟨hsrc, hdst⟩)
  rw [hy, hdec] at hwork
  exact .of_work hc hwork (packBits_octets_length (by rw [List.length_take, hd]; rfl))

/-! ### SCH (R163, R164) -/

/-- The 25 information bits of a synchronization burst and their parity (R163). -/
def schBlock (o : List Byte) : List Bool := unpackBits false o 25 ++ crcBits (roleCrc schCrc) (unpackBits false o 25)

theorem schBlock_length (o : List Byte) : (schBlock o).length = 35 := by
  rw [schBlock, List.length_append, unpackBits_length, crcBits_length]
  rfl

theorem schEnc_endsStoring {s : State} {c : CoreInst} (hc : s.cur? = some c) (hsrc : Fits c.a0 4 .ob) (hdst : Fits c.a1 78 .hb) :
    EndsStoring .schEnc s c { status := 0x0024D100#32, rlen := 78#32 } .hb fun k v =>
      ∃ j < 78, k = c.a1.toNat + j
        ∧ v = bitByte ((convEnc (roleConv schConv) (schBlock (c.load .ob c.a0.toNat 4)) false).getD j false) :=
  .of_storeBits hc ((schEncCmd_eq c).trans (if_pos ⟨hsrc, hdst⟩)) (convEnc_plain_length (schBlock_length _))

theorem schDec_endsChecked {s : State} {c : CoreInst} (hc : s.cur? = some c) (hsrc : Fits c.a0 78 .sb) (hdst : Fits c.a1 4 .ob)
    {y : List Int} (hy : c.loadSoft c.a0.toNat 78 = y) {d : List Bool} {ne nb : Nat}
    (hdec : decodeStats (roleConv schConv) y false = (d, ne, nb)) :
    EndsChecked .schDec s c 0x0025D100#32 0x0025C301#32 4#32 (crcCheck (roleCrc schCrc) (d.take 25) (d.drop 25))
      (packBits false (d.take 25)) 4 ne nb 0#32 := by
  have hd : d.length = 35 := (congrArg (fun r => r.1.length) hdec).symm.trans (decodeStats_length _ _ _)
  have hwork := (schDecCmd_eq c).trans (if_pos ⟨hsrc, hdst⟩)
  rw [hy, hdec] at hwork
  refine .of_work hc hwork ?_
  rw [packBits_length, List.length_take, hd]
  rfl

/-! ### The obligations -/

/-- Settles O44: the encoder by `xcchEncode_getD`, the decoder by `gather_ilvCells`. -/
theorem xcchTransform : Obligations.XcchTransform := by
  refine ⟨fun o _ => ⟨xcchCoded_length o, rfl, xcchEncode_length o, fun k hk => xcchEncode_getD o hk⟩, fun iB _ => ?_⟩
  have hrows := congrArg xcchDecodeCoded (gather_ilvCells iB 0 4)
  refine ⟨hrows, hrows.trans ?_⟩
  rw [xcchDecodeCoded_eq, List.length_map, List.length_range]
  rfl

/-- Settles O45: the cells of `xcchEnc_endsStoring` are those of four bursts (`mapFour_getElem?_eq_some`). -/
theorem xcchEncRule : Obligations.XcchEncRule := by
  intro s c hc
  refine ⟨fun hfit => .of_work hc ((xcchEncCmd_eq c).trans (if_neg hfit)), fun hsrc hdst => ?_⟩
  refine (xcchEnc_endsStoring hc hsrc hdst).congr fun k v => ?_
  exact exists_mapFour_bits (xcchEncode_length _)

/-- Settles O46: `xcchDec_endsChecked`, with the rows and the flags read from `SB`. -/
theorem xcchDecRule : Obligations.XcchDecRule := by
  intro s c hc
  refine ⟨fun hfit => .of_work hc ((xcchDecCmd_eq c).trans (if_neg hfit)), fun hsrc hdst => ?_⟩
  have hends := xcchDec_endsChecked hc hsrc hdst rfl rfl
  rw [xcchDecode_nb, unmapFour_loadSoft, fourBurstFlags_loadSoft] at hends
  exact hends

/-- Settles O47: `rachEnc_endsStoring`, with the BSIC folded in by `bsicXor_eq_map`. -/
theorem rachEncRule : Obligations.RachEncRule := by
  intro s c hc
  refine ⟨fun hfit => .of_work hc ((rachEncCmd_eq c).trans (if_neg hfit)), fun hsrc hdst => ?_⟩
  have hends := rachEnc_endsStoring hc hsrc hdst
  rw [rachBlock, bsicXor_eq_map _ (crcBits_length _ _), unpackBits_load_octet] at hends
  exact hends

/-- Settles O48: `rachDec_endsChecked`, with the BSIC folded out by `bsicXor_eq_map` and the octet given by its eight bits. -/
theorem rachDecRule : Obligations.RachDecRule := by
  intro s c hc
  refine ⟨fun hfit => .of_work hc ((rachDecCmd_eq c).trans (if_neg hfit)), fun hsrc hdst => ?_⟩
  intro y d par ne
  have hload : c.loadSoft c.a0.toNat 36 = y := c.loadSoft_eq _ _
  have hlen : y.length = 36 := hload ▸ c.loadSoft_length _ _
  have hd : d.length = 14 := decodeStats_length (roleConv rachConv) y false
  have hpar : bsicXor c.bsic (d.drop 8) = par := by
    rw [bsicXor_eq_map _ (by rw [List.length_drop, hd])]
    exact List.map_congr_left fun i _ => by
      rw [List.getD_eq_getElem?_getD, List.getElem?_drop, ← List.getD_eq_getElem?_getD]
  obtain ⟨hpass, hfail⟩ := rachDec_endsChecked hc hsrc hdst hload (decodeStats_plain hlen)
  rw [← hpar]
  refine ⟨fun hok => (hpass (crcCheck_iff.mpr hok)).congr fun k v => ?_, fun hok => hfail (crcCheck_eq_false_iff.mpr hok)⟩
  simp only [Nat.lt_one_iff, exists_eq_left, Nat.add_zero]
  refine and_congr_right fun _ => (eq_packBits_take_getD_iff (d := d) (by omega) (by decide)).trans ?_
  exact forall₂_congr fun i hi => by rw [Nat.mul_zero, Nat.zero_add, decide_eq_true hi, Bool.true_and]

/-- Settles O49: `schEnc_endsStoring`, with the 25 bits read from `OB`. -/
theorem schEncRule : Obligations.SchEncRule := by
  intro s c hc
  refine ⟨fun hfit => .of_work hc ((schEncCmd_eq c).trans (if_neg hfit)), fun hsrc hdst => ?_⟩
  have hends := schEnc_endsStoring hc hsrc hdst
  have hbits : unpackBits false (c.load .ob c.a0.toNat 4) 25 = _ := unpackBits_load false c _ 25
  rw [schBlock, hbits] at hends
  exact hends

/-- Settles O50: `schDec_endsChecked`, each octet given by its eight bits. -/
theorem schDecRule : Obligations.SchDecRule := by
  intro s c hc
  refine ⟨fun hfit => .of_work hc ((schDecCmd_eq c).trans (if_neg hfit)), fun hsrc hdst => ?_⟩
  intro y d ne
  have hload : c.loadSoft c.a0.toNat 78 = y := c.loadSoft_eq _ _
  have hlen : y.length = 78 := hload ▸ c.loadSoft_length _ _
  have hd : d.length = 35 := decodeStats_length (roleConv schConv) y false
  have hpar : d.drop 25 = (d.drop 25).take 10 := (List.take_of_length_le (by rw [List.length_drop, hd])).symm
  obtain ⟨hpass, hfail⟩ := schDec_endsChecked hc hsrc hdst hload (decodeStats_plain hlen)
  rw [← hpar]
  refine ⟨fun hok => (hpass (crcCheck_iff.mpr hok)).congr fun k v => ?_, fun hok => hfail (crcCheck_eq_false_iff.mpr hok)⟩
  refine exists_congr fun q => and_congr_right fun hq => and_congr_right fun _ => ?_
  exact eq_packBits_take_getD_iff (d := d) (by omega) (by omega)

end Sys2Proof.Machine
end

section
/-! SUPPORT. The round trips of the fixed-length channels (R165 (a)): what an encoder stores, `H2S` turns into the ideal soft values of the
same bits, and of these each decoder finds the block again. -/

namespace Sys2Proof.Machine

/-! ### One command after another -/

/-- What a storing command leaves where it ran: its results, the stored cells, and of the registers that the host writes those that
the next command of a round trip reads. -/
theorem EndsStoring.outcome {i : Instr} {s t : State} {c : CoreInst} {r : Results} {b : Buf} {stored : Nat → Byte → Prop}
    (h : EndsStoring i s c r b stored) (hc : s.cur? = some c) (ht : exec i s = .next t) :
    ∃ d, t.cur? = some d ∧ d.results = r ∧ d.a1 = c.a1 ∧ d.bsic = c.bsic ∧ ∀ k v, stored k v → d.cell b k = v := by
  obtain ⟨m, st, hexec, hstored, -⟩ := h
  obtain rfl : s.putActive ((c.setMem b m).ended r st) = t := Host.Outcome.next.inj (hexec.symm.trans ht)
  refine ⟨_, State.cur?_putActive hc _, rfl, ?_, ?_, fun k v hkv => (CoreInst.cell_ended _ r st b k).trans (hstored k v hkv)⟩
  · cases b <;> rfl
  · cases b <;> rfl

theorem cell_h2s_bit (b : Bool) : (if bitByte b = 1#8 then 0x81#8 else 0x7F#8 : Byte).toInt = softOf b := by
  cases b <;> decide

/-- `H2S` of the bits that a command has stored leaves their ideal soft values in `SB`. -/
theorem h2s_of_encoded {i : Instr} {s t u : State} {c : CoreInst} {r : Results} {n : Nat} {l : List Bool} {a0 w : Word}
    (henc : EndsStoring i s c r .hb fun k v => ∃ j < n, k = c.a1.toNat + j ∧ v = bitByte (l.getD j false))
    (hl : l.length = n) (hw : w.toNat = n) (hn : n ≤ vmax) (hc : s.cur? = some c) (ht : exec i s = .next t)
    (hsrc : Fits c.a1 n .hb) (hdst : Fits a0 n .sb)
    (hu : exec .h2s (t.onActive fun e => { e with a0 := e.a1, a1 := a0, a2 := w }) = .next u) :
    ∃ f, u.cur? = some f ∧ f.bsic = c.bsic ∧ f.loadSoft a0.toNat n = l.map softOf := by
  obtain ⟨e, he, -, ha1, hbsic, hbits⟩ := henc.outcome hc ht
  have he' := State.cur?_onActive he fun e => { e with a0 := e.a1, a1 := a0, a2 := w }
  obtain ⟨-, hh2s⟩ := h2sRule _ _ n he' hw.symm
  obtain ⟨f, hf, -, -, hbsic', hsoft⟩ := (hh2s hn (ha1 ▸ hsrc) hdst).outcome he' hu
  refine ⟨f, hf, hbsic'.trans hbsic, ?_⟩
  refine List.ext_getElem (by rw [f.loadSoft_length, List.length_map, hl]) fun j hj hj' => ?_
  have hjn : j < n := Nat.lt_of_lt_of_eq hj (f.loadSoft_length _ _)
  have hjl : j < l.length := hl ▸ hjn
  have hbit : e.cell .hb (e.a1.toNat + j) = bitByte l[j] :=
    hbits _ _ ⟨j, hjn, by rw [ha1], by rw [List.getD_eq_getElem _ _ hjl]⟩
  have hcell := hsoft _ _ ⟨j, hjn, rfl, rfl⟩
  have hload := loadSoft_getD f a0.toNat hjn 0
  rw [List.getD_eq_getElem _ _ hj] at hload
  rw [hload, hcell, List.getElem_map, ← cell_h2s_bit, ← hbit]
  rfl

/-- What a decoder whose check passes leaves where it ran. -/
theorem EndsChecked.outcome {i : Instr} {s t : State} {c d : CoreInst} {okStatus failStatus rlen steal : Word} {ok : Bool}
    {o : List Byte} {n ne nb : Nat} (h : EndsChecked i s c okStatus failStatus rlen ok o n ne nb steal) (hok : ok = true)
    (hc : s.cur? = some c) (ht : exec i s = .next t) (hd : t.cur? = some d) :
    d.status = okStatus ∧ d.nerr = BitVec.ofNat 32 ne ∧ ∀ q < n, d.cell .ob (c.a1.toNat + q) = o.getD q 0#8 := by
  obtain ⟨d', hd', hres, -, -, hcells⟩ := (h.1 hok).outcome hc ht
  obtain rfl : d' = d := Option.some.inj (hd'.symm.trans hd)
  exact ⟨congrArg Results.status hres, congrArg Results.nerr hres, fun q hq => hcells _ _ ⟨q, hq, rfl, rfl⟩⟩

section
variable {s t u v : State} {c d : CoreInst} {a0 a1 : Word} (hc : s.cur? = some c)
include hc

theorem xcch_roundTrip (ht : exec .xcchEnc s = .next t) (hsrc : Fits c.a0 23 .ob) (hmid : Fits c.a1 464 .hb)
    (hsoft : Fits a0 464 .sb) (hdst : Fits a1 23 .ob)
    (hu : exec .h2s (t.onActive fun e => { e with a0 := e.a1, a1 := a0, a2 := 464#32 }) = .next u)
    (hv : exec .xcchDec (u.onActive fun e => { e with a0 := a0, a1 := a1 }) = .next v) (hd : v.cur? = some d) :
    d.status = 0x0021D100#32 ∧ d.nerr = 0#32 ∧ ∀ k < 23, d.cell .ob (a1.toNat + k) = c.cell .ob (c.a0.toNat + k) := by
  have hrows := xcchEncode_length (c.load .ob c.a0.toNat 23)
  obtain ⟨f, hf, -, harea⟩ := h2s_of_encoded (xcchEnc_endsStoring hc hsrc hmid) (mapFour_length hrows _ _) rfl (by decide) hc ht hmid
    hsoft hu
  have hf' := State.cur?_onActive hf fun e => { e with a0 := a0, a1 := a1 }
  have hdec := xcchDecode_ideal (c.load_length .ob c.a0.toNat 23)
  rw [← unmapFour_mapFour ((List.length_map softOf).trans hrows) (softOf true) (softOf true), ← mapFour_map] at hdec
  obtain ⟨hstatus, hnerr, hcells⟩ := (xcchDec_endsChecked hf' hsoft hdst harea hdec).outcome rfl hf' hv hd
  exact ⟨hstatus, hnerr, fun k hk => (hcells k hk).trans (load_getD c .ob _ hk _)⟩

theorem rach_roundTrip (ht : exec .rachEnc s = .next t) (hsrc : Fits c.a0 1 .ob) (hmid : Fits c.a1 36 .hb)
    (hsoft : Fits a0 36 .sb) (hdst : Fits a1 1 .ob)
    (hu : exec .h2s (t.onActive fun e => { e with a0 := e.a1, a1 := a0, a2 := 36#32 }) = .next u)
    (hv : exec .rachDec (u.onActive fun e => { e with a0 := a0, a1 := a1 }) = .next v) (hd : v.cur? = some d) :
    d.status = 0x0023D100#32 ∧ d.nerr = 0#32 ∧ d.cell .ob a1.toNat = c.cell .ob c.a0.toNat := by
  have hlen := rachBlock_length c.bsic (c.load .ob c.a0.toNat 1)
  obtain ⟨f, hf, hbsic, hy⟩ := h2s_of_encoded (rachEnc_endsStoring hc hsrc hmid) (convEnc_plain_length hlen) rfl (by decide) hc ht hmid
    hsoft hu
  have hf' := State.cur?_onActive hf fun e => { e with a0 := a0, a1 := a1 }
  have hbits : (unpackBits false (c.load .ob c.a0.toNat 1) 8).length = 8 := unpackBits_length _ _ _
  have hends := rachDec_endsChecked hf' hsoft hdst hy (decodeStats_ideal (by decide) hlen)
  have hok : crcCheck (roleCrc rachCrc) ((rachBlock c.bsic (c.load .ob c.a0.toNat 1)).take 8)
      (bsicXor f.bsic ((rachBlock c.bsic (c.load .ob c.a0.toNat 1)).drop 8)) = true := by
    rw [rachBlock, hbsic, List.take_left' hbits, List.drop_left' hbits, bsicXor_bsicXor, crcCheck_iff]
  obtain ⟨hstatus, hnerr, hcells⟩ := hends.outcome hok hf' hv hd
  refine ⟨hstatus, hnerr, (hcells 0 (by decide)).trans ?_⟩
  rw [rachBlock, List.take_left' hbits, packBits_unpackBits (c.load_length .ob _ 1) rfl, load_getD c .ob _ (by decide)]
  rfl

theorem sch_roundTrip (ht : exec .schEnc s = .next t) (hsrc : Fits c.a0 4 .ob) (hmid : Fits c.a1 78 .hb)
    (hsoft : Fits a0 78 .sb) (hdst : Fits a1 4 .ob)
    (hu : exec .h2s (t.onActive fun e => { e with a0 := e.a1, a1 := a0, a2 := 78#32 }) = .next u)
    (hv : exec .schDec (u.onActive fun e => { e with a0 := a0, a1 := a1 }) = .next v) (hd : v.cur? = some d) :
    d.status = 0x0025D100#32 ∧ d.nerr = 0#32
      ∧ ∀ k < 25, (d.cell .ob (a1.toNat + k / 8)).getLsbD (k % 8) = (c.cell .ob (c.a0.toNat + k / 8)).getLsbD (k % 8) := by
  have hlen := schBlock_length (c.load .ob c.a0.toNat 4)
  obtain ⟨f, hf, -, hy⟩ := h2s_of_encoded (schEnc_endsStoring hc hsrc hmid) (convEnc_plain_length hlen) rfl (by decide) hc ht hmid
    hsoft hu
  have hf' := State.cur?_onActive hf fun e => { e with a0 := a0, a1 := a1 }
  have hbits : (unpackBits false (c.load .ob c.a0.toNat 4) 25).length = 25 := unpackBits_length _ _ _
  have hends := schDec_endsChecked hf' hsoft hdst hy (decodeStats_ideal (by decide) hlen)
  obtain ⟨hstatus, hnerr, hcells⟩ := hends.outcome (crcCheck_block hbits rfl) hf' hv hd
  refine ⟨hstatus, hnerr, fun k hk => ?_⟩
  rw [schBlock, List.take_left' hbits] at hcells
  calc (d.cell .ob (a1.toNat + k / 8)).getLsbD (k % 8)
    _ = ((packBits false (unpackBits false (c.load .ob c.a0.toNat 4) 25)).getD (k / 8) 0#8).getLsbD (k % 8) :=
      congrArg (·.getLsbD (k % 8)) (hcells (k / 8) (by omega))
    _ = ((c.load .ob c.a0.toNat 4).getD (k / 8) 0#8).getLsbD (k % 8) := (packBits_bit _ k).trans (unpackBits_getD _ hk)
    _ = (c.cell .ob (c.a0.toNat + k / 8)).getLsbD (k % 8) := by rw [load_getD c .ob _ (by omega)]

end

/-- Settles O51: `xcchDecode_ideal`, and the three round trips of commands. -/
theorem fixedChannelRoundTrips : Obligations.FixedChannelRoundTrips :=
  ⟨fun _ => xcchDecode_ideal, fun _ _ _ _ _ _ _ _ => xcch_roundTrip, fun _ _ _ _ _ _ _ _ => rach_roundTrip,
    fun _ _ _ _ _ _ _ _ => sch_roundTrip⟩

end Sys2Proof.Machine
end

section
/-! SUPPORT. What every step answers and what either reset leaves (R216, R236, R245), and the outcome that a command reports: its
`STATUS` names its opcode, and a code that the table of R222 allows it. -/

namespace Sys2Proof.Machine

/-! ### Both resets (R236) -/

/-- What the registers read after a reset. -/
theorem regRead_coreReset (index epoch off : Nat) :
    regRead (coreReset index epoch) off = if off = 0x00 then idValue else if off = 0x40 then pdcfgReset else 0#32 := by
  by_cases hid : off = 0x00
  · subst hid
    rfl
  · by_cases hpdcfg : off = 0x40
    · subst hpdcfg
      rfl
    · rw [if_neg hid, if_neg hpdcfg]
      simp only [regRead, coreReset, if_neg (show ¬off = offId from hid), if_neg (show ¬off = offPdcfg from hpdcfg), ite_self]

/-- A register read sees no buffer. -/
theorem regRead_resetRegs (c : CoreInst) (off : Nat) : regRead c.resetRegs off = regRead (coreReset c.index c.epoch) off := rfl

theorem step_powerOn {s : State} {rest : List BusEvent} (h : s.pending = .powerOn :: rest) :
    step s = .next { s with pending := rest }.powerOn := step_eq_finish h

theorem State.mem_powerOn_insts {s : State} {c : CoreInst} (h : c ∈ s.powerOn.insts) : ∃ i, c = coreReset i (s.epoch + 1) := by
  obtain ⟨i, hi, rfl⟩ := List.mem_mapIdx.mp h
  exact ⟨i, rfl⟩

/-! ### The outcome that a command reports (R217, R222) -/

/-- `STATUS` reports the command `i`: its opcode, `DONE`, a code that R222 allows it, `CRCF` exactly for `E_CRC`. -/
def reports (i : Instr) (w : Word) : Bool :=
  statusOpc w == i.opcode && w.getLsbD 8 && getField w 24 8 == 0 && (allowedCodes i).any (fun k => statusCode w == codeNum k)
    && w.getLsbD 9 == decide (statusCode w = 0x01)

theorem reports_iff {i : Instr} {w : Word} :
    reports i w = true ↔ statusOpc w = i.opcode ∧ w.getLsbD 8 = true ∧ getField w 24 8 = 0
      ∧ (∃ k ∈ allowedCodes i, statusCode w = codeNum k) ∧ w.getLsbD 9 = decide (statusCode w = 0x01) := by
  simp only [reports, Bool.and_eq_true, beq_iff_eq, List.any_eq_true, and_assoc]

section
variable {i : Instr} {rom : Rom} {c : CoreInst}

theorem reports_ite {P : Prop} [Decidable P] {x y : CoreInst} (hx : reports i x.status = true) (hy : reports i y.status = true) :
    reports i (if P then x else y).status = true := by
  split
  · exact hx
  · exact hy

/-- An end of a command, with its `STATUS` word written out. -/
theorem reports_ended {w nerr nbits rlen detid steal subst : Word} {st : Stage} (h : reports i w = true) :
    reports i (c.ended
      { status := w, nerr := nerr, nbits := nbits, rlen := rlen, detid := detid, steal := steal, subst := subst } st).status
      = true := h

/-- Both ends of a decoder report the same results. -/
theorem reports_decoded {ok : Bool} {a : Nat} {o : List Byte} {r : Results} {st st' : Stage} (h : reports i r.status = true) :
    reports i (if ok then (c.storeVec .ob a o).ended r st else c.ended r st').status = true := reports_ite h h

theorem cencCmd_reports (d : Nat) (p : Bool) : reports (.cenc d p) (cencCmd rom d p c).status = true := by
  cases hd : romConv rom d with
  | none => rw [cencCmd_absent rom d p c hd]; exact reports_ended rfl
  | some cd => rw [cencCmd_eq rom d p c hd]; exact reports_ite (reports_ite (reports_ended rfl) (reports_ended rfl)) (reports_ended rfl)

theorem vdecCmd_reports (d : Nat) (p : Bool) : reports (.vdec d p) (vdecCmd rom d p c).status = true := by
  cases hd : romConv rom d with
  | none => rw [vdecCmd_absent rom d p c hd]; exact reports_ended rfl
  | some cd => rw [vdecCmd_eq rom d p c hd]; exact reports_ite (reports_ite (reports_ended rfl) (reports_ended rfl)) (reports_ended rfl)

theorem crcsCmd_reports (p : Nat) : reports (.crcs p) (crcsCmd rom p c).status = true := by
  cases hp : romCrc rom p with
  | none => rw [crcsCmd_absent rom p c hp]; exact reports_ended rfl
  | some q => rw [crcsCmd_eq rom p c hp]; exact reports_ite (reports_ended rfl) (reports_ended rfl)

theorem crccCmd_reports (p : Nat) : reports (.crcc p) (crccCmd rom p c).status = true := by
  cases hp : romCrc rom p with
  | none => rw [crccCmd_absent rom p c hp]; exact reports_ended rfl
  | some q => rw [crccCmd_eq rom p c hp]; exact reports_ite (reports_ite (reports_ended rfl) (reports_ended rfl)) (reports_ended rfl)

theorem puncCmd_reports (d : Nat) (m : Bool) : reports (.punc d m) (puncCmd rom d m c).status = true := by
  cases hd : romConv rom d with
  | none => rw [puncCmd_absent rom d m c hd]; exact reports_ended rfl
  | some cd => rw [puncCmd_eq rom d m c hd]; exact reports_ite (reports_ite (reports_ended rfl) (reports_ended rfl)) (reports_ended rfl)

theorem dpunCmd_reports (d : Nat) (m : Bool) : reports (.dpun d m) (dpunCmd rom d m c).status = true := by
  cases hd : romConv rom d with
  | none => rw [dpunCmd_absent rom d m c hd]; exact reports_ended rfl
  | some cd => rw [dpunCmd_eq rom d m c hd]; exact reports_ite (reports_ite (reports_ended rfl) (reports_ended rfl)) (reports_ended rfl)

theorem permCmd_reports (t : Nat) (inv m : Bool) : reports (.perm t inv m) (permCmd rom t inv m c).status = true := by
  cases ht : romPerm rom t with
  | none => rw [permCmd_absent rom t inv m c ht]; exact reports_ended rfl
  | some r => rw [permCmd_eq rom t inv m c ht]; exact reports_ite (reports_ended rfl) (reports_ended rfl)

theorem checkedResults_reports {okStatus failStatus : Word} (hok : reports i okStatus = true) (hfail : reports i failStatus = true)
    {rlen steal : Word} {ok : Bool} {ne nb : Nat} :
    reports i (checkedResults okStatus failStatus rlen ok ne nb steal).status = true := by
  cases ok
  · exact hfail
  · exact hok

theorem pdtchEncCmd_reports : reports .pdtchEnc (pdtchEncCmd rom c).status = true := by
  rw [pdtchEncCmd_eq]
  refine reports_ite ?_ (reports_ended rfl)
  cases schemeOfLength rom c.a2.toNat with
  | none => exact reports_ended rfl
  | some x => exact reports_ite (reports_ite (reports_ended rfl) (reports_ended rfl)) (reports_ended rfl)

theorem pdtchResults_reports (psk8 pass oor : Bool) (octets ne nb : Nat) (detid steal subst : Word) :
    reports (.pdtchDec psk8) (pdtchResults pass oor octets ne nb detid steal subst).status = true := by
  have hall : ∀ psk8 pass oor : Bool, reports (.pdtchDec psk8)
      (if pass then (if oor then 0x0027D504#32 else 0x0027D100#32) else (if oor then 0x0027C701#32 else 0x0027C301#32)) = true := by
    decide
  exact hall psk8 pass oor

theorem pdtchDecCmd_reports (psk8 : Bool) : reports (.pdtchDec psk8) (pdtchDecCmd rom psk8 c).status = true := by
  rw [pdtchDecCmd_eq]
  refine reports_ite ?_ (reports_ended rfl)
  dsimp only
  generalize c.loadSoft c.a0.toNat (4 * pdsWidth psk8) = area
  cases detectScheme (candidates rom psk8 c.pdcfg) area with
  | none => exact reports_ended rfl
  | some x =>
    obtain ⟨s, r⟩ := x
    cases hk : r.kind with
    | xcch =>
      simp only [hk, pdtchDecXcch_eq]
      exact reports_decoded (pdtchResults_reports ..)
    | gen =>
      simp only [hk, pdtchDecGen_eq]
      exact reports_decoded (pdtchResults_reports ..)

theorem tchEncCmd_reports (cmr : Bool) : reports (.tchEnc cmr) (tchEncCmd rom cmr c).status = true := by
  rw [tchEncCmd_eq]
  refine reports_ite (reports_ite (reports_ended rfl) (reports_ite (reports_ended rfl) ?_)) (reports_ended rfl)
  cases speechScheme rom (chmodeOf c.chmode) c.a2.toNat with
  | none => exact reports_ended rfl
  | some x =>
    refine reports_ite (reports_ended rfl) ?_
    cases amrEncodeId rom x.2 (chmodeOf c.chmode) x.1 cmr c with
    | none => exact reports_ended rfl
    | some id => exact reports_ended rfl

theorem tchResults_reports (cmr pass oor facch : Bool) (octets ne nb : Nat) (detid steal subst : Word) :
    reports (.tchDec cmr) (tchResults pass { oor := oor, facch := facch } octets ne nb detid steal subst).status = true := by
  have hall : ∀ cmr pass oor facch : Bool, reports (.tchDec cmr)
      (if pass then statusImage 0x29 (if oor then .wOor else .ok) { oor := oor, facch := facch } .s13
        else statusImage 0x29 .eCrc { oor := oor, facch := facch } .s12) = true := by decide
  exact hall cmr pass oor facch

theorem tchDecSpeech_reports (cmr : Bool) (g : Geom) (s : Nat) (area : List Int) (oor : Bool) (d w : Word) :
    reports (.tchDec cmr) (tchDecSpeech rom g s area oor (c.midDecode d w)).status = true := by
  rw [tchDecSpeech_eq]
  cases romTcs rom s with
  | none =>
    cases oor
    · exact reports_ended rfl
    · exact reports_ended rfl
  | some t => exact reports_decoded (tchResults_reports ..)

theorem tchDecAmr_reports (cmr : Bool) (g : Geom) (m : Nat) (area : List Int) (w : Word) :
    reports (.tchDec cmr) (tchDecAmr rom g m cmr area (c.midDecode 0#32 w)).status = true := by
  rw [tchDecAmr_eq]
  cases (amrRange m).findSome? (romTcs rom) with
  | none => exact reports_ended rfl
  | some t0 =>
    dsimp only
    generalize idDetect rom t0 _ = id
    cases amrSlot c.amrcfg (if cmr then ftOf c.a3 else id) with
    | none => exact reports_ended rfl
    | some mode => exact tchDecSpeech_reports ..

theorem tchDecCmd_reports (cmr : Bool) : reports (.tchDec cmr) (tchDecCmd rom cmr c).status = true := by
  rw [tchDecCmd_eq]
  refine reports_ite (reports_ite (reports_ended rfl) (reports_ite ?_ (reports_ite ?_ ?_))) (reports_ended rfl)
  · rw [tchDecFacch_eq]
    exact reports_decoded (tchResults_reports ..)
  · exact tchDecSpeech_reports ..
  · exact tchDecAmr_reports ..

/-- Every command but `SRST` reports itself and an outcome that R222 allows it. -/
theorem work_reports (hi : i ≠ .srst) : reports i (work rom i c).status = true := by
  cases i with
  | nop => rw [work, nopCmd_eq]; exact reports_ended rfl
  | cenc d p => exact cencCmd_reports d p
  | vdec d p => exact vdecCmd_reports d p
  | crcs d => exact crcsCmd_reports d
  | crcc d => exact crccCmd_reports d
  | punc d m => exact puncCmd_reports d m
  | dpun d m => exact dpunCmd_reports d m
  | ilv var m => rw [work, ilvCmd_eq]; exact reports_ite (reports_ended rfl) (reports_ended rfl)
  | dilv var m => rw [work, dilvCmd_eq]; exact reports_ite (reports_ended rfl) (reports_ended rfl)
  | perm d inv m => exact permCmd_reports d inv m
  | bmap hl hu m => rw [work, bmapCmd_eq]; exact reports_ite (reports_ended rfl) (reports_ended rfl)
  | bunm fo m => rw [work, bunmCmd_eq]; exact reports_ite (reports_ite (reports_ended rfl) (reports_ended rfl)) (reports_ended rfl)
  | bmapt odd h m => rw [work, bmaptCmd_eq]; exact reports_ite (reports_ended rfl) (reports_ended rfl)
  | bunmt odd fo m => rw [work, bunmtCmd_eq]; exact reports_ite (reports_ite (reports_ended rfl) (reports_ended rfl)) (reports_ended rfl)
  | unpk msbf => rw [work, unpkCmd_eq]; exact reports_ite (reports_ended rfl) (reports_ended rfl)
  | pack msbf => rw [work, packCmd_eq]; exact reports_ite (reports_ended rfl) (reports_ended rfl)
  | h2s => rw [work, h2sCmd_eq]; exact reports_ite (reports_ended rfl) (reports_ended rfl)
  | s2h => rw [work, s2hCmd_eq]; exact reports_ite (reports_ended rfl) (reports_ended rfl)
  | xcchEnc => rw [work, xcchEncCmd_eq]; exact reports_ite (reports_ended rfl) (reports_ended rfl)
  | xcchDec =>
    rw [work, xcchDecCmd_eq]
    exact reports_ite (reports_decoded (checkedResults_reports rfl rfl)) (reports_ended rfl)
  | rachEnc => rw [work, rachEncCmd_eq]; exact reports_ite (reports_ended rfl) (reports_ended rfl)
  | rachDec =>
    rw [work, rachDecCmd_eq]
    exact reports_ite (reports_decoded (checkedResults_reports rfl rfl)) (reports_ended rfl)
  | schEnc => rw [work, schEncCmd_eq]; exact reports_ite (reports_ended rfl) (reports_ended rfl)
  | schDec =>
    rw [work, schDecCmd_eq]
    exact reports_ite (reports_decoded (checkedResults_reports rfl rfl)) (reports_ended rfl)
  | pdtchEnc => exact pdtchEncCmd_reports
  | pdtchDec psk8 => exact pdtchDecCmd_reports psk8
  | tchEnc cmr => exact tchEncCmd_reports cmr
  | tchDec cmr => rw [work]; exact tchDecCmd_reports cmr
  | srst => exact absurd rfl hi

end

/-! ### The obligations -/

/-- Settles O5: a step takes the oldest transaction to its end (`step_eq_finish`), or finds none. -/
theorem everyStepAnswers : Obligations.EveryStepAnswers := by
  intro s
  cases h : s.pending with
  | nil => exact ⟨s, step_eq_self h⟩
  | cons ev rest => exact ⟨_, step_eq_finish h⟩

/-- Settles O10: each reset source leaves the registers of `coreReset`, which `regRead_coreReset` reads. -/
theorem resetValues : Obligations.ResetValues := by
  refine ⟨fun c hc => ?_, fun s rest h => ⟨_, step_powerOn h, List.length_mapIdx, fun c hc => ?_⟩, fun s t ht c hc => ?_⟩
  · obtain rfl : c = coreReset 0 0 := List.mem_singleton.mp hc
    exact ⟨fun off _ _ => regRead_coreReset 0 0 off, rfl⟩
  · obtain ⟨i, rfl⟩ := State.mem_powerOn_insts hc
    exact ⟨fun off _ _ => regRead_coreReset i _ off, rfl⟩
  · obtain rfl : s.onActive srstCmd = t := Host.Outcome.next.inj ht
    cases hs : s.cur? with
    | none =>
      rw [State.onActive_of_none hs, hs] at hc
      cases hc
    | some e =>
      obtain rfl : srstCmd e = c := Option.some.inj ((State.cur?_onActive hs _).symm.trans hc)
      exact ⟨fun off _ _ => (regRead_resetRegs e off).trans (regRead_coreReset e.index e.epoch off), rfl⟩

/-- Settles O14: `work_reports`, field by field. -/
theorem outcomeCodes : Obligations.OutcomeCodes := by
  rintro i s t d hi ⟨c, hc⟩ ht hd
  rw [cur?_of_exec hc ht hd]
  exact reports_iff.mp (work_reports hi)

end Sys2Proof.Machine
end

section
/-! SUPPORT. Where the diagonal geometry puts its cells (R197), and the three minimum-distance searches (R10): scheme detection over the
candidate set (R183, R184), the USF (R178) and the AMR in-band id (R202). -/

namespace Sys2Proof.Machine

/-! ### The diagonal geometry (R197) -/

theorem romTcg_diag {rom : Rom} {m : Nat} (hm : m = 0 ∨ m = 1 ∨ m = 3) : romTcg rom m = .diag8 := by
  rcases hm with rfl | rfl | rfl <;> rfl

theorem diagCells_eq :
    diagCells = (List.range 456).map fun k => 116 * (k % 8)
      + (if 2 * ((49 * k) % 57) + (k % 8) / 4 < 57 then 2 * ((49 * k) % 57) + (k % 8) / 4
        else 2 * ((49 * k) % 57) + (k % 8) / 4 + 2) :=
  List.map_congr_left fun k _ => by rw [diagCell, burstWidth, burstPos_eq, ilvPos]

theorem diagFlags_eq : diagFlags = [58, 174, 290, 406, 521, 637, 753, 869] := by decide

/-! ### The first nearest of a list (R10) -/

section
variable {α : Type} {l : List α} {dist key : α → Nat}

/-- The search finds a first nearest element of the list. -/
theorem argmin_map_nearest {x : α} (hx : l[argmin (l.map dist)]? = some x) {j : Nat} {y : α} (hy : l[j]? = some y) :
    dist x ≤ dist y ∧ (j < argmin (l.map dist) → dist x < dist y) := by
  have hdist : ∀ {k z}, l[k]? = some z → (l.map dist).getD k 0 = dist z := fun hz => by
    rw [List.getD_eq_getElem?_getD, List.getElem?_map, hz]
    rfl
  obtain ⟨hj, -⟩ := List.getElem?_eq_some_iff.mp hy
  have hne : l.map dist ≠ [] := List.ne_nil_of_length_pos (by rw [List.length_map]; omega)
  obtain ⟨-, hmin⟩ := argmin_spec (l.map dist) hne
  have hj' := hmin j (by rwa [List.length_map])
  rwa [hdist hx, hdist hy] at hj'

theorem argmin_map_isSome (hl : l ≠ []) : ∃ x, l[argmin (l.map dist)]? = some x := by
  obtain ⟨hlt, -⟩ := argmin_spec (l.map dist) (fun h => hl (List.map_eq_nil_iff.mp h))
  rw [List.length_map] at hlt
  exact ⟨_, List.getElem?_eq_getElem hlt⟩

/-- In a list in rising order of `key` the search finds the nearest element of the lowest key, and only that. -/
theorem argmin_map_eq_some_iff (hsorted : l.Pairwise fun x y => key x < key y) {x : α} :
    l[argmin (l.map dist)]? = some x ↔ x ∈ l ∧ ∀ y ∈ l, dist x ≤ dist y ∧ (key y < key x → dist x < dist y) := by
  have hfound : ∀ {z}, l[argmin (l.map dist)]? = some z →
      ∀ y ∈ l, dist z ≤ dist y ∧ (key y < key z → dist z < dist y) := fun {z} hz y hy => by
    obtain ⟨j, hj⟩ := List.mem_iff_getElem?.mp hy
    obtain ⟨hle, hlt⟩ := argmin_map_nearest hz hj
    refine ⟨hle, fun hkey => hlt (Nat.lt_of_not_le fun hge => ?_)⟩
    obtain ⟨hjl, rfl⟩ := List.getElem?_eq_some_iff.mp hj
    obtain ⟨hkl, rfl⟩ := List.getElem?_eq_some_iff.mp hz
    rcases Nat.lt_or_eq_of_le hge with hgt | heq
    · exact Nat.lt_asymm hkey (List.pairwise_iff_getElem.mp hsorted _ _ hkl hjl hgt)
    · simp only [heq] at hkey
      exact Nat.lt_irrefl _ hkey
  constructor
  · exact fun hx => ⟨List.mem_of_getElem? hx, hfound hx⟩
  · rintro ⟨hx, hmin⟩
    obtain ⟨z, hz⟩ := argmin_map_isSome (dist := dist) (List.ne_nil_of_mem hx)
    obtain ⟨hzx, hzx'⟩ := hfound hz x hx
    obtain ⟨hxz, hxz'⟩ := hmin z (List.mem_of_getElem? hz)
    have hkey : key x = key z := by
      rcases Nat.lt_trichotomy (key x) (key z) with h | h | h
      · have := hzx' h; omega
      · exact h
      · have := hxz' h; omega
    have hinj : ∀ a ∈ l, ∀ b ∈ l, key a = key b → a = b := fun a ha b hb hab => by
      obtain ⟨i, hi, rfl⟩ := List.mem_iff_getElem.mp ha
      obtain ⟨j, hj, rfl⟩ := List.mem_iff_getElem.mp hb
      rcases Nat.lt_trichotomy i j with h | rfl | h
      · exact absurd hab (Nat.ne_of_lt (List.pairwise_iff_getElem.mp hsorted i j hi hj h))
      · rfl
      · exact absurd hab.symm (Nat.ne_of_lt (List.pairwise_iff_getElem.mp hsorted j i hj hi h))
    rw [hinj x hx z (List.mem_of_getElem? hz) hkey, hz]

end

/-- The search over the patterns of a well-formed set, with the distances `f` spelled out. -/
theorem argmin_patterns {p : PatDesc} (hp : patWf p = true) {dist : List Bool → Nat} {f : Nat → Nat}
    (hf : ∀ i < p.np, dist (p.bits.getD i []) = f i) :
    argmin (p.bits.map dist) < p.np ∧ ∀ j < p.np, f (argmin (p.bits.map dist)) ≤ f j
      ∧ (j < argmin (p.bits.map dist) → f (argmin (p.bits.map dist)) < f j) := by
  obtain ⟨hlen, hpos, -⟩ := patWf_lengths hp
  obtain ⟨x, hx⟩ := argmin_map_isSome (dist := dist) (List.ne_nil_of_length_pos (l := p.bits) (by omega))
  have hdist : ∀ {k z}, p.bits[k]? = some z → k < p.np ∧ dist z = f k := fun {k z} hz => by
    have hk : k < p.np := hlen ▸ (List.getElem?_eq_some_iff.mp hz).1
    refine ⟨hk, ?_⟩
    rw [← hf k hk, List.getD_eq_getElem?_getD, hz]
    rfl
  obtain ⟨hlt, hfx⟩ := hdist hx
  refine ⟨hlt, fun j hj => ?_⟩
  have hy := List.getElem?_eq_getElem (l := p.bits) (i := j) (by omega)
  have := argmin_map_nearest hx hy
  rwa [hfx, (hdist hy).2] at this

/-! ### Scheme detection (R183, R184) -/

theorem romPds_lt {rom : Rom} {n : Nat} {r : PdsRec} (h : romPds rom n = some r) : n < 13 :=
  (List.getElem?_eq_some_iff.mp (romPds_known h).1).1

theorem schemeEnabled_eq (cfg : Word) {n : Nat} (hn : n < 13) : schemeEnabled cfg n = cfg.getLsbD n := by
  rw [schemeEnabled, getField, Nat.pow_zero, Nat.div_one, Nat.testBit_mod_two_pow, decide_eq_true hn, Bool.true_and]
  rfl

theorem mem_candidates {rom : Rom} {psk8 : Bool} {cfg : Word} {n : Nat} {r : PdsRec} :
    (n, r) ∈ candidates rom psk8 cfg ↔ romPds rom n = some r ∧ r.psk8 = psk8 ∧ cfg.getLsbD n = true := by
  simp only [candidates, List.mem_filterMap, List.mem_range, Option.bind_eq_some_iff, Option.ite_none_right_eq_some,
    Option.some.injEq, Prod.mk.injEq]
  constructor
  · rintro ⟨_, hn, _, hr, ⟨hp, he⟩, rfl, rfl⟩
    exact ⟨hr, hp, schemeEnabled_eq cfg hn ▸ he⟩
  · rintro ⟨hr, hp, he⟩
    have hn := romPds_lt hr
    exact ⟨n, hn, r, hr, ⟨hp, (schemeEnabled_eq cfg hn).symm ▸ he⟩, rfl, rfl⟩

/-- The candidates stand in the order of their slots. -/
theorem candidates_sorted (rom : Rom) (psk8 : Bool) (cfg : Word) :
    (candidates rom psk8 cfg).Pairwise fun x y => x.1 < y.1 := by
  refine List.Pairwise.filterMap _ (fun m n hmn x hx y hy => ?_) List.pairwise_lt_range
  simp only [Option.bind_eq_some_iff, Option.ite_none_right_eq_some, Option.some.injEq] at hx hy
  obtain ⟨_, -, -, rfl⟩ := hx
  obtain ⟨_, -, -, rfl⟩ := hy
  exact hmn

theorem detectScheme_eq_some_iff {rom : Rom} {psk8 : Bool} {cfg : Word} {area : List Int} {x : Nat × PdsRec} :
    detectScheme (candidates rom psk8 cfg) area = some x ↔ x ∈ candidates rom psk8 cfg
      ∧ ∀ y ∈ candidates rom psk8 cfg, flagDist x.2 area ≤ flagDist y.2 area
        ∧ (y.1 < x.1 → flagDist x.2 area < flagDist y.2 area) :=
  argmin_map_eq_some_iff (candidates_sorted rom psk8 cfg)

theorem detectScheme_eq_none_iff {cs : List (Nat × PdsRec)} {area : List Int} : detectScheme cs area = none ↔ cs = [] := by
  constructor
  · intro h
    by_contra hne
    obtain ⟨x, hx⟩ := argmin_map_isSome (dist := fun x : Nat × PdsRec => flagDist x.2 area) hne
    rw [detectScheme, hx] at h
    cases h
  · rintro rfl
    rfl

/-! ### The obligations -/

/-- Settles O58: `diagCells_eq` and `diagFlags_eq`; the cells are different by `diagCells_flags_nodup`. -/
theorem diagonalGeometry : Obligations.DiagonalGeometry := by
  intro rom m hm
  rw [romTcg_diag hm]
  refine ⟨diagCells_eq, diagCells_eq, diagFlags_eq, diagFlags_eq, ?_⟩
  rw [← diagFlags_eq, ← diagCells_eq]
  exact ⟨diagCells_flags_nodup, fun x hx => (List.mem_append.mp hx).elim diagCells_lt (diagFlags_lt x)⟩

/-- Settles O54: scheme detection by `detectScheme_eq_some_iff` over the candidate set, the other two searches by
`argmin_patterns`. -/
theorem schemeDetection : Obligations.SchemeDetection := by
  refine ⟨fun rom psk8 cfg area => ⟨fun n r => ?_, ?_⟩, fun p x hpx => ?_, fun rom r p h hp hwf hh => ?_,
    fun rom t q p x ht hp hwf hx => ?_⟩
  · simp only [detectScheme_eq_some_iff, Prod.forall, mem_candidates]
    rfl
  · simp only [detectScheme_eq_none_iff, List.eq_nil_iff_forall_not_mem, Prod.forall, mem_candidates]
  · exact sum_zipWith_eq (fun a b => (softOf a - b).natAbs) false 0 p x hpx
  · obtain ⟨-, -, hwidth⟩ := patWf_lengths hwf
    have hpat : patRef rom r.usfpat = p := by rw [patRef, hp]; rfl
    intro dist usf
    have husf : usf = argmin (p.bits.map (hamming · h)) := by
      show usfDetect rom r h = _
      rw [usfDetect, hpat, mindistHard]
    rw [husf]
    refine argmin_patterns (f := dist) hwf fun i hi => ?_
    rw [hamming_eq _ _ ((hwidth i hi).trans hh.symm), hwidth i hi]
  · have hpat : patRef rom q = p := by rw [patRef, hp]; rfl
    simp only [idDetect, mindistSoft, ht, Option.map_some, Option.getD_some, hpat]
    exact argmin_patterns hwf fun _ _ => rfl

end Sys2Proof.Machine
end

section
/-! SUPPORT. The fields of `DETID`, `SUBST` and `STEAL` (R17) as sums: a field written where the word has only zeros is added to it. -/

namespace Sys2Proof.Machine

/-! ### A field written over zeros -/

/-- Writing a field that holds zeros adds the field to the word. -/
theorem setField_eq_add {w : Word} {lo len v : Nat} (hv : v < 2 ^ len) (hw : ∀ i < 32, lo ≤ i → i < lo + len → w.getLsbD i = false) :
    setField w lo len v = w + BitVec.ofNat 32 (v * 2 ^ lo) := by
  have hmask : w &&& ~~~(BitVec.ofNat 32 ((2 ^ len - 1) * 2 ^ lo)) = w := by
    refine BitVec.eq_of_getLsbD_eq fun i hi => ?_
    rw [BitVec.getLsbD_and, BitVec.getLsbD_not, BitVec.getLsbD_ofNat, Nat.testBit_mul_two_pow, Nat.testBit_two_pow_sub_one]
    by_cases h : lo ≤ i ∧ i < lo + len
    · rw [hw i hi h.1 h.2, Bool.false_and]
    · have : (decide (i ≥ lo) && decide (i - lo < len)) = false := by
        rw [Bool.and_eq_false_iff, decide_eq_false_iff_not, decide_eq_false_iff_not]
        omega
      rw [this, Bool.and_false, decide_eq_true hi, Bool.not_false, Bool.and_self, Bool.and_true]
  rw [setField, hmask, Nat.mod_eq_of_lt hv]
  refine (BitVec.add_eq_or_of_and_eq_zero _ _ (BitVec.eq_of_getLsbD_eq fun i hi => ?_)).symm
  rw [BitVec.getLsbD_and, BitVec.getLsbD_zero, BitVec.getLsbD_ofNat, Nat.testBit_mul_two_pow]
  by_cases hlo : lo ≤ i
  · by_cases hhi : i < lo + len
    · rw [hw i hi hlo hhi, Bool.false_and]
    · rw [Nat.testBit_lt_two_pow (Nat.lt_of_lt_of_le hv (Nat.pow_le_pow_right (by decide) (by omega))), Bool.and_false,
        Bool.and_false, Bool.and_false]
  · rw [decide_eq_false hlo, Bool.false_and, Bool.and_false, Bool.and_false]

/-- No bit of a number below `2 ^ n` stands at or above place `n`. -/
theorem getLsbD_ofNat_of_lt {x n i : Nat} (hx : x < 2 ^ n) (hi : n ≤ i) : (BitVec.ofNat 32 x).getLsbD i = false := by
  rw [BitVec.getLsbD_ofNat, Nat.testBit_lt_two_pow (Nat.lt_of_lt_of_le hx (Nat.pow_le_pow_right (by decide) hi)), Bool.and_false]

/-- A field written into a word of zeros. -/
theorem setField_zero {lo len v : Nat} (hv : v < 2 ^ len) : setField 0#32 lo len v = BitVec.ofNat 32 (v * 2 ^ lo) := by
  rw [setField_eq_add hv fun _ _ _ _ => BitVec.getLsbD_zero, BitVec.zero_add]

/-! ### `DETID` -/

theorem detidId_zero {id : Nat} (hid : id < 256) : detidId 0#32 id = BitVec.ofNat 32 (0x100 + id) := by
  rw [detidId, setField_zero (len := 8) hid, Nat.pow_zero, Nat.mul_one,
    setField_eq_add (by decide) fun i _ hi _ => getLsbD_ofNat_of_lt (n := 8) hid hi, ← BitVec.ofNat_add]
  congr 1
  omega

theorem detidScheme_zero {n : Nat} (hn : n < 256) : detidScheme 0#32 n = BitVec.ofNat 32 (0x01000000 + 0x10000 * n) := by
  rw [detidScheme, setField_zero (len := 8) hn,
    setField_eq_add (by decide) fun i _ hi _ => getLsbD_ofNat_of_lt (n := 24) (by omega) hi, ← BitVec.ofNat_add]
  congr 1
  omega

/-- The scheme of a speech block reported beside the in-band id. -/
theorem detidScheme_detidId_zero {n id : Nat} (hn : n < 256) (hid : id < 256) :
    detidScheme (detidId 0#32 id) n = BitVec.ofNat 32 (0x01000000 + 0x10000 * n + (0x100 + id)) := by
  rw [detidId_zero hid, detidScheme,
    setField_eq_add (len := 8) hn fun i _ hi _ => getLsbD_ofNat_of_lt (n := 16) (by omega) hi, ← BitVec.ofNat_add,
    setField_eq_add (by decide) fun i _ hi _ => getLsbD_ofNat_of_lt (n := 24) (by omega) hi, ← BitVec.ofNat_add]
  congr 1
  omega

/-- The id reported beside a scheme. -/
theorem detidId_detidScheme_zero {n id : Nat} (hn : n < 256) (hid : id < 256) :
    detidId (detidScheme 0#32 n) id = BitVec.ofNat 32 (0x01000000 + 0x10000 * n + (0x100 + id)) := by
  have hlow : ∀ i < 16, (detidScheme 0#32 n).getLsbD i = false := fun i hi => by
    rw [detidScheme, getLsbD_setField _ _ (by omega), if_neg (by omega), getLsbD_setField _ _ (by omega), if_neg (by omega),
      BitVec.getLsbD_zero]
  have hflag : ∀ i < 32, 8 ≤ i → i < 8 + 1 → (setField (detidScheme 0#32 n) 0 8 id).getLsbD i = false := fun i hi hlo hhi => by
    rw [getLsbD_setField _ _ hi, if_neg (by omega), hlow i (by omega)]
  rw [detidId, setField_eq_add (by decide) hflag, setField_eq_add (len := 8) hid fun i _ _ hi => hlow i (by omega),
    detidScheme_zero hn, ← BitVec.ofNat_add, ← BitVec.ofNat_add]
  congr 1
  omega

/-! ### `SUBST` -/

/-- A check reported where neither of its bits is set. -/
theorem substCheck_eq_add {w : Word} {n : Nat} (ok : Bool) (hn : n < 3) (hchk : w.getLsbD n = false)
    (hpass : w.getLsbD (8 + n) = false) :
    substCheck w n ok = w + BitVec.ofNat 32 (2 ^ n + ok.toNat * 2 ^ (8 + n)) := by
  have hone : ∀ {lo i : Nat}, lo ≤ i → i < lo + 1 → i = lo := by omega
  have hfirst : setField w n 1 1 = w + BitVec.ofNat 32 (2 ^ n) := by
    rw [setField_eq_add (by decide) fun i _ hlo hhi => hone hlo hhi ▸ hchk, Nat.one_mul]
  have hbit : (setField w n 1 1).getLsbD (8 + n) = false := by
    rw [getLsbD_setField w 1 (by omega), if_neg (by omega), hpass]
  rw [substCheck, setField_eq_add (Bool.toNat_lt ok) fun i _ hlo hhi => hone hlo hhi ▸ hbit, hfirst, BitVec.add_assoc,
    ← BitVec.ofNat_add]

/-- The checks of different sub-blocks, one after the other. -/
theorem foldl_substCheck_eq_add {α : Type} {num : α → Nat} {ok : α → Bool} {l : List α} {w : Word} (hnum : (l.map num).Nodup)
    (hl : ∀ x ∈ l, num x < 3 ∧ w.getLsbD (num x) = false ∧ w.getLsbD (8 + num x) = false) :
    l.foldl (fun w x => substCheck w (num x) (ok x)) w = w + BitVec.ofNat 32
      ((l.map fun x => 2 ^ num x).sum + 0x100 * ((l.filter ok).map fun x => 2 ^ num x).sum) := by
  induction l generalizing w with
  | nil => simp
  | cons x l ih =>
    obtain ⟨hx, hchk, hpass⟩ := hl x List.mem_cons_self
    rw [List.map_cons, List.nodup_cons] at hnum
    have hrest := ih (w := substCheck w (num x) (ok x)) hnum.2 fun y hy => by
      obtain ⟨hy3, hychk, hypass⟩ := hl y (List.mem_cons_of_mem x hy)
      have hne : num y ≠ num x := fun h => hnum.1 (h ▸ List.mem_map_of_mem hy)
      refine ⟨hy3, ?_, ?_⟩
      · rw [getLsbD_substCheck _ _ _ (by omega), if_neg (by omega), if_neg hne, hychk]
      · rw [getLsbD_substCheck _ _ _ (by omega), if_neg (by omega), if_neg (by omega), hypass]
    rw [List.foldl_cons, hrest, substCheck_eq_add _ hx hchk hpass, BitVec.add_assoc, ← BitVec.ofNat_add]
    congr 2
    cases hok : ok x <;> simp [hok, Nat.pow_add] <;> omega

/-! ### `STEAL` of `TCH_DEC` -/

theorem bitsNum_lt (bs : List Bool) : bitsNum bs < 2 ^ bs.length := by
  induction bs with
  | nil => exact Nat.one_pos
  | cons b bs ih =>
    have hb := Bool.toNat_le b
    rw [bitsNum, List.length_cons, Nat.pow_succ]
    omega

/-- `tc_16` of the stealing sum in the upper half (R9, R17). -/
theorem ofInt_shiftLeft (sum : Int) :
    BitVec.ofNat 32 ((BitVec.ofInt 16 sum).toNat * 2 ^ 16) = BitVec.ofInt 32 sum <<< 16 := by
  apply BitVec.eq_of_toNat_eq
  rw [BitVec.toNat_shiftLeft, BitVec.toNat_ofNat, BitVec.toNat_ofInt, BitVec.toNat_ofInt, Nat.shiftLeft_eq]
  omega

theorem stealTch_eq_add {flags : List Bool} (hflags : flags.length ≤ 16) (sum : Int) :
    stealTch flags sum = BitVec.ofNat 32 (bitsNum flags) + BitVec.ofInt 32 sum <<< 16 := by
  have hlt : bitsNum flags < 2 ^ 16 := Nat.lt_of_lt_of_le (bitsNum_lt flags) (Nat.pow_le_pow_right (by decide) hflags)
  rw [stealTch, setField_zero hlt, Nat.pow_zero, Nat.mul_one,
    setField_eq_add (BitVec.isLt _) fun i _ hi _ => getLsbD_ofNat_of_lt hlt hi, ofInt_shiftLeft]

end Sys2Proof.Machine
end

section
/-! SUPPORT. Vectors assigned in parts, each part laid along its own places: the burst area of R180 and the logical block of R183. -/

namespace Sys2Proof.Machine

section
variable {α : Type} {n : Nat} {e : α}

/-- Later assignments to other places leave a place as it is. -/
theorem scatter_append_getD_left (ws : List (Nat × α)) {ws' : List (Nat × α)} {y : Nat} (h : y ∉ ws'.map (·.1)) :
    (scatter n e (ws ++ ws')).getD y e = (scatter n e ws).getD y e := by
  induction ws' using List.reverseRecOn with
  | nil => rw [List.append_nil]
  | append_singleton ws' w ih =>
    rw [List.map_append, List.mem_append, not_or, List.map_singleton, List.mem_singleton] at h
    rw [← List.append_assoc, scatter_concat, List.getD_eq_getElem?_getD, List.getElem?_set_ne (Ne.symm h.2),
      ← List.getD_eq_getElem?_getD, ih h.1]

/-- Earlier assignments to other places do not matter. -/
theorem scatter_append_getD_right {ws : List (Nat × α)} (ws' : List (Nat × α)) {y : Nat} (h : y ∉ ws.map (·.1)) :
    (scatter n e (ws ++ ws')).getD y e = (scatter n e ws').getD y e := by
  induction ws' using List.reverseRecOn with
  | nil => rw [List.append_nil, scatter_getD_of_notMem n e h, scatter_getD_of_notMem n e List.not_mem_nil]
  | append_singleton ws' w ih =>
    simp only [List.getD_eq_getElem?_getD] at ih
    rw [← List.append_assoc, scatter_concat, scatter_concat]
    simp only [List.getD_eq_getElem?_getD, List.getElem?_set, scatter_length]
    split
    · rfl
    · exact ih

/-- The last assignment to a place stands. -/
theorem scatter_append_cons_getD (ws : List (Nat × α)) {w : Nat × α} {ws' : List (Nat × α)} (hlt : w.1 < n)
    (h : w.1 ∉ ws'.map (·.1)) : (scatter n e (ws ++ w :: ws')).getD w.1 e = w.2 := by
  rw [List.append_cons, scatter_append_getD_left _ h, scatter_concat, List.getD_eq_getElem?_getD, List.getElem?_set_self (by rwa [scatter_length])]
  rfl

/-- A vector laid last, along different places, stands whatever came before. -/
theorem scatter_append_zip_getD (ws : List (Nat × α)) {idx : List Nat} {vs : List α} (hn : idx.Nodup) (hlt : ∀ y ∈ idx, y < n)
    {k y : Nat} {v : α} (hk : idx[k]? = some y) (hv : vs[k]? = some v) :
    (scatter n e (ws ++ List.zip idx vs)).getD y e = v := by
  have hmem : (y, v) ∈ List.zip idx vs := List.mem_of_getElem? (List.getElem?_zip_eq_some.mpr ⟨hk, hv⟩)
  have hkeys := zip_places_nodup hn vs
  obtain ⟨s, t, hst⟩ := List.append_of_mem hmem
  rw [hst, List.map_append, List.map_cons, List.nodup_append, List.nodup_cons] at hkeys
  obtain ⟨-, ⟨hy, -⟩, -⟩ := hkeys
  rw [hst, ← List.append_assoc]
  exact scatter_append_cons_getD (w := (y, v)) _ (hlt y (List.mem_of_getElem? hk)) hy

/-- A vector laid from place 0 on. -/
theorem scatter_zipIdx_getD {l : List α} {q : Nat} {v : α} (hq : l[q]? = some v) (hlt : q < n) :
    (scatter n e (l.zipIdx.map fun p => (p.2, p.1))).getD q e = v := by
  have hkeys : (l.zipIdx.map fun p => (p.2, p.1)).map (·.1) = List.range' 0 l.length := by
    rw [List.map_map, ← List.zipIdx_map_snd 0 l]
    rfl
  have hmem : (q, v) ∈ l.zipIdx.map fun p => (p.2, p.1) :=
    List.mem_map.mpr ⟨(v, q), List.mem_zipIdx_iff_getElem?.mpr hq, rfl⟩
  exact scatter_getD_of_mem n e e (hkeys ▸ List.nodup_range') hmem hlt

/-- The places that a list of parts reaches. -/
theorem mem_places_of_mem_parts {parts : List (List Nat × List α)} {y : Nat}
    (h : y ∈ (parts.flatMap fun p => List.zip p.1 p.2).map (·.1)) : y ∈ parts.flatMap (·.1) := by
  obtain ⟨w, hw, rfl⟩ := List.mem_map.mp h
  obtain ⟨p, hp, hwp⟩ := List.mem_flatMap.mp hw
  exact List.mem_flatMap.mpr ⟨p, hp, (List.of_mem_zip hwp).1⟩

/-- Parts that have no place in common: place `k` of a part holds element `k` of its vector. -/
theorem scatter_parts_getD {parts : List (List Nat × List α)} (hn : (parts.flatMap (·.1)).Nodup)
    {p : List Nat × List α} (hp : p ∈ parts) (hlt : ∀ y ∈ p.1, y < n) {k y : Nat} (hk : p.1[k]? = some y) :
    (scatter n e (parts.flatMap fun p => List.zip p.1 p.2)).getD y e = p.2.getD k e := by
  obtain ⟨s, t, rfl⟩ := List.append_of_mem hp
  rw [List.flatMap_append, List.flatMap_cons, List.nodup_append, List.nodup_append] at hn
  obtain ⟨-, ⟨hpn, -, hpt⟩, hs⟩ := hn
  have hy : y ∈ p.1 := List.mem_of_getElem? hk
  have hys : y ∉ s.flatMap (·.1) := fun h => hs y h y (List.mem_append_left _ hy) rfl
  have hyt : y ∉ t.flatMap (·.1) := fun h => hpt y hy y h rfl
  rw [List.flatMap_append, List.flatMap_cons, scatter_append_getD_right _ fun h => hys (mem_places_of_mem_parts h),
    scatter_append_getD_left _ fun h => hyt (mem_places_of_mem_parts h), scatter_zip_getD e hpn hlt p.2 hk]

/-- A place that no part reaches keeps the default. -/
theorem scatter_parts_getD_of_notMem {parts : List (List Nat × List α)} {y : Nat} (h : ∀ p ∈ parts, y ∉ p.1) :
    (scatter n e (parts.flatMap fun p => List.zip p.1 p.2)).getD y e = e := by
  refine scatter_getD_of_notMem n e fun hm => ?_
  obtain ⟨p, hp, hy⟩ := List.mem_flatMap.mp (mem_places_of_mem_parts hm)
  exact h p hp hy

end

end Sys2Proof.Machine
end

section
/-! SUPPORT. What the well-formed tables of a ROM say of a PDTCH scheme record (R176, R177), and the parts that a scheme's burst area is
laid from (R180). -/

namespace Sys2Proof.Machine

/-! ### The record of a present scheme (R176, R177) -/

theorem pdsWidth_eq (psk8 : Bool) : pdsWidth psk8 = if psk8 then 348 else 116 := rfl

theorem lmax_eq (psk8 : Bool) : lmax psk8 = if psk8 then 154 else 54 := rfl

theorem romPds_wf {rom : Rom} (h : romTablesWf rom = true) {n : Nat} {r : PdsRec} (hr : romPds rom n = some r) :
    pdsWf rom r = true := by
  simp only [romTablesWf, Bool.and_eq_true] at h
  obtain ⟨⟨⟨⟨⟨⟨-, hpds⟩, -⟩, -⟩, -⟩, -⟩, -⟩ := h
  have hn := List.all_eq_true.mp hpds n (List.mem_range.mpr (romPds_lt hr))
  rw [hr, Option.all_some, Bool.and_eq_true] at hn
  exact hn.1

/-- The stealing flags of a well-formed record (R176). -/
theorem pdsWf_flags {rom : Rom} {r : PdsRec} (h : pdsWf rom r = true) :
    r.sfpos.length = 8 ∧ r.sfval.length = 8 ∧ (∀ x ∈ r.sfpos, x < 4 * pdsWidth r.psk8) ∧ r.sfpos.Nodup := by
  simp only [pdsWf, Bool.and_eq_true, beq_iff_eq, decide_eq_true_eq, List.all_eq_true] at h
  obtain ⟨⟨⟨⟨hpos, hval⟩, hlt⟩, hnodup⟩, -⟩ := h
  exact ⟨hpos, hval, hlt, hnodup⟩

/-- A record of kind `XCCH` (R176). -/
theorem pdsWf_xcch {rom : Rom} {r : PdsRec} (h : pdsWf rom r = true) (hk : r.kind = .xcch) :
    r.psk8 = false ∧ r.octets = 23 ∧ r.sfpos = gprsSfpos := by
  simp only [pdsWf, hk, Bool.and_eq_true, beq_iff_eq, Bool.not_eq_true'] at h
  obtain ⟨-, ⟨⟨hpsk, hoct⟩, hpos⟩, -⟩ := h
  exact ⟨hpsk, hoct, hpos⟩

/-- A record of kind `GEN` (R176). -/
theorem pdsWf_gen {rom : Rom} {r : PdsRec} (h : pdsWf rom r = true) (hk : r.kind = .gen) :
    r.sub1.isSome = true ∧ (∀ x ∈ subBlocks r, subWf rom r x.1 x.2 = true) ∧ usfWf rom r = true ∧ cellsDisjoint rom r = true
      ∧ gatherDisjoint r = true := by
  simp only [pdsWf, hk, Bool.and_eq_true, List.all_eq_true] at h
  obtain ⟨-, ⟨⟨⟨hsub1, hsubs⟩, husf⟩, hcells⟩, hgather⟩ := h
  exact ⟨hsub1, hsubs, husf, hcells, hgather⟩

theorem mem_subBlocks {r : PdsRec} {i : Nat} {b : SubBlock} :
    (i, b) ∈ subBlocks r ↔ [r.sub0, r.sub1, r.sub2].getD i none = some b := by
  simp only [subBlocks, List.mem_filterMap, List.mem_cons, List.not_mem_nil, or_false, Option.map_eq_some_iff, Prod.mk.injEq]
  constructor
  · rintro ⟨_, rfl | rfl | rfl, _, hb, rfl, rfl⟩ <;> exact hb
  · intro hb
    match i, hb with
    | 0, hb => exact ⟨_, .inl rfl, b, hb, rfl, rfl⟩
    | 1, hb => exact ⟨_, .inr (.inl rfl), b, hb, rfl, rfl⟩
    | 2, hb => exact ⟨_, .inr (.inr rfl), b, hb, rfl, rfl⟩

/-- What well-formedness says of the cells of a sub-block and of the bits it gathers (R176). -/
theorem subWf_cells {rom : Rom} (h : romTablesWf rom = true) {r : PdsRec} {i : Nat} {b : SubBlock}
    (hb : subWf rom r i b = true) :
    (∀ y ∈ placeCells rom b, y < 4 * pdsWidth r.psk8) ∧ (∀ y ∈ b.gather, y < 8 * r.octets) ∧ b.gather.length = b.ni := by
  simp only [subWf, Bool.and_eq_true, beq_iff_eq, List.all_eq_true, decide_eq_true_eq] at hb
  obtain ⟨⟨⟨⟨⟨⟨hlen, hlt⟩, -⟩, -⟩, -⟩, hplace⟩, -⟩ := hb
  refine ⟨fun y hy => ?_, hlt, hlen⟩
  obtain ⟨p, hp, hpwf⟩ := (Option.any_eq_true ..).mp hplace
  rw [Bool.and_eq_true, beq_iff_eq, beq_iff_eq] at hpwf
  obtain ⟨-, hmap⟩ := permWf_map (romPerm_wf h hp)
  rw [placeCells, permRef, hp] at hy
  exact hpwf.2 ▸ hmap y hy

/-- The three bit positions of a USF. -/
theorem usfWf_bits {rom : Rom} {r : PdsRec} (h : usfWf rom r = true) (hm : r.usfmode ≠ .none) : r.usfbits.length = 3 := by
  unfold usfWf at h
  split at h
  case h_1 hnone => exact absurd hnone hm
  all_goals
    simp only [Bool.and_eq_true, beq_iff_eq] at h
    obtain ⟨⟨hlen, -⟩, -⟩ := h
    exact hlen

/-- The cells of a separate USF lie in the area, its bits in the block (R176). -/
theorem usfWf_separate {rom : Rom} (h : romTablesWf rom = true) {r : PdsRec} (hu : usfWf rom r = true)
    (hm : r.usfmode = .separate) :
    (∀ y ∈ usfCells rom r, y < 4 * pdsWidth r.psk8) ∧ ∀ y ∈ r.usfbits, y < 8 * r.octets := by
  simp only [usfWf, hm, Bool.and_eq_true, List.all_eq_true, decide_eq_true_eq] at hu
  obtain ⟨⟨-, hlt⟩, hpat⟩ := hu
  refine ⟨fun y hy => ?_, hlt⟩
  obtain ⟨p, -, hp⟩ := (Option.any_eq_true ..).mp hpat
  rw [Bool.and_eq_true] at hp
  obtain ⟨t, ht, htwf⟩ := (Option.any_eq_true ..).mp hp.2
  rw [Bool.and_eq_true, beq_iff_eq, beq_iff_eq] at htwf
  obtain ⟨-, hmap⟩ := permWf_map (romPerm_wf h ht)
  rw [usfCells, permRef, ht] at hy
  exact htwf.2 ▸ hmap y hy

/-! ### The scheme of a length (R180) -/

/-- The thirteen lengths are different (R176 (b), R177). -/
theorem schemeOfLength_eq_some_iff {rom : Rom} {len n : Nat} {r : PdsRec} :
    schemeOfLength rom len = some (n, r) ↔ romPds rom n = some r ∧ r.octets = len := by
  have hfound : ∀ {m x}, schemeOfLength rom len = some (m, x) → romPds rom m = some x ∧ x.octets = len := fun {m x} h => by
    obtain ⟨_, -, hm⟩ := List.exists_of_findSome?_eq_some h
    simp only [Option.bind_eq_some_iff, Option.ite_none_right_eq_some, Option.some.injEq, Prod.mk.injEq] at hm
    obtain ⟨_, hx, hlen, rfl, rfl⟩ := hm
    exact ⟨hx, hlen⟩
  refine ⟨hfound, fun ⟨hr, hlen⟩ => ?_⟩
  cases hs : schemeOfLength rom len with
  | none =>
    have := List.findSome?_eq_none_iff.mp hs n (List.mem_range.mpr (romPds_lt hr))
    rw [hr, Option.bind_some, if_pos hlen] at this
    cases this
  | some y =>
    obtain ⟨m, x⟩ := y
    obtain ⟨hx, hxlen⟩ := hfound hs
    have hslot := (romPds_known hx).1.trans ((congrArg some (hxlen.trans hlen.symm)).trans (romPds_known hr).1.symm)
    obtain rfl := (List.getElem?_inj (by exact romPds_lt hx) (by decide : pdsOctets.Nodup)).mp hslot
    rw [Option.some.inj (hx.symm.trans hr)]

end Sys2Proof.Machine
end

section
/-! SUPPORT. Command `PDTCH_ENC` (R180): its outcomes in order, and the burst area cell by cell. The area of a `GEN` scheme is laid in
parts that share no cell (`areaParts`), that of an xCCH scheme from four bursts under the stealing flags. -/

namespace Sys2Proof.Machine

/-! ### What a sub-block becomes (R178, R179) -/

/-- The bits of whole octets, also beyond their end. -/
theorem unpackBits_whole_getD (o : List Byte) (k : Nat) :
    (unpackBits false o (8 * o.length)).getD k false = (o.getD (k / 8) 0#8).getLsbD (k % 8) := by
  by_cases hk : k < 8 * o.length
  · exact unpackBits_getD o hk
  · rw [List.getD_eq_default _ _ (by rw [unpackBits_length]; omega), List.getD_eq_default o _ (by omega)]
    exact BitVec.getLsbD_zero.symm

theorem carriesUsf_iff {r : PdsRec} {i : Nat} : carriesUsf r i = true ↔ i = 1 ∧ r.usfmode = .inband := by
  simp only [carriesUsf, Bool.and_eq_true, beq_iff_eq]

/-- `sub_encode` of R179 in the words of the rule, over a block whose bits are `l`. -/
theorem subEncode_eq (rom : Rom) (r : PdsRec) (i : Nat) (b : SubBlock) {u : List Bool} {l : Nat → Bool}
    (hl : ∀ k, u.getD k false = l k) (usf : Nat) :
    subEncode rom r i b u usf =
      let c := convRef rom b.conv
      let v := b.gather.map l
      let w := v ++ crcBits (crcRef rom b.crc) ((v.drop b.protLo).take b.protN)
      let w := if i = 1 ∧ r.usfmode = .inband then (patRef rom r.usfpat).bits.getD usf [] ++ w.drop 3 else w
      if b.coded = false then w
      else if b.p = true ∧ c.punc.isSome = true then puncture (puncTable c) (convFull c w) else convFull c w := by
  have hgather : gather u false b.gather = b.gather.map l := List.map_congr_left fun k _ => hl k
  simp only [subEncode, hgather, if_congr carriesUsf_iff rfl rfl]
  cases b.coded
  · rfl
  · exact convEnc_eq_ite _ _ _

/-- The USF of a block whose bits are `l` (R178). -/
theorem usfOf_eq {r : PdsRec} (hlen : r.usfbits.length = 3) {u : List Bool} {l : Nat → Bool} (hl : ∀ k, u.getD k false = l k) :
    usfOf u r = (l (r.usfbits.getD 0 0)).toNat + 2 * (l (r.usfbits.getD 1 0)).toNat + 4 * (l (r.usfbits.getD 2 0)).toNat := by
  obtain ⟨x, y, z, hxyz⟩ := List.length_eq_three.mp hlen
  simp only [usfOf, gather, hxyz, List.take_succ_cons, List.take_zero, List.map_cons, List.map_nil, hl, bitsNum,
    List.getD_cons_zero, List.getD_cons_succ]
  omega

/-! ### The parts of the burst area (R180) -/

/-- The USF that `PDTCH_ENC` sends: that of the block, or 0 in a scheme without one. -/
def sentUsf (r : PdsRec) (l : List Bool) : Nat := if r.usfmode = .none then 0 else usfOf l r

/-- The parts of a `GEN` scheme's area: each sub-block at its cells, the separate USF at its own, the stealing flags. -/
def areaParts (rom : Rom) (r : PdsRec) (l : List Bool) : List (List Nat × List Bool) :=
  (subBlocks r).map (fun x => (placeCells rom x.2, subEncode rom r x.1 x.2 l (sentUsf r l)))
    ++ (if r.usfmode = .separate then [(usfCells rom r, usfPattern rom r (sentUsf r l))] else []) ++ [(r.sfpos, r.sfval)]

theorem pdtchArea_gen {rom : Rom} {r : PdsRec} (hk : r.kind = .gen) (o : List Byte) :
    pdtchArea rom r o = scatter (4 * pdsWidth r.psk8) false
      ((areaParts rom r (unpackBits false o (8 * o.length))).flatMap fun p => List.zip p.1 p.2) := by
  simp only [pdtchArea, hk, genAssignments, areaParts, List.flatMap_append, List.flatMap_map, List.flatMap_singleton]
  by_cases hm : r.usfmode = .separate
  · simp only [if_pos hm, List.flatMap_singleton]
    rfl
  · simp only [if_neg hm, List.flatMap_nil]
    rfl

/-- The parts have no cell in common (R176 (e)). -/
theorem areaParts_nodup {rom : Rom} {r : PdsRec} (h : cellsDisjoint rom r = true) (l : List Bool) :
    ((areaParts rom r l).flatMap (·.1)).Nodup := by
  have h' := of_decide_eq_true h
  simp only [areaParts, List.flatMap_append, List.flatMap_map, List.flatMap_singleton]
  by_cases hm : r.usfmode = .separate
  · simpa only [if_pos hm, List.flatMap_singleton] using h'
  · simpa only [if_neg hm, List.flatMap_nil] using h'

theorem sub_mem_areaParts {rom : Rom} {r : PdsRec} {i : Nat} {b : SubBlock} (h : (i, b) ∈ subBlocks r) (l : List Bool) :
    (placeCells rom b, subEncode rom r i b l (sentUsf r l)) ∈ areaParts rom r l :=
  List.mem_append_left _ (List.mem_append_left _ (List.mem_map.mpr ⟨_, h, rfl⟩))

theorem usf_mem_areaParts {rom : Rom} {r : PdsRec} (h : r.usfmode = .separate) (l : List Bool) :
    (usfCells rom r, usfPattern rom r (sentUsf r l)) ∈ areaParts rom r l :=
  List.mem_append_left _ (List.mem_append_right _ (by rw [if_pos h]; exact List.mem_singleton_self _))

/-- The cells that no part reaches. -/
theorem notMem_areaParts {rom : Rom} {r : PdsRec} {y : Nat} (hflags : y ∉ r.sfpos)
    (hsubs : ∀ i b, (i, b) ∈ subBlocks r → y ∉ placeCells rom b) (husf : r.usfmode = .separate → y ∉ usfCells rom r) (l : List Bool) :
    ∀ p ∈ areaParts rom r l, y ∉ p.1 := by
  intro p hp
  rcases List.mem_append.mp hp with hp | hp
  · rcases List.mem_append.mp hp with hp | hp
    · obtain ⟨x, hx, rfl⟩ := List.mem_map.mp hp
      exact hsubs x.1 x.2 hx
    · by_cases hm : r.usfmode = .separate
      · rw [if_pos hm] at hp
        obtain rfl := List.mem_singleton.mp hp
        exact husf hm
      · rw [if_neg hm] at hp
        cases hp
  · obtain rfl := List.mem_singleton.mp hp
    exact hflags

/-! ### The area under its stealing flags -/

/-- The flags are laid last, so they stand in either kind of scheme (R180 `S8`). -/
theorem pdtchArea_flags {rom : Rom} {r : PdsRec} (h : pdsWf rom r = true) (o : List Byte) {i x : Nat} (hi : r.sfpos[i]? = some x) :
    (pdtchArea rom r o).getD x false = r.sfval.getD i false := by
  obtain ⟨hpos, hval, hlt, hnodup⟩ := pdsWf_flags h
  have hi8 : i < r.sfval.length := hval.trans hpos.symm ▸ (List.getElem?_eq_some_iff.mp hi).1
  rw [List.getD_eq_getElem _ _ hi8]
  exact scatter_append_zip_getD _ hnodup hlt hi (List.getElem?_eq_getElem hi8)

/-- Away from the flags an xCCH scheme's area is four bursts (R180). -/
theorem pdtchArea_xcch {rom : Rom} {r : PdsRec} (h : pdsWf rom r = true) (hk : r.kind = .xcch) (o : List Byte) {B j : Nat} (hB : B < 4)
    (hj : j < 114) : (pdtchArea rom r o).getD (116 * B + burstPos j) false = (xcchEncode o).getD (114 * B + j) false := by
  obtain ⟨hpsk, -, hpos⟩ := pdsWf_xcch h hk
  have hlt := burstPos_lt hj
  rw [burstWidth] at hlt
  have hrows := xcchEncode_length o
  have hcell : (mapFour (xcchEncode o) false false)[116 * B + burstPos j]? = some ((xcchEncode o).getD (114 * B + j) false) := by
    rw [Nat.mul_comm, mapFour_getElem? hrows false false hB hlt, mapBurst_getElem?_burstPos (row_length hrows hB),
      burstAt_getElem? _ B hj, Nat.mul_comm, List.getD_eq_getElem _ _ (by omega), List.getElem?_eq_getElem]
  have hflags : 116 * B + burstPos j ∉ r.sfpos := by
    rw [hpos, gprsSfpos_eq_map, List.mem_map]
    rintro ⟨n, hn, he⟩
    have := burstPos_ne_flag j
    rw [List.mem_range] at hn
    omega
  have hkeys : 116 * B + burstPos j ∉ (List.zip r.sfpos r.sfval).map (·.1) := fun hm => by
    obtain ⟨w, hw, he⟩ := List.mem_map.mp hm
    exact hflags (he ▸ (List.of_mem_zip hw).1)
  simp only [pdtchArea, hk]
  rw [scatter_append_getD_left _ hkeys]
  have harea : 116 * B + burstPos j < 4 * pdsWidth r.psk8 := by
    rw [hpsk, pdsWidth_eq]
    show _ < 4 * 116
    omega
  exact scatter_zipIdx_getD hcell harea

/-! ### The work of `PDTCH_ENC` (R180) -/

theorem pdtchEncCmd_unsup {rom : Rom} {c : CoreInst} (hfit : Fits c.a0 c.a2.toNat .ob)
    (h : ∀ n r, schemeOfLength rom c.a2.toNat = some (n, r) → c.pdcfg.getLsbD n = false) :
    pdtchEncCmd rom c = c.ended { status := 0x00261102#32 } .s1 := by
  rw [pdtchEncCmd_eq, if_pos hfit]
  cases hs : schemeOfLength rom c.a2.toNat with
  | none => rfl
  | some x =>
    obtain ⟨n, r⟩ := x
    have hn := romPds_lt (schemeOfLength_eq_some_iff.mp hs).1
    exact if_neg (by rw [schemeEnabled_eq _ hn, h n r hs]; exact Bool.false_ne_true)

theorem pdtchEncCmd_scheme {rom : Rom} {c : CoreInst} {n : Nat} {r : PdsRec} (hfit : Fits c.a0 c.a2.toNat .ob)
    (hr : romPds rom n = some r) (hlen : r.octets = c.a2.toNat) (hen : c.pdcfg.getLsbD n = true) :
    pdtchEncCmd rom c =
      if Fits c.a1 (4 * pdsWidth r.psk8) .hb then
        (c.storeBits c.a1.toNat (pdtchArea rom r (c.load .ob c.a0.toNat c.a2.toNat))).ended
          { status := 0x0026D100#32, rlen := BitVec.ofNat 32 (4 * pdsWidth r.psk8)
            detid := BitVec.ofNat 32 (0x01000000 + 0x10000 * n) } .s13
      else c.ended { status := 0x00261112#32 } .s1 := by
  have hn := romPds_lt hr
  rw [pdtchEncCmd_eq, if_pos hfit, schemeOfLength_eq_some_iff.mpr ⟨hr, hlen⟩, ← detidScheme_zero (by omega)]
  exact if_pos ((schemeEnabled_eq _ hn).trans hen)

/-! ### The obligations -/

/-- Settles O52: the branches of `pdtchEncCmd_eq`, the scheme found by `schemeOfLength_eq_some_iff`. -/
theorem pdtchEncRule : Obligations.PdtchEncRule := by
  intro s c len hc hlen
  subst hlen
  refine ⟨fun hfit => ?_, fun hfit hoff => ?_, fun hfit hlen => ?_, fun n W r _ hr hlen hen hW hfit => ?_⟩
  · exact .of_work hc ((pdtchEncCmd_eq _ c).trans (if_neg hfit))
  · refine .of_work hc (pdtchEncCmd_unsup hfit fun n r hs => ?_)
    obtain ⟨hr, hlen⟩ := schemeOfLength_eq_some_iff.mp hs
    exact hoff n r hr hlen
  · refine .of_work hc (pdtchEncCmd_unsup hfit fun n r hs => ?_)
    rw [schemeOfLength_none _ hlen] at hs
    cases hs
  · rw [← pdsWidth_eq] at hW
    subst hW
    have hwork := pdtchEncCmd_scheme hfit hr hlen hen
    refine ⟨fun hdst => .of_work hc (hwork.trans (if_neg hdst)), fun hdst => ?_⟩
    exact .of_storeBits hc (hwork.trans (if_pos hdst)) (pdtchArea_length _ r _)

/-- Settles O53: the flags by `pdtchArea_flags`, the xCCH rows by `pdtchArea_xcch`, a `GEN` scheme part by part
(`scatter_parts_getD`). -/
theorem pdtchAreaLayout : Obligations.PdtchAreaLayout := by
  intro rom n W r o hrom hr ho hW area sub l u usf precode coded
  have hwf := romPds_wf hrom hr
  refine ⟨(pdtchArea_length rom r o).trans (hW ▸ rfl), fun i _ x hx => pdtchArea_flags hwf o hx, fun hk B hB j hj => ?_, fun hk => ?_⟩
  · rw [← burstPos_eq]
    exact pdtchArea_xcch hwf hk o hB hj
  obtain ⟨-, hsubs, husfWf, hcells, -⟩ := pdsWf_gen hwf hk
  have hl : ∀ k, (unpackBits false o (8 * o.length)).getD k false = l k := unpackBits_whole_getD o
  have hnodup := areaParts_nodup hcells (unpackBits false o (8 * o.length))
  have husf : sentUsf r (unpackBits false o (8 * o.length)) = usf := by
    by_cases hm : r.usfmode = .none
    · exact (if_pos hm).trans (if_pos hm).symm
    · exact (if_neg hm).trans ((usfOf_eq (usfWf_bits husfWf hm) hl).trans (if_neg hm).symm)
  have hcoded : ∀ i b, subEncode rom r i b (unpackBits false o (8 * o.length)) usf = coded i b := fun i b =>
    subEncode_eq rom r i b hl usf
  have harea : area = scatter (4 * pdsWidth r.psk8) false _ := pdtchArea_gen hk o
  refine ⟨fun i b hb k y hk => ?_, fun hm k y hk => ?_, fun y hflags hsub husf => ?_⟩
  · have hmem := mem_subBlocks.mpr hb
    have hpart := sub_mem_areaParts (rom := rom) hmem (unpackBits false o (8 * o.length))
    rw [husf, hcoded] at hpart
    rw [harea]
    exact scatter_parts_getD hnodup hpart (subWf_cells hrom (hsubs _ hmem)).1 hk
  · have hpart := usf_mem_areaParts (rom := rom) hm (unpackBits false o (8 * o.length))
    rw [husf] at hpart
    rw [harea]
    exact scatter_parts_getD hnodup hpart (usfWf_separate hrom husfWf hm).1 hk
  · rw [harea]
    exact scatter_parts_getD_of_notMem (notMem_areaParts hflags (fun i b hb => hsub i b (mem_subBlocks.mp hb)) husf _)

end Sys2Proof.Machine
end

section
/-! SUPPORT. Command `PDTCH_DEC` (R183): the USF it finds, the sub-blocks it decodes and checks (R179), the logical block it rebuilds, and
how it ends. -/

namespace Sys2Proof.Machine

/-! ### The USF (R178) -/

theorem romPat_wf {rom : Rom} (h : romTablesWf rom = true) {q : Nat} {p : PatDesc} (hp : romPat rom q = some p) :
    patWf p = true := by
  simp only [romTablesWf, Bool.and_eq_true] at h
  obtain ⟨⟨⟨⟨⟨⟨⟨-, hpat⟩, -⟩, -⟩, -⟩, -⟩, -⟩, -⟩ := h
  exact slot_of_all hpat hp

/-- The search in a well-formed pattern set finds one of its patterns. -/
theorem argmin_patterns_lt {p : PatDesc} (hp : patWf p = true) (dist : List Bool → Nat) : argmin (p.bits.map dist) < p.np :=
  (argmin_patterns (f := fun i => dist (p.bits.getD i [])) hp fun _ _ => rfl).1

/-- A scheme with a USF has eight patterns for it (R176). -/
theorem usfWf_patterns {rom : Rom} {r : PdsRec} (h : usfWf rom r = true) (hm : r.usfmode ≠ .none) :
    ∃ p, romPat rom r.usfpat = some p ∧ p.np = 8 := by
  unfold usfWf at h
  split at h
  case h_1 hnone => exact absurd hnone hm
  all_goals
    simp only [Bool.and_eq_true] at h
  case h_2 =>
    obtain ⟨⟨-, hpat⟩, -⟩ := h
    obtain ⟨p, hp, hnp⟩ := (Option.any_eq_true ..).mp hpat
    rw [Bool.and_eq_true, beq_iff_eq] at hnp
    exact ⟨p, hp, hnp.1⟩
  case h_3 =>
    obtain ⟨-, hpat⟩ := h
    obtain ⟨p, hp, hnp⟩ := (Option.any_eq_true ..).mp hpat
    rw [Bool.and_eq_true, beq_iff_eq] at hnp
    exact ⟨p, hp, hnp.1⟩

theorem usfDetect_lt {rom : Rom} (h : romTablesWf rom = true) {r : PdsRec} (hu : usfWf rom r = true) (hm : r.usfmode ≠ .none)
    (v : List Bool) : usfDetect rom r v < 8 := by
  obtain ⟨p, hp, hnp⟩ := usfWf_patterns hu hm
  rw [usfDetect, mindistHard, patRef, hp, ← hnp]
  exact argmin_patterns_lt (romPat_wf h hp) _

/-- The xCCH-coded scheme has no USF of its own (R177). -/
theorem romPds_xcch_usfmode {rom : Rom} {n : Nat} {r : PdsRec} (hr : romPds rom n = some r) (hk : r.kind = .xcch) :
    r.usfmode = .none := by
  obtain ⟨-, -, hzero, -⟩ := romPds_known hr
  obtain rfl := hzero.mp hk
  obtain rfl := Option.some.inj hr
  rfl

theorem findUsf_none {rom : Rom} {r : PdsRec} (hm : r.usfmode = .none) (area : List Int) (subs : List SubDecoded) :
    findUsf rom r area subs = none := by
  rw [findUsf, hm]

/-- What a decoder finds is one of the eight USF values. -/
theorem findUsf_lt {rom : Rom} (h : romTablesWf rom = true) {r : PdsRec} (hu : usfWf rom r = true) {area : List Int}
    {subs : List SubDecoded} {u : Nat} (hf : findUsf rom r area subs = some u) : u < 8 := by
  have hlt := usfDetect_lt h hu
  cases hm : r.usfmode with
  | none =>
    rw [findUsf_none hm] at hf
    cases hf
  | separate =>
    rw [findUsf, hm] at hf
    exact Option.some.inj hf ▸ hlt (by rw [hm]; nofun) _
  | inband =>
    rw [findUsf, hm] at hf
    obtain ⟨d, -, rfl⟩ := Option.map_eq_some_iff.mp hf
    exact hlt (by rw [hm]; nofun) _

theorem usfValid_eq (cfg : Word) {u : Nat} (hu : u < 8) : usfValid cfg u = cfg.getLsbD (16 + u) := by
  rw [usfValid, getField, Nat.testBit_mod_two_pow, decide_eq_true hu, Bool.true_and, Nat.testBit_div_two_pow, Nat.add_comm]
  rfl

/-- `DETID` of `PDTCH_DEC` as a sum (R17). -/
theorem pdtchDetid_eq {n : Nat} (hn : n < 13) {usf : Option Nat} (hu : ∀ u, usf = some u → u < 8) :
    pdtchDetid n usf = BitVec.ofNat 32 (0x01000000 + 0x10000 * n + (usf.map fun u => 0x100 + u).getD 0) := by
  cases usf with
  | none => exact detidScheme_zero (by omega)
  | some u =>
    have := hu u rfl
    exact detidId_detidScheme_zero (by omega) (by omega)

theorem usfOor_eq (cfg : Word) {usf : Option Nat} (hu : ∀ u, usf = some u → u < 8) :
    (usf.any fun u => !usfValid cfg u) = usf.any fun u => !cfg.getLsbD (16 + u) := by
  cases usf with
  | none => rfl
  | some u => exact congrArg Bool.not (usfValid_eq cfg (hu u rfl))

/-! ### The sub-blocks (R179) -/

/-- `sub_decode` of R179 in the words of the rule. -/
theorem subDecode_eq (rom : Rom) (b : SubBlock) (m : List Int) :
    subDecode rom b m =
      let c := convRef rom b.conv
      let w := (vit c (if b.p = true ∧ c.punc.isSome = true then depuncture 0 (puncTable c) m (nfull c) else m)).1
      if b.coded = true then (w, (errstat c w m b.p).1, m.length) else (m.map fun x => decide (x < 0), 0, 0) := by
  simp only [subDecode, decodeStats, vitInput_eq_ite]
  rfl

theorem usfBits_eq (usf : Nat) : usfBits usf = (List.range 3).map fun k => decide (usf / 2 ^ k % 2 = 1) := by
  simp only [usfBits, Nat.testBit_eq_decide_div_mod_eq]
  rfl

theorem usfBits_getD (usf : Nat) {k : Nat} (hk : k < 3) : (usfBits usf).getD k false = decide (usf / 2 ^ k % 2 = 1) := by
  rw [usfBits_eq, List.getD_eq_getElem?_getD, List.getElem?_map, List.getElem?_range hk]
  rfl

/-- `sub_check` of R179 in the words of the rule. -/
theorem subCheck_eq (rom : Rom) (r : PdsRec) (d : SubDecoded) (usf : Nat) :
    subCheck rom r d.num d.blk d.w usf =
      let bit : Nat → Bool := fun k => usf / 2 ^ k % 2 = 1
      let w := if d.num = 1 ∧ r.usfmode = .inband then [bit 0, bit 1, bit 2] ++ d.w.drop (patRef rom r.usfpat).w else d.w
      let v := w.take d.blk.ni
      let q := crcRef rom d.blk.crc
      (decide (crcBits q ((v.drop d.blk.protLo).take d.blk.protN) = (w.drop d.blk.ni).take q.bits), v) := by
  simp only [subCheck, if_congr carriesUsf_iff rfl rfl, usfBits_eq, crcCheck, protBits, beq_eq_decide]
  rfl

/-- The present sub-blocks stand in rising order of their numbers. -/
theorem subBlocks_nums_nodup (r : PdsRec) : ((subBlocks r).map (·.1)).Nodup := by
  have hsorted : (subBlocks r).Pairwise fun x y => x.1 < y.1 := by
    refine List.Pairwise.filterMap (R := fun x y => x.1 < y.1) _ (fun x y hxy a ha b hb => ?_) (by simp)
    obtain ⟨_, -, rfl⟩ := Option.map_eq_some_iff.mp ha
    obtain ⟨_, -, rfl⟩ := Option.map_eq_some_iff.mp hb
    exact hxy
  exact List.pairwise_map.mpr (hsorted.imp Nat.ne_of_lt)

theorem decodeSubs_nums (rom : Rom) (r : PdsRec) (area : List Int) :
    (decodeSubs rom r area).map (·.num) = (subBlocks r).map (·.1) := List.map_map

/-- `SUBST` after all checks of a scheme's sub-blocks (R17). -/
theorem subst_decodeSubs (rom : Rom) (r : PdsRec) (area : List Int) (check : SubDecoded → Bool × List Bool) :
    let checked := (decodeSubs rom r area).map fun d => (d, check d)
    checked.foldl (fun w x => substCheck w x.1.num x.2.1) 0#32 = BitVec.ofNat 32 ((checked.map fun x => 2 ^ x.1.num).sum
      + 0x100 * ((checked.filter fun x => x.2.1).map fun x => 2 ^ x.1.num).sum) := by
  intro checked
  have hnums : (checked.map fun x => x.1.num).Nodup := by
    rw [List.map_map]
    exact decodeSubs_nums rom r area ▸ subBlocks_nums_nodup r
  have hclear : ∀ x ∈ checked, x.1.num < 3 ∧ (0#32).getLsbD x.1.num = false ∧ (0#32).getLsbD (8 + x.1.num) = false :=
    fun x hx => by
      obtain ⟨d, hd, rfl⟩ := List.mem_map.mp hx
      exact ⟨decodeSubs_num_lt hd, BitVec.getLsbD_zero, BitVec.getLsbD_zero⟩
  rw [foldl_substCheck_eq_add (ok := fun x => x.2.1) hnums hclear, BitVec.zero_add]

/-- The sub-blocks of the USF's scheme: sub-block 1 is found by its number. -/
theorem decodeSubs_find_one (rom : Rom) {r : PdsRec} {b : SubBlock} (hb : r.sub1 = some b) (area : List Int) :
    (decodeSubs rom r area).find? (fun d => d.num == 1) =
      (let d := subDecode rom b (gather area 0 (placeCells rom b)); some ⟨1, b, d.1, d.2.1, d.2.2⟩) := by
  simp only [decodeSubs, subBlocks, hb]
  cases r.sub0 <;> rfl

/-! ### The logical block (R183 `S13`) -/

/-- The parts of the logical block: the information bits of each sub-block at the places it gathers, the separate USF at its own. -/
def blockParts (r : PdsRec) (checked : List (SubDecoded × Bool × List Bool)) (usf : Nat) : List (List Nat × List Bool) :=
  checked.map (fun x => (x.1.blk.gather, x.2.2)) ++ (if r.usfmode = .separate then [(r.usfbits, usfBits usf)] else [])

theorem blockAssignments_eq (r : PdsRec) (checked : List (SubDecoded × Bool × List Bool)) (usf : Nat) :
    blockAssignments r checked usf = (blockParts r checked usf).flatMap fun p => List.zip p.1 p.2 := by
  simp only [blockAssignments, blockParts, List.flatMap_append, List.flatMap_map]
  by_cases hm : r.usfmode = .separate
  · simp only [if_pos hm, List.flatMap_singleton]
  · simp only [if_neg hm, List.flatMap_nil]

/-- The parts have no bit in common (R176 (f)). -/
theorem blockParts_nodup {rom : Rom} {r : PdsRec} (h : gatherDisjoint r = true) (area : List Int)
    (check : SubDecoded → Bool × List Bool) (usf : Nat) :
    ((blockParts r ((decodeSubs rom r area).map fun d => (d, check d)) usf).flatMap (·.1)).Nodup := by
  have h' := of_decide_eq_true h
  simp only [blockParts, decodeSubs, List.flatMap_append, List.flatMap_map]
  by_cases hm : r.usfmode = .separate
  · simpa only [if_pos hm, List.flatMap_singleton] using h'
  · simpa only [if_neg hm, List.flatMap_nil] using h'

/-! ### How `PDTCH_DEC` ends -/

/-- A decoder that reports the same results whether its checks pass or not, but for the code and `RLEN`. -/
theorem ends_of_decoded {i : Instr} {s : State} {c : CoreInst} {ok : Bool} {o : List Byte} {n : Nat} {r : Bool → Results}
    {st st' : Stage} (hc : s.cur? = some c)
    (hw : work s.params.rom i c = if ok then (c.storeVec .ob c.a1.toNat o).ended (r ok) st else c.ended (r ok) st')
    (hlen : o.length = n) :
    (ok = true → EndsStoring i s c (r true) .ob fun k v => ∃ q < n, k = c.a1.toNat + q ∧ v = o.getD q 0#8)
      ∧ (ok = false → Ends i s c (r false)) := by
  refine ⟨fun hok => ?_, fun hok => ?_⟩
  · subst hok
    exact .of_storeVec hc (hw.trans (if_pos rfl)) (fun _ _ => rfl) hlen
  · subst hok
    exact .of_work hc (hw.trans (if_neg nofun))

end Sys2Proof.Machine
end

section
/-! SUPPORT. The outcomes of `PDTCH_DEC` (R183, R185) in the words of its rule, and what its transforms find (R179). -/

namespace Sys2Proof.Machine

/-! ### How it ends -/

theorem pdtchDecCmd_undetected {rom : Rom} {psk8 : Bool} {c : CoreInst}
    (hfit : Fits c.a0 (4 * pdsWidth psk8) .sb ∧ Fits c.a1 (lmax psk8) .ob)
    (hdet : detectScheme (candidates rom psk8 c.pdcfg) (c.loadSoft c.a0.toNat (4 * pdsWidth psk8)) = none) :
    pdtchDecCmd rom psk8 c = c.ended { status := 0x00271102#32 } .s1 := by
  rw [pdtchDecCmd_eq, if_pos hfit]
  simp only [hdet]

section
variable {psk8 : Bool} {s : State} {c : CoreInst} {area : List Int} {n : Nat} {r : PdsRec}
  (hc : s.cur? = some c) (hfit : Fits c.a0 (4 * pdsWidth psk8) .sb ∧ Fits c.a1 (lmax psk8) .ob)
  (harea : c.loadSoft c.a0.toNat (4 * pdsWidth psk8) = area)
  (hdet : detectScheme (candidates s.params.rom psk8 c.pdcfg) area = some (n, r))
include hfit harea hdet

/-- What `PDTCH_DEC` does once its scheme is detected. -/
theorem pdtchDecCmd_detected :
    pdtchDecCmd s.params.rom psk8 c =
      let usf := findUsf s.params.rom r area (if r.kind = .gen then decodeSubs s.params.rom r area else [])
      let oor := usf.any fun u => !usfValid c.pdcfg u
      let mid := c.midDecode (pdtchDetid n usf) (stealHard ((gather area 0 r.sfpos).map hardOf))
      if r.kind = .gen then pdtchDecGen s.params.rom r (decodeSubs s.params.rom r area) (usf.getD 0) oor mid
      else pdtchDecXcch r area oor mid := by
  rw [pdtchDecCmd_eq, if_pos hfit]
  simp only [harea, hdet]
  cases r.kind
  · rfl
  · rfl

variable {usf : Option Nat} {oor : Bool} {detid steal : Word}
  (husf : findUsf s.params.rom r area (if r.kind = .gen then decodeSubs s.params.rom r area else []) = usf)
  (hoor : (usf.any fun u => !usfValid c.pdcfg u) = oor) (hdetid : pdtchDetid n usf = detid)
  (hsteal : stealHard ((gather area 0 r.sfpos).map hardOf) = steal)
include hc husf hoor hdetid hsteal

/-- How `PDTCH_DEC` ends for the xCCH-coded scheme. -/
theorem pdtchDec_xcch_ends (hk : r.kind = .xcch) (hoct : r.octets = 23) :
    let x := xcchDecode (unmapFour area)
    let res := fun ok => pdtchResults ok oor 23 x.ne 456 detid steal (if ok then 0x00000202#32 else 0x00000002#32)
    (x.ok = true → EndsStoring (.pdtchDec psk8) s c (res true) .ob fun k v =>
        ∃ q < 23, k = c.a1.toNat + q ∧ v = x.octets.getD q 0#8)
      ∧ (x.ok = false → Ends (.pdtchDec psk8) s c (res false)) := by
  intro x res
  have hsubst : ∀ ok, substCheck 0#32 1 ok = if ok then 0x00000202#32 else 0x00000002#32 := by decide
  have hwork := pdtchDecCmd_detected hfit harea hdet
  simp only [husf, hdetid, hoor, hsteal] at hwork
  rw [if_neg (by rw [hk]; nofun), pdtchDecXcch_eq] at hwork
  simp only [xcchDecode_nb, hoct, hsubst] at hwork
  exact ends_of_decoded (i := .pdtchDec psk8) (r := res) hc hwork (xcchDecode_octets_length _)

/-- How `PDTCH_DEC` ends for a scheme with sub-blocks. -/
theorem pdtchDec_gen_ends (hk : r.kind = .gen) :
    let subs := decodeSubs s.params.rom r area
    let checked := subs.map fun d => (d, subCheck s.params.rom r d.num d.blk d.w (usf.getD 0))
    let chk := (checked.map fun x => 2 ^ x.1.num).sum
    let pass := ((checked.filter fun x => x.2.1).map fun x => 2 ^ x.1.num).sum
    let l := scatter (8 * r.octets) false (blockAssignments r checked (usf.getD 0))
    let res := fun ok => pdtchResults ok oor r.octets (subs.map fun d => d.ne).sum (subs.map fun d => d.nb).sum detid steal
      (BitVec.ofNat 32 (chk + 0x100 * pass))
    ((∀ x ∈ checked, x.2.1 = true) → EndsStoring (.pdtchDec psk8) s c (res true) .ob fun k v =>
        ∃ q < r.octets, k = c.a1.toNat + q ∧ v = (packBits false l).getD q 0#8)
      ∧ ((∃ x ∈ checked, x.2.1 = false) → Ends (.pdtchDec psk8) s c (res false)) := by
  intro subs checked chk pass l res
  have hwork := pdtchDecCmd_detected hfit harea hdet
  simp only [husf, hdetid, hoor, hsteal] at hwork
  rw [if_pos hk, pdtchDecGen_eq] at hwork
  simp only [subst_decodeSubs] at hwork
  obtain ⟨hpass, hfail⟩ :=
    ends_of_decoded (i := .pdtchDec psk8) (r := res) hc hwork (packBits_octets_length (scatter_length _ _ _))
  refine ⟨fun h => hpass (List.all_eq_true.mpr h), fun ⟨x, hx, hf⟩ => hfail ?_⟩
  exact List.all_eq_false.mpr ⟨x, hx, by rw [hf]; nofun⟩

end

/-! ### What the transforms find (R179) -/

/-- The decoded sub-block in the words of R179. -/
def decodedSub (rom : Rom) (area : List Int) (i : Nat) (b : SubBlock) : SubDecoded :=
  let d := subDecode rom b (gather area 0 (placeCells rom b))
  ⟨i, b, d.1, d.2.1, d.2.2⟩

theorem decodeSubs_eq (rom : Rom) (r : PdsRec) (area : List Int) :
    decodeSubs rom r area
      = [0, 1, 2].filterMap fun i => ([r.sub0, r.sub1, r.sub2].getD i none).map (decodedSub rom area i) := by
  simp only [decodeSubs, subBlocks]
  cases r.sub0 <;> cases r.sub1 <;> cases r.sub2 <;> rfl

theorem findUsf_separate {rom : Rom} {r : PdsRec} (hm : r.usfmode = .separate) (area : List Int) (subs : List SubDecoded) :
    findUsf rom r area subs
      = some (usfDetect rom r ((permRef rom r.usfplace).map.map fun y => decide (area.getD y 0 < 0))) := by
  rw [findUsf, hm, usfCells, gather, List.map_map]
  rfl

theorem findUsf_inband {rom : Rom} {r : PdsRec} (hm : r.usfmode = .inband) {b : SubBlock} (hb : r.sub1 = some b)
    (area : List Int) :
    findUsf rom r area (decodeSubs rom r area)
      = some (usfDetect rom r ((decodedSub rom area 1 b).w.take (patRef rom r.usfpat).w)) := by
  rw [findUsf, hm]
  simp only [decodeSubs_find_one rom hb]
  rfl

/-! ### The rebuilt block (R183 `S13`) -/

section
variable {r : PdsRec} {subs : List SubDecoded} {check : SubDecoded → Bool × List Bool} {usf : Nat}

theorem sub_mem_blockParts {d : SubDecoded} (h : d ∈ subs) :
    (d.blk.gather, (check d).2) ∈ blockParts r (subs.map fun d => (d, check d)) usf :=
  List.mem_append_left _ (List.mem_map.mpr ⟨_, List.mem_map.mpr ⟨d, h, rfl⟩, rfl⟩)

theorem usf_mem_blockParts (h : r.usfmode = .separate) :
    (r.usfbits, usfBits usf) ∈ blockParts r (subs.map fun d => (d, check d)) usf :=
  List.mem_append_right _ (by rw [if_pos h]; exact List.mem_singleton_self _)

/-- The bits of the block that no part reaches. -/
theorem notMem_blockParts {y : Nat} (hsubs : ∀ d ∈ subs, y ∉ d.blk.gather) (husf : r.usfmode = .separate → y ∉ r.usfbits) :
    ∀ p ∈ blockParts r (subs.map fun d => (d, check d)) usf, y ∉ p.1 := by
  intro p hp
  rcases List.mem_append.mp hp with hp | hp
  · obtain ⟨x, hx, rfl⟩ := List.mem_map.mp hp
    obtain ⟨d, hd, rfl⟩ := List.mem_map.mp hx
    exact hsubs d hd
  · by_cases hm : r.usfmode = .separate
    · rw [if_pos hm] at hp
      obtain rfl := List.mem_singleton.mp hp
      exact husf hm
    · rw [if_neg hm] at hp
      cases hp

end

section
variable {rom : Rom} {n : Nat} {r : PdsRec} (hrom : romTablesWf rom = true) (hr : romPds rom n = some r) (hk : r.kind = .gen)
include hrom hr hk

/-- The logical block that `PDTCH_DEC` rebuilds: octets whose bits are those of the parts, 0 where no part reaches. -/
theorem blockBits {area : List Int} {check : SubDecoded → Bool × List Bool} {usf : Nat} {o : List Byte}
    (ho : packBits false (scatter (8 * r.octets) false
      (blockAssignments r ((decodeSubs rom r area).map fun d => (d, check d)) usf)) = o) :
    o.length = r.octets
      ∧ (∀ d ∈ decodeSubs rom r area, ∀ k y, d.blk.gather[k]? = some y →
          (o.getD (y / 8) 0#8).getLsbD (y % 8) = (check d).2.getD k false)
      ∧ (r.usfmode = .separate → ∀ k y, r.usfbits[k]? = some y →
          (o.getD (y / 8) 0#8).getLsbD (y % 8) = (usfBits usf).getD k false)
      ∧ ∀ y, (∀ d ∈ decodeSubs rom r area, y ∉ d.blk.gather) → (r.usfmode = .separate → y ∉ r.usfbits) →
          (o.getD (y / 8) 0#8).getLsbD (y % 8) = false := by
  subst ho
  obtain ⟨-, hsubs, husf, -, hgather⟩ := pdsWf_gen (romPds_wf hrom hr) hk
  have hnodup := blockParts_nodup (rom := rom) hgather area check usf
  simp only [blockAssignments_eq, packBits_bit]
  refine ⟨packBits_octets_length (scatter_length _ _ _), fun d hd k y hky => ?_, fun hm k y hky => ?_, fun y hd hm => ?_⟩
  · obtain ⟨x, hx, rfl⟩ := List.mem_map.mp hd
    exact scatter_parts_getD hnodup (sub_mem_blockParts hd) (subWf_cells hrom (hsubs x hx)).2.1 hky
  · exact scatter_parts_getD hnodup (usf_mem_blockParts hm) (usfWf_separate hrom husf hm).2 hky
  · exact scatter_parts_getD_of_notMem (notMem_blockParts hd hm)

end

/-! ### The obligation -/

/-- Settles O55: the branches of `pdtchDecCmd_eq` with `pdtchDec_xcch_ends` and `pdtchDec_gen_ends`; the transforms by `subDecode_eq`
and `subCheck_eq`, the rebuilt block by `blockBits`. -/
theorem pdtchDecRule : Obligations.PdtchDecRule := by
  refine ⟨fun psk8 s c W lm hc hW hlm => ?_, fun rom n r area hrom hr hk => ?_⟩
  · rw [← pdsWidth_eq] at hW
    rw [← lmax_eq] at hlm
    subst hW hlm
    refine ⟨fun hfit => .of_work hc ((pdtchDecCmd_eq _ psk8 c).trans (if_neg hfit)), fun hsrc hdst => ?_⟩
    intro rom area
    have hfit := And.intro hsrc hdst
    refine ⟨fun hdet => .of_work hc (pdtchDecCmd_undetected hfit hdet), fun n r hdet => ?_⟩
    intro flags steal subs usf oor detid okStatus failStatus hrom
    obtain ⟨hr, hpsk, -⟩ := detectScheme_some hdet
    have hwf := romPds_wf hrom hr
    have husf8 : ∀ u, usf = some u → u < 8 := fun u hu => by
      cases hk : r.kind with
      | xcch =>
        rw [show usf = none from findUsf_none (romPds_xcch_usfmode hr hk) _ _] at hu
        cases hu
      | gen =>
        obtain ⟨-, -, husfWf, -⟩ := pdsWf_gen hwf hk
        exact findUsf_lt hrom husfWf hu
    have hdetid : pdtchDetid n usf = detid := pdtchDetid_eq (romPds_lt hr) husf8
    have hoor : _ = oor := usfOor_eq c.pdcfg husf8
    have hsteal : stealHard ((gather area 0 r.sfpos).map hardOf) = steal := by
      rw [gather, List.map_map]
      rfl
    refine ⟨fun hn => ?_, fun hk => ?_, fun hk => ?_⟩
    · have hcells : burstFlagCells r.psk8 = flags := by
        rw [hpsk]
        rfl
      exact (hn.elim (romPds_gprs_sfpos hr) fun hw => romWf_sfpos hw hr).trans hcells
    · obtain ⟨-, hoct, -⟩ := pdsWf_xcch hwf hk
      exact pdtchDec_xcch_ends hc hfit rfl hdet rfl hoor hdetid hsteal hk hoct
    · have hsubs : decodeSubs rom r area = subs := (if_pos hk).symm
      rw [← hsubs]
      exact pdtchDec_gen_ends hc hfit rfl hdet rfl hoor hdetid hsteal hk
  · intro sub decoded subs
    have hdecoded : decodedSub rom area = decoded := by
      funext i b
      simp only [decodedSub, subDecode_eq, decoded]
      cases b.coded
      · rfl
      · rfl
    obtain ⟨hsub1, -, husfWf, -⟩ := pdsWf_gen (romPds_wf hrom hr) hk
    refine ⟨hdecoded ▸ decodeSubs_eq rom r area, fun hm => findUsf_none hm _ _, fun hm => findUsf_separate hm _ _, fun hm => ?_,
      fun usf => ?_⟩
    · obtain ⟨b, hb⟩ := Option.isSome_iff_exists.mp hsub1
      exact ⟨b, hb, hdecoded ▸ findUsf_inband hm hb area⟩
    · intro bit check o l
      have hcheck : ∀ d, subCheck rom r d.num d.blk d.w usf = check d := fun d => subCheck_eq rom r d usf
      obtain ⟨hlen, hsubs, husf, hzero⟩ :=
        blockBits hrom hr hk (check := fun d => subCheck rom r d.num d.blk d.w usf) (usf := usf) (o := o) rfl
      refine ⟨fun d _ => hcheck d, hlen, fun d hd k y hy => ?_, fun hm k y hy => ?_, hzero⟩
      · rw [← hcheck]
        exact hsubs d hd k y hy
      · have hk3 : k < 3 := usfWf_bits husfWf (by rw [hm]; nofun) ▸ (List.getElem?_eq_some_iff.mp hy).1
        exact (husf hm k y hy).trans (usfBits_getD usf hk3)

end Sys2Proof.Machine
end

section
/-! SUPPORT. What the well-formed tables of a ROM say of TCH scheme records (R196) and of geometries (R197), and the block of coded
bits and flags that `TCH_ENC` stores in one (R198). -/

namespace Sys2Proof.Machine

/-! ### Geometries (R197) -/

/-- A placement of a well-formed `TABLE` geometry: its cells and flags are different, and there is a cell for each of its bits. -/
theorem placementWf_nodup {rom : Rom} (h : romTablesWf rom = true) {place : Nat} {flags : List Nat}
    (hp : placementWf rom place flags = true) : ((permRef rom place).map ++ flags).Nodup := by
  obtain ⟨r, hr, hwf⟩ := (Option.any_eq_true ..).mp hp
  simp only [Bool.and_eq_true, beq_iff_eq, List.all_eq_true, decide_eq_true_eq, Bool.not_eq_true', List.contains_eq_mem,
    decide_eq_false_iff_not] at hwf
  obtain ⟨⟨-, hapart⟩, hflags⟩ := hwf
  have href : permRef rom place = r := by rw [permRef, hr]; rfl
  rw [href, List.nodup_append]
  exact ⟨permWf_nodup (romPerm_wf h hr), hflags, fun x hx y hy hxy => (hapart y hy).2 (hxy ▸ hx)⟩

/-- The conditions on a `TABLE` geometry (R197). -/
theorem tableWf_parts {rom : Rom} {g : TableGeom} (h : tableWf rom g = true) :
    placementWf rom g.splace g.sflags = true ∧ placementWf rom g.fplace g.fflags = true
      ∧ (romPerm rom g.fplace).any (fun r => r.nin == 456) = true ∧ g.fflags.length ≤ 8 := by
  simpa only [tableWf, Bool.and_eq_true, decide_eq_true_eq, and_assoc] using h

/-- A property of the diagonal geometry and of every well-formed `TABLE` geometry holds in every mode. -/
theorem romTcg_cases {rom : Rom} (h : romTablesWf rom = true) {p : Geom → Prop} (hdiag : p .diag8)
    (htable : ∀ t, tableWf rom t = true → p (.table t)) (m : Nat) : p (romTcg rom m) := by
  obtain ⟨-, -, -, hhr, hahr⟩ := romTablesWf_parts h
  unfold romTcg
  split
  · exact htable _ hhr
  · split
    · exact htable _ hahr
    · exact hdiag

theorem romTcg_nodup {rom : Rom} (h : romTablesWf rom = true) (m : Nat) :
    (speechCells rom (romTcg rom m) ++ speechFlags (romTcg rom m)).Nodup
      ∧ (facchCells rom (romTcg rom m) ++ facchFlags (romTcg rom m)).Nodup :=
  romTcg_cases h (p := fun g => (speechCells rom g ++ speechFlags g).Nodup ∧ (facchCells rom g ++ facchFlags g).Nodup)
    ⟨diagCells_flags_nodup, diagCells_flags_nodup⟩
    (fun _ ht => ⟨placementWf_nodup h (tableWf_parts ht).1, placementWf_nodup h (tableWf_parts ht).2.1⟩) m

theorem facchCells_length {rom : Rom} (h : romTablesWf rom = true) (m : Nat) : (facchCells rom (romTcg rom m)).length = 456 := by
  refine romTcg_cases h (p := fun g => (facchCells rom g).length = 456) ?_ (fun t ht => ?_) m
  · rw [facchCells, diagCells, List.length_map, List.length_range]
  · obtain ⟨-, -, hnin, -⟩ := tableWf_parts ht
    obtain ⟨r, hr, hr456⟩ := (Option.any_eq_true ..).mp hnin
    rw [facchCells, permRef, hr]
    exact (permWf_map (romPerm_wf h hr)).1.trans (beq_iff_eq.mp hr456)

theorem facchFlags_length_le {rom : Rom} (h : romTablesWf rom = true) (m : Nat) : (facchFlags (romTcg rom m)).length ≤ 8 :=
  romTcg_cases h (p := fun g => (facchFlags g).length ≤ 8) (by decide) (fun _ ht => (tableWf_parts ht).2.2.2) m

/-! ### Scheme records (R196) -/

theorem romTcs_lt {rom : Rom} {n : Nat} {t : TcsRec} (h : romTcs rom n = some t) : n < 17 :=
  (List.getElem?_eq_some_iff.mp (romTcs_known h)).1

theorem romTcs_wf {rom : Rom} (h : romTablesWf rom = true) {n : Nat} {t : TcsRec} (ht : romTcs rom n = some t) :
    tcsWf rom n t = true := by
  obtain ⟨-, -, htcs, -⟩ := romTablesWf_parts h
  have hn := htcs n (Nat.lt_trans (romTcs_lt ht) (by decide))
  rw [ht, Option.all_some, Bool.and_eq_true] at hn
  exact hn.1

/-- The speech bits of a frame and what its inner CRC reads (R196). -/
theorem tcsWf_frame {rom : Rom} {n : Nat} {t : TcsRec} (h : tcsWf rom n t = true) :
    t.octets ≠ 23 ∧ t.nd ≤ 8 * t.octets ∧ ∀ i, t.inner = some i → ∀ x ∈ i.sel, x < t.nd := by
  simp only [tcsWf, Bool.and_eq_true, decide_eq_true_eq, bne_iff_ne] at h
  obtain ⟨⟨⟨⟨⟨⟨⟨⟨⟨hoct, hnd⟩, hinner⟩, -⟩, -⟩, -⟩, -⟩, -⟩, -⟩, -⟩ := h
  refine ⟨hoct, hnd, fun i hi x hx => ?_⟩
  rw [innerWf, hi, Option.all_some, Bool.and_eq_true] at hinner
  exact of_decide_eq_true (List.all_eq_true.mp hinner.2 x hx)

/-- The class order of a record is a permutation of its expanded bits (R196). -/
theorem tcsWf_order {rom : Rom} (hrom : romTablesWf rom = true) {n : Nat} {t : TcsRec} (h : tcsWf rom n t = true) :
    (permRef rom t.order).map.length = t.expand.length ∧ (permRef rom t.order).map.Nodup
      ∧ ∀ x ∈ (permRef rom t.order).map, x < t.expand.length := by
  simp only [tcsWf, Bool.and_eq_true] at h
  obtain ⟨⟨⟨⟨⟨⟨-, horder⟩, -⟩, -⟩, -⟩, -⟩, -⟩ := h
  obtain ⟨r, hr, hlen⟩ := (Option.any_eq_true ..).mp horder
  rw [Bool.and_eq_true, beq_iff_eq, beq_iff_eq] at hlen
  have hwf := romPerm_wf hrom hr
  obtain ⟨hmap, hlt⟩ := permWf_map hwf
  rw [permRef, hr]
  exact ⟨hmap.trans hlen.1, permWf_nodup hwf, fun x hx => hlen.2 ▸ hlt x hx⟩

/-- The coding of class 1 (R196). -/
theorem tcsWf_coding {rom : Rom} {n : Nat} {t : TcsRec} (h : tcsWf rom n t = true) :
    t.nprot ≤ t.n1 ∧ t.n1 ≤ t.expand.length
      ∧ ∃ c, romConv rom t.conv = some c ∧ c.len = t.n1 + (crcRef rom t.crc).bits := by
  simp only [tcsWf, Bool.and_eq_true, decide_eq_true_eq] at h
  obtain ⟨⟨⟨⟨⟨-, hprot⟩, -⟩, hconv⟩, -⟩, -⟩ := h
  obtain ⟨c, hc, hlen⟩ := (Option.any_eq_true ..).mp hconv
  rw [Bool.and_eq_true, beq_iff_eq] at hlen
  exact ⟨hprot.1, hprot.2, c, hc, hlen.1⟩

/-- The in-band codewords of a record, none below slot 3, and the number of its coded bits (R196). -/
theorem tcsWf_idpat {rom : Rom} {n : Nat} {t : TcsRec} (h : tcsWf rom n t = true) :
    (n ≤ 2 → t.idpat = none) ∧ (3 ≤ n → ∃ q p, t.idpat = some q ∧ romPat rom q = some p)
      ∧ speechNc rom t = (speechCells rom (romTcg rom (modeOfSlot n))).length := by
  simp only [tcsWf, Bool.and_eq_true, beq_iff_eq] at h
  obtain ⟨⟨-, hid⟩, hnc⟩ := h
  refine ⟨fun hn => ?_, fun hn => ?_, hnc⟩
  · rw [if_pos hn] at hid
    exact Option.isNone_iff_eq_none.mp hid
  · rw [if_neg (by omega)] at hid
    obtain ⟨p, hp, -⟩ := (Option.any_eq_true ..).mp hid
    obtain ⟨q, hq, hp⟩ := Option.bind_eq_some_iff.mp hp
    exact ⟨q, p, hq, hp⟩

/-- The slots of a channel mode (R196, R198). -/
def modeSlots (m : Nat) : List Nat := if m ≤ 2 then [m] else amrRange m

theorem mem_modeSlots {m n : Nat} : n ∈ modeSlots m ↔ if m ≤ 2 then n = m else n ∈ amrRange m := by
  unfold modeSlots
  split
  · exact List.mem_singleton
  · exact Iff.rfl

theorem modeOfSlot_of_mem {m n : Nat} (hm : m ≤ 4) (hn : n ∈ modeSlots m) : modeOfSlot n = m := by
  have hall : ∀ m ≤ 4, ∀ n ∈ modeSlots m, modeOfSlot n = m := by decide
  exact hall m hm n hn

/-- The records of a mode have different lengths (R196, R205). -/
theorem modeSlots_octets_inj {rom : Rom} {m n n' : Nat} {t t' : TcsRec} (hn : n ∈ modeSlots m) (hn' : n' ∈ modeSlots m)
    (ht : romTcs rom n = some t) (ht' : romTcs rom n' = some t') (hoct : t.octets = t'.octets) : n = n' := by
  have hknown : ([33, 31, 14] ++ amrOctets ++ amrOctets.take 6)[n]? = ([33, 31, 14] ++ amrOctets ++ amrOctets.take 6)[n']? := by
    rw [romTcs_known ht, romTcs_known ht', hoct]
  have hamr : ∀ m, ∀ k ∈ amrRange m, k < 17 → ∀ k' ∈ amrRange m, k' < 17 →
      ([33, 31, 14] ++ amrOctets ++ amrOctets.take 6)[k]? = ([33, 31, 14] ++ amrOctets ++ amrOctets.take 6)[k']? → k = k' := by
    intro m
    unfold amrRange
    split
    · decide
    · decide
  rw [mem_modeSlots] at hn hn'
  split at hn
  · rw [if_pos ‹_›] at hn'
    exact hn.trans hn'.symm
  · rw [if_neg ‹_›] at hn'
    exact hamr m n hn (romTcs_lt ht) n' hn' (romTcs_lt ht') hknown

theorem speechScheme_eq_some_iff {rom : Rom} {m len n : Nat} {t : TcsRec} :
    speechScheme rom m len = some (n, t) ↔ n ∈ modeSlots m ∧ romTcs rom n = some t ∧ t.octets = len := by
  have hfound : ∀ {k x}, speechScheme rom m len = some (k, x) → k ∈ modeSlots m ∧ romTcs rom k = some x ∧ x.octets = len :=
    fun {k x} h => by
      obtain ⟨_, hmem, hk⟩ := List.exists_of_findSome?_eq_some h
      simp only [Option.bind_eq_some_iff, Option.ite_none_right_eq_some, Option.some.injEq, Prod.mk.injEq] at hk
      obtain ⟨_, hx, hlen, rfl, rfl⟩ := hk
      exact ⟨hmem, hx, hlen⟩
  refine ⟨hfound, fun ⟨hn, ht, hlen⟩ => ?_⟩
  cases hs : speechScheme rom m len with
  | none =>
    have := List.findSome?_eq_none_iff.mp hs n hn
    rw [ht, Option.bind_some, if_pos hlen] at this
    cases this
  | some y =>
    obtain ⟨k, x⟩ := y
    obtain ⟨hk, hx, hxlen⟩ := hfound hs
    obtain rfl := modeSlots_octets_inj hk hn hx ht (hxlen.trans hlen.symm)
    rw [Option.some.inj (hx.symm.trans ht)]

/-! ### The stored block (R198) -/

theorem mem_tchCells {a : Nat} {cells flags : List Nat} {cB : List Bool} {facch : Bool} (hlen : cells.length ≤ cB.length) {k : Nat}
    {v : Byte} :
    (k, v) ∈ tchCells a cells flags cB facch ↔
      (∃ j x, cells[j]? = some x ∧ k = a + x ∧ v = bitByte (cB.getD j false)) ∨ ∃ f ∈ flags, k = a + f ∧ v = bitByte facch := by
  rw [tchCells, List.mem_append]
  refine or_congr ?_ ?_
  · rw [List.mem_iff_getElem?]
    refine exists_congr fun j => ?_
    rw [List.getElem?_zip_eq_some, List.getElem?_map, List.getElem?_map, Option.map_eq_some_iff, Option.map_eq_some_iff]
    constructor
    · rintro ⟨⟨x, hx, rfl⟩, b, hb, rfl⟩
      exact ⟨x, hx, rfl, by rw [List.getD_eq_getElem?_getD, hb, Option.getD_some]⟩
    · rintro ⟨x, hx, rfl, rfl⟩
      have hj := Nat.lt_of_lt_of_le (List.getElem?_eq_some_iff.mp hx).1 hlen
      exact ⟨⟨x, hx, rfl⟩, cB[j], List.getElem?_eq_getElem hj, by rw [List.getD_eq_getElem _ _ hj]⟩
  · simp only [List.mem_map, Prod.mk.injEq]
    exact exists_congr fun f => and_congr_right fun _ => and_congr eq_comm eq_comm

theorem tchCells_length {a : Nat} {cells flags : List Nat} {cB : List Bool} {facch : Bool} (hlen : cells.length ≤ cB.length) :
    (tchCells a cells flags cB facch).length = cells.length + flags.length := by
  simp [tchCells, hlen]

/-- A command that stores a block of coded bits and flags, and reports how many cells it stored. -/
theorem EndsStoring.of_tchCells {i : Instr} {s : State} {c : CoreInst} {status detid : Word} {a : Nat} {cells flags : List Nat}
    {cB : List Bool} {facch : Bool} {st : Stage} (hc : s.cur? = some c)
    (hw : work s.params.rom i c = (c.store .hb (tchCells a cells flags cB facch)).ended
      { status := status, rlen := BitVec.ofNat 32 (tchCells a cells flags cB facch).length, detid := detid } st)
    (hn : (cells ++ flags).Nodup) (hlen : cells.length ≤ cB.length) :
    EndsStoring i s c { status := status, rlen := BitVec.ofNat 32 (cells.length + flags.length), detid := detid } .hb fun k v =>
      (∃ j x, cells[j]? = some x ∧ k = a + x ∧ v = bitByte (cB.getD j false)) ∨ ∃ f ∈ flags, k = a + f ∧ v = bitByte facch := by
  have hkeys : (tchCells a cells flags cB facch).map (·.1) = (cells ++ flags).map (a + ·) := by
    rw [tchCells, List.map_append, List.map_fst_zip (by simpa using hlen), List.map_map, List.map_append]
    rfl
  rw [← tchCells_length (a := a) (facch := facch) hlen]
  refine (EndsStoring.of_store hc hw ?_ fun x hx => ?_).congr fun k v => mem_tchCells hlen
  · rw [hkeys]
    exact hn.map fun x y => Nat.add_left_cancel
  · obtain ⟨j, y, -, -, hv⟩ | ⟨f, -, -, hv⟩ := (mem_tchCells hlen (k := x.1) (v := x.2)).mp hx
    · rw [hv, cellForm_bitByte]
    · rw [hv, cellForm_bitByte]

end Sys2Proof.Machine
end

section
/-! SUPPORT. Command `TCH_ENC` (R198): the FACCH block, the AMR tests, and the coded bits of a speech frame (R201). -/

namespace Sys2Proof.Machine

/-! ### The slots of `AMRCFG` (R198, R202) -/

theorem amrSlot_eq_ite (cfg : Word) (i : Nat) :
    amrSlot cfg i = if cfg.getLsbD (4 * i + 3) = true then some (getField cfg (4 * i) 3) else none := rfl

theorem slotInvalid_eq (cfg : Word) (i : Nat) : slotInvalid cfg i = !cfg.getLsbD (4 * i + 3) := by
  rw [slotInvalid, amrSlot_eq_ite]
  cases cfg.getLsbD (4 * i + 3)
  · rfl
  · rfl

theorem amrSchemeSlot_eq (m mode : Nat) : amrSchemeSlot m mode = (if m = 3 then 3 else 11) + mode := by
  rw [amrSchemeSlot]
  split
  · rfl
  · rfl

/-- The AMR tests of `TCH_ENC` in the words of R198. -/
theorem amrEncodeId_eq (rom : Rom) (t : TcsRec) (m n : Nat) (cmr : Bool) (c : CoreInst) :
    amrEncodeId rom t m n cmr c =
      let ft := ftOf c.a3
      let cm := cmrOf c.a3
      let id := if cmr then cm else ft
      if c.amrcfg.getLsbD (4 * ft + 3) = true ∧ (if m = 3 then 3 else 11) + getField c.amrcfg (4 * ft) 3 = n
          ∧ (cmr = true → c.amrcfg.getLsbD (4 * cm + 3) = true) ∧ id < idCount rom t then some id
      else none := by
  simp only [amrEncodeId, amrSlot_eq_ite, slotInvalid_eq]
  by_cases hft : c.amrcfg.getLsbD (4 * ftOf c.a3 + 3) = true
  · rw [if_pos hft, Option.map_some, amrSchemeSlot_eq]
    by_cases hn : (if m = 3 then 3 else 11) + getField c.amrcfg (4 * ftOf c.a3) 3 = n
    · by_cases hcm : cmr = true → c.amrcfg.getLsbD (4 * cmrOf c.a3 + 3) = true
      · rw [if_neg (not_not_intro (congrArg some hn)), if_neg fun h => by rw [hcm h.1] at h; exact nomatch h.2]
        exact if_congr ⟨fun h => ⟨hft, hn, hcm, h⟩, fun h => h.2.2.2⟩ rfl rfl
      · rw [if_neg (not_not_intro (congrArg some hn)), if_pos (by simpa using hcm), if_neg fun h => hcm h.2.2.1]
    · rw [if_pos fun h => hn (Option.some.inj h), if_neg fun h => hn h.2.1]
  · rw [if_neg hft, Option.map_none, if_pos nofun, if_neg fun h => hft h.1]

/-- An id that the host asks for is one of eight. -/
theorem requestId_lt (cmr : Bool) (w : Word) : (if cmr then cmrOf w else ftOf w) < 256 := by
  have hfield : ∀ lo, getField w lo 3 < 256 := fun lo => Nat.lt_trans (Nat.mod_lt _ (by decide)) (show 8 < 256 by decide)
  cases cmr
  · exact hfield 0
  · exact hfield 4

/-! ### The FACCH block -/

/-- Settles O56: the branches of `tchEncCmd_eq`; the cells stored are those of `EndsStoring.of_tchCells`. -/
theorem tchEncFacch : Obligations.TchEncFacch := by
  intro cmr s c m len hc hm hlen
  obtain rfl : m = chmodeOf c.chmode := hm
  subst hlen
  refine ⟨fun hfit => .of_work hc ((tchEncCmd_eq _ cmr c).trans (if_neg hfit)), fun hsrc hdst => ?_⟩
  have hwork := (tchEncCmd_eq s.params.rom cmr c).trans (if_pos ⟨hsrc, hdst⟩)
  refine ⟨fun hm => .of_work hc (hwork.trans (if_pos hm)), fun hm hlen hnone => ?_, fun hm hlen hrom => ?_⟩
  · have hscheme : speechScheme s.params.rom (chmodeOf c.chmode) c.a2.toNat = none := by
      refine Option.eq_none_iff_forall_ne_some.mpr fun ⟨n, t⟩ h => ?_
      obtain ⟨hn, ht, hoct⟩ := speechScheme_eq_some_iff.mp h
      exact hnone n t (mem_modeSlots.mp hn) ht hoct
    rw [if_neg (Nat.not_lt.mpr hm), if_neg hlen, hscheme] at hwork
    exact .of_work hc hwork
  · intro cells flags
    have hcells : cells.length = 456 := facchCells_length hrom _
    rw [if_neg (Nat.not_lt.mpr hm), if_pos hlen] at hwork
    rw [← hcells]
    refine .of_tchCells (i := .tchEnc cmr) hc hwork (romTcg_nodup hrom _).2 ?_
    rw [hcells, xcchCoded_length]

/-! ### The coded bits of a speech frame (R201) -/

/-- A record of a well-formed ROM codes a frame into as many bits as its geometry has cells for. -/
theorem speechEncode_length {rom : Rom} (hrom : romTablesWf rom = true) {n : Nat} {t : TcsRec} (ht : romTcs rom n = some t)
    (o : List Byte) {id : Nat} (hid : n ≤ 2 ∨ id < idCount rom t) : (speechEncode rom t o id).length = speechNc rom t := by
  have hwf := romTcs_wf hrom ht
  obtain ⟨hprot, hn1, cd, hconv, hlen⟩ := tcsWf_coding hwf
  obtain ⟨hnone, hsome, -⟩ := tcsWf_idpat hwf
  have hidpat : (idPattern rom t id).length = idWidth rom t := by
    rw [idPattern, idWidth]
    by_cases hn : n ≤ 2
    · rw [hnone hn]
      rfl
    · obtain ⟨q, p, hq, hp⟩ := hsome (by omega)
      have hlt : id < p.np := by
        have := hid.resolve_left hn
        rwa [idCount, hq, Option.map_some, Option.getD_some, patRef, hp] at this
      rw [hq, Option.map_some, Option.map_some, Option.getD_some, Option.getD_some, patRef, hp]
      exact (patWf_lengths (romPat_wf hrom hp)).2.2 id hlt
  have hcref : convRef rom t.conv = cd := by rw [convRef, hconv]; rfl
  rw [speechEncode, List.length_append, List.length_append, hidpat, hcref,
    convEnc_length (romConv_wf hrom hconv) (by simp [hlen]; omega), List.length_drop, scatter_length, speechNc, speechNm, speechN2,
    hcref]

/-- The inner parity reads bits of the frame alone (R196). -/
theorem innerParity_eq {rom : Rom} {t : TcsRec} {d : List Bool} {bit : Nat → Bool} (hsel : ∀ i, t.inner = some i → ∀ x ∈ i.sel, x < t.nd)
    (hd : ∀ e < t.nd, d.getD e false = bit e) :
    innerParity rom t d = (t.inner.map fun i => crcBits (crcRef rom i.crc) (i.sel.map bit)).getD [] := by
  rw [innerParity]
  cases hi : t.inner with
  | none => rfl
  | some i => exact congrArg (crcBits _) (List.map_congr_left fun x hx => hd x (hsel i hi x hx))

theorem expandBits_getD {rom : Rom} {t : TcsRec} {d : List Bool} (hd : d.length = t.nd) {k : Nat} (hk : k < t.expand.length) :
    (expandBits rom t d).getD k false =
      let e := t.expand.getD k 0
      if e < t.nd then d.getD e false else (innerParity rom t d).getD (e - t.nd) false := by
  have he : t.expand.getD k 0 = t.expand[k] := List.getD_eq_getElem _ _ hk
  rw [expandBits, gather, List.getD_eq_getElem?_getD, List.getElem?_map, List.getElem?_eq_getElem hk, Option.map_some,
    Option.getD_some, ← he, ← hd]
  by_cases hlt : t.expand.getD k 0 < d.length
  · exact (List.getD_append _ _ _ _ hlt).trans (if_pos hlt).symm
  · exact (List.getD_append_right _ _ _ _ (Nat.not_lt.mp hlt)).trans (if_neg hlt).symm

/-- The bits of a frame in class order. -/
def speechClasses (rom : Rom) (t : TcsRec) (o : List Byte) : List Bool :=
  scatter t.expand.length false (List.zip (permRef rom t.order).map (expandBits rom t (unpackBits false o t.nd)))

theorem speechEncode_eq (rom : Rom) (t : TcsRec) (o : List Byte) (id : Nat) :
    speechEncode rom t o id =
      let c := convRef rom t.conv
      let z := speechClasses rom t o
      let c1 := z.take t.n1
      let f := convFull c (c1.take t.nprot ++ crcBits (crcRef rom t.crc) (c1.take t.nprot) ++ c1.drop t.nprot)
      idPattern rom t id ++ (if t.p = true ∧ c.punc.isSome = true then puncture (puncTable c) f else f) ++ z.drop t.n1 :=
  congrArg (idPattern rom t id ++ · ++ _) (convEnc_eq_ite _ _ _)

/-! ### The speech block -/

/-- Settles O57: the branches of `tchEncCmd_eq` with the AMR tests of `amrEncodeId_eq`; the coded bits by `speechEncode_eq`. -/
theorem tchEncSpeech : Obligations.TchEncSpeech := by
  refine ⟨fun cmr s c m len n t hc hm hlen hsrc hdst hrom hm4 hn ht hoct => ?_, fun rom n t o id hrom ht => ?_⟩
  · obtain rfl : m = chmodeOf c.chmode := hm
    subst hlen
    intro rom cells flags stores rlen ft cm id valid sch
    have hslot := mem_modeSlots.mpr hn
    have hwf := romTcs_wf hrom ht
    have hn256 : n < 256 := Nat.lt_trans (romTcs_lt ht) (by decide)
    have hsch : detidScheme 0#32 n = BitVec.ofNat 32 sch := detidScheme_zero hn256
    have hcells : ∀ id, n ≤ 2 ∨ id < idCount rom t →
        cells.length ≤ (speechEncode rom t (c.load .ob c.a0.toNat c.a2.toNat) id).length := fun id hid => by
      obtain ⟨-, -, hnc⟩ := tcsWf_idpat hwf
      rw [speechEncode_length hrom ht _ hid, hnc, modeOfSlot_of_mem hm4 hslot]
    have hnodup : (cells ++ flags).Nodup := (romTcg_nodup hrom _).1
    have hwork := (tchEncCmd_eq rom cmr c).trans (if_pos ⟨hsrc, hdst⟩)
    rw [if_neg (Nat.not_lt.mpr hm4), if_neg (hoct ▸ (tcsWf_frame hwf).1), speechScheme_eq_some_iff.mpr ⟨hslot, ht, hoct⟩] at hwork
    simp only [hsch] at hwork
    refine ⟨fun hm2 => ?_, fun hm3 => ?_⟩
    · rw [if_pos hm2] at hn
      rw [if_pos hm2] at hwork
      exact .of_tchCells (i := .tchEnc cmr) hc hwork hnodup (hcells 0 (.inl (hn ▸ hm2)))
    · rw [if_neg (Nat.not_le.mpr hm3)] at hwork
      have hamr := amrEncodeId_eq rom t (chmodeOf c.chmode) n cmr c
      refine ⟨fun htests => ?_, fun htests => ?_⟩
      · simp only [hamr.trans (if_pos htests), ← hsch, detidId_detidScheme_zero hn256 (requestId_lt cmr c.a3)] at hwork
        rw [Nat.add_assoc]
        obtain ⟨-, -, -, hid⟩ := htests
        exact .of_tchCells (i := .tchEnc cmr) hc hwork hnodup (hcells id (.inr hid))
      · simp only [hamr.trans (if_neg htests)] at hwork
        exact .of_work (i := .tchEnc cmr) hc hwork
  · intro cd bit ip dx
    have hwf := romTcs_wf hrom ht
    obtain ⟨-, -, hsel⟩ := tcsWf_frame hwf
    obtain ⟨hlen, hnodup, hlt⟩ := tcsWf_order hrom hwf
    have hbit : ∀ e < t.nd, (unpackBits false o t.nd).getD e false = bit e := fun e he => unpackBits_getD o he
    refine ⟨speechClasses rom t o, scatter_length _ _ _, fun k x hx => ?_, speechEncode_eq rom t o id⟩
    have hk : k < t.expand.length := hlen ▸ (List.getElem?_eq_some_iff.mp hx).1
    rw [speechClasses, scatter_zip_getD false hnodup hlt _ hx, expandBits_getD (unpackBits_length _ _ _) hk, innerParity_eq hsel hbit]
    by_cases he : t.expand.getD k 0 < t.nd
    · exact (if_pos he).trans ((hbit _ he).trans (if_pos he).symm)
    · exact (if_neg he).trans (if_neg he).symm

end Sys2Proof.Machine
end

section
/-! SUPPORT. Command `TCH_DEC` (R199, R200): the FACCH path of a stolen block, the in-band id of an AMR mode, and how the speech path
ends. -/

namespace Sys2Proof.Machine

/-! ### The stealing flags (R199) -/

/-- In the modes of the diagonal geometry, and in every mode of a well-formed ROM, the flags go burst by burst (R197). -/
theorem romTcg_flagsByBurst {rom : Rom} {m : Nat} (h : (m = 0 ∨ m = 1 ∨ m = 3) ∨ romWf rom = true) :
    flagsByBurst (facchFlags (romTcg rom m)) = true := by
  rcases h with hm | hrom
  · rw [romTcg_diag hm]
    decide
  · exact romWf_flagsByBurst hrom m

theorem stealTch_facch {rom : Rom} (h : romTablesWf rom = true) (m : Nat) (area : List Int) :
    stealTch ((gather area 0 (facchFlags (romTcg rom m))).map hardOf) (stealSum (romTcg rom m) area)
      = BitVec.ofNat 32 (bitsNum ((gather area 0 (facchFlags (romTcg rom m))).map hardOf))
        + BitVec.ofInt 32 ((gather area 0 (facchFlags (romTcg rom m))).map fun x => -x).sum <<< 16 := by
  have hflags := facchFlags_length_le h m
  exact stealTch_eq_add (by rw [List.length_map, gather_length]; omega) _

/-! ### The FACCH path -/

theorem xcchDecodeCoded_octets_length (cB : List Int) : (xcchDecodeCoded cB).octets.length = 23 := by
  refine packBits_octets_length ?_
  rw [List.length_take, decodeStats_length]
  rfl

section
variable {cmr : Bool} {s : State} {c : CoreInst} {m : Nat} {g : Geom} {area : List Int} {steal : Word}

theorem work_tchDec (rom : Rom) (cmr : Bool) (c : CoreInst) : work rom (.tchDec cmr) c = tchDecCmd rom cmr c := by
  rw [work]

/-- The path that `TCH_DEC` takes in a mode that is not reserved. -/
theorem tchDecCmd_path {rom : Rom} (hfit : Fits c.a0 tchArea .sb ∧ Fits c.a1 33 .ob) (hmode : chmodeOf c.chmode = m) (hm : m ≤ 4)
    (hg : romTcg rom m = g) (harea : c.loadSoft c.a0.toNat tchArea = area)
    (hsteal : stealTch ((gather area 0 (facchFlags g)).map hardOf) (stealSum g area) = steal) :
    work rom (.tchDec cmr) c =
      if stealSum g area > 0 then tchDecFacch rom g area (c.midDecode 0#32 steal)
      else if m ≤ 2 then tchDecSpeech rom g m area false (c.midDecode 0#32 steal)
      else tchDecAmr rom g m cmr area (c.midDecode 0#32 steal) := by
  subst hmode hg harea hsteal
  rw [work_tchDec, tchDecCmd_eq]
  exact (if_pos hfit).trans (if_neg (Nat.not_lt.mpr hm))

/-- How the FACCH path ends. -/
theorem tchDecFacch_ends (hc : s.cur? = some c)
    (hw : work s.params.rom (.tchDec cmr) c = tchDecFacch s.params.rom g area (c.midDecode 0#32 steal))
    (hcells : (facchCells s.params.rom g).length = 456) :
    let x := xcchDecodeCoded (gather area 0 (facchCells s.params.rom g))
    let res := fun ok => tchResults ok { facch := true } 23 x.ne 456 0#32 steal (if ok then 0x00000202#32 else 0x00000002#32)
    (x.ok = true → EndsStoring (.tchDec cmr) s c (res true) .ob fun k v =>
        ∃ q < 23, k = c.a1.toNat + q ∧ v = x.octets.getD q 0#8)
      ∧ (x.ok = false → Ends (.tchDec cmr) s c (res false)) := by
  intro x res
  have hsubst : ∀ ok, substCheck 0#32 1 ok = if ok then 0x00000202#32 else 0x00000002#32 := by decide
  have hnb : x.nb = 456 := by
    rw [← hcells, ← gather_length area 0]
    exact congrArg XcchResult.nb (xcchDecodeCoded_eq _)
  rw [tchDecFacch_eq] at hw
  simp only [show (xcchDecodeCoded (gather area 0 (facchCells s.params.rom g))).nb = 456 from hnb, hsubst] at hw
  exact ends_of_decoded (r := res) hc hw (xcchDecodeCoded_octets_length _)

end

/-- Settles O59: the branches of `tchDecCmd_eq`, and `tchDecFacch_ends`. -/
theorem tchDecFacchRule : Obligations.TchDecFacch := by
  intro cmr s c m hc hm
  obtain rfl : m = chmodeOf c.chmode := hm
  have hdec := (work_tchDec s.params.rom cmr c).trans (tchDecCmd_eq _ cmr c)
  refine ⟨fun hfit => .of_work hc (hdec.trans (if_neg hfit)), fun hsrc hdst => ?_⟩
  refine ⟨fun hm5 => .of_work hc (hdec.trans ((if_pos ⟨hsrc, hdst⟩).trans (if_pos hm5))), fun hm4 hrom => ?_⟩
  intro g area sum steal x
  have hsteal : stealTch ((gather area 0 (facchFlags g)).map hardOf) (stealSum g area) = steal := stealTch_facch hrom _ area
  refine ⟨fun hg b f hf => ?_, fun hsum => ?_⟩
  · have hb : b < 8 := Nat.lt_of_lt_of_le (List.getElem?_eq_some_iff.mp hf).1 (facchFlags_length_le hrom _)
    rw [← hsteal]
    exact stealTch_burst (romTcg_flagsByBurst hg) area hb hf
  · have hwork := tchDecCmd_path (cmr := cmr) ⟨hsrc, hdst⟩ rfl hm4 rfl rfl hsteal
    exact tchDecFacch_ends hc (hwork.trans (if_pos hsum)) (facchCells_length hrom _)

end Sys2Proof.Machine
end

section
/-! SUPPORT. The speech path of `TCH_DEC`: what it decodes (R201), the in-band id and the record it selects in an AMR mode (R200, R202),
and how it ends (R203). -/

namespace Sys2Proof.Machine

/-! ### The decoded frame (R201) -/

/-- `EXPAND` holds every speech bit and every inner parity bit (R196). -/
theorem tcsWf_expand {rom : Rom} {n : Nat} {t : TcsRec} (h : tcsWf rom n t = true) {e : Nat}
    (he : e < t.nd + (t.inner.map fun i => (crcRef rom i.crc).bits).getD 0) : e ∈ t.expand := by
  simp only [tcsWf, expandWf, Bool.and_eq_true] at h
  obtain ⟨⟨⟨⟨⟨⟨⟨-, -, hall⟩, -⟩, -⟩, -⟩, -⟩, -⟩, -⟩ := h
  exact List.contains_iff_mem.mp (List.all_eq_true.mp hall e (List.mem_range.mpr he))

/-- The expanded vector that a decoder gets back from the bits `z` in class order. -/
def decodedExpand (rom : Rom) (t : TcsRec) (z : List Bool) : List Bool :=
  (List.range t.expand.length).map fun n => z.getD ((permRef rom t.order).map.getD n 0) false

/-- A decoded bit is the one at its first place in `EXPAND`. -/
theorem firstCopy_decodedExpand (rom : Rom) {t : TcsRec} (z : List Bool) {e : Nat} (he : e ∈ t.expand) :
    firstCopy t (decodedExpand rom t z) e = z.getD ((permRef rom t.order).map.getD (t.expand.idxOf e) 0) false := by
  rw [firstCopy, decodedExpand, List.getD_eq_getElem?_getD, List.getElem?_map,
    List.getElem?_range (List.idxOf_lt_length_of_mem he)]
  rfl

/-- The decode in the words of R201. -/
theorem speechDecode_eq (rom : Rom) (t : TcsRec) (y : List Int) :
    speechDecode rom t y =
      let c := convRef rom t.conv
      let q := crcRef rom t.crc
      let iw := idWidth rom t
      let nm := if t.p = true ∧ c.punc.isSome = true then nmatched c else nfull c
      let m := (y.drop iw).take nm
      let w := (vit c (if t.p = true ∧ c.punc.isSome = true then depuncture 0 (puncTable c) m (nfull c) else m)).1
      let z := w.take t.nprot ++ (w.drop (t.nprot + q.bits)).take (t.n1 - t.nprot)
        ++ ((y.drop (iw + nm)).take (t.expand.length - t.n1)).map hardOf
      let dx := decodedExpand rom t z
      let d := (List.range t.nd).map (firstCopy t dx)
      { ok1 := crcCheck q (w.take t.nprot) ((w.drop t.nprot).take q.bits), ok2 := innerCheck rom t d dx
        octets := packBits false (d ++ List.replicate (8 * t.octets - t.nd) false)
        ne := (errstat c w m t.p).1, nb := (errstat c w m t.p).2 } := by
  simp only [speechDecode, speechNm, codedLen_eq_ite, decodeStats, vitInput_eq_ite]
  rfl

/-- The inner check over a frame whose bits are `d` (R201). -/
theorem innerCheck_iff {rom : Rom} {t : TcsRec} {dx : List Bool} {d : Nat → Bool}
    (hsel : ∀ i, t.inner = some i → ∀ x ∈ i.sel, x < t.nd)
    (hd : ∀ e < t.nd + (t.inner.map fun i => (crcRef rom i.crc).bits).getD 0, firstCopy t dx e = d e) :
    innerCheck rom t ((List.range t.nd).map (firstCopy t dx)) dx = true ↔
      ∀ i, t.inner = some i → crcBits (crcRef rom i.crc) (i.sel.map d)
        = (List.range (crcRef rom i.crc).bits).map fun k => d (t.nd + k) := by
  rw [innerCheck]
  cases hi : t.inner with
  | none => exact ⟨fun _ _ => nofun, fun _ => rfl⟩
  | some i =>
    rw [hi] at hd
    have hdata : gather ((List.range t.nd).map (firstCopy t dx)) false i.sel = i.sel.map d :=
      List.map_congr_left fun x hx => by
        have hx := hsel i hi x hx
        rw [List.getD_eq_getElem?_getD, List.getElem?_map, List.getElem?_range hx]
        exact hd x (Nat.lt_add_right _ hx)
    have hpar : ((List.range (crcRef rom i.crc).bits).map fun k => firstCopy t dx (t.nd + k))
        = (List.range (crcRef rom i.crc).bits).map fun k => d (t.nd + k) :=
      List.map_congr_left fun k hk => hd _ (Nat.add_lt_add_left (List.mem_range.mp hk) _)
    simp only [hdata, hpar, crcCheck_iff]
    exact ⟨fun h j hj => Option.some.inj hj ▸ h, fun h => h i rfl⟩

theorem speechDecode_octets_length {rom : Rom} {n : Nat} {t : TcsRec} (h : tcsWf rom n t = true) (y : List Int) :
    (speechDecode rom t y).octets.length = t.octets := by
  have hnd := tcsWf_nd_le h
  refine packBits_octets_length ?_
  rw [List.length_append, List.length_map, List.length_range, List.length_replicate]
  omega

/-- The bits of the decoded octets: those of the frame, then 0 (R201). -/
theorem frame_getD (nd pad : Nat) (d : Nat → Bool) (k : Nat) :
    ((List.range nd).map d ++ List.replicate pad false).getD k false = (decide (k < nd) && d k) := by
  by_cases hk : k < nd
  · rw [List.getD_append _ _ _ _ (by simpa using hk), List.getD_eq_getElem?_getD, List.getElem?_map, List.getElem?_range hk,
      decide_eq_true hk]
    rfl
  · rw [List.getD_append_right _ _ _ _ (by simpa using hk), List.getD_eq_getElem?_getD, List.getElem?_getD_replicate_default_eq,
      decide_eq_false hk, Bool.false_and]

/-! ### The selected record (R200, R202) -/

theorem amrRange_pairwise (m : Nat) : (amrRange m).Pairwise (· < ·) := by
  unfold amrRange
  split
  · decide
  · decide

theorem three_le_of_mem_amrRange {m n : Nat} (h : n ∈ amrRange m) : 3 ≤ n := by
  unfold amrRange at h
  split at h
  · exact (List.mem_range'_1.mp h).1
  · have := (List.mem_range'_1.mp h).1
    omega

/-- The lowest present record of an AMR range. -/
theorem findSome?_amrRange {rom : Rom} {m n : Nat} {t : TcsRec} (hn : n ∈ amrRange m) (ht : romTcs rom n = some t)
    (hlow : ∀ k ∈ amrRange m, k < n → romTcs rom k = none) : (amrRange m).findSome? (romTcs rom) = some t := by
  obtain ⟨below, above, hsplit⟩ := List.append_of_mem hn
  refine List.findSome?_eq_some_iff.mpr ⟨below, n, above, hsplit, ht, fun k hk => ?_⟩
  have hsorted := amrRange_pairwise m
  rw [hsplit, List.pairwise_append] at hsorted
  obtain ⟨-, -, hlt⟩ := hsorted
  exact hlow k (hsplit ▸ List.mem_append_left _ hk) (hlt k hk n List.mem_cons_self)

/-- The detected id is one of at most eight (R26, R202). -/
theorem idDetect_lt {rom : Rom} (h : romTablesWf rom = true) {n : Nat} {t : TcsRec} (ht : romTcs rom n = some t) (hn : 3 ≤ n)
    (x : List Int) : idDetect rom t x < 256 := by
  obtain ⟨-, hsome, -⟩ := tcsWf_idpat (romTcs_wf h ht)
  obtain ⟨q, p, hq, hp⟩ := hsome hn
  have hwf := romPat_wf h hp
  have hnp : p.np ≤ 8 := by
    simp only [patWf, Bool.and_eq_true, decide_eq_true_eq] at hwf
    obtain ⟨⟨⟨⟨⟨-, hnp⟩, -⟩, -⟩, -⟩, -⟩ := hwf
    exact hnp
  rw [idDetect, hq, Option.map_some, Option.getD_some, patRef, hp]
  exact Nat.lt_of_lt_of_le (argmin_patterns_lt hwf _) (Nat.le_trans hnp (by decide))

/-- The slot that a codec mode selects belongs to the channel mode. -/
theorem modeOfSlot_amr {m mode : Nat} (hm3 : 3 ≤ m) (hm4 : m ≤ 4) (hmode : mode < 8) :
    modeOfSlot ((if m = 3 then 3 else 11) + mode) = m := by
  by_cases hm : m = 3
  · rw [if_pos hm, modeOfSlot, if_neg (by omega), if_pos (by omega), hm]
  · rw [if_neg hm, modeOfSlot, if_neg (by omega), if_neg (by omega)]
    omega

/-- Where an AMR block goes once its in-band id is detected (R200). -/
theorem tchDecAmr_detected {rom : Rom} {g : Geom} {m id : Nat} {area : List Int} {c : CoreInst} {t0 : TcsRec}
    (hfound : (amrRange m).findSome? (romTcs rom) = some t0)
    (hdet : idDetect rom t0 (gather area 0 ((speechCells rom g).take (idWidth rom t0))) = id) (hid : id < 256)
    (cmr : Bool) (steal : Word) :
    tchDecAmr rom g m cmr area (c.midDecode 0#32 steal) =
      let fid := if cmr then ftOf c.a3 else id
      if c.amrcfg.getLsbD (4 * fid + 3) = true then
        tchDecSpeech rom g ((if m = 3 then 3 else 11) + getField c.amrcfg (4 * fid) 3) area (!c.amrcfg.getLsbD (4 * id + 3))
          (c.midDecode (BitVec.ofNat 32 (0x100 + id)) steal)
      else c.ended { status := 0x00293504#32, steal := steal, detid := BitVec.ofNat 32 (0x100 + id) } .s3 := by
  rw [tchDecAmr_eq, hfound]
  simp only [hdet, detidId_zero hid, amrSlot_eq_ite, slotInvalid_eq]
  by_cases hfid : c.amrcfg.getLsbD (4 * (if cmr then ftOf c.a3 else id) + 3) = true
  · rw [if_pos hfid, if_pos hfid, ← amrSchemeSlot_eq]
  · rw [if_neg hfid, if_neg hfid]

/-! ### How it ends -/

theorem speechSubst_eq (t : TcsRec) (r : SpeechResult) :
    speechSubst t r = BitVec.ofNat 32 (2 + (0x200 * r.ok1.toNat + (if t.inner.isSome then 0x400 * r.ok2.toNat + 4 else 0))) := by
  have hall : ∀ inner ok1 ok2 : Bool,
      (if inner then substCheck (substCheck 0#32 1 ok1) 2 ok2 else substCheck 0#32 1 ok1)
        = BitVec.ofNat 32 (2 + (0x200 * ok1.toNat + (if inner then 0x400 * ok2.toNat + 4 else 0))) := by decide
  exact hall _ _ _

/-- Every coded bit of class 1 is compared (R99, R201). -/
theorem speechDecode_nb {rom : Rom} {t : TcsRec} {y : List Int} (hy : y.length = speechNc rom t) :
    (speechDecode rom t y).nb = speechNm rom t := by
  rw [speechNc] at hy
  refine (decodeStats_nbits (convRef rom t.conv) _ t.p).trans ?_
  rw [List.length_take, List.length_drop, hy]
  omega

/-- How the speech path ends, once its slot `n` is selected and `ids` is what `DETID` holds of the in-band id. -/
theorem speechPath_ends {cmr : Bool} {s : State} {c : CoreInst} {m n ids : Nat} {area : List Int} {oor : Bool} {steal : Word}
    (hc : s.cur? = some c) (hrom : romTablesWf s.params.rom = true) (hslot : modeOfSlot n = m)
    (hids : n < 256 → detidScheme (BitVec.ofNat 32 ids) n = BitVec.ofNat 32 (0x01000000 + 0x10000 * n + ids))
    (hw : work s.params.rom (.tchDec cmr) c
      = tchDecSpeech s.params.rom (romTcg s.params.rom m) n area oor (c.midDecode (BitVec.ofNat 32 ids) steal)) :
    (romTcs s.params.rom n = none →
      Ends (.tchDec cmr) s c
        { status := if oor then 0x00293502#32 else 0x00293102#32, steal := steal, detid := BitVec.ofNat 32 ids })
    ∧ ∀ t, romTcs s.params.rom n = some t →
      let r := speechDecode s.params.rom t (gather area 0 (speechCells s.params.rom (romTcg s.params.rom m)))
      let pass := 0x200 * r.ok1.toNat + (if t.inner.isSome then 0x400 * r.ok2.toNat + 4 else 0)
      let res := fun ok => tchResults ok { oor := oor } t.octets r.ne (speechNm s.params.rom t)
        (BitVec.ofNat 32 (0x01000000 + 0x10000 * n + ids)) steal (BitVec.ofNat 32 (2 + pass))
      (r.ok1 = true ∧ r.ok2 = true → EndsStoring (.tchDec cmr) s c (res true) .ob fun k v =>
          ∃ q < t.octets, k = c.a1.toNat + q ∧ v = r.octets.getD q 0#8)
        ∧ (¬(r.ok1 = true ∧ r.ok2 = true) → Ends (.tchDec cmr) s c (res false)) := by
  rw [tchDecSpeech_eq] at hw
  refine ⟨fun hn => ?_, fun t ht => ?_⟩
  · rw [hn] at hw
    exact .of_work hc hw
  · intro r pass res
    have hwf := romTcs_wf hrom ht
    have hnb : r.nb = speechNm s.params.rom t := by
      obtain ⟨-, -, hnc⟩ := tcsWf_idpat hwf
      exact speechDecode_nb (by rw [gather_length, hnc, hslot])
    rw [ht] at hw
    simp only [hids (Nat.lt_trans (romTcs_lt ht) (by decide)), speechSubst_eq] at hw
    rw [show (speechDecode s.params.rom t _).nb = _ from hnb] at hw
    obtain ⟨hpass, hfail⟩ := ends_of_decoded (r := res) hc hw (speechDecode_octets_length hwf _)
    refine ⟨fun hok => hpass ?_, fun hok => hfail ?_⟩
    · rw [hok.1, hok.2]
      rfl
    · rwa [← Bool.and_eq_true, Bool.not_eq_true] at hok

/-! ### The obligation -/

/-- Settles O60: the path that `tchDecCmd_path` and `tchDecAmr_eq` take, its end by `speechPath_ends`; the decode by
`speechDecode_eq`, whose bits are those at their first place in `EXPAND` (`firstCopy_decodedExpand`). -/
theorem tchDecSpeechRule : Obligations.TchDecSpeech := by
  refine ⟨fun cmr s c m hc hm hm4 hsrc hdst hrom => ?_, fun rom n t y hrom ht => ?_⟩
  · intro rom g area sum steal valid decodes hsum
    have hsteal : stealTch ((gather area 0 (facchFlags g)).map hardOf) (stealSum g area) = steal := stealTch_facch hrom m area
    have hwork := (tchDecCmd_path (cmr := cmr) ⟨hsrc, hdst⟩ hm.symm hm4 rfl rfl hsteal).trans (if_neg (Int.not_lt.mpr hsum))
    refine ⟨fun hm2 => ?_, fun hm3 hnone => ?_, fun hm3 n0 t0 hn0 ht0 hlow => ?_⟩
    · have hslot : modeOfSlot m = m := if_pos hm2
      exact speechPath_ends hc hrom hslot detidScheme_zero (hwork.trans (if_pos hm2))
    · have hamr := (hwork.trans (if_neg (Nat.not_le.mpr hm3))).trans (tchDecAmr_eq _ _ _ _ _ _ _)
      rw [List.findSome?_eq_none_iff.mpr hnone] at hamr
      exact .of_work hc hamr
    · intro id fid
      have hid : id < 256 := idDetect_lt hrom ht0 (three_le_of_mem_amrRange hn0) _
      have hdet := tchDecAmr_detected (g := g) (area := area) (c := c) (findSome?_amrRange hn0 ht0 hlow) rfl hid cmr steal
      have hamr := hwork.trans ((if_neg (Nat.not_le.mpr hm3)).trans hdet)
      refine ⟨fun hfid => .of_work hc (hamr.trans (if_neg hfid)), fun hfid => ?_⟩
      have hslot := modeOfSlot_amr hm3 hm4 (Nat.mod_lt (c.amrcfg.toNat / 2 ^ (4 * fid)) (show 0 < 2 ^ 3 by decide))
      have hends := fun oor (hoor : (!c.amrcfg.getLsbD (4 * id + 3)) = oor) =>
        speechPath_ends hc hrom hslot (fun hn => (detidId_zero hid) ▸ detidScheme_detidId_zero hn hid)
          (hoor ▸ hamr.trans (if_pos hfid))
      exact ⟨fun hvalid => hends false (by rw [hvalid]; rfl),
        fun hvalid => hends true (by rw [Bool.eq_false_iff.mpr hvalid]; rfl)⟩
  · intro cd q iw nm m w z d r
    have hwf := romTcs_wf hrom ht
    have hr : r = _ := speechDecode_eq rom t y
    have hfirst : ∀ e < t.nd + (t.inner.map fun i => (crcRef rom i.crc).bits).getD 0,
        firstCopy t (decodedExpand rom t z) e = d e := fun e he => firstCopy_decodedExpand rom z (tcsWf_expand hwf he)
    obtain ⟨-, -, hsel⟩ := tcsWf_frame hwf
    refine ⟨?_, ?_, ?_, speechDecode_octets_length hwf y, fun k _ => ?_⟩
    · rw [hr]
      exact crcCheck_iff
    · rw [hr]
      exact innerCheck_iff hsel hfirst
    · rw [hr]
      rfl
    · rw [hr, packBits_bit, frame_getD]
      by_cases hk : k < t.nd
      · exact congrArg (_ && ·) (hfirst k (Nat.lt_add_right _ hk))
      · rw [decide_eq_false hk, Bool.false_and, Bool.false_and]

end Sys2Proof.Machine
end
